-- ==== Sys2Proof/Word.lean ====
section
/-!
DEFINITION. The word types of the K9 (R4, R5, R73-R75), lane masks and lane vectors (R14, R40), and their plainest operations.
-/

namespace Sys2Proof

/-- A 32-bit register lane (R5, R10). -/
abbrev Word := BitVec 32

/-- A byte of memory (R5). -/
abbrev Byte := BitVec 8

/-- A 64-bit value: an address, a register pair, an instruction word (R5, R74, R96). -/
abbrev Quad := BitVec 64

/-- A set of lanes of one pack, bit `l` for lane `l` (R40). -/
abbrev Mask := BitVec 64

/-- One value for each of the 64 lanes of a pack, lane 0 first (R14). -/
abbrev Lanes (α : Type) := List α

/-- The number of lanes of a pack (R14). -/
abbrev laneCount : Nat := 64

/-- The lane numbers 0 to 63 in ascending order. -/
def allLanes : List Nat := List.range laneCount

/-- The lane vector whose lane `l` holds `f l`. -/
def Lanes.tab {α : Type} (f : Nat → α) : Lanes α := allLanes.map f

/-- Lane `l` of a lane vector, `d` where the vector has no such lane. -/
def Lanes.get {α : Type} (d : α) (v : Lanes α) (l : Nat) : α := v.getD l d

/-- Lane `l` is in the mask. -/
def Mask.has (m : Mask) (l : Nat) : Bool := m.getLsbD l

/-- The lanes of a mask, ascending. -/
def Mask.lanes (m : Mask) : List Nat := allLanes.filter m.getLsbD

/-- The mask of the lanes for which `f` holds. -/
def Mask.ofPred (f : Nat → Bool) : Mask :=
  allLanes.foldr (fun l acc => if f l then acc ||| (1#64 <<< l) else acc) 0#64

/-- The lowest lane of a mask, 64 for the empty mask. -/
def Mask.lowest (m : Mask) : Nat := (Mask.lanes m).headD laneCount

/-- The number of lanes in a mask. -/
def Mask.size (m : Mask) : Nat := (Mask.lanes m).length

/-- The full mask, lanes 0 to 63. -/
abbrev Mask.full : Mask := BitVec.allOnes 64

end Sys2Proof
end

