-- ==== Sys2Proof/Syntax.lean ====
section
/-!
DEFINITION. The instructions and events of the K9: one constructor of `Instr` for each row of the opcode table.
The instruction rows carry the fields of their format (R143, R145); the event rows carry what the event concerns.
-/

namespace Sys2Proof

/-- A 7-bit register field (R146). -/
abbrev Reg := BitVec 7

/-- The common header: guard predicate `g` and its negation `gn` (R143). -/
structure Head where
  g  : BitVec 3
  gn : Bool
  deriving DecidableEq, Repr, Inhabited

/-- The V format (R145). -/
structure V where
  d   : Reg
  a   : Reg
  b   : Reg
  c   : Reg
  mod : BitVec 7
  fn  : BitVec 8
  y   : Bool
  deriving DecidableEq, Repr, Inhabited

/-- The I format (R145) with the literal of a two-word instruction (R148). -/
structure I where
  d   : Reg
  a   : Reg
  mod : BitVec 5
  imm : BitVec 16
  fn  : BitVec 8
  y   : Bool
  lit : Option Quad
  deriving DecidableEq, Repr, Inhabited

/-- An opcode marked V/I: bit 15 of the word selects the form (R148). -/
inductive VI where
  | v (o : V)
  | i (o : I)
  deriving DecidableEq, Repr, Inhabited

/-- The M format (R145). -/
structure M where
  d   : Reg
  a   : Reg
  b   : Reg
  sz  : BitVec 4
  sc  : BitVec 3
  ord : BitVec 3
  cop : BitVec 4
  off : BitVec 16
  deriving DecidableEq, Repr, Inhabited

/-- The MA format (R145). -/
structure MA where
  d   : Reg
  a   : Reg
  b   : Reg
  sz  : BitVec 4
  sc  : BitVec 3
  ord : BitVec 3
  cop : BitVec 4
  aop : BitVec 4
  off : BitVec 12
  deriving DecidableEq, Repr, Inhabited

/-- The B format (R145). -/
structure B where
  a   : Reg
  k   : BitVec 4
  off : BitVec 32
  deriving DecidableEq, Repr, Inhabited

/-- The S format (R145). -/
structure S where
  d   : Reg
  a   : Reg
  b   : Reg
  idx : BitVec 6
  ind : Bool
  mod : BitVec 7
  imm : BitVec 16
  deriving DecidableEq, Repr, Inhabited

/-- The X format, first word and literal (R145, R152). -/
structure X where
  d     : Reg
  a     : Reg
  b     : Reg
  op    : BitVec 30
  wsem  : BitVec 8
  wthr  : BitVec 16
  ssem  : BitVec 8
  sinc  : BitVec 8
  low   : BitVec 24
  deriving DecidableEq, Repr, Inhabited

/-- Where a pack sits: core 0-335, quarter 0-3, slot 0-31 (R10, R22, R341). -/
structure PackLoc where
  core    : Nat
  quarter : Nat
  slot    : Nat
  deriving DecidableEq, Repr, Inhabited

/-- A path of a pack, by its place in the pack's list of paths (R40). -/
structure PathAt where
  loc  : PackLoc
  path : Nat
  deriving DecidableEq, Repr, Inhabited

/-- What a pack fault reports: its code, lanes and detail (R362, R69). -/
structure FaultReq where
  code   : Nat
  lanes  : Mask
  detail : Quad
  deriving DecidableEq, Repr, Inhabited

/-- Where a herd is placed: a core and, for each of its packs in order, a quarter and a slot (R23, R358). -/
structure Place where
  core  : Nat
  packs : List (Nat × Nat)
  deriving DecidableEq, Repr, Inhabited

/-- The KMT header (R411). -/
structure KmtHeader where
  version : BitVec 8
  typ     : BitVec 8
  part    : BitVec 3
  spart   : BitVec 3
  rsv     : BitVec 10
  tag     : BitVec 32
  len     : BitVec 32
  incarn  : BitVec 32
  agent   : BitVec 32
  kmtmax  : BitVec 8
  linkmax : BitVec 8
  rsv2    : BitVec 80
  deriving DecidableEq, Repr, Inhabited

/-- The KMT segment header (R412). -/
structure SegHeader where
  segno : BitVec 32
  plen  : BitVec 14
  first : Bool
  last  : Bool
  kind  : BitVec 2
  dpart : BitVec 3
  spart : BitVec 3
  rsv   : BitVec 8
  ackno : BitVec 32
  rsv2  : BitVec 32
  deriving DecidableEq, Repr, Inhabited

/-- What a `reset` command of the Collie orders (R415, R421). -/
inductive ResetTarget where
  | device
  | partition (p : Nat)
  deriving DecidableEq, Repr, Inhabited

/-- The power states of the device (R423). -/
inductive PowerState where
  | on
  | idle
  | deepIdle
  | off
  deriving DecidableEq, Repr, Inhabited

/-- The security states (R419). -/
inductive SecState where
  | provisioning
  | production
  | returned
  deriving DecidableEq, Repr, Inhabited

/-- A unit of storage that an error concerns, in the row order of R428; the last row is the parity-protected storage. -/
inductive StoragePlace where
  | dram (pa : Nat)
  | l2 (pa : Nat)
  | scratchpad (herd off : Nat)
  | opm (herd slot off : Nat)
  | vreg (loc : PackLoc) (reg lane : Nat)
  | parity (die unit : Nat)
  deriving DecidableEq, Repr, Inhabited

/-- What the remote home of a kind-1 page answers (R407, R408): a read or exclusive grant with the bytes of the page, retry, or the
acknowledgment of a sys-scope release. -/
inductive RemoteAnswer where
  | read (bytes : List (Nat × Byte))
  | exclusive (bytes : List (Nat × Byte))
  | retry
  | ack
  deriving DecidableEq, Repr, Inhabited

/-- The rows of the opcode table. -/
inductive Instr where
  /-- `IADD` (R186). -/
  | iadd (h : Head) (o : VI)
  /-- `ISUB` (R186). -/
  | isub (h : Head) (o : VI)
  /-- `IMUL` (R186). -/
  | imul (h : Head) (o : VI)
  /-- `IMAD` (R186). -/
  | imad (h : Head) (o : V)
  /-- `IMULW` (R186). -/
  | imulw (h : Head) (o : V)
  /-- `IMIN` (R186). -/
  | imin (h : Head) (o : VI)
  /-- `IMAX` (R186). -/
  | imax (h : Head) (o : VI)
  /-- `IABS` (R186). -/
  | iabs (h : Head) (o : V)
  /-- `ICLAMP` (R186). -/
  | iclamp (h : Head) (o : V)
  /-- `ISAD` (R186). -/
  | isad (h : Head) (o : V)
  /-- `IADDC` (R187). -/
  | iaddc (h : Head) (o : V)
  /-- `LEA` (R188). -/
  | lea (h : Head) (o : V)
  /-- `AND` (R190). -/
  | and (h : Head) (o : VI)
  /-- `OR` (R190). -/
  | or (h : Head) (o : VI)
  /-- `XOR` (R190). -/
  | xor (h : Head) (o : VI)
  /-- `LOP3` (R190). -/
  | lop3 (h : Head) (o : V)
  /-- `SHL` (R190). -/
  | shl (h : Head) (o : VI)
  /-- `SHR` (R190). -/
  | shr (h : Head) (o : VI)
  /-- `SAR` (R190). -/
  | sar (h : Head) (o : VI)
  /-- `FSHF` (R190). -/
  | fshf (h : Head) (o : V)
  /-- `BFX` (R191). -/
  | bfx (h : Head) (o : V)
  /-- `BFI` (R191). -/
  | bfi (h : Head) (o : V)
  /-- `POPC` (R190). -/
  | popc (h : Head) (o : V)
  /-- `CLZ` (R190). -/
  | clz (h : Head) (o : V)
  /-- `BREV` (R190). -/
  | brev (h : Head) (o : V)
  /-- `ICMP` (R192). -/
  | icmp (h : Head) (o : VI)
  /-- `SEL` (R193). -/
  | sel (h : Head) (o : V)
  /-- `IDP4` (R189). -/
  | idp4 (h : Head) (o : V)
  /-- `IDP2` (R189). -/
  | idp2 (h : Head) (o : V)
  /-- `FADD` (R207). -/
  | fadd (h : Head) (o : V)
  /-- `FSUB` (R207). -/
  | fsub (h : Head) (o : V)
  /-- `FMUL` (R207). -/
  | fmul (h : Head) (o : V)
  /-- `FFMA` (R207). -/
  | ffma (h : Head) (o : V)
  /-- `FMIN` (R208). -/
  | fmin (h : Head) (o : V)
  /-- `FMAX` (R208). -/
  | fmax (h : Head) (o : V)
  /-- `FCMP` (R209). -/
  | fcmp (h : Head) (o : V)
  /-- `FCLASS` (R210). -/
  | fclass (h : Head) (o : V)
  /-- `FRND` (R207). -/
  | frnd (h : Head) (o : V)
  /-- `FSCALE` (R207). -/
  | fscale (h : Head) (o : V)
  /-- `CVT` (R211). -/
  | cvt (h : Head) (o : V)
  /-- `CVTS` (R212). -/
  | cvts (h : Head) (o : V)
  /-- `PACK` (R213). -/
  | pack (h : Head) (o : V)
  /-- `HDP2` (R214). -/
  | hdp2 (h : Head) (o : V)
  /-- `FRCP` (R215). -/
  | frcp (h : Head) (o : V)
  /-- `FRSQ` (R215). -/
  | frsq (h : Head) (o : V)
  /-- `FSQRT` (R207). -/
  | fsqrt (h : Head) (o : V)
  /-- `FDIV` (R207). -/
  | fdiv (h : Head) (o : V)
  /-- `FEXP2` (R215). -/
  | fexp2 (h : Head) (o : V)
  /-- `FLOG2` (R215). -/
  | flog2 (h : Head) (o : V)
  /-- `FSIN` (R215). -/
  | fsin (h : Head) (o : V)
  /-- `FCOS` (R215). -/
  | fcos (h : Head) (o : V)
  /-- `FTANH` (R215). -/
  | ftanh (h : Head) (o : V)
  /-- `FSIG` (R215). -/
  | fsig (h : Head) (o : V)
  /-- `FERF` (R215). -/
  | ferf (h : Head) (o : V)
  /-- `GELU` (R215). -/
  | gelu (h : Head) (o : V)
  /-- `SFN` (R221). -/
  | sfn (h : Head) (o : V)
  /-- `SFNLD` (R222). -/
  | sfnld (h : Head) (o : V)
  /-- `SFNSW` (R223). -/
  | sfnsw (h : Head) (o : V)
  /-- `MXQ` (R226). -/
  | mxq (h : Head) (o : V)
  /-- `MXDQ` (R227). -/
  | mxdq (h : Head) (o : V)
  /-- `SHFL` (R229). -/
  | shfl (h : Head) (o : V)
  /-- `VOTE` (R230). -/
  | vote (h : Head) (o : V)
  /-- `REDL` (R231). -/
  | redl (h : Head) (o : V)
  /-- `SCANL` (R231). -/
  | scanl (h : Head) (o : V)
  /-- `MATCH` (R232). -/
  | laneMatch (h : Head) (o : V)
  /-- `RSTAT` (R233). -/
  | rstat (h : Head) (o : V)
  /-- `RSTATF` (R234). -/
  | rstatf (h : Head) (o : V)
  /-- `MOV` (R194). -/
  | mov (h : Head) (o : V)
  /-- `MOVI` (R194). -/
  | movi (h : Head) (o : I)
  /-- `POPS` (R194). -/
  | pops (h : Head) (o : V)
  /-- `P2V` (R194). -/
  | p2v (h : Head) (o : V)
  /-- `V2P` (R194). -/
  | v2p (h : Head) (o : V)
  /-- `SRD` (R195). -/
  | srd (h : Head) (o : S)
  /-- `SWR` (R194). -/
  | swr (h : Head) (o : V)
  /-- `LD` (R239). -/
  | ld (h : Head) (o : M)
  /-- `ST` (R240). -/
  | st (h : Head) (o : M)
  /-- `LDS` (R239). -/
  | lds (h : Head) (o : M)
  /-- `STS` (R240). -/
  | sts (h : Head) (o : M)
  /-- `STSE` (R241). -/
  | stse (h : Head) (o : M)
  /-- `LDC` (R239). -/
  | ldc (h : Head) (o : M)
  /-- `PREF` (R242). -/
  | pref (h : Head) (o : M)
  /-- `CINV_L1` (R242). -/
  | cinvL1 (h : Head) (o : M)
  /-- `CINV_L1ALL` (R242). -/
  | cinvL1all (h : Head) (o : M)
  /-- `CINV_NEAR` (R242). -/
  | cinvNear (h : Head) (o : M)
  /-- `CWB_HOME` (R242). -/
  | cwbHome (h : Head) (o : M)
  /-- `CWB_MEM` (R242). -/
  | cwbMem (h : Head) (o : M)
  /-- `CWB_INV` (R242). -/
  | cwbInv (h : Head) (o : M)
  /-- `ATOM` (R245). -/
  | atom (h : Head) (o : MA)
  /-- `ATOMCAS` (R245). -/
  | atomcas (h : Head) (o : MA)
  /-- `RED` (R245). -/
  | red (h : Head) (o : MA)
  /-- `ATOMS` (R245). -/
  | atoms (h : Head) (o : MA)
  /-- `ATOMSCAS` (R245). -/
  | atomscas (h : Head) (o : MA)
  /-- `FENCE` (R247). -/
  | fence (h : Head) (o : M)
  /-- `BARINIT` (R250). -/
  | barinit (h : Head) (o : S)
  /-- `BARARV` (R251). -/
  | bararv (h : Head) (o : S)
  /-- `BARSYNC` (R252). -/
  | barsync (h : Head) (o : S)
  /-- `BAREXP` (R251). -/
  | barexp (h : Head) (o : S)
  /-- `BARWAIT` (R252). -/
  | barwait (h : Head) (o : S)
  /-- `BARINV` (R253). -/
  | barinv (h : Head) (o : S)
  /-- `TCOPY` (R257). -/
  | tcopy (h : Head) (o : S)
  /-- `TSTORE` (R258). -/
  | tstore (h : Head) (o : S)
  /-- `TGATHER` (R259). -/
  | tgather (h : Head) (o : S)
  /-- `OPMCLM` (R262). -/
  | opmclm (h : Head) (o : S)
  /-- `OPMREL` (R262). -/
  | opmrel (h : Head) (o : S)
  /-- `TCANCEL` (R261). -/
  | tcancel (h : Head) (o : S)
  /-- `BRA` (R198). -/
  | bra (h : Head) (o : B)
  /-- `BRX` (R198). -/
  | brx (h : Head) (o : B)
  /-- `BRVOTE` (R198). -/
  | brvote (h : Head) (o : B)
  /-- `CALL` (R198). -/
  | call (h : Head) (o : B)
  /-- `CALLX` (R198). -/
  | callx (h : Head) (o : B)
  /-- `RET` (R198). -/
  | ret (h : Head) (o : B)
  /-- `EXIT` (R199). -/
  | exit (h : Head) (o : B)
  /-- `TRAP` (R200). -/
  | trap (h : Head) (o : B)
  /-- `BKPT` (R200). -/
  | bkpt (h : Head) (o : B)
  /-- `NOP` (R200). -/
  | nop (h : Head) (o : B)
  /-- `YIELD` (R45). -/
  | yield (h : Head) (o : B)
  /-- `RSOPEN` (R49). -/
  | rsopen (h : Head) (o : S)
  /-- `RSENTER` (R49). -/
  | rsenter (h : Head) (o : S)
  /-- `RSQUIT` (R49). -/
  | rsquit (h : Head) (o : S)
  /-- `RSARV` (R49). -/
  | rsarv (h : Head) (o : S)
  /-- `RSWAIT` (R51). -/
  | rswait (h : Head) (o : S)
  /-- `RSFREE` (R49). -/
  | rsfree (h : Head) (o : S)
  /-- `RSGET` (R202). -/
  | rsget (h : Head) (o : S)
  /-- `RSPUT` (R203). -/
  | rsput (h : Head) (o : S)
  /-- `SPXENTER` (R299). -/
  | spxenter (h : Head) (o : X)
  /-- `SPXLEAVE` (R300). -/
  | spxleave (h : Head) (o : X)
  /-- `SPXSTRM` (R303). -/
  | spxstrm (h : Head) (o : X)
  /-- `SPXSEM` (R305). -/
  | spxsem (h : Head) (o : X)
  /-- `SPXSWEEP` (R304). -/
  | spxsweep (h : Head) (o : X)
  /-- `SPXBAR` (R283). -/
  | spxbar (h : Head) (o : X)
  /-- `SPXPUT` (R306). -/
  | spxput (h : Head) (o : X)
  /-- `SPXGET` (R307). -/
  | spxget (h : Head) (o : X)
  /-- `SPXSTAT` (R308). -/
  | spxstat (h : Head) (o : X)
  /-- `LAUNCH` (R310). -/
  | launch (h : Head) (o : X)
  /-- `GATEADD` (R311). -/
  | gateadd (h : Head) (o : X)
  /-- `GATEWAIT` (R312). -/
  | gatewait (h : Head) (o : X)
  /-- `MATCHARM` (R313). -/
  | matcharm (h : Head) (o : X)
  /-- `MSGSEND` (R314). -/
  | msgsend (h : Head) (o : X)
  /-- `CSRR` (R343). -/
  | csrr (h : Head) (o : S)
  /-- `CSRW` (R343). -/
  | csrw (h : Head) (o : S)
  /-- `CSRW_SET` (R343). -/
  | csrwSet (h : Head) (o : S)
  /-- `CSRW_CLR` (R343). -/
  | csrwClr (h : Head) (o : S)
  /-- `PARTCFG_APPLY` (R348). -/
  | partcfgApply (h : Head) (o : S)
  /-- `ERET_RES` (R368). -/
  | eretRes (h : Head) (o : S)
  /-- `ERET_SKIP` (R368). -/
  | eretSkip (h : Head) (o : S)
  /-- `ERET_TERM` (R368). -/
  | eretTerm (h : Head) (o : S)
  /-- `ERET_DEFER` (R368). -/
  | eretDefer (h : Head) (o : S)
  /-- `TLBINV_PAGE` (R396). -/
  | tlbinvPage (h : Head) (o : S)
  /-- `TLBINV_RANGE` (R396). -/
  | tlbinvRange (h : Head) (o : S)
  /-- `TLBINV_ALL` (R396). -/
  | tlbinvAll (h : Head) (o : S)
  /-- `L2OP_PROM` (R406). -/
  | l2opProm (h : Head) (o : S)
  /-- `L2OP_ADOPT` (R406). -/
  | l2opAdopt (h : Head) (o : S)
  /-- `CTXSAVE_REC` (R370). -/
  | ctxsaveRec (h : Head) (o : S)
  /-- `CTXSAVE_HERD` (R370). -/
  | ctxsaveHerd (h : Head) (o : S)
  /-- `CTXLOAD` (R371). -/
  | ctxload (h : Head) (o : S)
  /-- `PACKHALT` (R369). -/
  | packhalt (h : Head) (o : S)
  /-- `PACKHALT_HERD` (R369). -/
  | packhaltHerd (h : Head) (o : S)
  /-- `PACKHALT_KILL` (R369). -/
  | packhaltKill (h : Head) (o : S)
  /-- `PACKRESUME` (R369). -/
  | packresume (h : Head) (o : S)
  /-- `WHISTLE` (R372). -/
  | whistle (h : Head) (o : S)
  /-- `PWRLS_RD` (R427). -/
  | pwrlsRd (h : Head) (o : S)
  /-- `PWRLS_SET` (R427). -/
  | pwrlsSet (h : Head) (o : S)
  /-- `STORE_PERFORM` (R63). -/
  | storePerform (core idx : Nat)
  /-- `PACK_FAULT` (R363). -/
  | packFault (p : PathAt) (f : FaultReq)
  /-- `HANDLER_WAKE` (R346). -/
  | handlerWake (core quarter : Nat)
  /-- `STARVATION_PRIORITY` (R34). -/
  | starvationPriority (p : PackLoc)
  /-- `SLOT_ROTATION` (R43). -/
  | slotRotation (p : PathAt)
  /-- `HELD_PATH` (R44). -/
  | heldPath (p : PathAt)
  /-- `ORPHANED_REJOIN_SET` (R57). -/
  | orphanedRejoinSet (p : PackLoc)
  /-- `BARRIER_TIMEOUT` (R378). -/
  | barrierTimeout (p : PathAt)
  /-- `GATEWAIT_REREAD` (R312). -/
  | gatewaitReread (p : PathAt)
  /-- `COPY_LINE_LANDING` (R256). -/
  | copyLineLanding (core entry line : Nat)
  /-- `COPY_FAULT` (R260). -/
  | copyFault (core entry line : Nat)
  /-- `COPY_REQUEST` (R268). -/
  | copyRequest (res cell : Nat)
  /-- `HERD_PLACEMENT` (R358). -/
  | herdPlacement (part : Nat) (seq : Word) (places : List Place)
  /-- `HERD_RESUMPTION` (R373). -/
  | herdResumption (part : Nat) (seq : Word) (herds : List Nat) (places : List Place)
  /-- `GATE_OBSERVATION` (R354). -/
  | gateObservation (part : Nat) (gate : Quad)
  /-- `AGING_LEVEL` (R355). -/
  | agingLevel (part : Nat) (seq : Word)
  /-- `BACKFILL_STOP` (R356). -/
  | backfillStop (part : Nat)
  /-- `PRIORITY_PREEMPTION` (R357). -/
  | priorityPreemption (part : Nat)
  /-- `HERD_SAVE` (R373). -/
  | herdSave (herd : Nat)
  /-- `VALIDATE_STALL_PREEMPTION` (R26). -/
  | validateStallPreemption (p : PackLoc)
  /-- `REGION_PARKING` (R27). -/
  | regionParking (p : PackLoc)
  /-- `LEASE_GRANT` (R426). -/
  | leaseGrant (die : Nat)
  /-- `MOULD_INSTALL` (R285). -/
  | mouldInstall (res : Nat)
  /-- `RESIDENCY_DRAINED` (R288). -/
  | residencyDrained (res : Nat)
  /-- `WHISTLE_CUT` (R290). -/
  | whistleCut (res : Nat)
  /-- `CELL_WHISTLE` (R290). -/
  | cellWhistle (res cell : Nat)
  /-- `WHISTLE_CUT_COMPLETE` (R291). -/
  | whistleCutComplete (res : Nat)
  /-- `LAUNCH_COMPLETION` (R360). -/
  | launchCompletion (part : Nat) (seq : Word)
  /-- `COMPLETION_MESSAGE_DROP` (R360). -/
  | completionMessageDrop (part : Nat) (seq : Word)
  /-- `HERD_END` (R113). -/
  | herdEnd (herd : Nat)
  /-- `FEEDER_DELIVERY` (R277). -/
  | feederDelivery (res feeder : Nat)
  /-- `COMMAND_BEGIN` (R280). -/
  | commandBegin (res port : Nat)
  /-- `COMMAND_COMPLETE` (R281). -/
  | commandComplete (res port : Nat)
  /-- `SWEEP_GROUP_BEGIN` (R304). -/
  | sweepGroupBegin (res group : Nat)
  /-- `PORT_FAULT` (R289). -/
  | portFault (res port : Nat)
  /-- `QUIESCENT_POINT` (R289). -/
  | quiescentPoint (res : Nat)
  /-- `PASS` (R316). -/
  | pass (res cell : Nat)
  /-- `FORK` (R316). -/
  | fork (res cell : Nat)
  /-- `MERGE` (R317). -/
  | merge (res cell : Nat)
  /-- `FILTER` (R319). -/
  | filter (res cell : Nat)
  /-- `CNT` (R318). -/
  | cnt (res cell : Nat)
  /-- `ALU` (R321). -/
  | alu (res cell : Nat)
  /-- `FMAC` (R321). -/
  | fmac (res cell : Nat)
  /-- `SFU` (R320). -/
  | sfu (res cell : Nat)
  /-- `CVT_CELL` (R322). -/
  | cvtCell (res cell : Nat)
  /-- `RSTAT_CELL` (R323). -/
  | rstatCell (res cell : Nat)
  /-- `MACS` (R274). -/
  | macs (res cell : Nat)
  /-- `CMPX` (R324). -/
  | cmpx (res cell : Nat)
  /-- `AGEN` (R325). -/
  | agen (res cell : Nat)
  /-- `MPLD` (R325). -/
  | mpld (res cell : Nat)
  /-- `MPST` (R325). -/
  | mpst (res cell : Nat)
  /-- `SPLD` (R325). -/
  | spld (res cell : Nat)
  /-- `SPST` (R325). -/
  | spst (res cell : Nat)
  /-- `GATH` (R325). -/
  | gath (res cell : Nat)
  /-- `RQST` (R325). -/
  | rqst (res cell : Nat)
  /-- `TAS` (R325). -/
  | tas (res cell : Nat)
  /-- `ACCD` (R326). -/
  | accd (res cell : Nat)
  /-- `SEMS` (R326). -/
  | sems (res cell : Nat)
  /-- `PAGE_WALK` (R387). -/
  | pageWalk (die part : Nat) (va : Quad)
  /-- `WALK_RETRY` (R392). -/
  | walkRetry (die idx : Nat)
  /-- `RELATCH_TOKEN` (R397). -/
  | relatchToken (res port : Nat)
  /-- `PROMOTION_REQUEST` (R400). -/
  | promotionRequest (part : Nat)
  /-- `LINE_REQUEST` (R402). -/
  | lineRequest (die line : Nat) (store : Bool)
  /-- `NEAR_COPY_EVICTION` (R402). -/
  | nearCopyEviction (die line : Nat)
  /-- `READ_GRANT_REQUEST` (R407). -/
  | readGrantRequest (port page : Nat)
  /-- `EXCLUSIVE_GRANT_REQUEST` (R407). -/
  | exclusiveGrantRequest (port page : Nat)
  /-- `REVOKE_ACKNOWLEDGMENT` (R407). -/
  | revokeAcknowledgment (port page : Nat) (dirty : List (Nat × Byte))
  /-- `AGENT_FAILED` (R408). -/
  | agentFailed (port : Nat)
  /-- `LINK_DOWN` (R409). -/
  | linkDown (port : Nat)
  /-- `KMT_HELLO` (R411). -/
  | kmtHello (port : Nat) (hdr : KmtHeader)
  /-- `KMT_MESSAGE` (R414). -/
  | kmtMessage (port : Nat) (hdr : KmtHeader) (body : List Byte)
  /-- `SEGMENT_RECEIVE` (R413). -/
  | segmentReceive (hdr : SegHeader) (payload : List Byte) (fcsGood : Bool)
  /-- `SEGMENT_ACK` (R413). -/
  | segmentAck (hdr : SegHeader)
  /-- `ACK_TIMER` (R413). -/
  | ackTimer (spart dpart : Nat)
  /-- `SEGMENT_RESEND` (R413). -/
  | segmentResend (spart dpart : Nat)
  /-- `HELLO` (R421). -/
  | hello (version : Byte)
  /-- `TELEMETRY` (R421). -/
  | telemetry
  /-- `LOGREAD` (R421). -/
  | logread (fromSeq : Word)
  /-- `FWLOAD` (R421). -/
  | fwload (image : List Byte)
  /-- `RESET` (R421). -/
  | reset (target : ResetTarget)
  /-- `KILL` (R421). -/
  | kill (part : Nat) (seq : Word)
  /-- `DEBUG` (R425). -/
  | debug (part : Nat) (level : Word)
  /-- `POWER` (R423). -/
  | power (target : PowerState)
  /-- `ATTEST` (R420). -/
  | attest (nonce : List Byte)
  /-- `MEMRW` (R421). -/
  | memrw (addr : Nat) (len : Nat) (data : Option (List Byte))
  /-- `GENKEY` (R419). -/
  | genkey
  /-- `SECSTATE` (R419). -/
  | secstate (target : SecState)
  /-- `POWER_ON` (R415). -/
  | powerOn
  /-- `DEVICE_RESET` (R415). -/
  | deviceReset
  /-- `PARTITION_RESET` (R415). -/
  | partitionReset (part : Nat)
  /-- `BOOT` (R416). -/
  | boot
  /-- `CRITICAL_TEMPERATURE` (R422). -/
  | criticalTemperature (island : Nat)
  /-- `IDLE_ENTRY` (R423). -/
  | idleEntry
  /-- `WAKE` (R423). -/
  | wake
  /-- `CORRECTABLE_ERROR` (R428). -/
  | correctableError (place : StoragePlace)
  /-- `UNCORRECTABLE_ERROR` (R428). -/
  | uncorrectableError (place : StoragePlace)
  /-- `PARITY_ERROR` (R428). -/
  | parityError (part die unit : Nat) (again : Bool)
  /-- `LINK_UP` (R411). -/
  | linkUp (port : Nat)
  /-- `KIOP_FLIT_RECEIVE` (R413). -/
  | kiopFlitReceive (port : Nat) (hdr : SegHeader) (payload : List Byte)
  /-- `REMOTE_HOME_ANSWER` (R407). -/
  | remoteHomeAnswer (page : Nat) (answer : RemoteAnswer)
  /-- `REMOTE_HOME_REVOKE` (R407). -/
  | remoteHomeRevoke (page : Nat) (recalled : Bool)
  /-- `SIGNED_IMAGE_FETCHED` (R418). -/
  | signedImageFetched (image : List Byte)
  deriving DecidableEq, Repr

end Sys2Proof
end

