-- ==== Sys2Proof/Config.lean ====
section
/-!
DEFINITION. What one K9 fixes and the manual leaves open: the physical map, the free values, the order in which agents move.
A constant declared `opaque` has no value that a proof could use: a statement holds whatever it is.
-/

namespace Sys2Proof

/-- What moves next: a quarter issues (R34, R361), `choice` settling what R33 and R43 leave open; an event of the table happens; a lane may go
on seeing a line of memory, or with `spad` a line of its herd's scratchpad, as it stands now (R64, R123, log 60); an outside agent loads
`len` bytes, or with `data` stores them, on a page that it cannot be granted (R404); or the Collie goes on with its commands (R421). -/
inductive Turn where
  | issue (core quarter choice : Nat)
  | event (i : Instr)
  | capture (core quarter slot lane : Nat) (spad : Bool) (line : Nat)
  | agent (port pa len : Nat) (data : Option (List Byte))
  | collie
  deriving DecidableEq, Repr, Inhabited

/-- The special functions of R215 and of the `sfu` cells (R320). -/
inductive SpecialFn where
  | rcp | rsq | exp2 | log2 | sin | cos | tanh | sig | erf | geluErf | geluTanh | geluSig
  deriving DecidableEq, Repr, Inhabited

end Sys2Proof

namespace Sys2Proof.Config

/-- FREE VALUE, log 3. The agent that moves at step `n` when no move is fixed. -/
opaque schedule : Nat → Turn

/-- FREE VALUE, log 4. The cycles that pass in step `n` (R3, R196). -/
opaque elapsed : Nat → Nat

/-- FREE VALUE, log 9. A byte the manual describes as any value (R8). -/
opaque anyByte : Nat → Byte

/-- FREE VALUE, log 10. Whether the L1 line met at choice `n` has been evicted meanwhile (R100, R101). -/
opaque l1Evicted : Nat → Bool

/-- FREE VALUE, log 60. Whether the load at choice `n` sees its line as the lane still may (R64, R123). -/
opaque seesEarly : Nat → Bool

/-- FREE VALUE, log 24. Which of the causes that the sources of a full wake queue hold takes the place that frees at step `n` (R346). -/
opaque heldFirst : Nat → Nat

/-- FREE VALUE, log 61. Whether a byte that a copy has not yet landed in the OPM reads as its new value at choice `n` (R110). -/
opaque landsEarly : Nat → Bool

/-- FREE VALUE, log 11. The input that an arrival-mode `merge` takes at choice `n` (R317). -/
opaque arrival : Nat → Nat

/-- FREE VALUE, log 8. The device's result of a special function, within the bound of R216, for an operand of a format (R218). -/
opaque special : SpecialFn → Nat → Nat → Nat

/-- DESIGN CHOICE, log 2. HBM occupies physical addresses from here: sixteen stacks of 48 GB, two for each C-die in die order (R1, R97). -/
def hbmBase : Nat := 0
/-- 768 GB of HBM (R1). -/
def hbmSize : Nat := 768000000000
/-- DESIGN CHOICE, log 2. The cave occupies physical addresses from here (R97). -/
def caveBase : Nat := 0x10000000000
/-- 6144 GB of cave (R1). -/
def caveSize : Nat := 6144000000000

/-- A physical byte address lies in HBM. -/
def isHbm (pa : Nat) : Bool := hbmBase ≤ pa && pa < hbmBase + hbmSize
/-- A physical byte address lies in the cave. -/
def isCave (pa : Nat) : Bool := caveBase ≤ pa && pa < caveBase + caveSize
/-- A physical byte address is installed memory (R347, R387). -/
def installed (pa : Nat) : Bool := isHbm pa || isCave pa
/-- The C-die whose stacks hold an HBM byte (R98): 96 GB for each die, log 2. -/
def hbmDie (pa : Nat) : Nat := (pa - hbmBase) / 96000000000

/-- DESIGN CHOICE, log 1. What a byte of memory reads as that nothing has written since power-on. -/
def blankByte : Byte := 0#8

/-- The feature word `featw`: a shipped K9 has features 0 to 6 of R176 (DEDUCED, log 14). -/
def features : Quad := 0x7F#64

/-- FREE VALUE, log 12. The machine vector table base that firmware sets (R342, R416). -/
opaque firmwareMtvec : Quad
/-- FREE VALUE, log 12. Wytan's firmware public key, an affine point of P-256 (R416). -/
opaque firmwareKey : Nat × Nat
/-- FREE VALUE, log 12. The identity key pair made by the `n`-th `genkey`: the public point (R419). -/
opaque identityKey : Nat → Nat × Nat
/-- FREE VALUE, log 12. The signature `(r, s)` that the identity key makes over a 256-bit digest (R420). -/
opaque identitySign : Nat → Nat → Nat × Nat
/-- FREE VALUE, log 12. The K9's own agent identifier (R411). -/
opaque agentId : Word
/-- FREE VALUE, log 59. What follows the header of a coherence request or answer (R411): its code, its page and whether for writing. -/
opaque coherenceBody : Nat → Nat → Bool → List Byte
/-- FREE VALUE, log 59. What follows the header of the answer to an outside agent's own load or store (R404): its address, the bytes read, and
whether one of them is poisoned. -/
opaque servedBody : Nat → List Byte → Bool → List Byte
/-- FREE VALUE, log 59. The number, modulo 17, of the port through which the home of a page homed on an outside agent is reached (R407). -/
opaque remoteAgent : Nat → Nat
/-- The port through which the home of a page homed on an outside agent is reached. -/
def remotePort (page : Nat) : Nat := remoteAgent page % 17
/-- FREE VALUE, log 15. How many messages beyond the first a port's transmit queue holds (R314). -/
opaque txMore : Nat
/-- How many messages a port's transmit queue holds: at least one, or `msgsend` could queue none. -/
def txDepth : Nat := txMore + 1
/-- FREE VALUE, log 16. Temperatures and island power at telemetry reading `n` (R421). -/
opaque telemetry : Nat → List Byte
/-- FREE VALUE, log 16. The fault code that the log shows for a partition stopped by a repeated parity error (R428, R431). -/
opaque parityCode : Nat
/-- FREE VALUE, log 13. The private layout of a residency in a context image (R374), for the `n`-th one written. -/
opaque residencyBytes : Nat → List Byte

end Sys2Proof.Config
end

