-- ==== Sys2Proof/Machine/Num.lean ====
section
/-!
DEFINITION. Number formats and arithmetic (R73-R94): values as exact rationals with signed zeros, infinities and NaN, the rounding
helpers, conversions, microscaling, and row statistics.
-/

namespace Sys2Proof.Machine

/-- A floating-point layout (R73): exponent and fraction widths, bias, whether the all-ones exponent is reserved for infinities and
NaN (`ieee`), and for E4M3 the one NaN code. -/
structure Fmt where
  ebits : Nat
  fbits : Nat
  bias  : Nat
  ieee  : Bool
  /-- E4M3: exponent and fraction all ones is NaN -/
  nanTop : Bool
  deriving DecidableEq, Repr

def f32 : Fmt := ⟨8, 23, 127, true, false⟩
def f16 : Fmt := ⟨5, 10, 15, true, false⟩
def bf16 : Fmt := ⟨8, 7, 127, true, false⟩
def e4m3 : Fmt := ⟨4, 3, 7, false, true⟩
def e5m2 : Fmt := ⟨5, 2, 15, true, false⟩
def e2m1 : Fmt := ⟨2, 1, 1, false, false⟩

/-- The format of a type code 8 to 12 (R147). -/
def fmtOf (t : Nat) : Fmt :=
  match t with
  | 9 => f16 | 10 => bf16 | 11 => e4m3 | 12 => e5m2 | _ => f32

/-- The width in bits. -/
def Fmt.width (f : Fmt) : Nat := 1 + f.ebits + f.fbits

/-- The canonical NaN (R73). -/
def Fmt.nan (f : Fmt) : Nat :=
  if f.nanTop then 2 ^ (f.ebits + f.fbits) - 1 else (2 ^ f.ebits - 1) * 2 ^ f.fbits + 2 ^ (f.fbits - 1)

/-- The code of +∞, for a format that has infinities. -/
def Fmt.inf (f : Fmt) : Nat := (2 ^ f.ebits - 1) * 2 ^ f.fbits

/-- The code of the largest finite value (R73). -/
def Fmt.maxCode (f : Fmt) : Nat :=
  if f.ieee then f.inf - 1 else if f.nanTop then 2 ^ (f.ebits + f.fbits) - 2 else 2 ^ (f.ebits + f.fbits) - 1

/-- An exact value: a rational `n / d` with `d > 0` and `n ≠ 0`, a signed zero, a signed infinity, or NaN. -/
inductive Val where
  | num (n : Int) (d : Nat)
  | zero (neg : Bool)
  | inf (neg : Bool)
  | nan
  deriving DecidableEq, Repr, Inhabited

/-- The rational `n / d` as a value; an exact zero takes the sign `negZero` (R76). -/
def Val.ofRat (n : Int) (d : Nat) (negZero : Bool) : Val := if n == 0 then .zero negZero else .num n d

/-- The magnitude `m × 2^(e)` as a fraction. -/
def scaled (m : Nat) (e : Int) : Nat × Nat := if 0 ≤ e then (m * 2 ^ e.toNat, 1) else (m, 2 ^ (-e).toNat)

/-- The magnitude of a finite code without its sign bit (R73), as `m × 2^e`. -/
def Fmt.mag (f : Fmt) (code : Nat) : Nat × Int :=
  let e := code / 2 ^ f.fbits
  let m := code % 2 ^ f.fbits
  if e == 0 then (m, 1 - (f.bias : Int) - f.fbits) else (2 ^ f.fbits + m, (e : Int) - f.bias - f.fbits)

/-- The value of a bit pattern: `fv` of R205, by R73. -/
def fv (f : Fmt) (w : Nat) : Val :=
  let neg := w / 2 ^ (f.width - 1) % 2 == 1
  let code := w % 2 ^ (f.width - 1)
  if f.ieee && f.inf ≤ code then (if code == f.inf then .inf neg else .nan)
  else if f.nanTop && code == 2 ^ (f.ebits + f.fbits) - 1 then .nan
  else if code == 0 then .zero neg
  else
    let me := f.mag code
    let nd := scaled me.1 me.2
    .num (if neg then -(nd.1 : Int) else nd.1) nd.2

/-- The rounding modes of R147. -/
inductive Mode where
  | rne | rtz | up | dn
  deriving DecidableEq, Repr, Inhabited

/-- The mode of a two-bit rounding field. -/
def modeOf (m : Nat) : Mode :=
  match m with
  | 0 => .rne | 1 => .rtz | 2 => .up | _ => .dn

/-- `round` picks the upper neighbour of a magnitude (R78): `twice` compares twice the remainder with the step. -/
def picksUp (m : Mode) (neg : Bool) (odd : Bool) (rem twice step : Nat) : Bool :=
  rem != 0 &&
  match m with
  | .rne => step < twice || (twice == step && odd)
  | .rtz => false
  | .up  => !neg
  | .dn  => neg

/-- Floor of log2 of the fraction `n / d`, both positive. -/
def log2Frac (n d : Nat) : Int :=
  let a := n.log2
  let b := d.log2
  let k : Int := (a : Int) - b
  -- 2^k ≤ n/d or just below it
  let ge (k : Int) : Bool := if 0 ≤ k then d * 2 ^ k.toNat ≤ n else d ≤ n * 2 ^ (-k).toNat
  if ge k then k else k - 1

/-- The lower neighbour of the magnitude `n / d` in a format with the exponent range unbounded above, as the code it would have, and
the remainder as a fraction of the step: `rem / step` (R78). -/
def Fmt.below (f : Fmt) (n d : Nat) : Nat × Nat × Nat :=
  let e : Int := max (log2Frac n d) (1 - (f.bias : Int))
  -- the step is 2^(e - fbits)
  let q : Int := e - f.fbits
  let num := if 0 ≤ q then n else n * 2 ^ (-q).toNat
  let den := if 0 ≤ q then d * 2 ^ q.toNat else d
  let m := num / den
  let code := ((e + f.bias - 1).toNat) * 2 ^ f.fbits + m
  (code, num % den, den)

/-- The overflow rule of R79: the code without sign for a magnitude beyond the largest finite value. -/
def Fmt.overflow (f : Fmt) (m : Mode) (neg sat : Bool) : Nat :=
  if sat || (!f.ieee && !f.nanTop) then f.maxCode
  else
    let toInf := match m with
      | .rne => true
      | .rtz => false
      | .up => !neg
      | .dn => neg
    if toInf then (if f.ieee then f.inf else f.nan) else f.maxCode

/-- A code with its sign. -/
def Fmt.signed (f : Fmt) (neg : Bool) (code : Nat) : Nat := if neg then code + 2 ^ (f.width - 1) else code

/-- The rounding helpers of R78, with R79. -/
def roundTo (f : Fmt) (m : Mode) (sat : Bool) (x : Val) : Nat :=
  match x with
  | .nan => f.nan
  | .zero neg => f.signed neg 0
  | .inf neg =>
    let c := f.overflow m neg sat
    if f.nanTop && c == f.nan then f.nan else f.signed neg c
  | .num n d =>
    let neg := n < 0
    let b := f.below n.natAbs d
    let code := if picksUp m neg (b.1 % 2 == 1) b.2.1 (2 * b.2.1) b.2.2 then b.1 + 1 else b.1
    if f.maxCode < code then
      let c := f.overflow m neg sat
      if f.nanTop && c == f.nan then f.nan else f.signed neg c
    else f.signed neg code

/-- `round_rne` into FP32. -/
def rne32 (x : Val) : Nat := roundTo f32 .rne false x

/-- The integer that a mode picks for `n / d` (R78 for an integer format, R207 `frnd`). -/
def roundInt (m : Mode) (n : Int) (d : Nat) : Int :=
  let a := n.natAbs
  let q := a / d
  let r := a % d
  let up := picksUp m (n < 0) (q % 2 == 1) r (2 * r) d
  let q := if up then q + 1 else q
  if n < 0 then -(q : Int) else q

/-! ### Arithmetic on values (R76, R207) -/

def Val.neg? : Val → Bool
  | .num n _ => n < 0
  | .zero s => s
  | .inf s => s
  | .nan => false

def Val.negate : Val → Val
  | .num n d => .num (-n) d
  | .zero s => .zero (!s)
  | .inf s => .inf (!s)
  | .nan => .nan

/-- The exact sum; `dn` for the mode toward −∞, in which an exact zero is −0 (R76). -/
def Val.add (dn : Bool) : Val → Val → Val
  | .nan, _ => .nan
  | _, .nan => .nan
  | .inf a, .inf b => if a == b then .inf a else .nan
  | .inf a, _ => .inf a
  | _, .inf b => .inf b
  | .zero a, .zero b => if a == b then .zero a else .zero dn
  | .zero _, y => y
  | x, .zero _ => x
  | .num n d, .num n' d' => Val.ofRat (n * d' + n' * d) (d * d') dn

/-- The exact product. -/
def Val.mul : Val → Val → Val
  | .nan, _ => .nan
  | _, .nan => .nan
  | .inf _, .zero _ => .nan
  | .zero _, .inf _ => .nan
  | .inf a, y => .inf (a != y.neg?)
  | x, .inf b => .inf (x.neg? != b)
  | .zero a, y => .zero (a != y.neg?)
  | x, .zero b => .zero (x.neg? != b)
  | .num n d, .num n' d' => .num (n * n') (d * d')

/-- The exact quotient. -/
def Val.div : Val → Val → Val
  | .nan, _ => .nan
  | _, .nan => .nan
  | .inf _, .inf _ => .nan
  | .zero _, .zero _ => .nan
  | .inf a, y => .inf (a != y.neg?)
  | x, .inf b => .zero (x.neg? != b)
  | .zero a, y => .zero (a != y.neg?)
  | x, .zero b => .inf (x.neg? != b)
  | .num n d, .num n' d' => .num (n * (if n' < 0 then -(d' : Int) else d')) (d * n'.natAbs)

/-- A value times 2^k. -/
def Val.scale (x : Val) (k : Int) : Val :=
  match x with
  | .num n d => if 0 ≤ k then .num (n * 2 ^ k.toNat) d else .num n (d * 2 ^ (-k).toNat)
  | .zero s => .zero s
  | .inf s => .inf s
  | .nan => .nan

/-- `Val.scale` with the power kept within ±1024, beyond which every format's rounded result is the same (R207, R220). -/
def Val.scaleWide (x : Val) (k : Int) : Val := x.scale (max (-1024) (min k 1024))

/-- An integer as a value. -/
def Val.ofInt (n : Int) : Val := Val.ofRat n 1 false

/-- x < y over non-NaN values, with −0 = +0; false where either is NaN. -/
def Val.lt : Val → Val → Bool
  | .nan, _ => false
  | _, .nan => false
  | .inf a, .inf b => a && !b
  | .inf a, _ => a
  | _, .inf b => !b
  | .zero _, .zero _ => false
  | .zero _, .num n _ => 0 < n
  | .num n _, .zero _ => n < 0
  | .num n d, .num n' d' => n * d' < n' * d

/-- x = y over non-NaN values, with −0 = +0. -/
def Val.eq (x y : Val) : Bool :=
  match x, y with
  | .nan, _ => false
  | _, .nan => false
  | _, _ => !x.lt y && !y.lt x

def Val.isNan : Val → Bool
  | .nan => true
  | .num _ _ | .zero _ | .inf _ => false

/-- Finite: neither NaN nor an infinity. -/
def Val.isFinite : Val → Bool
  | .num _ _ | .zero _ => true
  | .inf _ | .nan => false

/-- |x|. -/
def Val.abs : Val → Val
  | .num n d => .num n.natAbs d
  | .zero _ => .zero false
  | .inf _ => .inf false
  | .nan => .nan

/-! ### Square roots -/

/-- One step of the digit-by-digit square root: `r` so far, bit `k`. -/
def sqrtStep (n r k : Nat) : Nat := if (r + 2 ^ k) * (r + 2 ^ k) ≤ n then r + 2 ^ k else r

/-- The bits of the square root of `n` below `2^k`, from the highest down. -/
def sqrtFrom (n : Nat) : Nat → Nat → Nat
  | 0, r => r
  | k + 1, r => sqrtFrom n k (sqrtStep n r k)

/-- floor(√n). -/
def isqrt (n : Nat) : Nat := sqrtFrom n (n.log2 / 2 + 1) 0

/-- The correctly rounded square root of a positive fraction, by its mode (R80): the root is found with more bits than the format holds,
and a sticky bit stands for what is below them. -/
def sqrtVal (n d : Nat) (prec : Nat) : Val :=
  -- √(n/d) = √(n·d)/d; scale so that the root has at least `prec` bits
  let nd := n * d
  let k := prec + (d.log2 + 1)
  let m := nd * 2 ^ (2 * k)
  let r := isqrt m
  let sticky : Nat := if r * r == m then 0 else 1
  .num ((2 * r + sticky : Nat) : Int) (d * 2 ^ (k + 1))

/-- √x (R207): NaN below zero, −0 for −0. -/
def Val.sqrt (x : Val) : Val :=
  match x with
  | .nan => .nan
  | .zero s => .zero s
  | .inf s => if s then .nan else .inf false
  | .num n d => if n < 0 then .nan else sqrtVal n.natAbs d 64

/-- 1/√x with the special operands of R93: +∞ for ±0, NaN below zero. -/
def Val.rsqrt (x : Val) : Val :=
  match x with
  | .zero _ => .inf false
  | .nan | .inf _ | .num _ _ =>
    match x with
    | .num n d => if n < 0 then .nan else sqrtVal d n.natAbs 64
    | .inf s => if s then .nan else .zero false
    | .nan | .zero _ => .nan

/-! ### Integers (R75, R9) -/

/-- The low `w` bits as a two's-complement integer. -/
def sextN (v w : Nat) : Int := let u := v % 2 ^ w; if 2 ^ (w - 1) ≤ u then (u : Int) - 2 ^ w else u

/-- An integer modulo 2^w, as its bit pattern. -/
def truncI (x : Int) (w : Nat) : Nat := (x % (2 ^ w : Nat)).toNat

/-- Saturation to the signed range of `w` bits, as a bit pattern (R9). -/
def satS (x : Int) (w : Nat) : Nat := truncI (max (-(2 ^ (w - 1) : Nat)) (min x ((2 ^ (w - 1) : Nat) - 1))) w

/-- Saturation to the unsigned range of `w` bits, as a bit pattern (R9). -/
def satU (x : Int) (w : Nat) : Nat := truncI (max 0 (min x ((2 ^ w : Nat) - 1))) w

/-- A value rounded to an integer of width `w` (R78, R81): saturating, NaN gives 0. -/
def toIntSat (m : Mode) (signed : Bool) (w : Nat) (x : Val) : Nat :=
  match x with
  | .nan => 0
  | .zero _ => 0
  | .inf neg => if neg then (if signed then 2 ^ (w - 1) else 0) else (if signed then 2 ^ (w - 1) - 1 else 2 ^ w - 1)
  | .num n d => let q := roundInt m n d; if signed then satS q w else satU q w

/-! ### Stochastic rounding (R82-R84) -/

/-- The generator step (R82). -/
def stoNext (st : Word) : Word := st * 0x2C9B7F3D#32 + 0x6D2B79F5#32

/-- `round_sto` (R84): the result and the new state. -/
def roundSto (f : Fmt) (sat : Bool) (x : Val) (st : Word) : Nat × Word :=
  let s := stoNext st
  let me := f.mag f.maxCode
  let mx := scaled me.1 me.2
  match x with
  | .num n d =>
    if mx.1 * d ≤ n.natAbs * mx.2 then (roundTo f .rne sat x, s)
    else
      let b := f.below n.natAbs d
      let t := b.2.1 * 2 ^ 24 / b.2.2
      let u := s.toNat / 256
      (f.signed (n < 0) (if u < t then b.1 + 1 else b.1), s)
  | .nan | .zero _ | .inf _ => (roundTo f .rne sat x, s)

/-! ### Microscaling (R85-R87) -/

/-- The value of an element of a block with scale code `c` (R85). -/
def mxValue (f : Fmt) (c q : Nat) : Val := if c == 255 then .nan else (fv f q).scale ((c : Int) - 127)

/-- `mx_quantise` (R87): the scale code and the element codes. -/
def mxQuantise (f : Fmt) (emax : Int) (v : List Val) : Nat × List Nat :=
  if v.any (fun x => !x.isFinite) then (255, v.map fun _ => 0)
  else
    let logs : List Int := v.filterMap fun x =>
      match x with
      | .num n d => some (log2Frac n.natAbs d)
      | .zero _ | .inf _ | .nan => none
    let e : Int := match logs.max? with
      | none => -127
      | some l => min (max (l - emax) (-127)) 127
    ((e + 127).toNat, v.map fun x => roundTo f .rne true (x.scale (-e)))

/-! ### Min, max and the total order (R208, R278) -/

/-- `fmin` or `fmax` on bit patterns of a format (R208): a non-NaN result is the operand's pattern. -/
def fminmax (f : Fmt) (isMax nanProp : Bool) (a b : Nat) : Nat :=
  let x := fv f a
  let y := fv f b
  if x.isNan && y.isNan then f.nan
  else if x.isNan then (if nanProp then f.nan else b)
  else if y.isNan then (if nanProp then f.nan else a)
  else
    let aLess := x.lt y || (x.eq y && x.neg? && !y.neg?)
    let bLess := y.lt x || (x.eq y && y.neg? && !x.neg?)
    if isMax then (if aLess then b else a) else (if bLess then b else a)

/-! ### Row statistics (R91-R94) -/

/-- A Welford partial or an `.rms` pair, as bit patterns (R91, R94): n, mean or ss, m2. -/
structure Partial where
  n    : Nat
  mean : Nat
  m2   : Nat
  deriving DecidableEq, Repr, Inhabited

/-- The count saturates at 2^32 − 1 (R91). -/
def satCount (n : Nat) : Nat := min n (2 ^ 32 - 1)

/-- The FP32 value of a pattern. -/
def v32 (w : Nat) : Val := fv f32 w

/-- `welford_merge` (R91). -/
def welfordMerge (a b : Partial) : Partial :=
  if b.n == 0 then a
  else if a.n == 0 then b
  else
    let n := a.n + b.n
    let am := v32 a.mean
    let bm := v32 b.mean
    let a2 := v32 a.m2
    let b2 := v32 b.m2
    if !am.isFinite || !bm.isFinite || a2.isNan || b2.isNan then ⟨satCount n, f32.nan, f32.nan⟩
    else
      let dl := v32 (rne32 (bm.add false am.negate))
      let step := (dl.mul (Val.ofInt b.n)).div (Val.ofInt n)
      let mu := rne32 (am.add false step)
      let mu := fminmax f32 false true (fminmax f32 true true mu (fminmax f32 false true a.mean b.mean))
        (fminmax f32 true true a.mean b.mean)
      let extra := (((dl.mul dl).mul (Val.ofInt a.n)).mul (Val.ofInt b.n)).div (Val.ofInt n)
      let m2 := rne32 ((a2.add false b2).add false extra)
      if (v32 mu).isNan || (v32 m2).isNan then ⟨satCount n, f32.nan, f32.nan⟩ else ⟨satCount n, mu, m2⟩

/-- `welford_add` (R91). -/
def welfordAdd (s : Partial) (x : Nat) : Partial := welfordMerge s ⟨1, x, 0⟩

/-- `rms_merge` (R94), with ss in `mean`. -/
def rmsMerge (a b : Partial) : Partial := ⟨satCount (a.n + b.n), rne32 ((v32 a.mean).add false (v32 b.mean)), 0⟩

/-- `rms_add` (R94). -/
def rmsAdd (s : Partial) (x : Nat) : Partial :=
  ⟨satCount (s.n + 1), rne32 ((v32 s.mean).add false ((v32 x).mul (v32 x))), 0⟩

/-- `rstat_final` (R93): mean, variance and reciprocal root. -/
def rstatFinal (s : Partial) (eps : Nat) : Nat × Nat × Nat :=
  let mean := if s.n == 0 then 0 else s.mean
  let var := if s.n == 0 then 0 else rne32 ((v32 s.m2).div (Val.ofInt s.n))
  let sv := rne32 ((v32 var).add false (v32 eps))
  (mean, var, rne32 (v32 sv).rsqrt)

/-- `rms_final` (R94). -/
def rmsFinal (s : Partial) (eps : Nat) : Nat × Nat :=
  let ms := if s.n == 0 then 0 else rne32 ((v32 s.mean).div (Val.ofInt s.n))
  let rms := rne32 (v32 ms).sqrt
  (rms, rne32 (v32 (rne32 ((v32 ms).add false (v32 eps)))).rsqrt)

/-- The tree of R89 over 64 leaves, one level: neighbours combine. -/
def treeLevel {α : Type} (op : α → α → α) : List (Option α) → List (Option α)
  | a :: b :: rest =>
    (match a, b with
     | some x, some y => some (op x y)
     | some x, none => some x
     | none, y => y) :: treeLevel op rest
  | l => l

/-- `tree_reduce` (R89): six levels over the 64 lanes. -/
def treeReduce {α : Type} (op : α → α → α) (leaves : List (Option α)) : Option α :=
  (treeLevel op (treeLevel op (treeLevel op (treeLevel op (treeLevel op (treeLevel op leaves)))))).headD none

end Sys2Proof.Machine
end

