-- ==== Sys2Proof/Machine/Checks.lean ====
section
/-!
DEFINITION. What makes a word an instruction (R143-R157): the register classes each instruction gives its fields and the values its
other fields accept, instruction by instruction.  The checks depend on the word alone; the limit of R19 on registers is the pack's and
is checked when the instruction executes.
-/

namespace Sys2Proof

/-- The class an instruction gives a 7-bit register field (R146); `zero` for a field the instruction does not use (R145). -/
inductive OpClass where
  | vec | pair | quad | psrc | pdst | zero
  deriving DecidableEq, Repr, Inhabited

/-- A register field of an instruction: its class, whether the instruction reads it as a source, and its value. -/
structure Opnd where
  cls : OpClass
  src : Bool
  reg : Reg
  deriving DecidableEq, Repr, Inhabited

/-- What an instruction's description accepts: `ok` for every field that is no register, and the register fields. -/
structure Shape where
  ok  : Bool
  ops : List Opnd
  deriving DecidableEq, Repr, Inhabited

/-- Why a word is not an instruction (R157). -/
inductive Reject where
  /-- opc is 0x00 or a reserved value of R153. -/
  | opcode
  /-- g = 7 and gn = 1 (R143). -/
  | guard
  /-- x where R148 and R152 do not allow it, or missing where the X format requires it. -/
  | xbit
  /-- a reserved field of the format is non-zero (R145). -/
  | format
  /-- a field holds a value that the instruction's description does not accept (R157). -/
  | field
  /-- a register field breaks R146, or an unused register field is not zero. -/
  | register
  /-- the bytes end before the instruction does. -/
  | short
  deriving DecidableEq, Repr, Inhabited

/-! ### Field helpers -/

/-- A source register. -/
def rd (c : OpClass) (r : Reg) : Opnd := ⟨c, true, r⟩
/-- A destination register. -/
def wr (c : OpClass) (r : Reg) : Opnd := ⟨c, false, r⟩
/-- A field the instruction does not use. -/
def no (r : Reg) : Opnd := ⟨.zero, false, r⟩

/-- R146 without the limit of R19. -/
def Opnd.classOk (o : Opnd) : Bool :=
  match o.cls with
  | .vec  => true
  | .pair => o.reg.toNat % 2 == 0
  | .quad => o.reg.toNat % 4 == 0
  | .psrc => o.reg.toNat < 8
  | .pdst => o.reg.toNat < 8
  | .zero => o.reg.toNat == 0

/-- How many vector registers a field names (R146). -/
def OpClass.regCount : OpClass → Nat
  | .vec => 1 | .pair => 2 | .quad => 4 | .psrc => 0 | .pdst => 0 | .zero => 0

/-- The type code of a V-format mod field (R147). -/
def V.ty (o : V) : Nat := o.mod.toNat / 8
/-- The `.sat` bit of a V-format mod field (R147). -/
def V.sat (o : V) : Bool := o.mod.toNat / 4 % 2 == 1
/-- The rounding mode of a V-format mod field (R147). -/
def V.rnd (o : V) : Nat := o.mod.toNat % 4
/-- The type code of an I-format mod field (R147). -/
def I.ty (o : I) : Nat := o.mod.toNat / 2
/-- The `.sat` bit of an I-format mod field (R147). -/
def I.sat (o : I) : Bool := o.mod.toNat % 2 == 1
/-- The variant of an I form, fn[6:0] (R148). -/
def I.variant (o : I) : Nat := o.fn.toNat % 128

/-- The type's width is 64 bits: codes 3 and 7 (R183). -/
def wide (t : Nat) : Bool := t == 3 || t == 7
/-- The class "T" of R183. -/
def tcls (t : Nat) : OpClass := if wide t then .pair else .vec
/-- Types 2, 3, 6 and 7 (R183). -/
def isInt (t : Nat) : Bool := t == 2 || t == 3 || t == 6 || t == 7
/-- Types 2 and 3 (R190). -/
def isBits (t : Nat) : Bool := t == 2 || t == 3
/-- Types 8, 9 and 10 (R205). -/
def isFlt (t : Nat) : Bool := t == 8 || t == 9 || t == 10
/-- No `.sat` and no rounding: mod[2:0] = 0. -/
def V.plainMod (o : V) : Bool := o.mod.toNat % 8 == 0

/-- The literal of a two-word I-format instruction of type `t` (R148, R157); `shift` for opcodes 0x11-0x13. -/
def litOk (o : I) (shift : Bool) : Bool :=
  match o.lit with
  | none   => true
  | some q => o.imm.toNat == 0 && ((wide o.ty && !shift) || q.toNat < 2 ^ 32)

/-! ### The shapes of the families -/

/-- A V/I instruction of R186 or R190: types, whether `.sat` is accepted, accepted variants, and the class of b given T. -/
def viShape (o : VI) (types : Nat → Bool) (satOk : Nat → Bool) (variants : Nat → Bool) (shift : Bool) : Shape :=
  match o with
  | .v o =>
    ⟨types o.ty && o.rnd == 0 && (!o.sat || satOk o.fn.toNat) && variants o.fn.toNat && o.fn.toNat < 128,
     [wr (tcls o.ty) o.d, rd (tcls o.ty) o.a, rd (if shift then .vec else tcls o.ty) o.b, no o.c]⟩
  | .i o =>
    ⟨types o.ty && (!o.sat || satOk o.variant) && variants o.variant && 128 ≤ o.fn.toNat && litOk o shift,
     [wr (tcls o.ty) o.d, rd (tcls o.ty) o.a]⟩

/-- `icmp` (R192). -/
def icmpShape : VI → Shape
  | .v o =>
    ⟨isInt o.ty && o.plainMod && o.fn.toNat % 8 < 6 && o.fn.toNat < 32,
     [wr .pdst o.d, rd (tcls o.ty) o.a, rd (tcls o.ty) o.b, rd .psrc o.c]⟩
  | .i o =>
    ⟨isInt o.ty && !o.sat && o.variant < 6 && 128 ≤ o.fn.toNat && litOk o false, [wr .pdst o.d, rd (tcls o.ty) o.a]⟩

/-- An integer V-only instruction: `fnOk`, types, `.sat` and the register fields. -/
def ivShape (o : V) (types : Nat → Bool) (satOk : Bool) (fnOk : Bool) (ops : List Opnd) : Shape :=
  ⟨types o.ty && o.rnd == 0 && (!o.sat || satOk) && fnOk, ops⟩

/-- The `.x2` bit in fn[0]: type 8 must not set it (R205). -/
def x2Ok (o : V) : Bool := o.fn.toNat % 2 == 0 || o.ty != 8

/-- A floating-point instruction of R207: types 8-10, fn[0] = `.x2`, `.sat` accepted or not, with rounding. -/
def fShape (o : V) (satOk : Bool) (ops : List Opnd) : Shape :=
  ⟨isFlt o.ty && x2Ok o && o.fn.toNat < 2 && (!o.sat || satOk), ops⟩

/-- A special function of R215: fn below `lim`, and fn[2:1] ≠ 3 for `gelu`. -/
def sfShape (o : V) (lim : Nat) : Shape :=
  ⟨isFlt o.ty && x2Ok o && o.fn.toNat < lim && o.plainMod, [wr .vec o.d, rd .vec o.a, no o.b, no o.c]⟩

/-- The kind of a conversion pair (R81). -/
inductive CvtKind where
  /-- between floating formats, rounded by the mode -/
  | round
  /-- between floating formats, exact -/
  | exact
  /-- float to integer -/
  | toInt
  /-- integer to float -/
  | fromInt
  /-- widening integer -/
  | widen
  /-- narrowing integer, or a change of signedness at equal width -/
  | narrow
  deriving DecidableEq, Repr

/-- Width in bits of the type of a code 0-12 (R147). -/
def tyBits (t : Nat) : Nat :=
  match t with
  | 0 => 8 | 1 => 16 | 2 => 32 | 3 => 64 | 4 => 8 | 5 => 16 | 6 => 32 | 7 => 64
  | 8 => 32 | 9 => 16 | 10 => 16 | 11 => 8 | 12 => 8 | _ => 0

/-- Elements of a type in a conversion's register: E(t) of R211. -/
def elemsOf (t : Nat) : Nat :=
  match tyBits t with
  | 8 => 4 | 16 => 2 | _ => 1

/-- The conversions of R81. -/
def cvtKind (st dt : Nat) : Option CvtKind :=
  if st == dt then none
  else if st < 8 && dt < 8 then some (if tyBits st < tyBits dt then .widen else .narrow)
  else if st < 8 then (if isFlt dt then some .fromInt else none)
  else if dt < 8 then (if isFlt st then some .toInt else none)
  else if st == 8 then (if dt ≤ 12 then some .round else none)
  else if st == 9 || st == 10 then
    (if dt == 8 then some .exact else if dt ≤ 12 then some .round else none)
  else if st == 11 || st == 12 then
    (if isFlt dt then some .exact else if dt ≤ 12 then some .round else none)
  else none

/-- mod[2:0] of a conversion (R211).  From an integer to a float `.sat` is accepted, and an overflow then gives ±M (DEDUCED, log 63). -/
def cvtModOk (k : CvtKind) (o : V) : Bool :=
  match k with
  | .round | .fromInt => true
  | .exact | .widen   => o.plainMod
  | .toInt            => !o.sat
  | .narrow           => o.rnd == 0

/-- The pairs of `cvts` (R212). -/
def cvtsPair (st dt : Nat) : Bool :=
  (st == 8 && (dt == 10 || dt == 11 || dt == 12)) || ((st == 9 || st == 10) && (dt == 11 || dt == 12))

/-- `cvt` and `cvts` (R211, R212): s and k multiples of n below the element counts; d is read where it keeps elements. -/
def cvtShape (o : V) (sto : Bool) : Shape :=
  let st := o.fn.toNat % 16
  let dt := o.ty
  let s := o.fn.toNat / 16 % 4
  let k := o.fn.toNat / 64
  let n := min (elemsOf st) (elemsOf dt)
  let okPair := match cvtKind st dt with
    | none => false
    | some kind => cvtModOk kind o && (!sto || (cvtsPair st dt && o.rnd == 0))
  ⟨st ≤ 12 && dt ≤ 12 && okPair && s < elemsOf st && s % n == 0 && k < elemsOf dt && k % n == 0,
   [⟨if wide dt then .pair else .vec, n * tyBits dt < 32, o.d⟩, rd (if wide st then .pair else .vec) o.a, no o.b, no o.c]⟩

/-- `pack` (R213). -/
def packShape (o : V) : Shape :=
  let st := o.fn.toNat % 16
  let dt := o.ty
  let fn := o.fn.toNat
  let okPair := if st == dt then (st == 9 || st == 10) && o.plainMod
    else match cvtKind st dt with
      | some k => cvtModOk k o
      | none => false
  ⟨9 ≤ dt && dt ≤ 12 && isFlt st && okPair && (fn / 16 % 2 == 0 || 11 ≤ dt) && (fn / 32 % 4 == 0 || st != 8) && fn < 128,
   [wr .vec o.d, rd .vec o.a, rd .vec o.b, if 11 ≤ dt then rd .vec o.c else no o.c]⟩

/-- `redl` and `scanl` (R231). -/
def redShape (o : V) (scan : Bool) : Shape :=
  let op := o.fn.toNat % 8
  let x2 := o.fn.toNat / 8 % 2 == 1
  let excl := o.fn.toNat / 16 % 2 == 1
  let modOk := if op == 0 then isFlt o.ty || o.rnd == 0 else o.plainMod
  ⟨(isInt o.ty && op < 6 || isFlt o.ty && op < 3) && (!x2 || o.ty == 9 || o.ty == 10) && (!excl || scan) && o.fn.toNat < 32 && modOk,
   [wr (tcls o.ty) o.d, rd (tcls o.ty) o.a, no o.b, no o.c]⟩

/-- The class of a row-statistics partial: a quad, or a pair under `.rms` (R233). -/
def partCls (rms : Bool) : OpClass := if rms then .pair else .quad

/-- `rstat` (R233). -/
def rstatShape (o : V) : Shape :=
  let rms := o.fn.toNat % 2 == 1
  let acc := o.fn.toNat / 2 % 2 == 1
  let mode := o.fn.toNat / 4 % 4
  ⟨mode < 3 && o.fn.toNat < 16 && o.plainMod && (if mode == 2 then o.ty == 8 else isFlt o.ty),
   [wr (partCls rms) o.d, rd (if mode == 2 then partCls rms else .vec) o.a, no o.b, if acc then rd (partCls rms) o.c else no o.c]⟩

/-- The class of d by access size (R149). -/
def szCls (sz : Nat) : OpClass :=
  match sz with
  | 3 => .pair | 8 => .pair | 4 => .quad | _ => .vec

/-- Scope and ordering of a load, store or cache operation (R116): plain means scope 0. -/
def ordOk (ord sc : Nat) (strong : Nat → Bool) : Bool :=
  if ord == 0 then sc == 0 else strong ord && sc ≤ 4

/-- A load (R235). -/
def loadShape (o : M) (base : OpClass) (strong : Bool) (copLim : Nat) : Shape :=
  ⟨o.sz.toNat ≤ 6 && ordOk o.ord.toNat o.sc.toNat (fun r => strong && r ≤ 2) && o.cop.toNat < copLim,
   [wr (szCls o.sz.toNat) o.d, rd base o.a, no o.b]⟩

/-- A store (R235); `full` for `stse`, whose b is a line-state code. -/
def storeShape (o : M) (base : OpClass) (cs full : Bool) : Shape :=
  ⟨o.sz.toNat ≤ 4 && ordOk o.ord.toNat o.sc.toNat (fun r => r == 1 || r == 3) && (o.cop.toNat == 0 || (cs && o.cop.toNat == 2)) &&
     (!full || o.b.toNat < 2),
   [rd (szCls o.sz.toNat) o.d, rd base o.a] ++ (if full then [] else [no o.b])⟩

/-- A cache operation with its cop value (R242). -/
def cacheShape (o : M) (cops : Nat → Bool) : Shape :=
  ⟨o.sz.toNat == 0 && o.ord.toNat == 0 && o.sc.toNat == 0 && cops o.cop.toNat, [no o.d, rd .pair o.a, no o.b]⟩

/-- Access sizes of `atom`, `red` and `atoms` (R244). -/
def atomSz (sz : Nat) : Bool := sz == 2 || sz == 3 || sz == 7 || sz == 8 || sz == 9

/-- Operations of an atomic by its size (R244). -/
def aopOk (aop sz : Nat) : Bool := if sz == 9 then aop ≤ 2 || aop == 6 else aop ≤ 8

/-- An atomic other than compare-and-swap (R244); `red` has no destination. -/
def atomShape (o : MA) (base : OpClass) (isRed : Bool) : Shape :=
  ⟨atomSz o.sz.toNat && aopOk o.aop.toNat o.sz.toNat && o.cop.toNat == 0 && o.sc.toNat ≤ 4 &&
     (if isRed then o.ord.toNat ≤ 1 || o.ord.toNat == 3 else o.ord.toNat ≤ 4),
   [if isRed then no o.d else wr (szCls o.sz.toNat) o.d, rd base o.a, rd (szCls o.sz.toNat) o.b]⟩

/-- `atomcas` and `atomscas` (R244). -/
def casShape (o : MA) (base : OpClass) : Shape :=
  ⟨(o.sz.toNat == 2 || o.sz.toNat == 3) && o.aop.toNat == 0 && o.cop.toNat == 0 && o.sc.toNat ≤ 4 && o.ord.toNat ≤ 4,
   [wr (szCls o.sz.toNat) o.d, rd base o.a, rd (if o.sz.toNat == 2 then .pair else .quad) o.b]⟩

/-- The object name of an S-format instruction (R150): idx below `lim`, or register a. -/
def S.nameOk (o : S) (lim : Nat) : Bool := if o.ind then o.idx.toNat == 0 else o.idx.toNat < lim
/-- Register a of an S-format instruction that names an object (R150). -/
def S.nameReg (o : S) : Opnd := if o.ind then rd .vec o.a else no o.a
/-- idx and ind are not used. -/
def S.noName (o : S) : Bool := o.idx.toNat == 0 && !o.ind

/-- An instruction that names an object: number limit, mod and imm16 accepted, d and b. -/
def nameShape (o : S) (lim : Nat) (ok : Bool) (d b : Opnd) : Shape := ⟨o.nameOk lim && ok, [d, o.nameReg, b]⟩

/-- A copy instruction (R254). -/
def copyShape (o : S) (modOk : Bool) (d : Opnd) : Shape :=
  ⟨!o.ind && o.imm.toNat == 0 && modOk && o.mod.toNat < 16 && (if o.mod.toNat / 2 % 2 == 1 then o.idx.toNat == 0 else o.idx.toNat < 32),
   [d, rd .pair o.a, rd .quad o.b]⟩

/-- A control instruction (R197). -/
def bShape (ok : Bool) (a : Opnd) : Shape := ⟨ok, [a]⟩

/-- A system instruction of the S format with idx, ind and imm16 zero (R367, R395, R406, R427). -/
def sysShape (o : S) (modOk : Bool) (d a b : Opnd) : Shape := ⟨o.noName && o.imm.toNat == 0 && modOk, [d, a, b]⟩

/-- Width, required level (1 supervisor, 2 machine) and read-only of each CSR (R342). -/
def csrInfo (n : Nat) : Option (Nat × Nat × Bool) :=
  if n == 0x000 then some (32, 1, true)
  else if n == 0x001 then some (64, 1, true)
  else if n == 0x002 then some (64, 2, false)
  else if n == 0x003 then some (32, 1, true)
  else if n == 0x004 then some (32, 2, false)
  else if n == 0x010 then some (64, 1, false)
  else if n == 0x011 then some (64, 2, false)
  else if n == 0x012 then some (64, 2, false)
  else if n == 0x013 then some (64, 1, true)
  else if n == 0x014 then some (32, 2, false)
  else if n == 0x020 then some (64, 1, false)
  else if n == 0x030 then some (64, 1, false)
  else if n == 0x040 then some (32, 1, true)
  else if 0x050 ≤ n && n ≤ 0x057 then some (64, 2, false)
  else if n == 0x060 then some (32, 1, true)
  else none

/-- The class of a CSR's value (R343). -/
def csrCls (w : Nat) : OpClass := if w == 64 then .pair else .vec

/-- `csrw` in one of its modes (R343): CSR `partcfg` has the constructor `partcfgApply` to itself. -/
def csrwShape (o : S) (modOk : Bool) (numOk : Bool) : Shape :=
  match csrInfo o.imm.toNat with
  | none => ⟨false, []⟩
  | some (w, _, ro) =>
    ⟨o.noName && modOk && o.mod.toNat < 8 && !ro && numOk,
     [if o.mod.toNat / 4 == 1 then wr (csrCls w) o.d else no o.d, rd (csrCls w) o.a, no o.b]⟩

/-- The literal's wait and signal fields are zero (R152, R297). -/
def X.noWait (o : X) : Bool := o.wsem.toNat == 0 && o.wthr.toNat == 0
/-- The literal's signal fields are zero. -/
def X.noSig (o : X) : Bool := o.ssem.toNat == 0 && o.sinc.toNat == 0
/-- The port field of R298. -/
def X.portOk (o : X) (sweep : Bool) : Bool :=
  let low := o.low.toNat
  let f := low / 256 % 2 == 1
  let lt := low / 1024 % 16
  low < 2 ^ 14 && (!sweep || (low / 512 % 2 == 0 && lt == 0)) &&
    (if f then low % 256 < 64 && (sweep || (2 ≤ lt && lt ≤ 11)) else lt == 0)
/-- A feeder is named whose link type is not MX (R297). -/
def X.plainFeeder (o : X) : Bool :=
  let lt := o.low.toNat / 1024 % 16
  o.low.toNat / 256 % 2 == 1 && !(8 ≤ lt && lt ≤ 10)

/-- A launch or task instruction: wait and signal reserved (R309). -/
def taskShape (o : X) (ok : Bool) (ops : List Opnd) : Shape := ⟨o.noWait && o.noSig && ok, ops⟩

/-! ### Every instruction -/

/-- What each instruction accepts.  Event rows have no word; they are accepted as they are. -/
def shape : Instr → Shape
  | .iadd _ o | .isub _ o => viShape o isInt (fun _ => true) (· == 0) false
  | .imul _ o => viShape o isInt (· == 0) (· < 2) false
  | .imad _ o | .isad _ o =>
    ivShape o isInt true (o.fn.toNat == 0) [wr (tcls o.ty) o.d, rd (tcls o.ty) o.a, rd (tcls o.ty) o.b, rd (tcls o.ty) o.c]
  | .imulw _ o => ivShape o (fun t => t == 2 || t == 6) false (o.fn.toNat == 0) [wr .pair o.d, rd .vec o.a, rd .vec o.b, no o.c]
  | .imin _ o | .imax _ o => viShape o isInt (fun _ => false) (· == 0) false
  | .iabs _ o => ivShape o isBits true (o.fn.toNat == 0) [wr (tcls o.ty) o.d, rd (tcls o.ty) o.a, no o.b, no o.c]
  | .iclamp _ o =>
    ivShape o isInt false (o.fn.toNat == 0) [wr (tcls o.ty) o.d, rd (tcls o.ty) o.a, rd (tcls o.ty) o.b, rd (tcls o.ty) o.c]
  | .iaddc _ o =>
    ivShape o (fun t => t == 6 || t == 7) false (o.fn.toNat < 16) [wr (tcls o.ty) o.d, rd (tcls o.ty) o.a, rd (tcls o.ty) o.b, rd .psrc o.c]
  | .lea _ o => ivShape o (fun t => t == 2 || t == 6) false (o.fn.toNat < 8) [wr .pair o.d, rd .pair o.a, rd .vec o.b, no o.c]
  | .and _ o | .or _ o | .xor _ o => viShape o isBits (fun _ => false) (· < 2) false
  | .lop3 _ o => ivShape o isBits false true [wr (tcls o.ty) o.d, rd (tcls o.ty) o.a, rd (tcls o.ty) o.b, rd (tcls o.ty) o.c]
  | .shl _ o | .shr _ o | .sar _ o => viShape o isBits (fun _ => false) (· == 0) true
  | .fshf _ o => ivShape o (· == 2) false (o.fn.toNat < 2) [wr .vec o.d, rd .vec o.a, rd .vec o.b, rd .vec o.c]
  | .bfx _ o => ivShape o isInt false (o.fn.toNat == 0) [wr (tcls o.ty) o.d, rd (tcls o.ty) o.a, rd .vec o.b, no o.c]
  | .bfi _ o => ivShape o isBits false (o.fn.toNat == 0) [wr (tcls o.ty) o.d, rd (tcls o.ty) o.a, rd (tcls o.ty) o.b, rd .vec o.c]
  | .popc _ o | .clz _ o => ivShape o isBits false (o.fn.toNat == 0) [wr .vec o.d, rd (tcls o.ty) o.a, no o.b, no o.c]
  | .brev _ o => ivShape o isBits false (o.fn.toNat == 0) [wr (tcls o.ty) o.d, rd (tcls o.ty) o.a, no o.b, no o.c]
  | .icmp _ o => icmpShape o
  | .sel _ o => ivShape o isBits false (o.fn.toNat == 0) [wr (tcls o.ty) o.d, rd (tcls o.ty) o.a, rd (tcls o.ty) o.b, rd .psrc o.c]
  | .idp4 _ o | .idp2 _ o => ivShape o (· == 2) true (o.fn.toNat < 4) [wr .vec o.d, rd .vec o.a, rd .vec o.b, rd .vec o.c]
  | .fadd _ o | .fsub _ o | .fmul _ o | .fdiv _ o | .fscale _ o => fShape o true [wr .vec o.d, rd .vec o.a, rd .vec o.b, no o.c]
  | .ffma _ o => fShape o true [wr .vec o.d, rd .vec o.a, rd .vec o.b, rd .vec o.c]
  | .frnd _ o | .fsqrt _ o => fShape o false [wr .vec o.d, rd .vec o.a, no o.b, no o.c]
  | .fmin _ o | .fmax _ o =>
    ⟨isFlt o.ty && x2Ok o && o.fn.toNat < 4 && o.plainMod, [wr .vec o.d, rd .vec o.a, rd .vec o.b, no o.c]⟩
  | .fcmp _ o =>
    ⟨isFlt o.ty && o.plainMod && o.fn.toNat < 64 && (o.fn.toNat < 32 || o.ty != 8),
     [wr .pdst o.d, rd .vec o.a, rd .vec o.b, if o.fn.toNat / 8 % 4 == 0 then no o.c else rd .psrc o.c]⟩
  | .fclass _ o =>
    ⟨8 ≤ o.ty && o.ty ≤ 12 && o.plainMod && o.fn.toNat < elemsOf o.ty, [wr .vec o.d, rd .vec o.a, no o.b, no o.c]⟩
  | .cvt _ o => cvtShape o false
  | .cvts _ o => cvtShape o true
  | .pack _ o => packShape o
  | .hdp2 _ o =>
    ⟨(o.ty == 9 || o.ty == 10) && o.fn.toNat == 0, [wr .vec o.d, rd .vec o.a, rd .vec o.b, rd .vec o.c]⟩
  | .frcp _ o | .frsq _ o | .fexp2 _ o | .flog2 _ o | .fsin _ o | .fcos _ o | .ftanh _ o | .fsig _ o | .ferf _ o => sfShape o 2
  | .gelu _ o => sfShape o 6
  | .sfn _ o =>
    ⟨isFlt o.ty && o.plainMod && o.fn.toNat < 32 && (o.fn.toNat < 16 || o.ty != 8), [wr .vec o.d, rd .vec o.a, no o.b, no o.c]⟩
  | .sfnld _ o => ⟨o.mod.toNat == 0 && o.fn.toNat < 16, [no o.d, rd .pair o.a, no o.b, no o.c]⟩
  | .sfnsw _ o => ⟨o.mod.toNat == 0 && o.fn.toNat == 0, [no o.d, no o.a, no o.b, no o.c]⟩
  | .mxq _ o | .mxdq _ o =>
    ⟨13 ≤ o.ty && o.plainMod && o.fn.toNat == 0, [wr .vec o.d, rd .vec o.a, no o.b, no o.c]⟩
  | .shfl _ o =>
    ⟨isBits o.ty && o.plainMod && o.fn.toNat < 32 && o.fn.toNat / 4 < 6,
     [wr (tcls o.ty) o.d, rd (tcls o.ty) o.a, if o.fn.toNat % 4 == 3 then no o.b else rd .vec o.b, wr .pdst o.c]⟩
  | .vote _ o =>
    ⟨o.mod.toNat == 0 && o.fn.toNat ≤ 4, [wr (if o.fn.toNat == 4 then .pair else .pdst) o.d, rd .psrc o.a, no o.b, no o.c]⟩
  | .redl _ o => redShape o false
  | .scanl _ o => redShape o true
  | .laneMatch _ o =>
    ⟨isBits o.ty && o.plainMod && o.fn.toNat < 2,
     [wr .pair o.d, rd (tcls o.ty) o.a, no o.b, if o.fn.toNat == 1 then wr .pdst o.c else no o.c]⟩
  | .rstat _ o => rstatShape o
  | .rstatf _ o =>
    ⟨o.mod.toNat == 0x40 && o.fn.toNat < 2,
     [wr (partCls (o.fn.toNat == 1)) o.d, rd (partCls (o.fn.toNat == 1)) o.a, rd .vec o.b, no o.c]⟩
  | .mov _ o =>
    let c : OpClass := if o.fn.toNat == 0 then .vec else if o.fn.toNat == 1 then .pair else .quad
    ⟨o.mod.toNat == 0 && o.fn.toNat < 3, [wr c o.d, rd c o.a, no o.b, no o.c]⟩
  | .movi _ o => ⟨isInt o.ty && !o.sat && o.fn.toNat == 0 && litOk o false, [wr (tcls o.ty) o.d, no o.a]⟩
  | .pops _ o => ⟨o.mod.toNat == 0 && o.fn.toNat < 5, [wr .pdst o.d, rd .psrc o.a, rd .psrc o.b, no o.c]⟩
  | .p2v _ o => ⟨o.mod.toNat == 0 && o.fn.toNat == 0, [wr .vec o.d, no o.a, no o.b, no o.c]⟩
  | .v2p _ o => ⟨o.mod.toNat == 0 && o.fn.toNat < 128, [no o.d, rd .vec o.a, no o.b, no o.c]⟩
  | .srd _ o =>
    ⟨o.noName && o.mod.toNat == 0 && o.imm.toNat < 13,
     [wr (if o.imm.toNat == 10 || o.imm.toNat == 11 then .pair else .vec) o.d, no o.a, no o.b]⟩
  | .swr _ o =>
    ⟨o.mod.toNat == 0 && o.fn.toNat < 2,
     [if o.fn.toNat == 1 then wr .vec o.d else no o.d, if o.fn.toNat == 0 then rd .vec o.a else no o.a, no o.b, no o.c]⟩
  | .ld _ o => loadShape o .pair true 3
  | .st _ o => storeShape o .pair true false
  | .lds _ o => loadShape o .vec true 1
  | .sts _ o => storeShape o .vec false false
  | .stse _ o => storeShape o .vec false true
  | .ldc _ o => loadShape o .vec false 1
  | .pref _ o => cacheShape o (· < 2)
  | .cinvL1 _ o => cacheShape o (· == 0)
  | .cinvL1all _ o =>
    ⟨o.sz.toNat == 0 && o.ord.toNat == 0 && o.sc.toNat == 0 && o.cop.toNat == 1 && o.off.toNat == 0, [no o.d, no o.a, no o.b]⟩
  | .cinvNear _ o => cacheShape o (· == 2)
  | .cwbHome _ o => cacheShape o (· == 0)
  | .cwbMem _ o => cacheShape o (· == 1)
  | .cwbInv _ o => cacheShape o (· == 2)
  | .atom _ o => atomShape o .pair false
  | .atomcas _ o => casShape o .pair
  | .red _ o => atomShape o .pair true
  | .atoms _ o => atomShape o .vec false
  | .atomscas _ o => casShape o .vec
  | .fence _ o =>
    ⟨o.sz.toNat == 0 && o.cop.toNat == 0 && o.off.toNat == 0 && o.sc.toNat ≤ 4 && 2 ≤ o.ord.toNat && o.ord.toNat ≤ 5,
     [no o.d, no o.a, no o.b]⟩
  | .barinit _ o => nameShape o 32 (o.mod.toNat == 0) (no o.d) (no o.b)
  | .bararv _ o =>
    nameShape o 32 (o.mod.toNat < 2 && o.imm.toNat == 0) (if o.mod.toNat == 1 then wr .vec o.d else no o.d) (no o.b)
  | .barsync _ o => nameShape o 32 (o.mod.toNat == 0) (wr .pdst o.d) (no o.b)
  | .barexp _ o =>
    nameShape o 32 (o.mod.toNat < 4 && (o.mod.toNat % 2 == 0 || o.imm.toNat == 0)) (no o.d)
      (if o.mod.toNat % 2 == 1 then rd .vec o.b else no o.b)
  | .barwait _ o => nameShape o 32 (o.mod.toNat == 0 && o.imm.toNat == 0) (wr .pdst o.d) (rd .vec o.b)
  | .barinv _ o => nameShape o 32 (o.mod.toNat == 0 && o.imm.toNat == 0) (no o.d) (no o.b)
  | .tcopy _ o => copyShape o (o.mod.toNat / 4 < 3) (if o.mod.toNat / 4 == 0 then no o.d else rd .pair o.d)
  | .tstore _ o => copyShape o (o.mod.toNat % 2 == 0 && o.mod.toNat / 4 < 3) (if o.mod.toNat / 4 == 0 then no o.d else rd .pair o.d)
  | .tgather _ o => copyShape o (o.mod.toNat / 4 == 0) (rd .vec o.d)
  | .opmclm _ o | .opmrel _ o => nameShape o 16 (o.mod.toNat == 0 && o.imm.toNat == 0) (no o.d) (no o.b)
  | .tcancel _ o =>
    ⟨!o.ind && o.imm.toNat == 0 && o.mod.toNat < 2 && (if o.mod.toNat == 1 then o.idx.toNat == 0 else o.idx.toNat < 32),
     [wr .vec o.d, no o.a, no o.b]⟩
  | .bra _ o | .call _ o | .trap _ o | .bkpt _ o => bShape (o.k.toNat == 0) (no o.a)
  | .brx _ o | .callx _ o => bShape (o.k.toNat == 0 && o.off.toNat == 0) (rd .pair o.a)
  | .brvote _ o => bShape (o.k.toNat < 4) (rd .psrc o.a)
  | .ret _ o | .exit _ o | .nop _ o | .yield _ o => bShape (o.k.toNat == 0 && o.off.toNat == 0) (no o.a)
  | .rsopen _ o => ⟨o.noName && o.mod.toNat == 0 && o.imm.toNat == 0, [wr .vec o.d, no o.a, no o.b]⟩
  | .rsenter _ o | .rsquit _ o | .rsarv _ o | .rswait _ o | .rsfree _ o =>
    nameShape o 32 (o.mod.toNat == 0 && o.imm.toNat == 0) (no o.d) (no o.b)
  | .rsget _ o => nameShape o 32 (o.mod.toNat < 4 && o.imm.toNat == 0) (wr (if o.mod.toNat == 3 then .vec else .pair) o.d) (no o.b)
  | .rsput _ o => nameShape o 32 (o.mod.toNat == 0 && o.imm.toNat == 0) (rd .pair o.d) (rd .pair o.b)
  | .spxenter _ o => ⟨o.noWait && o.noSig && o.op.toNat == 0 && o.low.toNat == 0, [no o.d, rd .pair o.a, no o.b]⟩
  | .spxleave _ o => ⟨o.noWait && o.noSig && o.op.toNat == 0 && o.low.toNat == 0, [no o.d, no o.a, no o.b]⟩
  | .spxstrm _ o => ⟨o.op.toNat == 0 && o.portOk false, [if o.plainFeeder then no o.d else rd .pair o.d, rd .pair o.a, rd .quad o.b]⟩
  | .spxsem _ o =>
    ⟨o.op.toNat < 2 && o.low.toNat < (if o.op.toNat == 1 then 256 else 1),
     [if o.op.toNat == 1 then wr .vec o.d else no o.d, no o.a, no o.b]⟩
  | .spxsweep _ o =>
    ⟨o.op.toNat < 2 && (if o.op.toNat == 1 then o.low.toNat == 0 else o.portOk true),
     [no o.d, if o.op.toNat == 1 then rd .pair o.a else no o.a, no o.b]⟩
  | .spxbar _ o => ⟨o.noWait && o.op.toNat == 0 && o.low.toNat == 0, [no o.d, no o.a, no o.b]⟩
  | .spxput _ o =>
    ⟨o.noWait && o.noSig && o.op.toNat < 3 && o.low.toNat < (if o.op.toNat == 0 then 65536 else 256),
     [no o.d, if o.op.toNat == 0 then rd .quad o.a else no o.a, if o.op.toNat == 0 then rd .quad o.b else no o.b]⟩
  | .spxget _ o =>
    ⟨o.noWait && o.noSig && o.op.toNat < 2 && o.low.toNat < 256,
     [wr .quad o.d, wr .vec o.a, if o.op.toNat == 1 then wr .quad o.b else no o.b]⟩
  | .spxstat _ o =>
    ⟨o.noWait && o.noSig && o.op.toNat < 4 && o.low.toNat < (if o.op.toNat % 2 == 1 then 256 else 1),
     [wr (if o.op.toNat % 2 == 1 then .vec else .pair) o.d, no o.a, no o.b]⟩
  | .launch _ o => taskShape o (o.op.toNat == 0 && o.low.toNat < 32) [wr .pair o.d, rd .pair o.a, no o.b]
  | .gateadd _ o | .gatewait _ o => taskShape o (o.op.toNat ≤ 4 && o.low.toNat == 0) [wr .pair o.d, rd .pair o.a, rd .pair o.b]
  | .matcharm _ o => taskShape o (o.op.toNat == 0 && o.low.toNat < 1024) [wr .vec o.d, rd .pair o.a, no o.b]
  | .msgsend _ o => taskShape o (o.op.toNat == 0 && o.low.toNat < 256 && o.low.toNat % 32 ≤ 16) [wr .vec o.d, rd .pair o.a, rd .pair o.b]
  | .csrr _ o =>
    match csrInfo o.imm.toNat with
    | none => ⟨false, []⟩
    | some (w, _, _) => ⟨o.noName && o.mod.toNat == 0, [wr (csrCls w) o.d, no o.a, no o.b]⟩
  | .csrw _ o => csrwShape o (o.mod.toNat % 4 == 0) (o.imm.toNat != 4)
  | .csrwSet _ o => csrwShape o (o.mod.toNat % 4 == 1) (o.imm.toNat != 4)
  | .csrwClr _ o => csrwShape o (o.mod.toNat % 4 == 2) (o.imm.toNat != 4)
  | .partcfgApply _ o => csrwShape o (o.mod.toNat % 4 < 3) (o.imm.toNat == 4)
  | .eretRes _ o => sysShape o (o.mod.toNat == 0) (no o.d) (no o.a) (no o.b)
  | .eretSkip _ o => sysShape o (o.mod.toNat == 1) (no o.d) (no o.a) (no o.b)
  | .eretTerm _ o => sysShape o (o.mod.toNat == 2) (no o.d) (no o.a) (no o.b)
  | .eretDefer _ o => sysShape o (o.mod.toNat == 3) (no o.d) (no o.a) (no o.b)
  | .tlbinvPage _ o => sysShape o (o.mod.toNat % 4 == 0 && o.mod.toNat < 8) (no o.d) (rd .pair o.a) (no o.b)
  | .tlbinvRange _ o => sysShape o (o.mod.toNat % 4 == 1 && o.mod.toNat < 8) (no o.d) (rd .pair o.a) (rd .vec o.b)
  | .tlbinvAll _ o => sysShape o (o.mod.toNat % 4 == 2 && o.mod.toNat < 8) (no o.d) (no o.a) (no o.b)
  | .l2opProm _ o => sysShape o (o.mod.toNat == 0) (wr .vec o.d) (rd .pair o.a) (no o.b)
  | .l2opAdopt _ o => sysShape o (o.mod.toNat == 1) (wr .vec o.d) (rd .pair o.a) (rd .vec o.b)
  | .ctxsaveRec _ o => sysShape o (o.mod.toNat == 0) (wr .pair o.d) (rd .pair o.a) (rd .vec o.b)
  | .ctxsaveHerd _ o => sysShape o (o.mod.toNat == 1) (wr .pair o.d) (rd .pair o.a) (rd .vec o.b)
  | .ctxload _ o => sysShape o (o.mod.toNat == 0) (wr .vec o.d) (rd .pair o.a) (no o.b)
  | .packhalt _ o => sysShape o (o.mod.toNat == 0) (wr .vec o.d) (no o.a) (rd .vec o.b)
  | .packhaltHerd _ o => sysShape o (o.mod.toNat == 1) (wr .vec o.d) (no o.a) (rd .vec o.b)
  | .packhaltKill _ o => sysShape o (o.mod.toNat == 2) (wr .vec o.d) (no o.a) (rd .vec o.b)
  | .packresume _ o => sysShape o (o.mod.toNat < 2) (wr .vec o.d) (no o.a) (rd .vec o.b)
  | .whistle _ o => sysShape o (o.mod.toNat == 0) (wr .vec o.d) (no o.a) (rd .vec o.b)
  | .pwrlsRd _ o => sysShape o (o.mod.toNat == 0) (wr .vec o.d) (rd .vec o.a) (no o.b)
  | .pwrlsSet _ o => sysShape o (o.mod.toNat == 1) (wr .vec o.d) (rd .vec o.a) (rd .vec o.b)
  | .storePerform _ _ | .packFault _ _ | .handlerWake _ _ | .starvationPriority _ | .slotRotation _ | .heldPath _
  | .orphanedRejoinSet _ | .barrierTimeout _ | .gatewaitReread _ | .copyLineLanding _ _ _ | .copyFault _ _ _
  | .copyRequest _ _ | .herdPlacement _ _ _ | .herdResumption _ _ _ _ | .gateObservation _ _ | .agingLevel _ _
  | .backfillStop _ | .priorityPreemption _ | .herdSave _ | .validateStallPreemption _ | .regionParking _ | .leaseGrant _
  | .mouldInstall _ | .residencyDrained _ | .whistleCut _ | .cellWhistle _ _ | .whistleCutComplete _
  | .launchCompletion _ _ | .completionMessageDrop _ _ | .herdEnd _ | .feederDelivery _ _ | .commandBegin _ _
  | .commandComplete _ _ | .sweepGroupBegin _ _ | .portFault _ _ | .quiescentPoint _ | .pass _ _ | .fork _ _
  | .merge _ _ | .filter _ _ | .cnt _ _ | .alu _ _ | .fmac _ _ | .sfu _ _ | .cvtCell _ _ | .rstatCell _ _ | .macs _ _
  | .cmpx _ _ | .agen _ _ | .mpld _ _ | .mpst _ _ | .spld _ _ | .spst _ _ | .gath _ _ | .rqst _ _ | .tas _ _
  | .accd _ _ | .sems _ _ | .pageWalk _ _ _ | .walkRetry _ _ | .relatchToken _ _ | .promotionRequest _
  | .lineRequest _ _ _ | .nearCopyEviction _ _ | .readGrantRequest _ _ | .exclusiveGrantRequest _ _
  | .revokeAcknowledgment _ _ _ | .agentFailed _ | .linkDown _ | .kmtHello _ _ | .kmtMessage _ _ _
  | .segmentReceive _ _ _ | .segmentAck _ | .ackTimer _ _ | .segmentResend _ _ | .hello _ | .telemetry | .logread _
  | .fwload _ | .reset _ | .kill _ _ | .debug _ _ | .power _ | .attest _ | .memrw _ _ _ | .genkey | .secstate _
  | .powerOn | .deviceReset | .partitionReset _ | .boot | .criticalTemperature _ | .idleEntry | .wake
  | .correctableError _ | .uncorrectableError _ | .parityError _ _ _ _ | .linkUp _ | .kiopFlitReceive _ _ _
  | .remoteHomeAnswer _ _ | .remoteHomeRevoke _ _ | .signedImageFetched _ => ⟨true, []⟩

/-- The fields of an instruction word by format (R145). -/
inductive Body where
  | v (o : V)
  | i (o : I)
  | m (o : M)
  | ma (o : MA)
  | b (o : B)
  | s (o : S)
  | x (o : X)
  deriving DecidableEq, Repr

/-- The body of a V/I opcode. -/
def VI.body : VI → Body
  | .v o => .v o
  | .i o => .i o

/-- The primary opcode (R153), the guard fields and the body of an instruction row; an event row has none. -/
def parts : Instr → Option (Nat × Head × Body)
  | .iadd h o => some (0x01, h, o.body)
  | .isub h o => some (0x02, h, o.body)
  | .imul h o => some (0x03, h, o.body)
  | .imad h o => some (0x04, h, .v o)
  | .imulw h o => some (0x05, h, .v o)
  | .imin h o => some (0x06, h, o.body)
  | .imax h o => some (0x07, h, o.body)
  | .iabs h o => some (0x08, h, .v o)
  | .iclamp h o => some (0x09, h, .v o)
  | .isad h o => some (0x0A, h, .v o)
  | .iaddc h o => some (0x0B, h, .v o)
  | .lea h o => some (0x0C, h, .v o)
  | .and h o => some (0x0D, h, o.body)
  | .or h o => some (0x0E, h, o.body)
  | .xor h o => some (0x0F, h, o.body)
  | .lop3 h o => some (0x10, h, .v o)
  | .shl h o => some (0x11, h, o.body)
  | .shr h o => some (0x12, h, o.body)
  | .sar h o => some (0x13, h, o.body)
  | .fshf h o => some (0x14, h, .v o)
  | .bfx h o => some (0x15, h, .v o)
  | .bfi h o => some (0x16, h, .v o)
  | .popc h o => some (0x17, h, .v o)
  | .clz h o => some (0x18, h, .v o)
  | .brev h o => some (0x19, h, .v o)
  | .icmp h o => some (0x1A, h, o.body)
  | .sel h o => some (0x1B, h, .v o)
  | .idp4 h o => some (0x1C, h, .v o)
  | .idp2 h o => some (0x1D, h, .v o)
  | .fadd h o => some (0x20, h, .v o)
  | .fsub h o => some (0x21, h, .v o)
  | .fmul h o => some (0x22, h, .v o)
  | .ffma h o => some (0x23, h, .v o)
  | .fmin h o => some (0x24, h, .v o)
  | .fmax h o => some (0x25, h, .v o)
  | .fcmp h o => some (0x26, h, .v o)
  | .fclass h o => some (0x27, h, .v o)
  | .frnd h o => some (0x28, h, .v o)
  | .fscale h o => some (0x29, h, .v o)
  | .cvt h o => some (0x2A, h, .v o)
  | .cvts h o => some (0x2B, h, .v o)
  | .pack h o => some (0x2C, h, .v o)
  | .hdp2 h o => some (0x2D, h, .v o)
  | .frcp h o => some (0x2E, h, .v o)
  | .frsq h o => some (0x2F, h, .v o)
  | .fsqrt h o => some (0x30, h, .v o)
  | .fdiv h o => some (0x31, h, .v o)
  | .fexp2 h o => some (0x32, h, .v o)
  | .flog2 h o => some (0x33, h, .v o)
  | .fsin h o => some (0x34, h, .v o)
  | .fcos h o => some (0x35, h, .v o)
  | .ftanh h o => some (0x36, h, .v o)
  | .fsig h o => some (0x37, h, .v o)
  | .ferf h o => some (0x38, h, .v o)
  | .gelu h o => some (0x39, h, .v o)
  | .sfn h o => some (0x3A, h, .v o)
  | .sfnld h o => some (0x3B, h, .v o)
  | .sfnsw h o => some (0x3C, h, .v o)
  | .mxq h o => some (0x3D, h, .v o)
  | .mxdq h o => some (0x3E, h, .v o)
  | .shfl h o => some (0x40, h, .v o)
  | .vote h o => some (0x41, h, .v o)
  | .redl h o => some (0x42, h, .v o)
  | .scanl h o => some (0x43, h, .v o)
  | .laneMatch h o => some (0x44, h, .v o)
  | .rstat h o => some (0x45, h, .v o)
  | .rstatf h o => some (0x46, h, .v o)
  | .mov h o => some (0x50, h, .v o)
  | .movi h o => some (0x51, h, .i o)
  | .pops h o => some (0x52, h, .v o)
  | .p2v h o => some (0x53, h, .v o)
  | .v2p h o => some (0x54, h, .v o)
  | .srd h o => some (0x55, h, .s o)
  | .swr h o => some (0x56, h, .v o)
  | .ld h o => some (0x60, h, .m o)
  | .st h o => some (0x61, h, .m o)
  | .lds h o => some (0x62, h, .m o)
  | .sts h o => some (0x63, h, .m o)
  | .stse h o => some (0x64, h, .m o)
  | .ldc h o => some (0x65, h, .m o)
  | .pref h o => some (0x66, h, .m o)
  | .cinvL1 h o => some (0x67, h, .m o)
  | .cinvL1all h o => some (0x67, h, .m o)
  | .cinvNear h o => some (0x67, h, .m o)
  | .cwbHome h o => some (0x68, h, .m o)
  | .cwbMem h o => some (0x68, h, .m o)
  | .cwbInv h o => some (0x68, h, .m o)
  | .atom h o => some (0x80, h, .ma o)
  | .atomcas h o => some (0x81, h, .ma o)
  | .red h o => some (0x82, h, .ma o)
  | .atoms h o => some (0x83, h, .ma o)
  | .atomscas h o => some (0x84, h, .ma o)
  | .fence h o => some (0x85, h, .m o)
  | .barinit h o => some (0x90, h, .s o)
  | .bararv h o => some (0x91, h, .s o)
  | .barsync h o => some (0x92, h, .s o)
  | .barexp h o => some (0x93, h, .s o)
  | .barwait h o => some (0x94, h, .s o)
  | .barinv h o => some (0x95, h, .s o)
  | .tcopy h o => some (0x96, h, .s o)
  | .tstore h o => some (0x97, h, .s o)
  | .tgather h o => some (0x98, h, .s o)
  | .opmclm h o => some (0x99, h, .s o)
  | .opmrel h o => some (0x9A, h, .s o)
  | .tcancel h o => some (0x9B, h, .s o)
  | .bra h o => some (0xA0, h, .b o)
  | .brx h o => some (0xA1, h, .b o)
  | .brvote h o => some (0xA2, h, .b o)
  | .call h o => some (0xA3, h, .b o)
  | .callx h o => some (0xA4, h, .b o)
  | .ret h o => some (0xA5, h, .b o)
  | .exit h o => some (0xA6, h, .b o)
  | .trap h o => some (0xA7, h, .b o)
  | .bkpt h o => some (0xA8, h, .b o)
  | .nop h o => some (0xA9, h, .b o)
  | .yield h o => some (0xAA, h, .b o)
  | .rsopen h o => some (0xB0, h, .s o)
  | .rsenter h o => some (0xB1, h, .s o)
  | .rsquit h o => some (0xB2, h, .s o)
  | .rsarv h o => some (0xB3, h, .s o)
  | .rswait h o => some (0xB4, h, .s o)
  | .rsfree h o => some (0xB5, h, .s o)
  | .rsget h o => some (0xB6, h, .s o)
  | .rsput h o => some (0xB7, h, .s o)
  | .spxenter h o => some (0xC0, h, .x o)
  | .spxleave h o => some (0xC1, h, .x o)
  | .spxstrm h o => some (0xC2, h, .x o)
  | .spxsem h o => some (0xC3, h, .x o)
  | .spxsweep h o => some (0xC4, h, .x o)
  | .spxbar h o => some (0xC5, h, .x o)
  | .spxput h o => some (0xC6, h, .x o)
  | .spxget h o => some (0xC7, h, .x o)
  | .spxstat h o => some (0xC8, h, .x o)
  | .launch h o => some (0xD0, h, .x o)
  | .gateadd h o => some (0xD1, h, .x o)
  | .gatewait h o => some (0xD2, h, .x o)
  | .matcharm h o => some (0xD3, h, .x o)
  | .msgsend h o => some (0xD4, h, .x o)
  | .csrr h o => some (0xE0, h, .s o)
  | .csrw h o => some (0xE1, h, .s o)
  | .csrwSet h o => some (0xE1, h, .s o)
  | .csrwClr h o => some (0xE1, h, .s o)
  | .partcfgApply h o => some (0xE1, h, .s o)
  | .eretRes h o => some (0xE2, h, .s o)
  | .eretSkip h o => some (0xE2, h, .s o)
  | .eretTerm h o => some (0xE2, h, .s o)
  | .eretDefer h o => some (0xE2, h, .s o)
  | .tlbinvPage h o => some (0xE3, h, .s o)
  | .tlbinvRange h o => some (0xE3, h, .s o)
  | .tlbinvAll h o => some (0xE3, h, .s o)
  | .l2opProm h o => some (0xE4, h, .s o)
  | .l2opAdopt h o => some (0xE4, h, .s o)
  | .ctxsaveRec h o => some (0xE5, h, .s o)
  | .ctxsaveHerd h o => some (0xE5, h, .s o)
  | .ctxload h o => some (0xE6, h, .s o)
  | .packhalt h o => some (0xE7, h, .s o)
  | .packhaltHerd h o => some (0xE7, h, .s o)
  | .packhaltKill h o => some (0xE7, h, .s o)
  | .packresume h o => some (0xE8, h, .s o)
  | .whistle h o => some (0xE9, h, .s o)
  | .pwrlsRd h o => some (0xEA, h, .s o)
  | .pwrlsSet h o => some (0xEA, h, .s o)
  | .storePerform _ _ | .packFault _ _ | .handlerWake _ _ | .starvationPriority _ | .slotRotation _ | .heldPath _
  | .orphanedRejoinSet _ | .barrierTimeout _ | .gatewaitReread _ | .copyLineLanding _ _ _ | .copyFault _ _ _ | .copyRequest _ _
  | .herdPlacement _ _ _ | .herdResumption _ _ _ _ | .gateObservation _ _ | .agingLevel _ _ | .backfillStop _
  | .priorityPreemption _ | .herdSave _ | .validateStallPreemption _ | .regionParking _ | .leaseGrant _ | .mouldInstall _
  | .residencyDrained _ | .whistleCut _ | .cellWhistle _ _ | .whistleCutComplete _ | .launchCompletion _ _
  | .completionMessageDrop _ _ | .herdEnd _ | .feederDelivery _ _ | .commandBegin _ _ | .commandComplete _ _
  | .sweepGroupBegin _ _ | .portFault _ _ | .quiescentPoint _ | .pass _ _ | .fork _ _ | .merge _ _ | .filter _ _ | .cnt _ _
  | .alu _ _ | .fmac _ _ | .sfu _ _ | .cvtCell _ _ | .rstatCell _ _ | .macs _ _ | .cmpx _ _ | .agen _ _ | .mpld _ _ | .mpst _ _
  | .spld _ _ | .spst _ _ | .gath _ _ | .rqst _ _ | .tas _ _ | .accd _ _ | .sems _ _ | .pageWalk _ _ _ | .walkRetry _ _
  | .relatchToken _ _ | .promotionRequest _ | .lineRequest _ _ _ | .nearCopyEviction _ _ | .readGrantRequest _ _
  | .exclusiveGrantRequest _ _ | .revokeAcknowledgment _ _ _ | .agentFailed _ | .linkDown _ | .kmtHello _ _ | .kmtMessage _ _ _
  | .segmentReceive _ _ _ | .segmentAck _ | .ackTimer _ _ | .segmentResend _ _ | .hello _ | .telemetry | .logread _ | .fwload _
  | .reset _ | .kill _ _ | .debug _ _ | .power _ | .attest _ | .memrw _ _ _ | .genkey | .secstate _ | .powerOn | .deviceReset
  | .partitionReset _ | .boot | .criticalTemperature _ | .idleEntry | .wake | .correctableError _ | .uncorrectableError _
  | .parityError _ _ _ _ | .linkUp _ | .kiopFlitReceive _ _ _ | .remoteHomeAnswer _ _ | .remoteHomeRevoke _ _
  | .signedImageFetched _ => none

/-- The guard fields of an instruction row (R143). -/
def head (i : Instr) : Option Head := (parts i).map (fun p => p.2.1)

/-- The instruction has a second word, its literal (R142): every X-format instruction, and an I form with a literal. -/
def twoWords (i : Instr) : Bool :=
  match parts i with
  | some (_, _, .x _) => true
  | some (_, _, .i o) => o.lit.isSome
  | _ => false

/-- The bytes an instruction occupies (R142). -/
def size (i : Instr) : Nat := if twoWords i then 16 else 8

/-- g = 7 with gn = 1 is reserved (R143). -/
def Head.ok (h : Head) : Bool := !(h.gn && h.g.toNat == 7)

/-- The checks of R157 that depend on the word alone: `none` where the instruction passes every one of them. -/
def legal (i : Instr) : Option Reject :=
  let s := shape i
  if !(match head i with | none => true | some h => h.ok) then some .guard
  else if !s.ok then some .field
  else if !(s.ops.all Opnd.classOk) then some .register
  else none

/-- The numbers of the vector registers a field names (R146). -/
def Opnd.regs (o : Opnd) : List Nat := (List.range o.cls.regCount).map (o.reg.toNat + ·)

/-- Every vector register an instruction names, in any field (R19); `call`, `callx` and `ret` use v10 and v11 without a field (R198). -/
def namedRegs (i : Instr) : List Nat := (shape i).ops.flatMap Opnd.regs

/-- The vector registers an instruction reads (R428): the source fields, and v10:v11 for `ret`. -/
def sourceRegs (i : Instr) : List Nat :=
  ((shape i).ops.filter (·.src)).flatMap Opnd.regs ++ (match i with | .ret _ _ => [10, 11] | _ => [])

end Sys2Proof
end

