-- ==== Sys2Proof/WellFormed.lean ====
section
/-!
DEFINITION. A well-formed instruction: one whose word the K9 accepts (R157).
-/

namespace Sys2Proof

/-- The instruction passes every check of R157 that depends on its word. -/
abbrev Instr.WellFormed (i : Instr) : Prop := legal i = none

end Sys2Proof
end

