-- ==== Sys2Proof/Decode.lean ====
section
/-!
DEFINITION. Decoding (R142-R157): from a first word and the word after it, and from bytes, to an instruction or a named reason why the
word is none; the encoder; and the level that the word requires (R340, R342).
-/

namespace Sys2Proof

/-- The `n`-bit field of a word whose lowest bit is `lo`. -/
def fld (w lo n : Nat) : BitVec n := BitVec.ofNat n (w / 2 ^ lo)
/-- Bit `lo` of a word. -/
def bitAt (w lo : Nat) : Bool := w / 2 ^ lo % 2 == 1

/-- The guard fields (R143). -/
def unHead (w : Nat) : Head := ⟨fld w 52 3, bitAt w 51⟩
/-- The V format (R145). -/
def unV (w : Nat) : V := ⟨fld w 44 7, fld w 37 7, fld w 30 7, fld w 23 7, fld w 16 7, fld w 8 8, bitAt w 7⟩
/-- The I format (R145); the literal is present where x = 1 (R148). -/
def unI (w lit : Nat) : I :=
  ⟨fld w 44 7, fld w 37 7, fld w 32 5, fld w 16 16, fld w 8 8, bitAt w 7, if bitAt w 55 then some (BitVec.ofNat 64 lit) else none⟩
/-- A V/I opcode: bit 15 selects the form (R148). -/
def unVI (w lit : Nat) : VI := if bitAt w 15 then .i (unI w lit) else .v (unV w)
/-- The M format (R145). -/
def unM (w : Nat) : M := ⟨fld w 44 7, fld w 37 7, fld w 30 7, fld w 26 4, fld w 23 3, fld w 20 3, fld w 16 4, fld w 0 16⟩
/-- The MA format (R145). -/
def unMA (w : Nat) : MA := ⟨fld w 44 7, fld w 37 7, fld w 30 7, fld w 26 4, fld w 23 3, fld w 20 3, fld w 16 4, fld w 12 4, fld w 0 12⟩
/-- The B format (R145). -/
def unB (w : Nat) : B := ⟨fld w 44 7, fld w 40 4, fld w 0 32⟩
/-- The S format (R145). -/
def unS (w : Nat) : S := ⟨fld w 44 7, fld w 37 7, fld w 30 7, fld w 24 6, bitAt w 23, fld w 16 7, fld w 0 16⟩
/-- The X format, its first word and its literal (R145). -/
def unX (w lit : Nat) : X :=
  ⟨fld w 44 7, fld w 37 7, fld w 30 7, fld w 0 30, fld lit 56 8, fld lit 40 16, fld lit 32 8, fld lit 24 8, fld lit 0 24⟩

/-- What the format of a body leaves reserved is zero (R145), and x is as R148 and R152 allow it. -/
def formOk (w : Nat) : Body → Option Reject
  | .v _ => if bitAt w 55 then some .xbit else if w % 2 ^ 7 == 0 then none else some .format
  | .i _ => if w % 2 ^ 7 == 0 then none else some .format
  | .b _ => if bitAt w 55 then some .xbit else if w / 2 ^ 32 % 2 ^ 8 == 0 then none else some .format
  | .x _ => if bitAt w 55 then none else some .xbit
  | .m _ | .ma _ | .s _ => if bitAt w 55 then some .xbit else none

/-- The constructor an opcode names (R153), with the word's fields; opcodes that several rows share are told apart by cop or mod. -/
def ofOpcode (opc w lit : Nat) : Option Instr :=
  let h := unHead w
  match opc with
  | 0x01 => some (.iadd h (unVI w lit))
  | 0x02 => some (.isub h (unVI w lit))
  | 0x03 => some (.imul h (unVI w lit))
  | 0x04 => some (.imad h (unV w))
  | 0x05 => some (.imulw h (unV w))
  | 0x06 => some (.imin h (unVI w lit))
  | 0x07 => some (.imax h (unVI w lit))
  | 0x08 => some (.iabs h (unV w))
  | 0x09 => some (.iclamp h (unV w))
  | 0x0A => some (.isad h (unV w))
  | 0x0B => some (.iaddc h (unV w))
  | 0x0C => some (.lea h (unV w))
  | 0x0D => some (.and h (unVI w lit))
  | 0x0E => some (.or h (unVI w lit))
  | 0x0F => some (.xor h (unVI w lit))
  | 0x10 => some (.lop3 h (unV w))
  | 0x11 => some (.shl h (unVI w lit))
  | 0x12 => some (.shr h (unVI w lit))
  | 0x13 => some (.sar h (unVI w lit))
  | 0x14 => some (.fshf h (unV w))
  | 0x15 => some (.bfx h (unV w))
  | 0x16 => some (.bfi h (unV w))
  | 0x17 => some (.popc h (unV w))
  | 0x18 => some (.clz h (unV w))
  | 0x19 => some (.brev h (unV w))
  | 0x1A => some (.icmp h (unVI w lit))
  | 0x1B => some (.sel h (unV w))
  | 0x1C => some (.idp4 h (unV w))
  | 0x1D => some (.idp2 h (unV w))
  | 0x20 => some (.fadd h (unV w))
  | 0x21 => some (.fsub h (unV w))
  | 0x22 => some (.fmul h (unV w))
  | 0x23 => some (.ffma h (unV w))
  | 0x24 => some (.fmin h (unV w))
  | 0x25 => some (.fmax h (unV w))
  | 0x26 => some (.fcmp h (unV w))
  | 0x27 => some (.fclass h (unV w))
  | 0x28 => some (.frnd h (unV w))
  | 0x29 => some (.fscale h (unV w))
  | 0x2A => some (.cvt h (unV w))
  | 0x2B => some (.cvts h (unV w))
  | 0x2C => some (.pack h (unV w))
  | 0x2D => some (.hdp2 h (unV w))
  | 0x2E => some (.frcp h (unV w))
  | 0x2F => some (.frsq h (unV w))
  | 0x30 => some (.fsqrt h (unV w))
  | 0x31 => some (.fdiv h (unV w))
  | 0x32 => some (.fexp2 h (unV w))
  | 0x33 => some (.flog2 h (unV w))
  | 0x34 => some (.fsin h (unV w))
  | 0x35 => some (.fcos h (unV w))
  | 0x36 => some (.ftanh h (unV w))
  | 0x37 => some (.fsig h (unV w))
  | 0x38 => some (.ferf h (unV w))
  | 0x39 => some (.gelu h (unV w))
  | 0x3A => some (.sfn h (unV w))
  | 0x3B => some (.sfnld h (unV w))
  | 0x3C => some (.sfnsw h (unV w))
  | 0x3D => some (.mxq h (unV w))
  | 0x3E => some (.mxdq h (unV w))
  | 0x40 => some (.shfl h (unV w))
  | 0x41 => some (.vote h (unV w))
  | 0x42 => some (.redl h (unV w))
  | 0x43 => some (.scanl h (unV w))
  | 0x44 => some (.laneMatch h (unV w))
  | 0x45 => some (.rstat h (unV w))
  | 0x46 => some (.rstatf h (unV w))
  | 0x50 => some (.mov h (unV w))
  | 0x51 => some (.movi h (unI w lit))
  | 0x52 => some (.pops h (unV w))
  | 0x53 => some (.p2v h (unV w))
  | 0x54 => some (.v2p h (unV w))
  | 0x55 => some (.srd h (unS w))
  | 0x56 => some (.swr h (unV w))
  | 0x60 => some (.ld h (unM w))
  | 0x61 => some (.st h (unM w))
  | 0x62 => some (.lds h (unM w))
  | 0x63 => some (.sts h (unM w))
  | 0x64 => some (.stse h (unM w))
  | 0x65 => some (.ldc h (unM w))
  | 0x66 => some (.pref h (unM w))
  | 0x67 =>
    match w / 2 ^ 16 % 16 with
    | 0 => some (.cinvL1 h (unM w))
    | 1 => some (.cinvL1all h (unM w))
    | 2 => some (.cinvNear h (unM w))
    | _ => none
  | 0x68 =>
    match w / 2 ^ 16 % 16 with
    | 0 => some (.cwbHome h (unM w))
    | 1 => some (.cwbMem h (unM w))
    | 2 => some (.cwbInv h (unM w))
    | _ => none
  | 0x80 => some (.atom h (unMA w))
  | 0x81 => some (.atomcas h (unMA w))
  | 0x82 => some (.red h (unMA w))
  | 0x83 => some (.atoms h (unMA w))
  | 0x84 => some (.atomscas h (unMA w))
  | 0x85 => some (.fence h (unM w))
  | 0x90 => some (.barinit h (unS w))
  | 0x91 => some (.bararv h (unS w))
  | 0x92 => some (.barsync h (unS w))
  | 0x93 => some (.barexp h (unS w))
  | 0x94 => some (.barwait h (unS w))
  | 0x95 => some (.barinv h (unS w))
  | 0x96 => some (.tcopy h (unS w))
  | 0x97 => some (.tstore h (unS w))
  | 0x98 => some (.tgather h (unS w))
  | 0x99 => some (.opmclm h (unS w))
  | 0x9A => some (.opmrel h (unS w))
  | 0x9B => some (.tcancel h (unS w))
  | 0xA0 => some (.bra h (unB w))
  | 0xA1 => some (.brx h (unB w))
  | 0xA2 => some (.brvote h (unB w))
  | 0xA3 => some (.call h (unB w))
  | 0xA4 => some (.callx h (unB w))
  | 0xA5 => some (.ret h (unB w))
  | 0xA6 => some (.exit h (unB w))
  | 0xA7 => some (.trap h (unB w))
  | 0xA8 => some (.bkpt h (unB w))
  | 0xA9 => some (.nop h (unB w))
  | 0xAA => some (.yield h (unB w))
  | 0xB0 => some (.rsopen h (unS w))
  | 0xB1 => some (.rsenter h (unS w))
  | 0xB2 => some (.rsquit h (unS w))
  | 0xB3 => some (.rsarv h (unS w))
  | 0xB4 => some (.rswait h (unS w))
  | 0xB5 => some (.rsfree h (unS w))
  | 0xB6 => some (.rsget h (unS w))
  | 0xB7 => some (.rsput h (unS w))
  | 0xC0 => some (.spxenter h (unX w lit))
  | 0xC1 => some (.spxleave h (unX w lit))
  | 0xC2 => some (.spxstrm h (unX w lit))
  | 0xC3 => some (.spxsem h (unX w lit))
  | 0xC4 => some (.spxsweep h (unX w lit))
  | 0xC5 => some (.spxbar h (unX w lit))
  | 0xC6 => some (.spxput h (unX w lit))
  | 0xC7 => some (.spxget h (unX w lit))
  | 0xC8 => some (.spxstat h (unX w lit))
  | 0xD0 => some (.launch h (unX w lit))
  | 0xD1 => some (.gateadd h (unX w lit))
  | 0xD2 => some (.gatewait h (unX w lit))
  | 0xD3 => some (.matcharm h (unX w lit))
  | 0xD4 => some (.msgsend h (unX w lit))
  | 0xE0 => some (.csrr h (unS w))
  | 0xE1 =>
    if w % 2 ^ 16 == 4 then some (.partcfgApply h (unS w))
    else match w / 2 ^ 16 % 4 with
    | 0 => some (.csrw h (unS w))
    | 1 => some (.csrwSet h (unS w))
    | 2 => some (.csrwClr h (unS w))
    | _ => none
  | 0xE2 =>
    match w / 2 ^ 16 % 128 with
    | 0 => some (.eretRes h (unS w))
    | 1 => some (.eretSkip h (unS w))
    | 2 => some (.eretTerm h (unS w))
    | 3 => some (.eretDefer h (unS w))
    | _ => none
  | 0xE3 =>
    match w / 2 ^ 16 % 4 with
    | 0 => some (.tlbinvPage h (unS w))
    | 1 => some (.tlbinvRange h (unS w))
    | 2 => some (.tlbinvAll h (unS w))
    | _ => none
  | 0xE4 =>
    match w / 2 ^ 16 % 128 with
    | 0 => some (.l2opProm h (unS w))
    | 1 => some (.l2opAdopt h (unS w))
    | _ => none
  | 0xE5 =>
    match w / 2 ^ 16 % 128 with
    | 0 => some (.ctxsaveRec h (unS w))
    | 1 => some (.ctxsaveHerd h (unS w))
    | _ => none
  | 0xE6 => some (.ctxload h (unS w))
  | 0xE7 =>
    match w / 2 ^ 16 % 128 with
    | 0 => some (.packhalt h (unS w))
    | 1 => some (.packhaltHerd h (unS w))
    | 2 => some (.packhaltKill h (unS w))
    | _ => none
  | 0xE8 => some (.packresume h (unS w))
  | 0xE9 => some (.whistle h (unS w))
  | 0xEA =>
    match w / 2 ^ 16 % 128 with
    | 0 => some (.pwrlsRd h (unS w))
    | 1 => some (.pwrlsSet h (unS w))
    | _ => none
  | _ => none

/-- The primary opcode of a word (R143). -/
def opcodeOf (w : Quad) : Nat := w.toNat / 2 ^ 56
/-- The x bit of a word (R142). -/
def xBit (w : Quad) : Bool := bitAt w.toNat 55

/-- The instruction of a first word and the word after it, or the reason why there is none (R157). -/
def decode (w lit : Quad) : Except Reject Instr :=
  match ofOpcode (opcodeOf w) w.toNat lit.toNat with
  | none   => .error .opcode
  | some i =>
    match parts i with
    | none           => .error .opcode
    | some (_, _, b) =>
      match formOk w.toNat b with
      | some r => .error r
      | none   =>
        match legal i with
        | some r => .error r
        | none   => .ok i

/-! ### Bytes -/

/-- The `n` bytes of a number, the lowest first (R4). -/
def bytesLE : Nat → Nat → List Byte
  | 0, _     => []
  | n + 1, w => BitVec.ofNat 8 w :: bytesLE n (w / 256)

/-- The number that bytes hold, the first byte lowest (R4). -/
def numLE : List Byte → Nat
  | []      => 0
  | b :: bs => b.toNat + 256 * numLE bs

/-- Decodes the instruction at the head of a list of bytes; answers it with the bytes that follow it. -/
def decodeBytes (bs : List Byte) : Except Reject (Instr × List Byte) :=
  if bs.length < 8 then .error .short
  else
    let w := BitVec.ofNat 64 (numLE (bs.take 8))
    match decode w (BitVec.ofNat 64 (numLE ((bs.drop 8).take 8))) with
    | .error r => .error r
    | .ok i    => if bs.length < size i then .error .short else .ok (i, bs.drop (size i))

/-! ### Encoding -/

/-- The guard, opcode and x bit of a word (R143). -/
def pkHead (opc : Nat) (x : Bool) (h : Head) : Nat := opc * 2 ^ 56 + x.toNat * 2 ^ 55 + h.g.toNat * 2 ^ 52 + h.gn.toNat * 2 ^ 51

/-- Bits [50:0] of the first word (R145). -/
def pkBody : Body → Nat
  | .v o => o.d.toNat * 2 ^ 44 + o.a.toNat * 2 ^ 37 + o.b.toNat * 2 ^ 30 + o.c.toNat * 2 ^ 23 + o.mod.toNat * 2 ^ 16 +
      o.fn.toNat * 2 ^ 8 + o.y.toNat * 2 ^ 7
  | .i o => o.d.toNat * 2 ^ 44 + o.a.toNat * 2 ^ 37 + o.mod.toNat * 2 ^ 32 + o.imm.toNat * 2 ^ 16 + o.fn.toNat * 2 ^ 8 + o.y.toNat * 2 ^ 7
  | .m o => o.d.toNat * 2 ^ 44 + o.a.toNat * 2 ^ 37 + o.b.toNat * 2 ^ 30 + o.sz.toNat * 2 ^ 26 + o.sc.toNat * 2 ^ 23 +
      o.ord.toNat * 2 ^ 20 + o.cop.toNat * 2 ^ 16 + o.off.toNat
  | .ma o => o.d.toNat * 2 ^ 44 + o.a.toNat * 2 ^ 37 + o.b.toNat * 2 ^ 30 + o.sz.toNat * 2 ^ 26 + o.sc.toNat * 2 ^ 23 +
      o.ord.toNat * 2 ^ 20 + o.cop.toNat * 2 ^ 16 + o.aop.toNat * 2 ^ 12 + o.off.toNat
  | .b o => o.a.toNat * 2 ^ 44 + o.k.toNat * 2 ^ 40 + o.off.toNat
  | .s o => o.d.toNat * 2 ^ 44 + o.a.toNat * 2 ^ 37 + o.b.toNat * 2 ^ 30 + o.idx.toNat * 2 ^ 24 + o.ind.toNat * 2 ^ 23 +
      o.mod.toNat * 2 ^ 16 + o.imm.toNat
  | .x o => o.d.toNat * 2 ^ 44 + o.a.toNat * 2 ^ 37 + o.b.toNat * 2 ^ 30 + o.op.toNat

/-- The literal word of an instruction that has one (R142, R152). -/
def pkLit : Body → Option Nat
  | .i o => o.lit.map (·.toNat)
  | .x o => some (o.wsem.toNat * 2 ^ 56 + o.wthr.toNat * 2 ^ 40 + o.ssem.toNat * 2 ^ 32 + o.sinc.toNat * 2 ^ 24 + o.low.toNat)
  | .v _ | .m _ | .ma _ | .b _ | .s _ => none

/-- The words of an instruction, the first word first; an event row has none. -/
def encode (i : Instr) : List Quad :=
  match parts i with
  | none => []
  | some (opc, h, b) =>
    match pkLit b with
    | none     => [BitVec.ofNat 64 (pkHead opc false h + pkBody b)]
    | some lit => [BitVec.ofNat 64 (pkHead opc true h + pkBody b), BitVec.ofNat 64 lit]

/-! ### Levels -/

/-- The level a system instruction requires: 1 supervisor, 2 machine, 0 for every other opcode (R340). -/
def opcodeLevel (opc : Nat) : Nat := if opc == 0xEA then 2 else if 0xE0 ≤ opc && opc ≤ 0xE9 then 1 else 0

/-- The level a word requires (R340), raised to that of the CSR that `csrr` or `csrw` names in imm16 [11:0] (R342). -/
def wordLevel (w : Quad) : Nat :=
  let opc := opcodeOf w
  if opc == 0xE0 || opc == 0xE1 then
    match csrInfo (w.toNat % 2 ^ 12) with
    | some (_, level, _) => max 1 level
    | none => 1
  else opcodeLevel opc

/-- The instruction that the decoder reads from an instruction whose bits are `w`, numbered as the opcode table numbers them; bits above
`nbits` are zero. -/
def decodeTableWord (nbits w : Nat) : Option Instr :=
  match decodeBytes (bytesLE 16 (w % 2 ^ nbits)) with
  | .ok (i, _) => some i
  | .error _   => none

end Sys2Proof
end

