-- ==== Sys2Proof/Machine/State.lean ====
section
/-!
DEFINITION. The state of the K9: everything the manual gives the machine, as plain data, and the machine right after reset.
-/

namespace Sys2Proof.Machine

/-- What stops the model. -/
inductive Fault where
  /-- An instruction row was given no issuing path: `exec` was called outside a step (`State.cur` is `none`).  Raised by the shared
  wrapper of the instruction meanings; safe, no step of the machine raises it. -/
  | noIssuingPath
  deriving DecidableEq, Repr

/-- Why the model gives a row no meaning. -/
inductive Refusal where
  /-- The row is not modelled yet.  Raised by a refused arm of `exec` alone; safe. -/
  | notModelled (mnemonic : String)
  deriving DecidableEq, Repr

/-! ### Packs -/

/-- What a path waits for (R32, R66, R252, R262, R305-R307, R312, R364). -/
inductive Wait where
  /-- not waiting -/
  | run
  /-- in `rswait` on a set (R51) -/
  | set (s : Nat)
  /-- in `barsync` or `barwait` on object `k`, for the end of phase `ph`; the result goes to predicate `p` (R252) -/
  | bar (k : Nat) (ph : Bool) (p : Nat)
  /-- the same wait of a pack that is stopped, after its phase completed (`value` 1) or the object was invalidated: the pack's resumption
  releases it (R363, R252) -/
  | barDone (k : Nat) (ph : Bool) (p : Nat) (value : Bool)
  /-- at a load from an empty scratchpad line, by its offset, and how often the line had become full before (R66) -/
  | line (off fills : Nat)
  /-- at an instruction that repeats: the wait kind 2-5 of R379 and, for kind 2, the OPM slot -/
  | again (kind : Nat) (slot : Nat)
  deriving DecidableEq, Repr, Inhabited

/-- A path (R40) with its slot or its place in the path queue (R43, R44) and its watchdog count (R377). -/
structure Path where
  pc     : Quad
  mask   : Mask
  wait   : Wait := .run
  /-- the watchdog count reached before the wait last began to count -/
  wbase  : Nat := 0
  /-- the clock value from which the count runs; `none` while it is frozen -/
  wfrom  : Option Nat := none
  /-- the clock value at which the wait began (R378) -/
  wstart : Nat := 0
  slot   : Option Nat := none
  /-- the order of entry into the path queue (R43) -/
  qseq   : Nat := 0
  /-- the pack's issue count and its cycle count when the path took its slot (R43) -/
  took   : Nat := 0
  tookAt : Nat := 0
  /-- the pack's issue count when the path last issued or stopped waiting (R44) -/
  last   : Nat := 0
  held   : Bool := false
  deriving DecidableEq, Repr, Inhabited

/-- A rejoin-set register (R46). -/
structure RSet where
  member  : Mask
  arrived : Mask
  opened  : Bool
  deriving DecidableEq, Repr, Inhabited

/-- A path entry of a trap record or of a context image (R364). -/
structure PathRec where
  pc     : Quad
  mask   : Mask
  state  : Nat
  num    : Nat
  ph     : Bool
  wcount : Nat
  deriving DecidableEq, Repr, Inhabited

/-- The pack entry of the appendix of a barrier-timeout record (R380). -/
structure BarPack where
  pc      : Quad
  exited  : Bool
  waiting : Bool
  stopped : Bool
  parked  : Bool
  deriving DecidableEq, Repr, Inhabited

/-- The appendix of a record of code 34 and wait kind 0 (R380). -/
structure BarAppendix where
  object   : List Byte
  next     : Option Nat
  landings : Nat
  packs    : List BarPack
  deriving DecidableEq, Repr, Inhabited

/-- A trap record (R69, R364). -/
structure TrapRecord where
  code     : Nat
  pack     : Nat
  quarter  : Nat
  slot     : Nat
  x        : Bool
  seq      : Word
  fpc      : Quad
  fmask    : Mask
  detail   : Quad
  exited   : Mask
  clock    : Quad
  herd     : Nat
  paths    : List PathRec
  appendix : Option BarAppendix
  deriving DecidableEq, Repr, Inhabited

/-- A cause in a handler's wake queue (R346, R365): its `hcause` fields, and the detail a copy or port record reports (R370). -/
structure Cause where
  code    : Nat
  src     : Nat
  quarter : Nat
  slot    : Nat
  unit    : Nat
  seq     : Word
  detail  : Quad
  /-- routed to `mtvec` at machine level (R345) -/
  machine : Bool
  /-- the number of the stop of a copy or a port that it reports, 0 for a pack's -/
  serial  : Nat
  deriving DecidableEq, Repr, Inhabited

/-- Why a pack does not run (R363, R366, R368, R369). -/
inductive Stop where
  | running
  /-- by a fault; its cause is queued or in service -/
  | faulted
  /-- by `packhalt` -/
  | halted
  /-- by a fault whose wake ended in `eret.defer` -/
  | deferred
  deriving DecidableEq, Repr, Inhabited

/-- The wake a handler pack serves (R346, R366). -/
structure Wake where
  cause : Cause
  /-- the supervisor wake that a machine wake for the handler's own fault interrupts -/
  outer : Option Cause
  deriving DecidableEq, Repr, Inhabited

/-- A shootdown that waits (R396): for its re-latch tokens (`tokens`), or for the recalls of the covered coherence pages. -/
structure Shoot where
  tokens : Bool
  pages  : List Nat
  deriving DecidableEq, Repr, Inhabited

/-- A pack in a pack slot (R14, R19, R46, R47, R82, R339, R344). -/
structure Pack where
  loc      : PackLoc
  /-- the herd, or `none` for a handler pack (R436) -/
  herd     : Option Nat
  part     : Nat
  /-- `%pack` -/
  num      : Nat
  /-- A (R18) -/
  regCount : Nat
  /-- the window class W (R20): 0 W16, 1 W32, 2 W64, 3 W128 -/
  window   : Nat
  /-- N (R18) -/
  setCount : Nat
  /-- 0 user, 1 supervisor, 2 machine (R339) -/
  level    : Nat
  /-- v0 to v(A-1), 64 lanes each -/
  regs     : List (Lanes Word)
  /-- p0 to p6 (R146) -/
  preds    : List Mask
  /-- stochastic states (R82) -/
  sto      : Lanes Word
  /-- j0 to j31 (R46) -/
  sets     : List RSet
  /-- per lane, the set waited on (R47) -/
  waitSet  : Lanes (Option Nat)
  /-- per lane, the resume PC (R47) -/
  resumePc : Lanes Quad
  paths    : List Path
  /-- lanes that have exited (R199) -/
  exited   : Mask
  stop     : Stop
  /-- parked by a residency of another pack (R27), or by a herd save (R373) -/
  parked   : Bool
  /-- the pack's place in the herd's trap area (R363) -/
  record   : Option TrapRecord
  /-- register lanes that hold an uncorrectable error (R428): register and lane -/
  bad      : List (Nat × Nat)
  /-- the residency this pack controls, in any phase (R17) -/
  control  : Option Nat
  /-- issue cycles of the pack (R32), and cycles of its quarter that it has been through -/
  issued   : Nat
  cycle    : Nat
  /-- entries into the path queue so far (R43) -/
  qnext    : Nat
  /-- the cycle of its quarter in which the pack became ready; `none` while it is not ready (R34) -/
  readyAt  : Option Nat
  /-- cycles in a row that the pack has been ready and passed over, and whether it goes ahead of every other user pack for it (R34, R361) -/
  passed   : Nat
  starved  : Bool
  /-- a handler's wake queue, oldest first, and behind its 64 places the causes that their sources hold (R346, `wakePlaces`) -/
  wakes    : List Cause
  /-- the wake in service; `none` when the handler is idle (R346) -/
  wake     : Option Wake
  /-- the shootdown of a `tlbinv` in progress (R396) -/
  shoot    : Option Shoot
  deriving DecidableEq, Repr, Inhabited

/-! ### Herds -/

/-- A barrier object with the two items of R250 (R107, R250). -/
structure Barrier where
  phase     : Bool
  init      : Nat
  pending   : Nat
  inv       : Bool
  balance   : Int
  discarded : Nat
  next      : Option Nat
  landings  : Nat
  deriving DecidableEq, Repr, Inhabited

/-- A reserved OPM slot: the physical slot, the claim and its queue of packs (R109, R110). -/
structure OpmSlot where
  phys   : Nat
  holder : Option Nat
  queue  : List Nat
  data   : List Host.Cell
  /-- poisoned 16-byte granules, by number (R428) -/
  bad    : List Nat
  deriving DecidableEq, Repr, Inhabited

/-- Where a herd is in its life (R15, R356, R370, R371). -/
inductive HerdPlace where
  /-- resident on a core -/
  | resident
  /-- in the Shepherd's context store, awaiting resumption -/
  | stored
  /-- saved by `ctxsave.herd`; its image is in software's memory -/
  | detached
  deriving DecidableEq, Repr, Inhabited

/-- A herd (R15, R104, R107, R109). -/
structure Herd where
  id       : Nat
  part     : Nat
  seq      : Word
  /-- linear index (R364) -/
  index    : Nat
  x        : Nat
  y        : Nat
  z        : Nat
  core     : Nat
  place    : HerdPlace
  /-- S in bytes (R102) -/
  spadSize : Nat
  spad     : List Host.Cell
  /-- empty lines (R104) -/
  empty    : List Nat
  /-- how often an empty line has become full, by line (R66) -/
  fills    : List (Nat × Nat)
  /-- line tags: the youngest copy to have emptied a line (R256) -/
  tags     : List (Nat × Nat)
  /-- poisoned 4-byte scratchpad granules, by number (R428) -/
  bad      : List Nat
  bars     : List Barrier
  opm      : List OpmSlot
  packCount : Nat
  /-- the clock value of admission (R357) -/
  admitted : Nat
  /-- a save is in progress: its packs are stopped as parking stops them (R373) -/
  saving   : Bool
  /-- the packs of a herd that is not resident, as saved (R374) -/
  packs    : List Pack
  /-- the residency saved with the herd, or kept while its control pack is stopped (R30, R372) -/
  residency : Option Nat
  /-- the region of a kind-1 herd is reserved, until its `spxleave` completes (R31, R358) -/
  reserves : Bool
  deriving DecidableEq, Repr, Inhabited

/-! ### The memory system -/

/-- The full/empty effect of a scratchpad store: none for `sts`, else the state that `stse` names (R241). -/
inductive LineEffect where
  | keep | setEmpty | setFull
  deriving DecidableEq, Repr, Inhabited

/-- What an entry of a store queue does when it performs (R63, R128, R240). -/
inductive StoreOp where
  /-- a global store to physical bytes; `sc` for a software-coherent page, `route` of a kind-1 page, `patch` for a patch slot (R139) -/
  | global (pa : Nat) (bytes : List Byte) (sc : Bool) (route : Option Nat) (patch : Bool)
  /-- a scratchpad store -/
  | spad (off : Nat) (bytes : List Byte) (effect : LineEffect)
  /-- a write-back of the dirty bytes of a near copy (`cwb`, R242): to the home, on to memory, or with invalidation -/
  | writeBack (pa : Nat) (invalidate : Bool)
  /-- a release fence: strong accesses behind it wait for what is ahead of it (R119, R128) -/
  | releaseFence
  deriving DecidableEq, Repr, Inhabited

/-- A retired store of one lane in a core's store queue (R63). -/
structure StoreEntry where
  loc     : PackLoc
  herd    : Option Nat
  part    : Nat
  lane    : Nat
  /-- the pack's issue count when the store retired: lanes of one store instruction write a common byte in lane order (R237) -/
  issue   : Nat
  strong  : Bool
  release : Bool
  /-- the scope code of a strong store (R116) -/
  scope   : Nat
  /-- the virtual page it was translated for; `none` for a physical or a scratchpad address (R396) -/
  vpn     : Option Nat
  /-- `.cs`: a line that the store allocates in the L2 is evicted first (R240) -/
  first   : Bool
  op      : StoreOp
  deriving DecidableEq, Repr, Inhabited

/-- A line of an L1 (R100): its physical line number, instruction or data, whether it is evicted first (R239), and the bytes it captured. -/
structure L1Line where
  line  : Nat
  instr : Bool
  first : Bool
  bytes : List Byte
  deriving DecidableEq, Repr, Inhabited

/-- A cached translation (R391): the partition, the pages it covers as virtual page numbers of 64 KiB, and the leaf's fields (R386). -/
structure Tlb where
  part  : Nat
  vpn   : Nat
  pages : Nat
  /-- the physical address of the first page -/
  pa    : Nat
  r     : Bool
  w     : Bool
  x     : Bool
  u     : Bool
  patch : Bool
  sc    : Bool
  kind  : Nat
  route : Nat
  /-- the frame was inside the windows when it was walked (R349) -/
  inside : Bool
  deriving DecidableEq, Repr, Inhabited

/-- A cached non-leaf entry (R391): partition, level, the virtual index bits above it, and the next table's address. -/
structure WalkEntry where
  part  : Nat
  level : Nat
  index : Nat
  table : Nat
  deriving DecidableEq, Repr, Inhabited

/-- A walk held up at an entry with M = 1 (R392): the page it is for, the address that began it, and when it last read the entry. -/
structure HeldWalk where
  part : Nat
  vpn  : Nat
  va   : Quad
  last : Nat
  deriving DecidableEq, Repr, Inhabited

/-- The four phases a copy's kind can take (R257-R259). -/
inductive CopyKind where
  /-- `tcopy`; sparse element size 0, 1 or 2 bytes, with the metadata address -/
  | load (sp : Nat) (mdata : Quad)
  /-- `tstore`; compacting element size 0, 1 or 2 bytes, with the metadata address -/
  | store (cp : Nat) (mdata : Quad)
  /-- `tgather`; the row indices of the executing lanes, ascending -/
  | gather (rows : List Nat)
  deriving DecidableEq, Repr, Inhabited

/-- The stop of a copy or a port (R260, R289): fault code and detail, the clock, whether its wake ended in `eret.defer` (R368), and its number
among the stops of copies and ports. -/
structure UnitStop where
  code   : Nat
  detail : Quad
  clock  : Quad
  deferred : Bool
  serial : Nat
  deriving DecidableEq, Repr, Inhabited

/-- An entry of a core's copy queue (R255, R256). -/
structure Copy where
  /-- the queue entry number 0-63 that `hcause` names (R365) -/
  entry   : Nat
  /-- a number that rises with every copy issued, the tag of R256 -/
  tag     : Nat
  herd    : Option Nat
  loc     : PackLoc
  seq     : Word
  part    : Nat
  level   : Nat
  kind    : CopyKind
  /-- the destination or source OPM slot, `none` for scratchpad -/
  opm     : Option Nat
  bar     : Option Nat
  gbase   : Quad
  lbase   : Nat
  rowb    : Nat
  rows    : Nat
  gstride : Nat
  lstride : Nat
  /-- lines landed or dropped, by line number of the copy -/
  done    : List Nat
  /-- suspended by a fault (R260) -/
  suspended : Option UnitStop
  deriving DecidableEq, Repr, Inhabited

/-- Where memory holds what a release sequence has written (R119): its bytes, as caches number addresses, the step in which its head
performed, and the head's scope, pack and herd. -/
structure ReleaseHead where
  addr  : Nat
  len   : Nat
  tick  : Nat
  scope : Nat
  loc   : PackLoc
  herd  : Option Nat
  deriving DecidableEq, Repr, Inhabited

/-- A line of memory, or of the scratchpad of `herd`, as a lane's loads may still see it (R64, R123): what it held at an earlier step, with the release sequences of it that stood
then; and the later heads that the lane's strong loads have read since, which its next acquire fence makes it respect (R120). -/
structure EarlyLine where
  loc   : PackLoc
  lane  : Nat
  herd  : Option Nat
  line  : Nat
  tick  : Nat
  bytes : List Byte
  heads : List ReleaseHead
  heard : List ReleaseHead
  deriving DecidableEq, Repr, Inhabited

/-- A core's own storage (R10, R63, R100, R256, R391); `early` is what R64 and R123 let its lanes still see, and `fences` the scopes of the
release fences that lanes of its packs have executed (R119). -/
structure Core where
  id     : Nat
  storeQ : List StoreEntry
  l1     : List L1Line
  tlb    : List Tlb
  copies : List Copy
  early  : List EarlyLine
  fences : List (PackLoc × Nat × Mask)
  deriving DecidableEq, Repr, Inhabited

/-- The state of a quarter (R24). -/
inductive QuarterState where
  | simt | parking | spatial | unparking
  deriving DecidableEq, Repr, Inhabited

/-- A quarter that is not in its reset condition: its state, its cycles so far, and whether each of the last three of them took the
handler (R34, R361). -/
structure Quarter where
  core    : Nat
  quarter : Nat
  state   : QuarterState
  cycle   : Nat
  recent  : List Bool
  deriving DecidableEq, Repr, Inhabited

/-- A request for a power lease (R426). -/
structure LeaseRequest where
  res   : Nat
  units : Nat
  deriving DecidableEq, Repr, Inhabited

/-- A C-die's own storage: its TLB and walk cache (R391), held walks (R392), and its power controller (R426). -/
structure Die where
  id       : Nat
  tlb      : List Tlb
  walkCache : List WalkEntry
  held     : List HeldWalk
  budget   : Nat
  granted  : Nat
  requests : List LeaseRequest
  deriving DecidableEq, Repr, Inhabited

/-- The MOESI states of a near copy (R401); I is the absence of an entry. -/
inductive Moesi where
  | m | o | e | s
  deriving DecidableEq, Repr, Inhabited

/-- A near copy that a home's directory records (R401).  A line of a kind-1 page is numbered above every local one (`Tlb.line`). -/
structure NearCopy where
  line  : Nat
  die   : Nat
  state : Moesi
  first : Bool
  deriving DecidableEq, Repr, Inhabited

/-- An untracked copy of a line of a software-coherent page (R404): per byte held, its offset, value and dirty bit; and the poisoned
8-byte granules of the line, 0 to 15 (R429). -/
structure ScCopy where
  line  : Nat
  die   : Nat
  first : Bool
  cells : List (Nat × Byte × Bool)
  bad   : List Nat
  deriving DecidableEq, Repr, Inhabited

/-- A coherence page entry of the H-die (R407): the holders with their incarnations. -/
structure PageEntry where
  page      : Nat
  exclusive : Bool
  holders   : List (Nat × Word)
  deriving DecidableEq, Repr, Inhabited

/-- A hand-over in progress (R407, R408): ports whose acknowledgment is awaited, since when, and a grant to make afterwards.  `own`: an access
of the device itself waits for its end. -/
structure HandOver where
  page  : Nat
  await : List Nat
  since : Nat
  grant : Option (Nat × Bool)
  own   : Bool
  deriving DecidableEq, Repr, Inhabited

/-- A grant request that waits for its turn (R408): a port's, for exclusive access or not; `behind`: an access of the device that came before
it is still to be served; and since when. -/
structure PageWait where
  page      : Nat
  port      : Nat
  exclusive : Bool
  behind    : Bool
  since     : Nat
  deriving DecidableEq, Repr, Inhabited

/-- What the K9 holds of a page homed on an outside agent (R407): nothing yet asked, asked, shared or exclusive; `ackDue` counts
the writes that the remote home has not acknowledged, for which a sys-scope release waits (R408).  `known`: the page has been granted before. -/
structure RemotePage where
  page      : Nat
  asked     : Option Bool
  shared    : Bool
  exclusive : Bool
  ackDue    : Nat
  known     : Bool
  deriving DecidableEq, Repr, Inhabited

/-! ### Residencies -/

/-- What a channel slot holds (R267, R269). -/
inductive TokenKind where
  | data | eos | sweep | whistle
  deriving DecidableEq, Repr, Inhabited

/-- A token (R267): its kind, link type, 256-bit payload and 8-bit side field; a mark's other fields are zero. -/
structure Token where
  kind    : TokenKind
  ltype   : Nat
  payload : BitVec 256
  side    : Byte
  deriving DecidableEq, Repr, Inhabited

/-- The state an operator keeps between firings (R263, R327). -/
structure CellData where
  /-- loop counters 0-3 (R266) -/
  counts  : List Nat
  /-- the partial fold, group or partial, the rotation, or the next drain, per operator -/
  words   : List Word
  /-- tokens buffered: results of `rstat` still to be emitted, the request of `rqst` at the TCE -/
  buffer  : List Token
  /-- the accumulator banks of `macs`, 64 words each (R275) -/
  bank0   : List Word
  bank1   : List Word
  active1 : Bool
  /-- the other bank is draining (R275) -/
  draining : Bool
  /-- the panel tokens of `macs`, A tokens and B tokens (R274); `rstat` buffers its row in `panelA` (R323) -/
  panelA  : List Token
  panelB  : List Token
  deriving DecidableEq, Repr, Inhabited

/-- A configured or off cell (R165, R263, R270). -/
structure Cell where
  word   : Quad
  /-- the channels of inputs A to D -/
  chans  : List (List Token)
  data   : CellData
  /-- the cell has fired on EOS (R269), or as a source has emitted it -/
  eos    : Bool
  /-- a put-mode cell has been given EOS by the control pack or the drain (R306, R434) -/
  putEos : Bool
  /-- the cell has saved under a cut, and the inputs whose whistle has arrived (R290) -/
  saved  : Bool
  whistled : List Nat
  /-- tokens moved into the save area, by input (R290) -/
  saveArea : List (List Token)
  deriving DecidableEq, Repr, Inhabited

/-- What an entry of a port's command queue is (R279, R283, R304). -/
inductive CmdKind where
  | command
  | sweep (group : Nat)
  | divider (id : Nat)
  deriving DecidableEq, Repr, Inhabited

/-- A stream command, a sweep entry or an `spxbar` divider (R301, R304, R283). -/
structure Command where
  kind  : CmdKind
  base  : Quad
  sbase : Quad
  n0    : Nat
  n1    : Nat
  n2    : Nat
  s1    : Int
  s2    : Int
  /-- the unsigned range length in s1, for `gath` and `tas` (R301) -/
  range : Nat
  /-- the link type the command moves -/
  ltype : Nat
  last  : Bool
  wsem  : Nat
  wthr  : Nat
  ssem  : Nat
  sinc  : Nat
  begun : Bool
  /-- positions done -/
  pos   : Nat
  deriving DecidableEq, Repr, Inhabited

/-- A port of a region, by port number (R279, R298). -/
structure Port where
  num    : Nat
  queue  : List Command
  /-- range entries: the translations latched (R393) -/
  ranges : List Tlb
  /-- a command with the end flag has entered the queue (R284), or the residency drains (R288) -/
  ended  : Bool
  /-- the first of these -/
  flagged : Bool
  eos    : Bool
  stopped : Option UnitStop
  /-- the link type of the last command queued at a feeder -/
  lastType : Nat
  /-- under a cut, a feeder's whistle is on its way to be placed (R290) -/
  whistle : Bool
  /-- a re-latch token is on its way through the port (R397): the pages it covers -/
  relatch : List (Nat × Nat)
  /-- the pages whose range entries a token dropped, latched again at the next access to them (R397) -/
  dropped : List (Nat × Nat)
  deriving DecidableEq, Repr, Inhabited

/-- A sweep group (R304): its ports, whether it has begun, its wait and its signal. -/
structure SweepGroup where
  id    : Nat
  ports : List Nat
  wsem  : Nat
  wthr  : Nat
  ssem  : Nat
  sinc  : Nat
  begun : Bool
  deriving DecidableEq, Repr, Inhabited

/-- An `spxbar` whose signal is due (R305): the ports with work queued before it. -/
structure BarSignal where
  id   : Nat
  ssem : Nat
  sinc : Nat
  deriving DecidableEq, Repr, Inhabited

/-- The phases of a residency (R285, R288, R290). -/
inductive ResPhase where
  | validate | lease | install | active | draining | cutting
  /-- the state of R291 is kept with the herd -/
  | saved
  deriving DecidableEq, Repr, Inhabited

/-- A mould's header as read (R164). -/
structure Mould where
  shape  : Nat
  qregs  : Nat
  lease  : Nat
  semmax : Nat
  ncells : Nat
  words  : List Quad
  deriving DecidableEq, Repr, Inhabited

/-- A residency (R17, R285). -/
structure Residency where
  id      : Nat
  herd    : Nat
  part    : Nat
  /-- the control pack -/
  ctl     : PackLoc
  phase   : ResPhase
  mould   : Mould
  cells   : List Cell
  ports   : List Port
  /-- semaphores that are not zero (R282) -/
  sems    : List (Nat × Nat)
  /-- waits in the order in which they began: semaphore, threshold and port number (R280) -/
  semWaits : List (Nat × Nat × Nat)
  semovf  : Bool
  groups  : List SweepGroup
  bars    : List BarSignal
  /-- the lease is granted (R286) -/
  leased  : Bool
  /-- the bank of the function store that `sfu` cells read (R225) -/
  bank    : Nat
  /-- the address of the mould's image, which validate reads (R285, R292, R299) -/
  image   : Quad
  /-- a validate stall began at this clock value (R26) -/
  since   : Nat
  /-- the state saved by a cut awaits reinstall (R292) -/
  restore : Bool
  /-- the control pack was running when the cut was ordered by `whistle` (R372), or the Shepherd saves the herd (R30) -/
  saveHerd : Bool
  /-- a cut is ordered and has not begun (R290, R372) -/
  cutWanted : Bool
  /-- with a port stopped, no cell can fire (R289) -/
  quiet   : Bool
  /-- next group and divider numbers -/
  serial  : Nat
  deriving DecidableEq, Repr, Inhabited

/-- The state of a residency that a context image holds in its private layout (R374): the image's number among those written, the residency,
and the number of the pack that controls it. -/
structure ResImage where
  serial : Nat
  res    : Residency
  ctl    : Nat
  deriving DecidableEq, Repr, Inhabited

/-! ### The Shepherd -/

/-- A launch descriptor's fields (R350). -/
structure Desc where
  kind    : Nat
  cores   : Bool
  prio    : Nat
  npack   : Nat
  regs    : Nat
  window  : Nat
  rsets   : Nat
  spad    : Nat
  bars    : Nat
  opm     : Nat
  qw      : Nat
  entry   : Quad
  gridx   : Nat
  gridy   : Nat
  gridz   : Nat
  cbank   : Quad
  akind   : Nat
  qen     : Bool
  aq      : Nat
  atarget : Nat
  dep0    : Word
  dep1    : Word
  crec    : Quad
  cgate   : Quad
  cinc    : Quad
  cmsg    : Quad
  ctag    : Word
  clen    : Nat
  cport   : Nat
  cpart   : Nat
  relsc   : Nat
  shape   : Nat
  mqueue  : Nat
  deriving DecidableEq, Repr, Inhabited

/-- How a launch was terminated (R368, R369, R421): status, fault code and faulting PC. -/
structure Termination where
  status : Nat
  code   : Nat
  fpc    : Quad
  deriving DecidableEq, Repr, Inhabited

/-- A live launch (R350-R360). -/
structure Launch where
  seq      : Word
  queue    : Nat
  desc     : Desc
  /-- gates with their thresholds, and whether each has been observed at its threshold (R354) -/
  gates    : List (Quad × Quad × Bool)
  /-- the clock value at which the launch became eligible; `none` while pending (R354) -/
  eligible : Option Nat
  /-- aging levels and the clock value from which the next one counts (R355) -/
  aging    : Nat
  agedAt   : Nat
  /-- while R357 blocks the queue of a launch that has been eligible, the cycles already counted towards its next level -/
  ageHeld  : Option Nat
  /-- the clock value at which it was chosen and has waited unplaced (R356) -/
  chosen   : Option Nat
  /-- linear index of the next herd to place -/
  nextHerd : Nat
  /-- herds that ended normally (R360) -/
  ended    : Nat
  opmrel   : Bool
  /-- offsets of the constant bank that have been written while the launch runs (R112) -/
  bankDirty : List Nat
  term     : Option Termination
  deriving DecidableEq, Repr, Inhabited

/-- How far a completion has come (R360): its record is written; the release is made and the gate added to; the message waits for a full
transmit queue. -/
inductive CompletionStage where
  | recorded | gated | queueFull
  deriving DecidableEq, Repr, Inhabited

/-- A launch whose completion has begun (R360): the clock of its record, how far it has come, and since when it waits for a full queue. -/
structure PendingMessage where
  seq    : Word
  clock  : Quad
  stage  : CompletionStage
  since  : Nat
  deriving DecidableEq, Repr, Inhabited

/-- An armed match entry (R313). -/
structure Armed where
  entry : Nat
  desc  : Quad
  buf   : Quad
  tag   : Word
  len   : Nat
  src   : Nat
  deriving DecidableEq, Repr, Inhabited

/-- A message held in the unexpected store (R414). -/
structure HeldMessage where
  port  : Nat
  tag   : Word
  incarn : Word
  bytes : List Byte
  deriving DecidableEq, Repr, Inhabited

/-- A promotion request as read (R399), its own address, and how far the engine has come (R400). -/
structure Promotion where
  addr  : Quad
  level : Nat
  op    : Nat
  nm    : Nat
  sys   : Bool
  va    : Quad
  pa    : Quad
  gate  : Quad
  /-- no reserved field is non-zero (R399) -/
  rsvOk : Bool
  /-- the source entries as they stood before M was set in them, by their addresses, and the address of the level-1 entry above them -/
  entries : List (Nat × Nat)
  top   : Nat
  shoot : Option Shoot
  /-- the frames are moved and the new entries written: steps 1 to 4 are over (R400) -/
  moved : Bool
  deriving DecidableEq, Repr, Inhabited

/-- A partition (R348, R349): its share of the device and everything of its own. -/
structure Partition where
  id      : Nat
  /-- its first die and how many (R348) -/
  die0    : Nat
  dies    : Nat
  featpol : Quad
  tvec    : Quad
  mtvec   : Quad
  mroute  : Quad
  hdlcfg  : Word
  bartimeout : Quad
  ptroot  : Quad
  memwin  : List Quad
  dbglvl  : Word
  /-- A and the window class of its handler packs, as admitted at its last formation (R344, R351) -/
  handlerRegs : Nat
  handlerWin  : Nat
  /-- the function store (R219): filled slots as bank, slot, 128 bytes; the active bank -/
  slots   : List (Nat × Nat × List Byte)
  bank    : Nat
  armed   : List Armed
  held    : List HeldMessage
  launches : List Launch
  messages : List PendingMessage
  /-- sequence numbers (R352): the last one assigned, and whether they have wrapped -/
  lastSeq : Word
  wrapped : Bool
  /-- of the 2^20 most recent numbers, those not yet complete -/
  openSeqs : List Word
  /-- the chosen launch, and per level the turn of the round-robin: level, queue, launches left (R355) -/
  chosen  : Option Word
  turns   : List (Nat × Nat × Nat)
  /-- backfill has stopped for the chosen launch (R356) -/
  noBackfill : Bool
  promotions : List Promotion
  /-- when a failed gate read was last logged, by gate (R435) -/
  gateLog : List (Quad × Nat)
  /-- stopped by R346 or R428 -/
  stopped : Bool
  /-- a reset of the partition waits for the completions of its launches (R415) -/
  resetting : Bool
  deriving DecidableEq, Repr, Inhabited

/-! ### The H-die -/

/-- A message in a port's transmit queue (R314, R411). -/
structure TxMessage where
  typ   : Nat
  part  : Nat
  spart : Nat
  tag   : Word
  bytes : List Byte
  deriving DecidableEq, Repr, Inhabited

/-- A segment on a wire (R412). -/
structure Segment where
  hdr     : SegHeader
  payload : List Byte
  deriving DecidableEq, Repr, Inhabited

/-- A receiving stream of a port (R412, R413): source and destination partition, next number, the message so far, and acknowledgments. -/
structure RxStream where
  spart   : Nat
  dpart   : Nat
  next    : Word
  partial_ : List Byte
  inMessage : Bool
  /-- segments accepted that no acknowledgment covers, and the clock value of the first of them -/
  unacked : Nat
  since   : Nat
  /-- when an acknowledgment was last sent for a segment out of order -/
  ackAt   : Option Nat
  deriving DecidableEq, Repr, Inhabited

/-- A sending stream (R413): the next number, segments not yet acknowledged, the resends made without an advance, and since when. -/
structure TxStream where
  spart   : Nat
  dpart   : Nat
  next    : Word
  sent    : List Segment
  resends : Nat
  since   : Nat
  deriving DecidableEq, Repr, Inhabited

/-- A port of the H-die (R409-R413). -/
structure IoPort where
  up      : Bool
  /-- a hello has been accepted since the link came up -/
  opened  : Bool
  /-- the agent identifier and incarnation of the last accepted hello (R409) -/
  agent   : Word
  incarn  : Option Word
  /-- the last accepted incarnation of each agent that has said hello here (R409) -/
  seen    : List (Word × Word)
  /-- messages queued for sending -/
  txq     : List TxMessage
  rx      : List RxStream
  tx      : List TxStream
  /-- messages wholly received that have not been dealt with, oldest first -/
  inbox   : List (KmtHeader × List Byte)
  /-- what has been put on the wire, oldest first -/
  wire    : List Segment
  deriving DecidableEq, Repr, Inhabited

/-- An error-log entry (R430). -/
structure LogEntry where
  typ    : Nat
  part   : Nat
  die    : Nat
  unit   : Nat
  seq    : Word
  clock  : Quad
  addr   : Quad
  detail : Quad
  deriving DecidableEq, Repr, Inhabited

/-- What a Collie command answered: its status and its data (R421). -/
structure Reply where
  status : Nat
  data   : List Byte
  deriving DecidableEq, Repr, Inhabited

/-- A command of the Collie (R421). -/
inductive CollieCommand where
  | hello (version : Byte)
  | telemetry
  | logread (fromSeq : Word)
  | fwload (image : List Byte)
  | reset (target : ResetTarget)
  | kill (part : Nat) (seq : Word)
  | debug (part : Nat) (level : Word)
  | power (target : PowerState)
  | attest (nonce : List Byte)
  | memrw (addr len : Nat) (data : Option (List Byte))
  | genkey
  | secstate (target : SecState)
  deriving DecidableEq, Repr, Inhabited

/-- The always-on island (R416-R431). -/
structure AlwaysOn where
  sec      : SecState
  /-- how many identity keys have been made; the current one, if it exists (R419) -/
  keysMade : Nat
  key      : Option Nat
  /-- the minimum svn in fuses (R416, R418) -/
  minSvn   : Nat
  flash    : List Byte
  log      : List LogEntry
  logSeq   : Word
  lost     : Nat
  /-- the device incarnation (R409) -/
  incarn   : Word
  /-- the layout in the Collie's configuration (R416) -/
  layout   : Nat
  reply    : Option Reply
  /-- a command in progress that waits, and those that have arrived behind it (R421) -/
  cmds     : List CollieCommand
  /-- the version that the hello of the session in progress has settled (R421) -/
  session  : Option Byte
  /-- correctable errors counted since the last entry of a unit, with the clock of that entry (R428, R431) -/
  counted  : List (StoragePlace × Nat × Nat)
  /-- the ROM holds the other islands in reset after a failed boot (R418) -/
  bootFailed : Bool
  /-- debug levels by partition that the boot under way is to apply: those kept while the device was off, or set before it (R425) -/
  keptDebug : List (Nat × Word)
  deriving DecidableEq, Repr, Inhabited

/-! ### The machine -/

/-- The state of the K9. -/
structure State where
  /-- MODEL'S OWN: steps taken, the argument of `Config.schedule` and `Config.elapsed` -/
  tick     : Nat
  /-- MODEL'S OWN: free values drawn so far -/
  fresh    : Nat
  /-- MODEL'S OWN: moves already fixed, taken before the schedule is asked -/
  agenda   : List Turn
  /-- MODEL'S OWN: the path whose instruction `exec` runs -/
  cur      : Option PathAt
  /-- the device count that `%clock` reads (R196) -/
  clock    : Quad
  power    : PowerState
  /-- the clock value since which the conditions of idle hold (R423) -/
  quietSince : Nat
  /-- firmware has run since the last device reset (R416) -/
  booted   : Bool
  /-- svn and digest of the running image (R420) -/
  imageSvn : Nat
  imageDigest : List Byte
  mem      : List Host.Cell
  /-- poisoned 8-byte granules of global memory, by number, those of pages homed outside above every local one (R428) -/
  poison   : List Nat
  /-- the release sequences that memory holds (R119) -/
  heads    : List ReleaseHead
  /-- bytes of pages homed on outside agents, as last granted or written (R407) -/
  remote   : List Host.Cell
  near     : List NearCopy
  scCopies : List ScCopy
  pages    : List PageEntry
  handOvers : List HandOver
  /-- grant requests of outside agents that wait for their turn, in order of arrival (R408) -/
  waiting  : List PageWait
  remotePages : List RemotePage
  /-- cores whose storage is not empty; a core not listed is as `Core.empty` -/
  cores    : List Core
  /-- quarters that are not as `Quarter.initial` -/
  quarters : List Quarter
  dies     : List Die
  packs    : List Pack
  herds    : List Herd
  /-- MODEL'S OWN: the next number of a herd, a copy, a residency, or a stop of a copy or a port -/
  nextId   : Nat
  residencies : List Residency
  /-- what the residency sections of context images stand for (R374, log 13) -/
  resImages : List ResImage
  /-- partition layout (R348) -/
  layout   : Nat
  parts    : List Partition
  ports    : List IoPort
  aon      : AlwaysOn
  deriving DecidableEq, Repr

end Sys2Proof.Machine

namespace Sys2Proof.Machine

/-- A core with nothing in it. -/
def Core.empty (id : Nat) : Core := ⟨id, [], [], [], [], [], []⟩

/-- A quarter at reset: SIMT (R24). -/
def Quarter.initial (core quarter : Nat) : Quarter := ⟨core, quarter, .simt, 0, []⟩

/-- A C-die at reset: budget 8192 (R426), nothing cached. -/
def Die.initial (id : Nat) : Die := ⟨id, [], [], [], 8192, 0, []⟩

/-- The debug level a security state gives (R425). -/
def secDebug : SecState → Word
  | .production => 0#32
  | .provisioning | .returned => 2#32

/-- A partition as formed (R342, R348): its CSRs at their reset values, nothing armed, queued or loaded.  `hdlcfg` keeps what the
formation read; a regs field out of range forms with 0x30 (R344). -/
def Partition.initial (id die0 dies : Nat) (dbg : Word) (mtvec : Quad) : Partition :=
  { id, die0, dies, featpol := BitVec.allOnes 64, tvec := 0, mtvec, mroute := 0, hdlcfg := 0x130#32,
    bartimeout := 0x0000000100000000#64, ptroot := 0, memwin := List.replicate 8 0, dbglvl := dbg,
    handlerRegs := 48, handlerWin := 1, slots := [], bank := 0, armed := [], held := [], launches := [], messages := [],
    lastSeq := 0, wrapped := false, openSeqs := [], chosen := none, turns := [], noBackfill := false, promotions := [],
    gateLog := [], stopped := false, resetting := false }

/-- A port whose link is down. -/
def IoPort.down : IoPort :=
  { up := false, opened := false, agent := 0, incarn := none, seen := [], txq := [], rx := [], tx := [], inbox := [], wire := [] }

/-- The always-on island as the first power-on finds it: leaving the factory (R419), an empty log (R430); log 7 names what the manual
does not give. -/
def AlwaysOn.initial : AlwaysOn :=
  { sec := .provisioning, keysMade := 0, key := none, minSvn := 0, flash := [], log := [], logSeq := 0, lost := 0, incarn := 1,
    layout := 0, reply := none, cmds := [], session := none, counted := [], bootFailed := false, keptDebug := [] }

/-- The machine right after a device reset, before the H-die ROM has read the firmware image (R415, R416): one partition of eight dies
(R348), no pack, the clock at 0 (R196), the four quarters of every core in the SIMT state (R24). -/
def State.reset : State :=
  { tick := 0, fresh := 0, agenda := [], cur := none, clock := 0, power := .on, quietSince := 0, booted := false,
    imageSvn := 0, imageDigest := [], mem := [], poison := [], heads := [], remote := [], near := [], scCopies := [], pages := [],
    handOvers := [], waiting := [], remotePages := [], cores := [], quarters := [], dies := (List.range 8).map Die.initial,
    packs := [], herds := [], nextId := 0, residencies := [], resImages := [], layout := 0,
    parts := [Partition.initial 0 0 8 2#32 0#64], ports := List.replicate 17 IoPort.down, aon := AlwaysOn.initial }

end Sys2Proof.Machine
end

