-- ==== Sys2Proof/Machine/Mem.lean ====
section
/-!
DEFINITION. Byte memory as a canonical list (addresses strictly rising, no entry that equals what an unlisted address reads as), and the
lookups and updates of State by key.  Global memory, scratchpads and OPM slots all use these operations.
-/

namespace Sys2Proof.Machine

/-! ### Byte memory -/

/-- What address `a` reads as; `d` where it is not listed. -/
def memGet (d : Byte) : List Host.Cell → Nat → Byte
  | [], _ => d
  | (k, v) :: m, a => if k == a then v else if a < k then d else memGet d m a

/-- Address `a` set to `b`, in canonical form for the default `d`. -/
def memPut (d : Byte) : List Host.Cell → Nat → Byte → List Host.Cell
  | [], a, b => if b == d then [] else [(a, b)]
  | (k, v) :: m, a, b =>
    if k == a then (if b == d then m else (a, b) :: m)
    else if a < k then (if b == d then (k, v) :: m else (a, b) :: (k, v) :: m)
    else (k, v) :: memPut d m a b

/-- `n` bytes from address `a` upward. -/
def memRead (d : Byte) (m : List Host.Cell) (a : Nat) : Nat → List Byte
  | 0 => []
  | n + 1 => memGet d m a :: memRead d m (a + 1) n

/-- Bytes written from address `a` upward. -/
def memWrite (d : Byte) (m : List Host.Cell) (a : Nat) : List Byte → List Host.Cell
  | [] => m
  | b :: bs => memWrite d (memPut d m a b) (a + 1) bs

/-- The canonical form: addresses strictly rising, no entry equal to the default. -/
def memWf (d : Byte) : List Host.Cell → Bool
  | [] => true
  | [(_, v)] => v != d
  | (k, v) :: (k', v') :: m => v != d && k < k' && memWf d ((k', v') :: m)

/-! ### Lists by key -/

/-- Every element that satisfies `p` replaced by its image under `f`. -/
def updWhere {α : Type} (p : α → Bool) (f : α → α) (l : List α) : List α := l.map (fun x => if p x then f x else x)

/-- The value of a key in an association list, `d` where it is not listed. -/
def assocGet {β : Type} (d : β) (l : List (Nat × β)) (k : Nat) : β := ((l.find? (·.1 == k)).map (·.2)).getD d

/-- A key's value set; a value equal to the default is not listed. -/
def assocPut {β : Type} [DecidableEq β] (d : β) (l : List (Nat × β)) (k : Nat) (v : β) : List (Nat × β) :=
  let rest := l.filter (·.1 != k)
  if v = d then rest else (k, v) :: rest

/-! ### Lookups in State -/

/-- The pack in a slot. -/
def findPack (s : State) (loc : PackLoc) : Option Pack := s.packs.find? (·.loc == loc)

/-- The packs with the one in slot `p.loc` replaced by `p`. -/
def setPack (s : State) (p : Pack) : State := { s with packs := updWhere (·.loc == p.loc) (fun _ => p) s.packs }

/-- The herd of a number. -/
def findHerd (s : State) (id : Nat) : Option Herd := s.herds.find? (·.id == id)

/-- The herd of a number changed. -/
def modHerd (s : State) (id : Nat) (f : Herd → Herd) : State := { s with herds := updWhere (·.id == id) f s.herds }

/-- The residency of a number. -/
def findRes (s : State) (id : Nat) : Option Residency := s.residencies.find? (·.id == id)

/-- The residency of a number changed. -/
def modRes (s : State) (id : Nat) (f : Residency → Residency) : State :=
  { s with residencies := updWhere (·.id == id) f s.residencies }

/-- The core of a number; a core not listed holds nothing. -/
def getCore (s : State) (id : Nat) : Core := (s.cores.find? (·.id == id)).getD (Core.empty id)

/-- A core's storage replaced. -/
def setCore (s : State) (c : Core) : State :=
  { s with cores := if s.cores.any (·.id == c.id) then updWhere (·.id == c.id) (fun _ => c) s.cores else c :: s.cores }

/-- A core's storage changed. -/
def modCore (s : State) (id : Nat) (f : Core → Core) : State := setCore s (f (getCore s id))

/-- A quarter; one not listed is in the SIMT state. -/
def getQuarter (s : State) (core quarter : Nat) : Quarter :=
  (s.quarters.find? (fun q => q.core == core && q.quarter == quarter)).getD (Quarter.initial core quarter)

/-- A quarter replaced. -/
def setQuarter (s : State) (q : Quarter) : State :=
  { s with quarters := q :: s.quarters.filter (fun r => !(r.core == q.core && r.quarter == q.quarter)) }

/-- A C-die's storage. -/
def getDie (s : State) (id : Nat) : Die := (s.dies.find? (·.id == id)).getD (Die.initial id)

/-- A C-die's storage changed. -/
def modDie (s : State) (id : Nat) (f : Die → Die) : State := { s with dies := updWhere (·.id == id) f s.dies }

/-- The partition of a number. -/
def findPart (s : State) (id : Nat) : Option Partition := s.parts.find? (·.id == id)

/-- The partition of a number changed. -/
def modPart (s : State) (id : Nat) (f : Partition → Partition) : State := { s with parts := updWhere (·.id == id) f s.parts }

/-- A port of the H-die (R410); a port number above 16 names none. -/
def getPort (s : State) (n : Nat) : IoPort := s.ports.getD n IoPort.down

/-- A port of the H-die changed. -/
def modPort (s : State) (n : Nat) (f : IoPort → IoPort) : State := { s with ports := s.ports.set n (f (getPort s n)) }

/-- The always-on island changed. -/
def modAon (s : State) (f : AlwaysOn → AlwaysOn) : State := { s with aon := f s.aon }

/-- The die of a core (R341). -/
def dieOf (core : Nat) : Nat := core / 42

/-- The partition that holds a die (R348). -/
def partOfDie (s : State) (die : Nat) : Option Partition := s.parts.find? (fun p => p.die0 ≤ die && die < p.die0 + p.dies)

/-- A free value's number is drawn. -/
def draw (s : State) : State := { s with fresh := s.fresh + 1 }

/-- `%clock` as a number (R196). -/
def now (s : State) : Nat := s.clock.toNat

/-- An entry appended to the error log (R430): a full ring of 4096 loses its oldest entry. -/
def logEvent (s : State) (typ part die unit : Nat) (addr detail : Quad) : State :=
  modAon s fun a =>
    let seq := a.logSeq + 1
    let e : LogEntry := ⟨typ, part, die, unit, seq, s.clock, addr, detail⟩
    if a.log.length < 4096 then { a with log := a.log ++ [e], logSeq := seq }
    else { a with log := a.log.drop 1 ++ [e], logSeq := seq, lost := a.lost + 1 }

/-- A move put in front of the schedule. -/
def push (s : State) (t : Turn) : State := { s with agenda := s.agenda ++ [t] }

end Sys2Proof.Machine
end

