-- ==== Sys2Proof/Machine/Wire.lean ====
section
/-!
DEFINITION. What the K9 sends through its ports (R410-R413): KMT headers and segments in memory order, the transmit queues, and the streams
that the queued messages leave by.
-/

namespace Sys2Proof.Machine

/-- The 32 bytes of a KMT header (R411). -/
def kmtBytes (h : KmtHeader) : List Byte :=
  bytesLE 32
    (h.version.toNat + h.typ.toNat * 2 ^ 8 + h.part.toNat * 2 ^ 16 + h.spart.toNat * 2 ^ 19 + h.rsv.toNat * 2 ^ 22 + h.tag.toNat * 2 ^ 32 +
      h.len.toNat * 2 ^ 64 + h.incarn.toNat * 2 ^ 96 + h.agent.toNat * 2 ^ 128 + h.kmtmax.toNat * 2 ^ 160 + h.linkmax.toNat * 2 ^ 168 +
      h.rsv2.toNat * 2 ^ 176)

/-- A KMT header from its bytes. -/
def kmtOf (bs : List Byte) : KmtHeader :=
  let n := numLE (bs.take 32)
  { version := fld n 0 8, typ := fld n 8 8, part := fld n 16 3, spart := fld n 19 3, rsv := fld n 22 10, tag := fld n 32 32
    len := fld n 64 32, incarn := fld n 96 32, agent := fld n 128 32, kmtmax := fld n 160 8, linkmax := fld n 168 8, rsv2 := fld n 176 80 }

/-- The header of a message that the K9 sends: `len` is 0 but for type 0, the highest versions stand in a hello alone. -/
def outHeader (s : State) (m : TxMessage) : KmtHeader :=
  let max : BitVec 8 := if m.typ == 2 then 1 else 0
  { version := 1, typ := BitVec.ofNat 8 m.typ, part := BitVec.ofNat 3 m.part, spart := BitVec.ofNat 3 m.spart, rsv := 0, tag := m.tag
    len := if m.typ == 0 then BitVec.ofNat 32 m.bytes.length else 0, incarn := s.aon.incarn, agent := Config.agentId
    kmtmax := max, linkmax := max, rsv2 := 0 }

/-- Payload bytes of a full segment of a port (R412). -/
def fullPayload (port : Nat) : Nat := if port == 0 then 8192 else 224

/-- A message's bytes cut into segments of `n` bytes (R412). -/
def cutSegments (n : Nat) (spart dpart : Nat) : Nat → Word → Bool → List Byte → List Segment
  | 0, _, _, _ => []
  | fuel + 1, no, first, bs =>
    let here := bs.take n
    let rest := bs.drop n
    let h : SegHeader :=
      { segno := no, plen := BitVec.ofNat 14 here.length, first, last := rest.isEmpty, kind := 0, dpart := BitVec.ofNat 3 dpart
        spart := BitVec.ofNat 3 spart, rsv := 0, ackno := 0, rsv2 := 0 }
    ⟨h, here⟩ :: (if rest.isEmpty then [] else cutSegments n spart dpart fuel (no + 1) false rest)

/-- The segments of a message from a segment number on. -/
def messageSegments (s : State) (port : Nat) (m : TxMessage) (no : Word) : List Segment :=
  let bs := kmtBytes (outHeader s m) ++ m.bytes
  cutSegments (fullPayload port) m.spart m.part (bs.length / fullPayload port + 1) no true bs

/-- The sending stream of a port for a pair of partitions; one not listed has sent nothing since the hello. -/
def txStream (p : IoPort) (spart dpart : Nat) : TxStream :=
  (p.tx.find? fun t => t.spart == spart && t.dpart == dpart).getD ⟨spart, dpart, 0, [], 0, 0⟩

/-- A sending stream replaced. -/
def putTx (p : IoPort) (t : TxStream) : IoPort := { p with tx := t :: p.tx.filter fun x => !(x.spart == t.spart && x.dpart == t.dpart) }

/-- The head of the transmit queue leaves, whole, where its stream has room for its segments: 1024 unacknowledged on port 0 (R413, log 43). -/
def sendHead (s : State) (port : Nat) (p : IoPort) (m : TxMessage) (rest : List TxMessage) : Option IoPort :=
  let t := txStream p m.spart m.part
  let segs := messageSegments s port m t.next
  if port == 0 && 1024 < t.sent.length + segs.length then none
  else
    let t := { t with
      next := t.next + BitVec.ofNat 32 segs.length
      sent := if port == 0 then t.sent ++ segs else []
      since := if t.sent.isEmpty then now s else t.since }
    some { putTx p t with txq := rest, wire := p.wire ++ segs }

/-- Queued messages leave an open port in order, `fuel` at most. -/
def sendQueued (s : State) (port : Nat) : Nat → IoPort → IoPort
  | 0, p => p
  | fuel + 1, p =>
    match p.txq with
    | [] => p
    | m :: rest =>
      match sendHead s port p m rest with
      | none => p
      | some p' => sendQueued s port fuel p'

/-- A port's transmit queue is full of messages (R314, R360); what the K9 itself sends on the port takes no place of theirs. -/
def IoPort.full (p : IoPort) : Bool := Config.txDepth ≤ (p.txq.filter (·.typ == 0)).length

/-- A completion message that waits for a full queue of the port has found it with room: only a queue that stays full drops it (R360). -/
def makeRoom (s : State) (port : Nat) : State :=
  let waits (p : Partition) (m : PendingMessage) : Bool :=
    m.stage == .queueFull && p.launches.any fun l => l.seq == m.seq && l.desc.cport == port
  if !(getPort s port).full then
    { s with parts := s.parts.map fun p => { p with messages := updWhere (waits p) (fun m => { m with stage := .gated }) p.messages } }
  else s

/-- The transmit queue of a port moves on: nothing passes before a hello is accepted (R411). -/
def pump (s : State) (port : Nat) : State :=
  makeRoom (if (getPort s port).opened then modPort s port fun p => sendQueued s port p.txq.length p else s) port

/-- A message enters a port's transmit queue, and leaves it when it can. -/
def queueMessage (s : State) (port : Nat) (m : TxMessage) : State := pump (modPort s port fun p => { p with txq := p.txq ++ [m] }) port

/-- A hello or a refusal that belongs to no stream: one segment, number 0 (R411, R412). -/
def sendAlone (s : State) (port : Nat) (m : TxMessage) : State :=
  modPort s port fun p => { p with wire := p.wire ++ messageSegments s port m 0 }

end Sys2Proof.Machine
end

