-- ==== Sys2Proof/Machine/Translate.lean ====
section
/-!
DEFINITION. Translation (R384-R392), the windows of a partition (R349), patch pages (R390), and the page hand-over an access may need
(R407, R408).
-/

namespace Sys2Proof.Machine

/-- The size of a page of the tables and of a coherence page (R384, R407). -/
def pageSize : Nat := 65536
/-- The pages of a 2 MiB and of a 512 MiB translation (R384, R389). -/
def midPages : Nat := 32
def bigPages : Nat := 8192

/-- Bits `hi` to `lo` of a number (R9). -/
def bitsOf (w hi lo : Nat) : Nat := w / 2 ^ lo % 2 ^ (hi + 1 - lo)

/-- A pointer is canonical: bits 63 to 55 all equal bit 54 (R96). -/
def canonical (a : Nat) : Bool := bitsOf a 63 54 == 0 || bitsOf a 63 54 == 1023

/-- The virtual page number of an address: bits 54 to 16 (R384). -/
def vpnOf (va : Nat) : Nat := bitsOf va 54 16

/-- Eight bytes of physical memory as a number. -/
def readPhys8 (s : State) (pa : Nat) : Nat := numLE (memRead Config.blankByte s.mem pa 8)

/-- The enabled windows of a partition as base and size (R349). -/
def windows (p : Partition) : List (Nat × Nat) :=
  (p.memwin.filter (fun w => bitsOf w.toNat 63 52 == 1)).map
    (fun w => (bitsOf w.toNat 51 21 * 2 ^ 21, (bitsOf w.toNat 20 0 + 1) * 2 ^ 21))

/-- A frame of `len` bytes lies inside the windows (R349): each of its 2 MiB parts lies in some window. -/
def insideWindows (p : Partition) (pa len : Nat) : Bool :=
  (List.range (max 1 (len / 2 ^ 21))).all fun k =>
    (windows p).any fun w => w.1 ≤ pa + k * 2 ^ 21 && pa + k * 2 ^ 21 + min len (2 ^ 21) ≤ w.1 + w.2

/-- A frame of `len` bytes is installed memory (R387). -/
def installedFrame (pa len : Nat) : Bool := Config.installed pa && Config.installed (pa + len - 1)

/-! ### Table entries (R386) -/

def pteV (w : Nat) : Bool := w % 2 == 1
def pteL (w : Nat) : Bool := w / 2 % 2 == 1
def pteM (w : Nat) : Bool := w / 2 ^ 14 % 2 == 1
def pteC (w : Nat) : Bool := w / 2 ^ 6 % 2 == 1
def pteKind (w : Nat) : Nat := bitsOf w 10 9
/-- The frame or table an entry names. -/
def pteAddr (w : Nat) : Nat := bitsOf w 51 16 * pageSize

/-- A valid entry of a level breaks R386 or the leaf rules of R387. -/
def pteBad (level w : Nat) : Bool :=
  let bit (n : Nat) : Bool := w / 2 ^ n % 2 == 1
  bit 15 || bitsOf w 63 52 != 0 ||
  (if pteL w then
    level == 2 || (level == 1 && (bit 6 || bit 7 || bitsOf w 28 16 != 0)) || (pteKind w == 0 && bitsOf w 13 11 != 0) || 2 ≤ pteKind w ||
      (bit 3 && (!bit 2 || bit 4)) || (bit 7 && (!bit 4 || bit 3))
   else level == 0 || bitsOf w 14 2 != 0)

/-- The translation that a leaf gives for `pages` pages from virtual page `vpn`, with its frame at `pa`. -/
def leafTlb (p : Partition) (w vpn pages pa : Nat) : Tlb :=
  let bit (n : Nat) : Bool := w / 2 ^ n % 2 == 1
  { part := p.id, vpn, pages, pa, r := bit 2, w := bit 3, x := bit 4, u := bit 5, patch := bit 7, sc := bit 8, kind := pteKind w,
    route := bitsOf w 13 11, inside := insideWindows p pa (pages * pageSize) }

/-- A translation that stands for physical addressing at machine level (R347). -/
def identityTlb (part : Nat) : Tlb :=
  { part, vpn := 0, pages := 2 ^ 39, pa := 0, r := true, w := true, x := true, u := true, patch := false, sc := false, kind := 0,
    route := 0, inside := true }

/-! ### Page hand-over (R407, R408) -/

/-- The coherence page of a physical address. -/
def pageNo (pa : Nat) : Nat := pa / pageSize

/-- The device can serve an access to a page now: no outside agent holds it in the way, or for a kind-1 page the grant is held. -/
def pageReady (s : State) (t : Tlb) (pa : Nat) (writes : Bool) : Bool :=
  if t.kind == 1 then
    s.remotePages.any fun r => r.page == pageNo pa && (r.exclusive || (r.shared && !writes))
  else
    !(s.handOvers.any (·.page == pageNo pa)) &&
      s.pages.all fun e => e.page != pageNo pa || (!e.exclusive && !writes)

/-- A coherence request or answer sent through an open port: a message of type 1, in one segment (R411, R412).  Codes, which are the
model's: 0 grant, 1 retry, 2 revoke, 3 recall, 4 request, 5 refusal of a grant, 6 acknowledgment (log 59). -/
def sendCoherence (s : State) (port code page : Nat) (exclusive : Bool) : State :=
  if (getPort s port).opened then queueMessage s port ⟨1, 0, 0, 0, (Config.coherenceBody code page exclusive).take 192⟩ else s

/-- The home revokes every grant of a page and will give `grant` afterwards (R407); codes 2 revoke, 3 recall.  `own`: for an access of the
device. -/
def revokePage (s : State) (page : Nat) (except_ : Nat → Bool) (grant : Option (Nat × Bool)) (own : Bool) : State :=
  match s.pages.find? (·.page == page) with
  | none => s
  | some e =>
    let ports := (e.holders.map (·.1)).filter (fun p => !except_ p)
    let s := ports.foldl (fun s p => sendCoherence s p (if e.exclusive then 3 else 2) page e.exclusive) s
    { s with handOvers := s.handOvers ++ [⟨page, ports, now s, grant, own⟩] }

/-- What an access that is not ready asks for: a recall or revocation at the home, or a grant of a kind-1 page (R407). -/
def requestPage (s : State) (t : Tlb) (pa : Nat) (writes : Bool) : State :=
  let page := pageNo pa
  if t.kind == 1 then
    let ask (s : State) : State := sendCoherence s (Config.remotePort page) 4 page writes
    match s.remotePages.find? (·.page == page) with
    | some r =>
      if r.asked.isSome then s
      else ask { s with remotePages := updWhere (·.page == page) (fun r => { r with asked := some writes }) s.remotePages }
    | none => ask { s with remotePages := s.remotePages ++ [⟨page, some writes, false, false, 0, false⟩] }
  else if s.handOvers.any (·.page == page) then { s with handOvers := updWhere (·.page == page) (fun h => { h with own := true }) s.handOvers }
  else revokePage s page (fun _ => false) none true

/-- Waiting grant requests come to their turn, in their order. -/
def takeTurn (s : State) (ws : List PageWait) : State :=
  { s with
    waiting := s.waiting.filter fun w => !ws.contains w
    agenda := s.agenda ++ ws.map fun w =>
      .event (if w.exclusive then .exclusiveGrantRequest w.port w.page else .readGrantRequest w.port w.page) }

/-- An access of the device to a page is served: the requests that came behind it have their turn (R408). -/
def usePage (s : State) (t : Tlb) (pa : Nat) : State :=
  let ws := s.waiting.filter fun w => t.kind == 0 && w.page == pageNo pa
  if ws.isEmpty then s else takeTurn s ws

/-! ### Walks (R387-R392) -/

/-- How a walk ends (R387, R392). -/
inductive WalkEnd where
  | leaf (t : Tlb)
  /-- it met M = 1 -/
  | moving
  /-- an outside agent holds the table page of this address, which is asked for (R407) -/
  | away (pa : Nat)
  /-- the translation fault; `format` for a format error -/
  | fault (format : Bool)
  deriving DecidableEq, Repr

/-- A table page can be read at the L2 now (R392, R407, R408). -/
def tableReady (s : State) (table : Nat) : Bool := pageReady s (identityTlb 0) table false

/-- The 32 entries of the group that holds entry `i0` of a table form a 2 MiB page (R389). -/
def groupHolds (s : State) (table i0 : Nat) : Bool :=
  let g := i0 / 32 * 32
  let w0 := readPhys8 s (table + 8 * g)
  bitsOf w0 20 16 == 0 && (List.range 32).all fun k =>
    let w := readPhys8 s (table + 8 * (g + k))
    pteV w && pteL w && pteC w && w == w0 + k * pageSize

/-- The end of a walk at a level-0 table (R387, R389). -/
def walkLevel0 (s : State) (p : Partition) (table vpn : Nat) : WalkEnd :=
  let i0 := vpn % 8192
  let w := readPhys8 s (table + 8 * i0)
  if !tableReady s table then .away table
  else if !pteV w then .fault false
  else if pteBad 0 w then .fault true
  else if pteM w then .moving
  else if pteKind w == 0 && !installedFrame (pteAddr w) pageSize then .fault false
  else if pteC w && groupHolds s table i0 then
    .leaf (leafTlb p w (vpn / 32 * 32) midPages (pteAddr w / 2 ^ 21 * 2 ^ 21))
  else .leaf (leafTlb p w vpn 1 (pteAddr w))

/-- The table that a level-1 or level-2 entry points to, or how the walk ends there (R387). -/
def walkUpper (s : State) (p : Partition) (level table index vpn : Nat) : Except WalkEnd Nat :=
  let w := readPhys8 s (table + 8 * index)
  if !tableReady s table then .error (.away table)
  else if !pteV w then .error (.fault false)
  else if pteBad level w then .error (.fault true)
  else if pteL w then
    if pteM w then .error .moving
    else if pteKind w == 0 && !installedFrame (pteAddr w) (bigPages * pageSize) then .error (.fault false)
    else .error (.leaf (leafTlb p w (vpn / bigPages * bigPages) bigPages (pteAddr w)))
  else if !installedFrame (pteAddr w) pageSize then .error (.fault false)
  else .ok (pteAddr w)

/-- The cached non-leaf entry of a level (R391). -/
def walkCached (d : Die) (part level index : Nat) : Option Nat :=
  (d.walkCache.find? (fun e => e.part == part && e.level == level && e.index == index)).map (·.table)

/-- A walk for a virtual page on a die (R387, R392), and the non-leaf entries it read, for the walk cache. -/
def walk (s : State) (die : Nat) (p : Partition) (vpn : Nat) : WalkEnd × List WalkEntry :=
  let d := getDie s die
  let i2 := vpn / 2 ^ 26
  let i21 := vpn / 8192
  if p.ptroot.toNat % 2 == 0 then (.fault false, [])
  else
    let level2 : Except WalkEnd Nat :=
      match walkCached d p.id 2 i2 with
      | some t => .ok t
      | none =>
        if !installedFrame (bitsOf p.ptroot.toNat 51 16 * pageSize) pageSize then .error (.fault false)
        else walkUpper s p 2 (bitsOf p.ptroot.toNat 51 16 * pageSize) i2 vpn
    match level2 with
    | .error e => (e, [])
    | .ok t1 =>
      let e2 : WalkEntry := ⟨p.id, 2, i2, t1⟩
      let level1 : Except WalkEnd Nat :=
        match walkCached d p.id 1 i21 with
        | some t => .ok t
        | none => walkUpper s p 1 t1 (i21 % 8192) vpn
      match level1 with
      | .error e => (e, [e2])
      | .ok t0 => (walkLevel0 s p t0 vpn, [e2, ⟨p.id, 1, i21, t0⟩])

/-- A cached translation covers a page of a partition. -/
def Tlb.covers (t : Tlb) (part vpn : Nat) : Bool := t.part == part && t.vpn ≤ vpn && vpn < t.vpn + t.pages

/-- A translation kept with the most recent ones of a cache of `n` entries (R391). -/
def keepTlb (n : Nat) (t : Tlb) (l : List Tlb) : List Tlb := (t :: l.filter (· != t)).take n

/-- Non-leaf entries kept in a walk cache of 256 (R391). -/
def keepWalk (es l : List WalkEntry) : List WalkEntry := (es ++ l.filter (fun e => !(es.contains e))).take 256

/-- What a translation gives. -/
inductive Trans where
  | ok (t : Tlb)
  /-- the translation fault (R387) -/
  | fault
  /-- a walk waits at an entry with M = 1 (R392) -/
  | stall
  deriving DecidableEq, Repr

/-- The Retriever of a die walks a page for a partition (R387, R391, R392): the TLB and the walk cache keep what R391 lets them keep, a
format error is logged, and a walk that meets M = 1 is held. -/
def retrieve (s : State) (die : Nat) (p : Partition) (va : Nat) : Trans × State :=
  let vpn := vpnOf va
  if (getDie s die).held.any (fun h => h.part == p.id && h.vpn == vpn) then (.stall, s)
  else
    match walk s die p vpn with
    | (.leaf t, es) =>
      (.ok t, modDie s die fun d => { d with tlb := keepTlb 4096 t d.tlb, walkCache := keepWalk es d.walkCache })
    | (.moving, es) =>
      (.stall, modDie s die fun d => { d with held := d.held ++ [⟨p.id, vpn, BitVec.ofNat 64 va, now s⟩], walkCache := keepWalk es d.walkCache })
    | (.away pa, es) =>
      (.stall, requestPage (modDie s die fun d => { d with walkCache := keepWalk es d.walkCache }) (identityTlb p.id) pa false)
    | (.fault format, _) => (.fault, if format then logEvent s 5 p.id die 0 0 (BitVec.ofNat 64 va) else s)

/-- The translation of an address for an access from a core (R391): its micro-TLB, then the die's TLB, then a walk. -/
def translate (s : State) (core : Nat) (p : Partition) (va : Nat) : Trans × State :=
  let vpn := vpnOf va
  let die := dieOf core
  if p.ptroot.toNat % 2 == 0 then (.fault, s)
  else
    match (getCore s core).tlb.find? (·.covers p.id vpn) with
    | some t => (.ok t, s)
    | none =>
      match (getDie s die).tlb.find? (·.covers p.id vpn) with
      | some t => (.ok t, modCore s core fun c => { c with tlb := keepTlb 64 t c.tlb })
      | none =>
        match retrieve s die p va with
        | (.ok t, s') => (.ok t, modCore s' core fun c => { c with tlb := keepTlb 64 t c.tlb })
        | r => r

/-- The physical address a translation gives: a frame is whole pages, so the place in the page stays (R386, R387). -/
def Tlb.phys (t : Tlb) (va : Nat) : Nat := (t.pa / pageSize + (vpnOf va - t.vpn)) * pageSize + va % pageSize

/-- The physical address that a translation already cached gives, 0 where none is; at machine level an address is physical (R347). -/
def cachedPhys (s : State) (core part level va : Nat) : Nat :=
  if level == 2 then va
  else
    match ((getCore s core).tlb ++ (getDie s (dieOf core)).tlb).find? (·.covers part (vpnOf va)) with
    | some t => t.phys va
    | none => 0

/-- A walk that waits at an entry with M = 1 holds up the accesses of a pack to the page of an address (R392). -/
def walkHolds (s : State) (p : Pack) (va : Nat) : Bool := (getDie s (dieOf p.loc.core)).held.any fun h => h.part == p.part && h.vpn == vpnOf va

/-! ### Permissions (R388, R390) -/

/-- What an access does to memory. -/
inductive Acc where
  | read
  /-- `b64` for an aligned `st.b64`, the one store that a patch slot takes -/
  | write (b64 : Bool)
  | rmw
  | fetch
  /-- `cinv.l1`, `cinv.near`, `cwb`: mapped, with any permission -/
  | mapped
  deriving DecidableEq, Repr, Inhabited

/-- The access writes. -/
def Acc.writes : Acc → Bool
  | .write _ | .rmw => true
  | .read | .fetch | .mapped => false

/-- The word at a physical address is a patch slot of its page (R390). -/
def patchSlot (s : State) (t : Tlb) (pa : Nat) : Bool :=
  let off := pa % pageSize
  let i := off / 8
  i < 8064 && (memGet Config.blankByte (if t.kind == 1 then s.remote else s.mem) (pa / pageSize * pageSize + 0xFC00 + i / 8)).toNat / 2 ^ (i % 8) % 2 == 1

/-- A translated access has its permission (R388, R390, R349); an access that needs the page mapped needs no bit of it (R243).  The slot map
counts once the page can be read: until then the access waits for the page. -/
def permitted (s : State) (t : Tlb) (user : Bool) (acc : Acc) (va : Nat) : Bool :=
  t.inside && (!user || t.u || acc == .mapped) &&
  match acc with
  | .read      => t.r
  | .rmw       => t.r && t.w
  | .mapped    => true
  | .fetch     => t.x && (!t.patch || va % pageSize < 0xFC00)
  | .write b64 => if t.patch then b64 && t.x && (!pageReady s t (t.phys va) true || patchSlot s t (t.phys va)) else t.w

/-! ### One access -/

/-- What the checks 2 to 4 of R236 give for one access. -/
inductive Resolved where
  | ok (pa : Nat) (t : Tlb)
  | fault (code : Nat)
  | stall
  deriving DecidableEq, Repr

/-- Checks 2 to 4 of R236 for one access of `size` bytes at `va` from a core: canonical form (R96), translation (R387), permission
(R388); at machine level the address is physical (R347). -/
def resolve (s : State) (core part level : Nat) (acc : Acc) (va size : Nat) : Resolved × State :=
  if !canonical va then (.fault 8, s)
  else if level == 2 then
    if !installedFrame va size then (.fault 9, s)
    else if pageReady s (identityTlb part) va acc.writes then (.ok va (identityTlb part), usePage s (identityTlb part) va)
    else (.stall, requestPage s (identityTlb part) va acc.writes)
  else
    match findPart s part with
    | none => (.fault 9, s)
    | some p =>
      match translate s core p va with
      | (.fault, s') => (.fault 9, s')
      | (.stall, s') => (.stall, s')
      | (.ok t, s') =>
        if !permitted s' t (level == 0) acc va then (.fault 10, s')
        else if pageReady s' t (t.phys va) acc.writes then (.ok (t.phys va) t, usePage s' t (t.phys va))
        else (.stall, requestPage s' t (t.phys va) acc.writes)

end Sys2Proof.Machine
end

