-- ==== Sys2Proof/Machine/Ops.lean ====
section
/-!
DEFINITION. The shared operations on a pack: registers and predicates, paths and slots (R40-R45), rejoin sets (R46-R52), stopping a pack
for a fault and queueing its cause (R345, R346, R363), and the wrapper through which every instruction's meaning runs.
-/

namespace Sys2Proof.Machine

/-! ### Registers and predicates -/

/-- Lane `l` of vector register `r`. -/
def Pack.reg (p : Pack) (r l : Nat) : Word := Lanes.get 0#32 (p.regs.getD r []) l

/-- Lane `l` of the pair that starts at `r`: bits [31:0] in the first register (R74). -/
def Pack.pair (p : Pack) (r l : Nat) : Quad := p.reg (r + 1) l ++ p.reg r l

/-- Predicate `k` in lane `l`; p7 reads 1 (R143). -/
def Pack.pred (p : Pack) (k l : Nat) : Bool := if k ≥ 7 then true else Mask.has (p.preds.getD k 0#64) l

/-- Register `r` written in the lanes of `m`; a lane written whole holds no uncorrectable error (R428, R429). -/
def Pack.writeReg (p : Pack) (r : Nat) (m : Mask) (f : Nat → Word) : Pack :=
  { p with
    regs := p.regs.set r (Lanes.tab fun l => if m.has l then f l else p.reg r l)
    bad := p.bad.filter fun b => !(b.1 == r && m.has b.2) }

/-- A pair written in the lanes of `m` (R74). -/
def Pack.writePair (p : Pack) (r : Nat) (m : Mask) (f : Nat → Quad) : Pack :=
  (p.writeReg r m fun l => (f l).extractLsb' 0 32).writeReg (r + 1) m fun l => (f l).extractLsb' 32 32

/-- A quad written in the lanes of `m`: word `i` of the value to register `r + i` (R149). -/
def Pack.writeQuad (p : Pack) (r : Nat) (m : Mask) (f : Nat → List Word) : Pack :=
  [0, 1, 2, 3].foldl (fun p i => p.writeReg (r + i) m fun l => (f l).getD i 0#32) p

/-- Predicate `k` written in the lanes of `m`; a write to p7 is discarded (R146). -/
def Pack.writePred (p : Pack) (k : Nat) (m : Mask) (f : Nat → Bool) : Pack :=
  { p with preds := if k ≥ 7 then p.preds else p.preds.set k ((p.preds.getD k 0#64 &&& ~~~m) ||| (Mask.ofPred f &&& m)) }

/-- The lanes of the pack that have not exited (R203). -/
def Pack.alive (p : Pack) : Mask := ~~~p.exited

/-- The pack is a handler pack (R344). -/
def Pack.isHandler (p : Pack) : Bool := p.herd.isNone

/-! ### Watchdog counts (R377) -/

/-- The count a path's wait has reached at clock value `t`. -/
def Path.count (q : Path) (t : Nat) : Nat :=
  q.wbase + (match q.wfrom with | some b => t - b | none => 0)

/-- The count stops. -/
def Path.freeze (q : Path) (t : Nat) : Path := { q with wbase := q.count t, wfrom := none }

/-- A wait that counts toward the watchdog (R377): every wait but that of `rswait`. -/
def Wait.counted : Wait → Bool
  | .run | .set _ => false
  | .bar _ _ _ | .barDone _ _ _ _ | .line _ _ | .again _ _ => true

/-- The count runs on; one that has not stopped is as it was. -/
def Path.thaw (q : Path) (t : Nat) : Path := if q.wait.counted then { q with wfrom := q.wfrom.or (some t) } else q

/-- Every count of a pack stops. -/
def Pack.freeze (p : Pack) (t : Nat) : Pack := { p with paths := p.paths.map (·.freeze t) }

/-- Every count of a pack runs on. -/
def Pack.thaw (p : Pack) (t : Nat) : Pack := { p with paths := p.paths.map (·.thaw t) }

/-! ### Slots and the path queue (R43, R45) -/

/-- A path that is not waiting, for R33, R43 and R57. -/
def Path.ready (q : Path) : Bool := q.wait == .run

/-- The oldest non-waiting path that holds no slot, by its place in `paths`. -/
def oldestQueued (ps : List Path) : Option Nat :=
  (List.range ps.length).foldl (fun best i =>
    match ps[i]? with
    | some q =>
      if q.ready && q.slot.isNone then
        match best with
        | some j => if q.qseq < (ps.getD j default).qseq then some i else best
        | none => some i
      else best
    | none => best) none

/-- A free slot takes the oldest non-waiting queued path (R43). -/
def Pack.fillSlot (p : Pack) (k : Nat) : Pack :=
  if p.paths.any (·.slot == some k) then p
  else
    match oldestQueued p.paths with
    | some i => { p with paths := p.paths.modify i fun q => { q with slot := some k, took := p.issued, tookAt := p.cycle } }
    | none => p

/-- Every free slot is offered, in ascending order (R43). -/
def Pack.fillSlots (p : Pack) : Pack := [0, 1, 2, 3].foldl Pack.fillSlot p

/-- A path gives up its slot and enters the queue at its tail (R43). -/
def Pack.unslot (p : Pack) (i : Nat) : Pack :=
  { p with paths := p.paths.modify i fun q => { q with slot := none, qseq := p.qnext }, qnext := p.qnext + 1 }

/-- The path's slot goes to the oldest non-waiting queued path, if there is one (R45). -/
def Pack.yieldSlot (p : Pack) (i : Nat) : Pack :=
  match oldestQueued p.paths with
  | none => p
  | some _ => (p.unslot i).fillSlots

/-- A path put in its place by the lowest lane of its mask. -/
def insertByLow (q : Path) : List Path → List Path
  | [] => [q]
  | r :: rs => if Mask.lowest q.mask ≤ Mask.lowest r.mask then q :: r :: rs else r :: insertByLow q rs

/-- Paths in ascending order of the lowest lane of their masks. -/
def sortByLow : List Path → List Path
  | [] => []
  | q :: qs => insertByLow q (sortByLow qs)

/-- New paths enter the queue in ascending order of their lowest lane (R43). -/
def Pack.enterPaths (p : Pack) (qs : List Path) : Pack :=
  (sortByLow qs).foldl (fun p q =>
    { p with paths := p.paths ++ [{ q with slot := none, qseq := p.qnext, last := p.issued }], qnext := p.qnext + 1 }) p

/-- New paths enter the queue, then free slots are filled (R43). -/
def Pack.addPaths (p : Pack) (qs : List Path) : Pack := (p.enterPaths qs).fillSlots

/-- The place of a mask among those of some paths. -/
def rankIn (m : Mask) (qs : List Path) : Nat := qs.findIdx (·.mask == m)

/-- One instruction is over whose paths entered the queue from place `n` on: they stand there in ascending order of their lowest lane,
whichever sets or objects released them, and then free slots are filled (R43). -/
def Pack.settlePaths (p : Pack) (n : Nat) : Pack :=
  let late (q : Path) : Bool := n ≤ q.qseq && q.slot.isNone
  let order := sortByLow (p.paths.filter late)
  ({ p with paths := p.paths.map fun q => if late q then { q with qseq := n + rankIn q.mask order } else q }).fillSlots

/-- A path changed in place. -/
def Pack.modPath (p : Pack) (i : Nat) (f : Path → Path) : Pack := { p with paths := p.paths.modify i f }

/-- Path `i` is released: changed by `f`, it no longer waits and enters the queue (R43, R44). -/
def Pack.releasePath (p : Pack) (i : Nat) (f : Path → Path) : Pack :=
  { p.modPath i fun q => { f q with wait := .run, qseq := p.qnext, last := p.issued } with qnext := p.qnext + 1 }

/-- Every waiting path whose wait satisfies `f` is released, in ascending order of the lowest lane; then free slots are filled (R43). -/
def Pack.releaseWhere (p : Pack) (f : Path → Bool) (g : Path → Path) : Pack :=
  ((List.range p.paths.length).foldl (fun r i =>
    match p.paths[i]? with
    | some q => if f q then r.releasePath i g else r
    | none => r) p).settlePaths p.qnext

/-- A path starts to wait at its PC: it gives up its slot, and its count starts or goes on (R32, R43, R377).  DESIGN CHOICE, log 72: a path at
an instruction that repeats, whose wait R262, R305 to R307 and R312 count for R33 and R34, gives up its slot too. -/
def Pack.waitPath (p : Pack) (i : Nat) (w : Wait) (t : Nat) : Pack :=
  let p := p.modPath i fun q =>
    { q with
      wait := w
      wfrom := if w.counted then q.wfrom.or (some t) else none
      wstart := if q.wbase == 0 && q.wfrom.isNone then t else q.wstart }
  (p.unslot i).fillSlots

/-- A path whose instruction repeats (R364) issues it again; its count runs on until the wait is over. -/
def Pack.wakePath (p : Pack) (i : Nat) : Pack := (p.releasePath i id).fillSlots

/-- The count of the path at `i`, whose instruction has issued again, stops while a walk holds its access up (R392). -/
def Pack.holdCount (p : Pack) (i t : Nat) : Pack := p.modPath i fun q => q.freeze t

/-- The path at `i` ends; the pack keeps the others. -/
def Pack.dropPath (p : Pack) (i : Nat) : Pack := { p with paths := p.paths.eraseIdx i }

/-- A path leaves: the lanes of `m` leave path `i` and form the paths `qs`; the rest stays, as the original path, at `pc` (R41).  Where
no lane stays, the part with the original's lowest lane keeps its slot, unless it waits (R43). -/
def Pack.splitPath (p : Pack) (i : Nat) (m : Mask) (pc : Quad) (qs : List Path) : Pack :=
  match p.paths[i]? with
  | none => p
  | some q =>
    let rest := q.mask &&& ~~~m
    if rest != 0#64 then (p.modPath i fun q => { q with mask := rest, pc := pc, wait := .run, wbase := 0, wfrom := none }).addPaths qs
    else
      let low := Mask.lowest q.mask
      match qs.find? (·.mask.has low) with
      | none => (p.dropPath i).addPaths qs
      | some k =>
        let p := p.modPath i fun q =>
          { q with pc := k.pc, mask := k.mask, wait := k.wait, wbase := k.wbase, wfrom := k.wfrom, wstart := k.wstart }
        let p := if k.ready then p else p.unslot i
        p.addPaths (qs.filter (· != k))

/-! ### Rejoin sets (R46-R52) -/

/-- A free set. -/
def RSet.free : RSet := ⟨0#64, 0#64, false⟩

/-- A set register; a number above 31 reads as a free set. -/
def Pack.rset (p : Pack) (k : Nat) : RSet := p.sets.getD k RSet.free

/-- A set register written. -/
def Pack.putSet (p : Pack) (k : Nat) (r : RSet) : Pack := { p with sets := p.sets.set k r }

/-- The lanes that wait on a set (R47). -/
def Pack.waitingOn (p : Pack) (k : Nat) : Mask := Mask.ofPred fun l => Lanes.get none p.waitSet l == some k

/-- The resume PCs of a set's waiting lanes, each once, in the order of their lowest lanes. -/
def Pack.resumePoints (p : Pack) (m : Mask) : List Quad := (m.lanes.map (Lanes.get 0#64 p.resumePc)).eraseDups

/-- The lanes of `m` stop waiting and form one path for each distinct resume PC (R50, R368). -/
def Pack.releaseLanes (p : Pack) (m : Mask) : Pack :=
  let qs : List Path := (p.resumePoints m).map fun pc =>
    { pc, mask := Mask.ofPred fun l => m.has l && Lanes.get 0#64 p.resumePc l == pc }
  let stays (q : Path) : Option Path :=
    match q.wait with
    | .set _ => if q.mask &&& ~~~m == 0#64 then none else some { q with mask := q.mask &&& ~~~m }
    | .run | .bar _ _ _ | .barDone _ _ _ _ | .line _ _ | .again _ _ => some q
  let p := { p with
    paths := p.paths.filterMap stays
    waitSet := Lanes.tab fun l => if m.has l then none else Lanes.get none p.waitSet l }
  p.enterPaths qs

/-- The completion check of a set (R50). -/
def Pack.checkComplete (p : Pack) (k : Nat) : Pack :=
  let r := p.rset k
  if !r.opened then p
  else if r.member == 0#64 then p.putSet k RSet.free
  else if r.arrived == r.member then (p.putSet k RSet.free).releaseLanes (p.waitingOn k)
  else p

/-- A set that lanes have quit (R49). -/
def RSet.without (m : Mask) (r : RSet) : RSet := { r with member := r.member &&& ~~~m, arrived := r.arrived &&& ~~~m }

/-- A set at which lanes have arrived (R49). -/
def RSet.with_ (m : Mask) (r : RSet) : RSet := { r with arrived := r.arrived ||| m }

/-- Lanes quit a set (R49). -/
def Pack.quitSet (p : Pack) (k : Nat) (m : Mask) : Pack := (p.putSet k ((p.rset k).without m)).checkComplete k

/-- Lanes arrive at a set (R49). -/
def Pack.arriveSet (p : Pack) (k : Nat) (m : Mask) : Pack := (p.putSet k ((p.rset k).with_ m)).checkComplete k

/-- The lanes whose arrival has counted toward the completion of a set: none where it is not complete (R50, R52). -/
def RSet.counted (r : RSet) : Mask := if r.opened && r.member != 0#64 && r.arrived == r.member then r.arrived else 0#64

/-- The lanes that release at pack scope as an instruction changes the sets `ks` by `f` (R52, R129). -/
def Pack.countedBy (p : Pack) (ks : List Nat) (f : Nat → RSet → RSet) : Mask :=
  ks.foldl (fun m k => m ||| (f k (p.rset k)).counted) 0#64

/-! ### The quarter's mode (R24, R25) -/

/-- The pack acts for lane 0 alone: a handler pack, or the control pack, of a quarter in the spatial state (R25). -/
def laneZeroOnly (s : State) (p : Pack) : Bool :=
  (getQuarter s p.loc.core p.loc.quarter).state == .spatial && (p.isHandler || p.control.isSome)

/-- The active mask of a path (R25, R40). -/
def activeMask (s : State) (p : Pack) (q : Path) : Mask := if laneZeroOnly s p then q.mask &&& 1#64 else q.mask

/-! ### Stopping a pack for a fault (R363-R366) -/

/-- The state code of a path entry, its number and its phase (R364). -/
def waitCode : Wait → Nat × Nat × Bool
  | .run | .again _ _ => (0, 0, false)
  | .set k => (1, k, false)
  | .bar k ph _ | .barDone k ph _ _ => (2, k, ph)
  | .line _ _ => (3, 0, false)

/-- The path entries of a record, in ascending order of the lowest lane (R69, R364). -/
def pathRecs (ps : List Path) (t : Nat) : List PathRec :=
  (sortByLow ps).map fun q =>
    let c := waitCode q.wait
    ⟨q.pc, q.mask, c.1, c.2.1, c.2.2, q.count t⟩

/-- The sequence number and the linear index of a pack's herd; 0 for a handler pack (R436). -/
def herdIds (s : State) (p : Pack) : Word × Nat :=
  match p.herd.bind (findHerd s) with
  | some h => (h.seq, h.index)
  | none => (0#32, 0)

/-- The trap record of a stop (R69, R364). -/
def trapRecord (s : State) (p : Pack) (code : Nat) (fpc : Quad) (mask : Mask) (detail : Quad) (x : Bool)
    (appendix : Option BarAppendix) : TrapRecord :=
  { code, pack := p.num, quarter := p.loc.quarter, slot := p.loc.slot, x, seq := (herdIds s p).1, fpc, fmask := mask, detail,
    exited := p.exited, clock := s.clock, herd := (herdIds s p).2, paths := pathRecs p.paths (now s), appendix }

/-- The slot of the supervisor handler pack (R22). -/
def handlerSlot : Nat := 31

/-- The places of a wake queue (R346): 64, and one for the handler's own fault ahead of them (R366). -/
def wakePlaces (wakes : List Cause) : Nat :=
  match wakes with
  | c :: _ => if c.src == 0 && c.slot == handlerSlot then 65 else 64
  | [] => 64

/-- The causes of a handler when places of its queue have freed: which of the held causes comes next is free (R346, log 24). -/
def freedWakes (s : State) (queue waiting : List Cause) : List Cause :=
  match waiting with
  | [] => queue
  | c :: cs =>
    let k := Config.heldFirst s.tick % (cs.length + 1)
    queue ++ (c :: cs).drop k ++ (c :: cs).take k

/-- The causes that remain when the oldest has been taken. -/
def takenWakes (s : State) (wakes : List Cause) : List Cause :=
  freedWakes s ((wakes.take (wakePlaces wakes)).drop 1) (wakes.drop (wakePlaces wakes))

/-- The causes that remain when those that `keep` does not name have ended. -/
def keptWakes (s : State) (keep : Cause → Bool) (wakes : List Cause) : List Cause :=
  freedWakes s ((wakes.take (wakePlaces wakes)).filter keep) ((wakes.drop (wakePlaces wakes)).filter keep)

/-- A cause enters the wake queue of a quarter's handler pack, or is held by its source behind the queue's 64 places (R345, R346). -/
def queueCause (s : State) (core quarter : Nat) (c : Cause) : State :=
  match findPack s ⟨core, quarter, handlerSlot⟩ with
  | some h => setPack s { h with wakes := h.wakes ++ [c] }
  | none => s

/-- A partition stops (R346, R428), which the Collie records with the unit concerned. -/
def stopPartition (s : State) (part die unit code : Nat) (addr : Quad) : State :=
  logEvent (modPart s part fun p => { p with stopped := true }) 11 part die unit addr (BitVec.ofNat 64 code)

/-- The log entry of a core for consumed poison (R431 type 3), with the physical address or 0 (R430). -/
def logConsumed (s : State) (part core code detail pa : Nat) : State :=
  if code == 15 then logEvent s 3 part (dieOf core) (core % 42) (BitVec.ofNat 64 pa) (BitVec.ofNat 64 detail) else s

/-- Bit `code` of `mroute` sends a fault code to the machine table (R345). -/
def routedToMachine (s : State) (part code : Nat) : Bool :=
  match findPart s part with
  | some p => p.mroute.toNat / 2 ^ code % 2 == 1
  | none => false

/-- TAKING A PACK FAULT (R363): the whole pack stops at its precise points, its record is written, and its cause is queued at its
quarter's handler.  A handler pack's own fault at supervisor level becomes a machine wake ahead of its queue (R366); at machine level it
stops the partition (R346). -/
def stopPack (s : State) (p : Pack) (fpc : Quad) (x : Bool) (f : FaultReq) (appendix : Option BarAppendix) : State :=
  let rec_ := trapRecord s p f.code fpc f.lanes f.detail x appendix
  let p' := { p.freeze (now s) with stop := .faulted, record := some rec_ }
  let c : Cause :=
    { code := f.code, src := 0, quarter := p.loc.quarter, slot := p.loc.slot, unit := 0, seq := (herdIds s p).1, detail := f.detail,
      machine := p.isHandler || routedToMachine s p.part f.code, serial := 0 }
  if p.isHandler then
    if p.level == 2 then stopPartition (setPack s p') p.part (dieOf p.loc.core) (p.loc.core % 42) f.code fpc
    else setPack s { p' with wakes := c :: p'.wakes }
  else queueCause (setPack s p') p.loc.core p.loc.quarter c

/-- A pack fault of path `i` (R363). -/
def raiseFault (s : State) (p : Pack) (i : Nat) (x : Bool) (f : FaultReq) : State :=
  stopPack s p ((p.paths[i]?.map (·.pc)).getD 0#64) x f none

/-! ### The issuing context -/

/-- What an instruction acts on: the pack, its path, the path's active mask (R25) and the executing lanes E (R143). -/
structure Ctx where
  pack : Pack
  idx  : Nat
  path : Path
  act  : Mask
  exec : Mask
  deriving Repr

/-- The lanes of a path whose guard is true (R143). -/
def guarded (p : Pack) (h : Head) (m : Mask) : Mask := m &&& Mask.ofPred fun l => (p.pred h.g.toNat l) != h.gn

/-- The lowest executing lane (R432); 64 when none executes. -/
def Ctx.low (c : Ctx) : Nat := Mask.lowest c.exec

/-- Lane `l` of a source register field. -/
def Ctx.v (c : Ctx) (r : Reg) (l : Nat) : Word := c.pack.reg r.toNat l
/-- Lane `l` of a pair field. -/
def Ctx.q (c : Ctx) (r : Reg) (l : Nat) : Quad := c.pack.pair r.toNat l

/-- A fault of a lane: its code and detail. -/
abbrev LaneFault := Option (Nat × Quad)

/-- The lowest register an instruction reads whose lane holds an uncorrectable error: code 15 with detail 2^63 + register (R428). -/
def poisonFault (p : Pack) (srcs : List Nat) (l : Nat) : LaneFault :=
  ((srcs.filter fun r => p.bad.contains (r, l)).min?).map fun r => (15, BitVec.ofNat 64 (2 ^ 63 + r))

/-- The fault that is reported among the lanes' faults: the lowest code, the lanes with it, the lowest such lane's detail (R68, R69). -/
def pickFault (m : Mask) (f : Nat → LaneFault) : Option FaultReq :=
  let found : List (Nat × Nat × Quad) := m.lanes.filterMap fun l => (f l).map fun x => (l, x.1, x.2)
  match (found.map (·.2.1)).min? with
  | none => none
  | some code =>
    let hit := found.filter (·.2.1 == code)
    some ⟨code, Mask.ofPred (fun l => hit.any (·.1 == l)), ((hit.head?).map (·.2.2)).getD 0#64⟩

/-- The lane-dependent faults of an instruction, register errors among them (R68, R428).  DESIGN CHOICE, log 57: a lane that meets a register
error and another cause too reports the register error; R428 gives it no place in the order of R236. -/
def laneFaults (i : Instr) (c : Ctx) (f : Nat → LaneFault) : Option FaultReq :=
  let srcs := sourceRegs i
  pickFault c.exec fun l => (poisonFault c.pack srcs l).or (f l)

/-- The fault of an instruction that acts once, with the operands `srcs` of the lowest executing lane: its mask is E (R432). -/
def onceFault (srcs : List Nat) (c : Ctx) (f : LaneFault) : Option FaultReq :=
  if c.exec == 0#64 then none else ((poisonFault c.pack srcs c.low).or f).map fun x => ⟨x.1, c.exec, x.2⟩

/-- Of two faults of an instruction, the one of the lower code (R68). -/
def lowerFault (f g : Option FaultReq) : Option FaultReq :=
  match f, g with
  | some x, some y => if y.code < x.code then g else f
  | some _, none => f
  | none, _ => g

/-- The fault of an instruction that acts once with every operand it reads (R432). -/
def wholeFault (i : Instr) (c : Ctx) (f : LaneFault) : Option FaultReq := onceFault (sourceRegs i) c f

/-- The level an instruction requires (R340, R342). -/
def levelOf (i : Instr) : Nat :=
  match parts i with
  | none => 0
  | some (opc, _, b) =>
    match b with
    | .s o => if opc == 0xE0 || opc == 0xE1 then max 1 (((csrInfo (o.imm.toNat % 2 ^ 12)).map (·.2.1)).getD 1) else opcodeLevel opc
    | .v _ | .i _ | .m _ | .ma _ | .b _ | .x _ => opcodeLevel opc

/-- The encoding faults that an instruction itself can meet (R157-R159): the level it requires, then what its word or the pack's A
(R19) does not allow. -/
def encodingFault (i : Instr) (p : Pack) : Option Nat :=
  if p.level < levelOf i then some 4
  else if (legal i).isSome || (namedRegs i).any (p.regCount ≤ ·) then some 5
  else none

/-- The y bit of an instruction that has one (R45, R145). -/
def yieldBit (i : Instr) : Bool :=
  match parts i with
  | some (_, _, .v o) => o.y
  | some (_, _, .i o) => o.y
  | some (_, _, .m _) | some (_, _, .ma _) | some (_, _, .b _) | some (_, _, .s _) | some (_, _, .x _) | none => false

/-- The address of the next instruction in sequence (R142). -/
def nextPc (i : Instr) (c : Ctx) : Quad := c.path.pc + BitVec.ofNat 64 (size i)

/-- The lanes of the path that move with the executing lanes: under R25 the held lanes move with lane 0. -/
def Ctx.movers (c : Ctx) (s : State) : Mask :=
  if laneZeroOnly s c.pack then (if c.exec == 0#64 then 0#64 else c.path.mask) else c.exec

/-- The path goes on at the next instruction, a wait of its own instruction being over; the y bit hands its slot on (R45, R142). -/
def Pack.retire (p : Pack) (i : Instr) (c : Ctx) : Pack :=
  let p := p.modPath c.idx fun q => { q with pc := nextPc i c, wait := .run, wbase := 0, wfrom := none }
  if yieldBit i then p.yieldSlot c.idx else p

/-- How an instruction ends for its path: a fault, or the state it leaves. -/
inductive Effect where
  | fault (f : FaultReq) (s : State)
  | done (s : State)
  deriving Repr

/-- The context of the issuing path. -/
def issueCtx (h : Head) (s : State) : Option Ctx :=
  match s.cur with
  | none => none
  | some at_ =>
    match findPack s at_.loc with
    | none => none
    | some p =>
      match p.paths[at_.path]? with
      | none => none
      | some q => let m := activeMask s p q
                  some ⟨p, at_.path, q, m, guarded p h m⟩

/-- The launch of a herd. -/
def herdLaunch (s : State) (h : Herd) : Option Launch :=
  (findPart s h.part).bind fun p => p.launches.find? (·.seq == h.seq)

/-- Where a lane met an uncorrectable error (R428, R430): the physical address of a global access, 0 for a register or the scratchpad. -/
def consumedAt (i : Instr) (c : Ctx) (s : State) (f : FaultReq) : Nat :=
  let at_ (va : Nat) : Nat := cachedPhys s c.pack.loc.core c.pack.part c.pack.level va
  if 2 ^ 63 ≤ f.detail.toNat && f.detail.toNat < 2 ^ 63 + 128 then 0
  else
    match i with
    | .lds _ _ | .atoms _ _ | .atomscas _ _ => 0
    | .ldc _ _ =>
      match (c.pack.herd.bind (findHerd s)).bind (herdLaunch s) with
      | some l => at_ ((l.desc.cbank + f.detail).toNat)
      | none => 0
    | _ => at_ f.detail.toNat

/-- EVERY INSTRUCTION ROW RUNS THROUGH THIS: the encoding faults first, for the whole path (R158, R159); then the instruction's effect,
which may be a fault of its own (R67). -/
def run (i : Instr) (h : Head) (s : State) (k : Ctx → Effect) : Host.Outcome State Fault Refusal :=
  match issueCtx h s with
  | none => .fault .noIssuingPath
  | some c =>
    match encodingFault i c.pack with
    | some code => .next (raiseFault s c.pack c.idx (twoWords i) ⟨code, c.act, c.path.pc⟩)
    | none =>
      match k c with
      | .done s' => .next s'
      | .fault f s' =>
        let s' := logConsumed s' c.pack.part c.pack.loc.core f.code 15 (consumedAt i c s' f)
        .next (raiseFault s' ((findPack s' c.pack.loc).getD c.pack) c.idx (twoWords i) f)

/-- An instruction whose only effect is on its pack, and whose only lane faults are register errors (R185, R206): `f` gives the pack
with the destinations written, from the context. -/
def runPack (i : Instr) (h : Head) (s : State) (f : Ctx → Pack) : Host.Outcome State Fault Refusal :=
  run i h s fun c =>
    match laneFaults i c (fun _ => none) with
    | some r => .fault r s
    | none => .done (setPack s ((f c).retire i c))

end Sys2Proof.Machine
end

