-- ==== Sys2Proof/Machine/Operands.lean ====
section
/-!
DEFINITION. Operand forms: typed integer operands and immediates (R183, R184), floating-point elements (R205), conversion elements
(R211), access sizes (R149) and the addresses of memory instructions (R236).
-/

namespace Sys2Proof.Machine

/-! ### Integer operands (R183) -/

/-- w(t). -/
def tyW (t : Nat) : Nat := if wide t then 64 else 32
/-- An i type, as opposed to an n type. -/
def tySigned (t : Nat) : Bool := t == 2 || t == 3

/-- The bits of a T operand in lane `l`. -/
def Ctx.tbits (c : Ctx) (t : Nat) (r : Reg) (l : Nat) : Nat := if wide t then (c.q r l).toNat else (c.v r l).toNat

/-- val(r, t). -/
def tyVal (t : Nat) (bits : Nat) : Int := if tySigned t then sextN bits (tyW t) else (bits % 2 ^ tyW t : Nat)

/-- val of a T operand in lane `l`. -/
def Ctx.tval (c : Ctx) (t : Nat) (r : Reg) (l : Nat) : Int := tyVal t (c.tbits t r l)

/-- put(x, t, s), as a bit pattern of w(t) bits. -/
def tyPut (x : Int) (t : Nat) (s : Bool) : Nat :=
  if s then (if tySigned t then satS x (tyW t) else satU x (tyW t)) else truncI x (tyW t)

/-- A T destination written. -/
def Pack.writeT (p : Pack) (t : Nat) (r : Reg) (m : Mask) (f : Nat → Nat) : Pack :=
  if wide t then p.writePair r.toNat m fun l => BitVec.ofNat 64 (f l) else p.writeReg r.toNat m fun l => BitVec.ofNat 32 (f l)

/-- imm_val(t) (R184); `shift` for the shift opcodes. -/
def immVal (o : I) (shift : Bool) : Int :=
  match o.lit with
  | none =>
    if shift then (o.imm.toNat : Int) else if tySigned o.ty then sextN o.imm.toNat 16 else (o.imm.toNat : Int)
  | some q =>
    if shift then ((q.toNat % 2 ^ 32 : Nat) : Int) else tyVal o.ty (q.toNat % 2 ^ tyW o.ty)

/-- The type of a V/I word. -/
def VI.ty : VI → Nat
  | .v o => V.ty o
  | .i o => I.ty o
/-- The `.sat` bit of a V/I word. -/
def VI.sat : VI → Bool
  | .v o => V.sat o
  | .i o => I.sat o
/-- The destination field of a V/I word. -/
def VI.d : VI → Reg
  | .v o => o.d
  | .i o => o.d
/-- Source field a of a V/I word. -/
def VI.a : VI → Reg
  | .v o => o.a
  | .i o => o.a
/-- fn[6:0] of a V/I word. -/
def VI.variant : VI → Nat
  | .v o => o.fn.toNat % 128
  | .i o => o.fn.toNat % 128

/-- Operand b of a V/I word as a typed value: a register or the immediate (R184). -/
def Ctx.opB (c : Ctx) (o : VI) (l : Nat) : Int :=
  match o with
  | .v o => c.tval o.ty o.b l
  | .i o => immVal o false

/-- The shift amount of a V/I word: a vector register, or the immediate, zero-extended (R184, R190). -/
def Ctx.shiftB (c : Ctx) (o : VI) (l : Nat) : Nat :=
  match o with
  | .v o => (c.v o.b l).toNat
  | .i o => (immVal o true).toNat

/-! ### Floating-point elements (R205) -/

/-- el(r, t, e): element `e` of a lane. -/
def elOf (t e : Nat) (w : Word) : Nat := if t == 9 || t == 10 then w.toNat / 2 ^ (16 * e) % 65536 else w.toNat

/-- A lane from its elements: without `.x2` a 16-bit result has d[31:16] = 0. -/
def packEls (t : Nat) (x2 : Bool) (f : Nat → Nat) : Word :=
  if t == 9 || t == 10 then BitVec.ofNat 32 (f 0 + (if x2 then f 1 * 65536 else 0)) else BitVec.ofNat 32 (f 0)

/-- rnd(x) of a word: its mode and `.sat` (R205). -/
def V.round (o : V) (x : Val) : Nat := roundTo (fmtOf (V.ty o)) (modeOf (V.rnd o)) (V.sat o) x

/-- The mode of a word rounds toward −∞, which decides the sign of an exact zero (R76). -/
def V.dn (o : V) : Bool := V.rnd o == 3

/-- The value of an element of a lane. -/
def Ctx.fval (c : Ctx) (t : Nat) (r : Reg) (e l : Nat) : Val := fv (fmtOf t) (elOf t e (c.v r l))

/-! ### Conversion elements (R211) -/

/-- The integer type codes that are signed. -/
def cvtSigned (t : Nat) : Bool := t < 4

/-- A converted element, by R81: source type, destination type, and the source's bits. -/
def convert (o : V) (st dt bits : Nat) : Nat :=
  match cvtKind st dt with
  | none => bits
  | some .round | some .exact => roundTo (fmtOf dt) (modeOf (V.rnd o)) (V.sat o) (fv (fmtOf st) bits)
  | some .toInt => toIntSat (modeOf (V.rnd o)) (cvtSigned dt) (tyBits dt) (fv (fmtOf st) bits)
  | some .fromInt =>
    roundTo (fmtOf dt) (modeOf (V.rnd o)) (V.sat o)
      (Val.ofInt (if cvtSigned st then sextN bits (tyBits st) else ((bits % 2 ^ tyBits st : Nat) : Int)))
  | some .widen => truncI (if cvtSigned st then sextN bits (tyBits st) else ((bits % 2 ^ tyBits st : Nat) : Int)) (tyBits dt)
  | some .narrow =>
    let x : Int := if cvtSigned st then sextN bits (tyBits st) else ((bits % 2 ^ tyBits st : Nat) : Int)
    if V.sat o then (if cvtSigned dt then satS x (tyBits dt) else satU x (tyBits dt)) else truncI x (tyBits dt)

/-- Element `e` of a value, for elements of `w` bits (R74). -/
def field (v w e : Nat) : Nat := v / 2 ^ (w * e) % 2 ^ w

/-- A value with element `e` of `w` bits replaced. -/
def setField (v w e x : Nat) : Nat := v - field v w e * 2 ^ (w * e) + x % 2 ^ w * 2 ^ (w * e)

/-! ### Memory operands (R149, R236) -/

/-- Bytes of an access by its sz code (R149). -/
def szBytes (sz : Nat) : Nat :=
  match sz with
  | 0 => 1 | 1 => 2 | 2 => 4 | 3 => 8 | 4 => 16 | 5 => 1 | 6 => 2 | 7 => 4 | 8 => 8 | 9 => 4 | _ => 0

/-- The global address of lane `l` of an M-format word: trunc(a + sext(off16), 64). -/
def Ctx.addrM (c : Ctx) (o : M) (l : Nat) : Nat := truncI ((c.q o.a l).toNat + sextN o.off.toNat 16) 64
/-- The global address of lane `l` of an MA-format word. -/
def Ctx.addrMA (c : Ctx) (o : MA) (l : Nat) : Nat := truncI ((c.q o.a l).toNat + sextN o.off.toNat 12) 64
/-- The scratchpad or constant offset of lane `l` of an M-format word, exact (R102, R112). -/
def Ctx.offM (c : Ctx) (o : M) (l : Nat) : Int := ((c.v o.a l).toNat : Int) + sextN o.off.toNat 16
/-- The scratchpad offset of lane `l` of an MA-format word. -/
def Ctx.offMA (c : Ctx) (o : MA) (l : Nat) : Int := ((c.v o.a l).toNat : Int) + sextN o.off.toNat 12

/-- The words of a register field of `n` registers in lane `l`, lowest first. -/
def Ctx.words (c : Ctx) (r : Reg) (n l : Nat) : List Word := (List.range n).map fun i => c.pack.reg (r.toNat + i) l

/-- The little-endian bytes of words. -/
def wordBytes (ws : List Word) : List Byte := ws.flatMap fun w => bytesLE 4 w.toNat

/-- The number that the words of a field hold, the first lowest. -/
def wordsNat : List Word → Nat
  | [] => 0
  | w :: ws => w.toNat + 2 ^ 32 * wordsNat ws

/-- Words of a number, the lowest first. -/
def natWords : Nat → Nat → List Word
  | 0, _ => []
  | n + 1, v => BitVec.ofNat 32 v :: natWords n (v / 2 ^ 32)

/-- The object an S-format word names in lane `l`: idx, or the lane's copy of register a (R150). -/
def Ctx.name (c : Ctx) (o : S) (l : Nat) : Nat := if o.ind then (c.v o.a l).toNat else o.idx.toNat

end Sys2Proof.Machine
end

