-- ==== Sys2Proof/Machine/Access.lean ====
section
/-!
DEFINITION. Accesses to global memory and to a herd's scratchpad: the L2 with its homes and near copies (R98-R100, R401-R404), the L1,
poison (R428, R429), the store queue (R63, R128), and the checks of R236.
-/

namespace Sys2Proof.Machine

/-- Bytes of a line (R1, R98). -/
def lineSize : Nat := 128

/-! ### The L2: homes, near copies, software-coherent copies -/

/-- Where the lines of kind-1 pages stand among the lines that caches hold: above every local one, whatever their addresses. -/
def remoteBase : Nat := 2 ^ 55

/-- A physical address as the caches know it. -/
def placed (pa : Nat) (remote : Bool) : Nat := if remote then remoteBase + pa else pa

/-- The line of a physical byte, as the caches number lines. -/
def Tlb.line (t : Tlb) (pa : Nat) : Nat := placed pa (t.kind == 1) / lineSize

/-- The C-die that is home to a physical byte (R98); a kind-1 page is reached through its route die (R407). -/
def homeDie (t : Tlb) (pa : Nat) : Nat :=
  if t.kind == 1 then t.route
  else if Config.isHbm pa then Config.hbmDie pa
  else Nat.xor (bitsOf pa 14 12) (bitsOf pa 17 15)

/-- How a copy stands after another die has read the line (R401). -/
def Moesi.shared : Moesi → Moesi
  | .m => .o
  | .o => .o
  | .e => .s
  | .s => .s

/-- The L2 of a die is full of copies of lines homed elsewhere: 32 slices of 4 MiB (R1).  A further copy then takes the place of one allocated
evict-first (R239, R240), and is evicted as it comes where there is none (log 10). -/
def l2Full (s : State) (die : Nat) : Bool :=
  2 ^ 20 ≤ (s.near.filter (·.die == die)).length + (s.scCopies.filter (·.die == die)).length

/-- Room for a further copy in the L2 of a die: where it is full, its oldest copy allocated evict-first that has nothing to write goes. -/
def l2Give (s : State) (die : Nat) : State :=
  if l2Full s die then
    match s.near.find? fun n => n.die == die && n.first with
    | some n => { s with near := s.near.filter fun x => !(x.line == n.line && x.die == die) }
    | none =>
      match s.scCopies.reverse.find? fun c => c.die == die && c.first && c.cells.all (!·.2.2) with
      | some c => { s with scCopies := s.scCopies.filter fun x => !(x.line == c.line && x.die == die) }
      | none => s
  else s

/-- The page of a line is held outside too, so that its copies form in S only (R407). -/
def sharedOut (s : State) (line : Nat) : Bool :=
  (s.pages.any fun e => e.page == line / 512) || s.remotePages.any fun r => placed (r.page * 65536) true / lineSize == line / 512 * 512 && !r.exclusive

/-- A line request of a die (R401, R402): a write leaves the requester alone with the line; a read leaves the others sharing it.  `first`: a copy that is allocated is evicted first. -/
def nearRequest (s : State) (line die home : Nat) (writes first : Bool) : State :=
  let held := s.near.find? fun n => n.line == line && n.die == die
  if held.isSome && !writes then s
  else
    let s := if die == home || held.isSome then s else l2Give s die
    let others := s.near.filter fun n => n.line != line
    let here := s.near.filter fun n => n.line == line
    let fill (st : Moesi) : List NearCopy :=
      if die == home || (held.isNone && l2Full s die) then [] else [⟨line, die, st, (held.map (·.first)).getD first⟩]
    if writes then { s with near := others ++ fill .m }
    else
      let kept := here.map fun n => { n with state := n.state.shared }
      { s with near := others ++ kept ++ fill (if kept.isEmpty && !sharedOut s line then .e else .s) }

/-- Every near copy of a line invalidated (R403). -/
def nearInvalidate (s : State) (line : Nat) : State := { s with near := s.near.filter (·.line != line) }

/-- The untracked copy of a line of a software-coherent page on a die (R404). -/
def scFind (s : State) (line die : Nat) : Option ScCopy := s.scCopies.find? fun c => c.line == line && c.die == die

/-- An untracked copy replaced. -/
def scPut (s : State) (c : ScCopy) : State :=
  { s with scCopies := c :: s.scCopies.filter (fun x => !(x.line == c.line && x.die == c.die)) }

/-- An untracked copy dropped. -/
def scDrop (s : State) (line die : Nat) : State :=
  { s with scCopies := s.scCopies.filter (fun x => !(x.line == line && x.die == die)) }

/-- The byte at an offset of an untracked copy, if it holds one. -/
def ScCopy.byte? (c : ScCopy) (off : Nat) : Option Byte := (c.cells.find? (·.1 == off)).map (·.2.1)

/-- A byte at its home: in memory, or for a kind-1 page what the K9 holds of the remote home's. -/
def homeByte (s : State) (t : Tlb) (pa : Nat) : Byte :=
  if t.kind == 1 then memGet Config.blankByte s.remote pa else memGet Config.blankByte s.mem pa

/-- An access of a die goes to its untracked copy of a software-coherent line (R404). -/
def Tlb.copied (t : Tlb) (die pa : Nat) : Bool := t.sc && die != homeDie t pa

/-- A byte as the L2 of a die reads it. -/
def l2Byte (s : State) (die : Nat) (t : Tlb) (pa : Nat) : Byte :=
  if t.copied die pa then
    match (scFind s (t.line pa) die).bind (·.byte? (pa % lineSize)) with
    | some b => b
    | none => homeByte s t pa
  else homeByte s t pa

/-- `n` bytes as the L2 of a die reads them. -/
def l2Bytes (s : State) (die : Nat) (t : Tlb) (pa n : Nat) : List Byte := (List.range n).map fun k => l2Byte s die t (pa + k)

/-- What a load from the L2 leaves there: a near copy, or for a software-coherent page an untracked copy of the whole line (R401, R404).
A granule that is poisoned at the home stays so in the copy unless every byte of it has been stored there (R429). -/
def l2Touch (s : State) (die : Nat) (t : Tlb) (pa : Nat) (first : Bool) : State :=
  let line := t.line pa
  let base := pa / lineSize * lineSize
  if t.copied die pa then
    let old := scFind s line die
    let s := if old.isNone then l2Give s die else s
    if old.isNone && l2Full s die then s
    else
      let cells := (old.map (·.cells)).getD []
      let bad := (old.map (·.bad)).getD []
      let here (g : Nat) : Bool :=
        s.poison.contains (line * 16 + g) && !bad.contains g && (cells.filter fun c => c.1 / 8 == g).length != 8
      scPut s
        { line, die, first := (old.map (·.first)).getD first, bad := bad ++ (List.range 16).filter here
          cells := (List.range lineSize).map fun k =>
            match cells.find? (·.1 == k) with
            | some c => c
            | none => (k, homeByte s t (base + k), false) }
  else if t.sc then s
  else nearRequest s line die (homeDie t pa) false first

/-! ### Poison of global memory (R428, R429) -/

/-- A byte of the range lies in an 8-byte granule that is poisoned at its home. -/
def poisoned (s : State) (t : Tlb) (pa n : Nat) : Bool :=
  let a := placed pa (t.kind == 1)
  s.poison.any fun g => a < 8 * g + 8 && 8 * g < a + n

/-- A byte of the range that an access of a die reads is poisoned: in its untracked copy where that holds the byte, else at the home. -/
def l2Poisoned (s : State) (die : Nat) (t : Tlb) (pa n : Nat) : Bool :=
  if t.copied die pa then
    (List.range n).any fun k =>
      match (scFind s (t.line (pa + k)) die).filter fun c => (c.byte? ((pa + k) % lineSize)).isSome with
      | some c => c.bad.contains ((pa + k) % lineSize / 8)
      | none => poisoned s t (pa + k) 1
  else poisoned s t pa n

/-- The home slice of a physical line on its die (R98). -/
def homeSlice (pa : Nat) : Nat := Nat.xor (Nat.xor (bitsOf pa 11 7) (bitsOf pa 16 12)) (bitsOf pa 21 17)

/-- What a store does to the granules it covers: one covered whole becomes clean; one covered in part keeps its poison, which is logged
(R240, R429). -/
def poisonStore (s : State) (part die core : Nat) (t : Tlb) (pa n : Nat) : State :=
  if s.poison.isEmpty then s
  else
    let a := placed pa (t.kind == 1)
    let covers (g : Nat) : Bool := a ≤ 8 * g && 8 * g + 8 ≤ a + n
    let touches (g : Nat) : Bool := a < 8 * g + 8 && 8 * g < a + n
    let merged := s.poison.any fun g => touches g && !covers g
    let s := { s with poison := s.poison.filter fun g => !covers g }
    if merged then logEvent s 4 part die (core % 42) (BitVec.ofNat 64 pa) (BitVec.ofNat 64 n) else s

/-! ### The constant bank (R112) -/

/-- The leaf of the page that holds a virtual address, as the tables give it now. -/
def leafOf (s : State) (p : Partition) (va : Nat) : Option Tlb :=
  match (walk s p.die0 p (vpnOf va)).1 with
  | .leaf t => some t
  | .moving | .away _ | .fault _ => none

/-- The frame of the page that holds a virtual address, as the tables give it now. -/
def frameOf (s : State) (p : Partition) (va : Nat) : Option Nat := (leafOf s p va).map fun t => t.phys (va / pageSize * pageSize)

/-- The bank offsets that bytes written have, for the bank at `base`, through its page number `k` (0 or 1: a bank may meet two pages). -/
def bankOffsets (s : State) (p : Partition) (base : Nat) (remote : Bool) (pa n k : Nat) : List Nat :=
  let page := (base / pageSize + k) * pageSize
  match leafOf s p page with
  | none => []
  | some t =>
    let f := t.phys page
    if (t.kind == 1) != remote then []
    else
      (((List.range n).map (pa + ·)).filter fun a => f ≤ a && a < f + pageSize && base ≤ page + (a - f) && page + (a - f) < base + 65536).map
        fun a => page + (a - f) - base

/-- A launch has begun: a herd of it has been placed. -/
def Launch.begun (l : Launch) : Bool := l.nextHerd != 0

/-- A write is noted at every launch under way whose constant bank holds the bytes. -/
def markBanks (s : State) (remote : Bool) (pa n : Nat) : State :=
  let concerned (l : Launch) : Bool := l.begun && l.desc.cbank != 0#64
  if !s.parts.any (·.launches.any concerned) then s
  else
    { s with parts := s.parts.map fun p =>
        { p with launches := updWhere concerned (fun l =>
            let b := l.desc.cbank.toNat
            { l with bankDirty := (bankOffsets s p b remote pa n 0 ++ bankOffsets s p b remote pa n 1 ++ l.bankDirty).eraseDups }) p.launches } }

/-! ### What loads may still see (R64, R119-R123) -/

/-- A scope includes an agent (R115): `x` issues, `y` is the other. -/
def includes (scope : Nat) (x y : PackLoc) (hx hy : Option Nat) : Bool :=
  match scope with
  | 0 => x == y
  | 1 => x == y || (hx.isSome && hx == hy)
  | 2 => dieOf x.core == dieOf y.core
  | _ => true

/-- The head of a release sequence and an operation of a lane are mutually scoped (R115). -/
def ReleaseHead.mutual (h : ReleaseHead) (scope : Nat) (loc : PackLoc) (herd : Option Nat) : Bool :=
  includes h.scope h.loc loc h.herd herd && includes scope loc h.loc herd h.herd

/-- The head meets a range. -/
def ReleaseHead.meets (h : ReleaseHead) (a n : Nat) : Bool := h.addr < a + n && a < h.addr + h.len

/-- The part of a head that lies in a range. -/
def ReleaseHead.within (h : ReleaseHead) (a n : Nat) : ReleaseHead :=
  { h with addr := max h.addr a, len := min (h.addr + h.len) (a + n) - max h.addr a }

/-- The parts of a head that a write of a range leaves: its bytes below the range and those above it. -/
def ReleaseHead.outside (h : ReleaseHead) (a n : Nat) : List ReleaseHead :=
  if h.meets a n then
    (if h.addr < a then [h.within h.addr (a - h.addr)] else []) ++
      if a + n < h.addr + h.len then [h.within (a + n) (h.addr + h.len - (a + n))] else []
  else [h]

/-- A write ends the release sequences of its bytes (R119); those of the other bytes of a release go on. -/
def cutHeads (s : State) (a n : Nat) : State := if s.heads.isEmpty then s else { s with heads := s.heads.flatMap (·.outside a n) }

/-- Lines that lanes may no longer see as they were. -/
def dropEarly (s : State) (core : Nat) (f : EarlyLine → Bool) : State :=
  if (getCore s core).early.any f then modCore s core fun c => { c with early := c.early.filter fun e => !f e } else s

/-- The entry is a lane's view of a line of memory, or of the scratchpad of `herd`. -/
def EarlyLine.isAt (e : EarlyLine) (loc : PackLoc) (herd : Option Nat) (line : Nat) : Bool := e.loc == loc && e.herd == herd && e.line == line

/-- Lines of a scratchpad that no lane may still see as they were: they have become empty (R105). -/
def dropSpad (s : State) (core herd : Nat) (lines : List Nat) : State :=
  dropEarly s core fun e => e.herd == some herd && lines.contains e.line

/-- What every lane of the device may still see is forgotten: a translation, a frame or a page has changed hands. -/
def forgetAll (s : State) : State := { s with cores := s.cores.map fun c => { c with early := [] } }

/-- A strong load of a lane reads writes of release sequences (R120): an acquire no longer lets the lane see what is older than a mutually
scoped head; a load that does not acquire leaves that to the lane's next acquire fence. -/
def hear (s : State) (p : Pack) (lane sc : Nat) (acq : Bool) (hs : List ReleaseHead) : State :=
  let own (e : EarlyLine) : Bool := e.loc == p.loc && e.lane == lane
  if hs.isEmpty || !(getCore s p.loc.core).early.any own then s
  else
    modCore s p.loc.core fun c =>
      { c with early := (c.early.filter fun e => !(acq && own e && hs.any fun h => e.tick ≤ h.tick && h.mutual sc p.loc p.herd)).map fun e =>
          if own e then { e with heard := (hs.filter fun h => e.tick ≤ h.tick && !e.heard.contains h) ++ e.heard } else e }

/-- An acquire fence of some lanes (R120, R125): what is older than a mutually scoped head that they have read is seen no more; after an `sc`
fence nothing is. -/
def fenceAcquire (s : State) (p : Pack) (m : Mask) (sc : Nat) (all : Bool) : State :=
  dropEarly s p.loc.core fun e =>
    e.loc == p.loc && m.has e.lane && (all || e.heard.any fun h => h.mutual sc p.loc p.herd)

/-! ### Writes that perform -/

/-- Bytes written at the home. -/
def putHome (s : State) (remote : Bool) (pa : Nat) (bs : List Byte) : State :=
  if remote then { s with remote := memWrite Config.blankByte s.remote pa bs } else { s with mem := memWrite Config.blankByte s.mem pa bs }

/-- A write to a page homed outside awaits the remote home's acknowledgment (R408). -/
def awaitAck (s : State) (page : Nat) : State :=
  { s with remotePages := updWhere (·.page == page) (fun r => { r with ackDue := r.ackDue + 1 }) s.remotePages }

/-- Granules of a line after a write-back of an untracked copy (R429): one written whole has the copy's condition; one written in part
keeps its poison, which is logged, and takes the copy's.  The home slice of a local line logs it, and for a page homed outside the H-die. -/
def poisonMasked (s : State) (line : Nat) (offs bad : List Nat) : State :=
  let away := remoteBase ≤ line * lineSize
  (List.range 16).foldl (fun s g =>
    let n := (offs.filter fun k => k / 8 == g).length
    let gran := line * 16 + g
    let had := s.poison.contains gran
    let pa := line * lineSize + 8 * g - if away then remoteBase else 0
    if n == 0 then s
    else if n == 8 then { s with poison := (s.poison.filter (· != gran)) ++ if bad.contains g then [gran] else [] }
    else
      let s := if bad.contains g && !had then { s with poison := s.poison ++ [gran] } else s
      if !had then s
      else if away then logEvent s 4 0 8 0 (BitVec.ofNat 64 pa) (BitVec.ofNat 64 n)
      else logEvent s 4 0 (homeDie (identityTlb 0) pa) (homeSlice pa) (BitVec.ofNat 64 pa) (BitVec.ofNat 64 n)) s

/-- The dirty bytes of an untracked copy written to the home, with their mask (R242, R404); the copy stays clean, or goes. -/
def scWriteBack (s : State) (line die : Nat) (drop : Bool) : State :=
  match scFind s line die with
  | none => s
  | some c =>
    let remote : Bool := placed 0 true / lineSize ≤ line
    let local_ := if remote then line - placed 0 true / lineSize else line
    let dirty := c.cells.filter (·.2.2)
    let s := dirty.foldl (fun s x => let pa := local_ * lineSize + x.1; markBanks (putHome s remote pa [x.2.1]) remote pa 1) s
    let s := poisonMasked (if remote && !dirty.isEmpty then awaitAck s (local_ / 512) else s) line (dirty.map (·.1)) c.bad
    if drop then scDrop s line die else scPut s { c with cells := c.cells.map fun x => (x.1, x.2.1, false) }

/-- The translation that stands for a line as the caches number it, and its physical address. -/
def lineHome (line : Nat) : Tlb × Nat :=
  if remoteBase ≤ line * lineSize then ({ identityTlb 0 with sc := true, kind := 1 }, line * lineSize - remoteBase)
  else ({ identityTlb 0 with sc := true }, line * lineSize)

/-- An untracked copy has no dirty byte, or its home can take them now (R407). -/
def backReady (s : State) (c : ScCopy) : Bool :=
  c.cells.all (!·.2.2) || pageReady s (lineHome c.line).1 (lineHome c.line).2 true

/-- The first of some copies whose page is held outside: the machine that asks for it. -/
def askBack (s : State) (cs : List ScCopy) : Option State :=
  (cs.find? fun c => !backReady s c).map fun c => requestPage s (lineHome c.line).1 (lineHome c.line).2 true

/-- Room for an untracked copy that a store allocates: where the L2 is full, a copy allocated evict-first goes, with its dirty bytes written
home if every such copy has some. -/
def scGive (s : State) (die : Nat) : State :=
  let s := l2Give s die
  if l2Full s die then
    match s.scCopies.reverse.find? fun c => c.die == die && c.first && backReady s c with
    | some c => scWriteBack s c.line die true
    | none => s
  else s

/-- Bytes stored in an untracked copy, which it allocates without a read (R404); a granule written whole becomes clean, and one written in
part keeps its poison, which is logged (R429). -/
def scWrite (s : State) (part core die : Nat) (t : Tlb) (pa : Nat) (bs : List Byte) (first : Bool) : State :=
  let line := t.line pa
  let old := scFind s line die
  let s := if old.isNone then scGive s die else s
  let off := pa % lineSize
  let fresh : List (Nat × Byte × Bool) := (List.range bs.length).map fun k => (off + k, bs.getD k 0, true)
  let covers (g : Nat) : Bool := off ≤ 8 * g && 8 * g + 8 ≤ off + bs.length
  let touches (g : Nat) : Bool := off < 8 * g + 8 && 8 * g < off + bs.length
  let bad := (old.map (·.bad)).getD []
  let s' := scPut s
    { line, die, first := (old.map (·.first)).getD first, bad := bad.filter fun g => !covers g
      cells := fresh ++ ((old.map (·.cells)).getD []).filter fun c => !(off ≤ c.1 && c.1 < off + bs.length) }
  let s' := if bad.any fun g => touches g && !covers g then logEvent s' 4 part die (core % 42) (BitVec.ofNat 64 pa) (BitVec.ofNat 64 bs.length) else s'
  markBanks (if old.isNone && l2Full s die then scWriteBack s' line die true else s') (t.kind == 1) pa bs.length

/-- A write at the home, and what the directory then holds of the line. -/
def writeHome (s : State) (part core die : Nat) (t : Tlb) (pa : Nat) (bs : List Byte) (near : State → State) : State :=
  let s := cutHeads (putHome s (t.kind == 1) pa bs) (placed pa (t.kind == 1)) bs.length
  let s := if t.sc then s else near s
  let s := poisonStore s part die core t pa bs.length
  markBanks (if t.kind == 1 then awaitAck s (pageNo pa) else s) (t.kind == 1) pa bs.length

/-- A write of bytes of one line performs in the memory system (R99, R402, R404, R407); `first`: a copy it allocates is evicted first. -/
def globalWrite (s : State) (part core die : Nat) (t : Tlb) (pa : Nat) (bs : List Byte) (first : Bool) : State :=
  if t.copied die pa then scWrite (cutHeads s (placed pa (t.kind == 1)) bs.length) part core die t pa bs first
  else writeHome s part core die t pa bs fun s => nearRequest s (t.line pa) die (homeDie t pa) true first

/-- An atomic's write at the home slice: every near copy is invalidated, untracked copies stay (R403, R404). -/
def homeWrite (s : State) (part core die : Nat) (t : Tlb) (pa : Nat) (bs : List Byte) : State :=
  writeHome s part core die t pa bs fun s => nearInvalidate s (t.line pa)

/-- A byte as the home slice reads it: untracked copies are not looked at (R404). -/
def homeBytes (s : State) (t : Tlb) (pa n : Nat) : List Byte :=
  if t.kind == 1 then memRead Config.blankByte s.remote pa n else memRead Config.blankByte s.mem pa n

/-! ### The L1 (R100) -/

/-- A line of a core's L1. -/
def Core.line? (c : Core) (line : Nat) (instr : Bool) : Option L1Line := c.l1.find? fun x => x.line == line && x.instr == instr

/-- A line dropped from a core's L1. -/
def l1Drop (s : State) (core line : Nat) (instr : Bool) : State :=
  if ((getCore s core).line? line instr).isSome then
    modCore s core fun c => { c with l1 := c.l1.filter fun x => !(x.line == line && x.instr == instr) }
  else s

/-- The scratchpad of a core that its resident herds hold, in KiB: whole granules of 4 KiB (R101). -/
def spadKiB (s : State) (core : Nat) : Nat :=
  ((s.herds.filter fun h => h.place == .resident && h.core == core).map fun h => (h.spadSize + 4095) / 4096 * 4).sum

/-- The lines of a core's L1: the 64 KiB parts of the array that the scratchpad leaves (R101). -/
def l1Lines (s : State) (core : Nat) : Nat := (768 - spadKiB s core) / 64 * 512

/-- The `n` lines of an L1, newest first, that stay where there is no room for more: those allocated evict-first go first (R239), and then
the oldest (log 10). -/
def keepLines (n : Nat) (l : List L1Line) : List L1Line :=
  let gone := (l.reverse.filter (·.first)).take (l.length - n)
  (l.filter fun x => !gone.contains x).take n

/-- The L1 of a core is resized, as its scratchpad has grown or shrunk (R101): lines that no longer fit go. -/
def resizeL1 (s : State) (core : Nat) : State :=
  if (getCore s core).l1.length ≤ l1Lines s core then s else modCore s core fun c => { c with l1 := keepLines (l1Lines s core) c.l1 }

/-- A line filled into a core's L1 with what the L2 reads, in the place of another where the L1 is full. -/
def l1Fill (s : State) (core : Nat) (t : Tlb) (pa : Nat) (instr first : Bool) : State :=
  let line := t.line pa
  let bytes := l2Bytes s (dieOf core) t (pa / lineSize * lineSize) lineSize
  let n := l1Lines s core
  modCore s core fun c =>
    { c with l1 := (⟨line, instr, first, bytes⟩ :: keepLines (n - 1) (c.l1.filter fun x => !(x.line == line && x.instr == instr))).take n }

/-- Every global data line invalidated: an acquire at herd scope or wider, or `cinv.l1all` (R100, R128, R242). -/
def l1Acquire (s : State) (core : Nat) : State :=
  if (getCore s core).l1.all (·.instr) then s else modCore s core fun c => { c with l1 := c.l1.filter (·.instr) }

/-- Every lane of a core synchronises at herd scope or wider with what has gone before: nothing older is seen (R130, R134-R136). -/
def acquireAll (s : State) (core : Nat) : State := dropEarly (l1Acquire s core) core fun _ => true

/-- A line dropped from every L1 of the device, as a store to a patch slot does (R139). -/
def l1DropAll (s : State) (line : Nat) : State :=
  { s with cores := s.cores.map fun c => { c with l1 := c.l1.filter (·.line != line) } }

/-- A store updates the matching data line of its core (R100). -/
def l1Store (s : State) (core : Nat) (t : Tlb) (pa : Nat) (bs : List Byte) : State :=
  let line := t.line pa
  if ((getCore s core).line? line false).isSome then
    modCore s core fun c => { c with l1 := c.l1.map fun x =>
      if x.line == line && !x.instr then
        { x with bytes := (List.range lineSize).map fun k =>
            let a := pa / lineSize * lineSize + k
            if pa ≤ a && a < pa + bs.length then bs.getD (a - pa) 0 else x.bytes.getD k 0 }
      else x }
  else s

/-- Bytes read through a core's L1: from the line it holds, unless that line has been evicted meanwhile (R100); else from the L2, and the
line is filled; `first`: what this allocates is evicted first. -/
def l1Read (s : State) (core : Nat) (t : Tlb) (pa n : Nat) (instr first : Bool) : List Byte × State :=
  match (getCore s core).line? (t.line pa) instr with
  | some x =>
    if Config.l1Evicted s.fresh then
      let s' := l1Fill (l2Touch (draw s) (dieOf core) t pa first) core t pa instr first
      (l2Bytes s (dieOf core) t pa n, s')
    else ((List.range n).map fun k => x.bytes.getD (pa % lineSize + k) 0, draw s)
  | none =>
    let s' := l1Fill (l2Touch s (dieOf core) t pa first) core t pa instr first
    (l2Bytes s (dieOf core) t pa n, s')

/-! ### Scratchpad (R102-R108, R428) -/

/-- A byte of the range lies in a poisoned 4-byte scratchpad granule. -/
def spadPoisoned (h : Herd) (off n : Nat) : Bool := h.bad.any fun g => off < 4 * g + 4 && 4 * g < off + n

/-- The lines of a scratchpad range. -/
def linesOf (off n : Nat) : List Nat := (List.range ((off + n + lineSize - 1) / lineSize - off / lineSize)).map (off / lineSize + ·)

/-- A byte of the range lies in an empty line (R105). -/
def touchesEmpty (h : Herd) (off n : Nat) : Bool := (linesOf off n).any fun k => h.empty.contains k

/-- Lines set full, which is counted where they were empty (R66, R104). -/
def setFull (h : Herd) (lines : List Nat) : Herd :=
  { h with
    empty := h.empty.filter fun e => !(lines.contains e)
    fills := (lines.filter h.empty.contains).foldl (fun l k => assocPut 0 l k (assocGet 0 l k + 1)) h.fills }
/-- Lines set empty (R104). -/
def setEmpty (h : Herd) (lines : List Nat) : Herd := { h with empty := lines ++ h.empty.filter fun e => !(lines.contains e) }

/-- The bytes of a barrier object (R107). -/
def Barrier.bytes (b : Barrier) : List Byte :=
  bytesLE 16 (b.phase.toNat + b.init * 2 ^ 1 + b.pending * 2 ^ 12 + b.inv.toNat * 2 ^ 23 + truncI b.balance 24 * 2 ^ 32 + b.discarded * 2 ^ 64)

/-- A scratchpad byte: barrier storage reads the objects (R107). -/
def spadByte (h : Herd) (off : Nat) : Byte :=
  match h.bars[off / 16]? with
  | some b => b.bytes.getD (off % 16) 0
  | none => memGet 0#8 h.spad off

/-- Bytes of a scratchpad. -/
def spadBytes (h : Herd) (off n : Nat) : List Byte := (List.range n).map fun k => spadByte h (off + k)

/-- A scratchpad write of data: a granule covered whole becomes clean (R429). -/
def spadWrite (h : Herd) (off : Nat) (bs : List Byte) : Herd :=
  { h with
    spad := memWrite 0#8 h.spad off bs
    bad := h.bad.filter fun g => !(off ≤ 4 * g && 4 * g + 4 ≤ off + bs.length) }

/-- A scratchpad store performs: the data, then the state that `stse` names (R240, R241); a merge with poison is logged. -/
def spadStore (s : State) (herd core off : Nat) (bs : List Byte) (eff : LineEffect) : State :=
  match findHerd s herd with
  | none => s
  | some h =>
    let merged := h.bad.any fun g => off < 4 * g + 4 && 4 * g < off + bs.length && !(off ≤ 4 * g && 4 * g + 4 ≤ off + bs.length)
    let h' := spadWrite h off bs
    let h' := match eff with
      | .keep => h'
      | .setFull => setFull h' (linesOf off bs.length)
      | .setEmpty => setEmpty h' (linesOf off bs.length)
    let s := modHerd (if eff == .setEmpty then dropSpad s core herd (linesOf off bs.length) else s) herd fun _ => h'
    if merged then logEvent s 4 h.part (dieOf core) (core % 42) 0 (BitVec.ofNat 64 bs.length) else s

/-! ### The store queue (R63, R128) -/

/-- The entry touches a byte of another. -/
def StoreOp.meets : StoreOp → StoreOp → Bool
  | .global a x _ q _, .global b y _ r _ => q.isSome == r.isSome && a < b + y.length && b < a + x.length
  | .spad a x _, .spad b y _ => a < b + y.length && b < a + x.length
  | .writeBack a _, .global b y _ r _ => a < placed b r.isSome + y.length && placed b r.isSome < a + lineSize
  | .global b y _ r _, .writeBack a _ => a < placed b r.isSome + y.length && placed b r.isSome < a + lineSize
  | .writeBack a _, .writeBack b _ => a == b
  | .spad _ _ _, .global _ _ _ _ _ | .global _ _ _ _ _, .spad _ _ _ => false
  | .spad _ _ _, .writeBack _ _ | .writeBack _ _, .spad _ _ _ => false
  | .releaseFence, _ => false
  | _, .releaseFence => false

/-- An earlier entry of the queue holds up a later one: the same lane's same bytes (R64), what precedes a release or follows a release
fence (R119, R128), and the lanes of one instruction at a common byte (R237). -/
def StoreEntry.blocks (e later : StoreEntry) : Bool :=
  e.loc == later.loc &&
    ((e.lane == later.lane &&
        (e.op.meets later.op || later.release || later.op == .releaseFence || (later.strong && e.op == .releaseFence))) ||
      (e.issue == later.issue && e.op.meets later.op))

/-- A translation that stands for the page of a queued store, whose checks were made when it retired. -/
def pageTlb (part : Nat) (sc : Bool) (route : Option Nat) : Tlb :=
  { identityTlb part with sc, kind := if route.isSome then 1 else 0, route := route.getD 0 }

/-- A queued store's page is ready (R407), and a sys-scope release has its acknowledgments (R408). -/
def storeReady (s : State) (e : StoreEntry) : Bool :=
  (!(e.release && e.scope == 4) || s.remotePages.all (·.ackDue == 0)) &&
  match e.op with
  | .global pa _ sc route _ => pageReady s (pageTlb 0 sc route) pa true
  | .writeBack pa _ => (scFind s (pa / lineSize) (dieOf e.loc.core)).all (backReady s)
  | .spad _ _ _ | .releaseFence => true

/-- What a queued store that is not ready asks for. -/
def storeRequest (s : State) (e : StoreEntry) : State :=
  match e.op with
  | .global pa _ sc route _ =>
    if pageReady s (pageTlb 0 sc route) pa true then s else requestPage s (pageTlb 0 sc route) pa true
  | .writeBack pa _ => (askBack s (scFind s (pa / lineSize) (dieOf e.loc.core)).toList).getD s
  | .spad _ _ _ | .releaseFence => s

/-- The near copy of a line after `cwb` (R242). -/
def cwbNear (s : State) (line die : Nat) (drop : Bool) : State :=
  { s with near := s.near.filterMap fun n =>
      if n.line == line && n.die == die then
        (if drop then none else some { n with state := match n.state with | .m => .e | .o => .s | .e => .e | .s => .s })
      else some n }

/-- The release sequences that a queued store heads (R119): as a release write, or as a strong write after a release fence of its lane. -/
def StoreEntry.heads (e : StoreEntry) (fences : List (PackLoc × Nat × Mask)) (tick : Nat) : List ReleaseHead :=
  match e.op with
  | .global pa bs _ r _ =>
    let scopes := (if e.release then [e.scope] else []) ++
      if e.strong then (fences.filter fun f => f.1 == e.loc && f.2.2.has e.lane).map (·.2.1) else []
    scopes.map fun sc => ⟨placed pa r.isSome, bs.length, tick, sc, e.loc, e.herd⟩
  | .spad _ _ _ | .writeBack _ _ | .releaseFence => []

/-- Release sequences begin. -/
def addHeads (s : State) (hs : List ReleaseHead) : State := if hs.isEmpty then s else { s with heads := hs ++ s.heads }

/-- A queue entry performs (R63, R100, R128). -/
def performStore (s : State) (core : Nat) (e : StoreEntry) : State :=
  match e.op with
  | .global pa bs sc route patch =>
    let t := pageTlb e.part sc route
    let s := usePage s t pa
    let s := addHeads (dropEarly (globalWrite s e.part core (dieOf core) t pa bs e.first) core fun x => x.isAt e.loc none (t.line pa))
      (e.heads (getCore s core).fences s.tick)
    if patch then l1DropAll s (t.line pa) else l1Store s core t pa bs
  | .spad off bs eff =>
    match e.herd with
    | some h =>
      spadStore (dropEarly s core fun x => x.loc == e.loc && x.lane == e.lane && x.herd == some h && (linesOf off bs.length).contains x.line) h core off bs eff
    | none => s
  | .writeBack pa inv =>
    let line := pa / lineSize
    cwbNear (scWriteBack s line (dieOf core) inv) line (dieOf core) inv
  | .releaseFence => s

/-- Two entries are lanes of one store instruction that write a common byte (R237). -/
def StoreEntry.mates (e x : StoreEntry) : Bool := e.loc == x.loc && e.issue == x.issue && e.op.meets x.op

/-- The entries, by place, that must perform with those at the places `ks`: what holds them up, and the other lanes of their instructions
at a common byte, whose writes take adjacent places (R237). -/
def pullIn (q : List StoreEntry) (ks : List Nat) : List Nat :=
  (List.range q.length).filter fun i => ks.contains i || ks.any fun j =>
    match q[i]?, q[j]? with
    | some e, some x => e.mates x || (i < j && e.blocks x)
    | _, _ => false

/-- `pullIn` until it adds nothing: `n` times, for `n` at least the length of the queue. -/
def pullAll (q : List StoreEntry) : Nat → List Nat → List Nat
  | 0, ks => ks
  | n + 1, ks => pullAll q n (pullIn q ks)

/-- The entries of a queue that must perform when those that satisfy `f` do, in queue order. -/
def neededStores (f : StoreEntry → Bool) (q : List StoreEntry) : List StoreEntry :=
  if q.any f then
    (pullAll q q.length ((List.range q.length).filter fun i => ((q[i]?).map f).getD false)).filterMap (q[·]?)
  else []

/-- An entry that is ready performs, and with it, in lane order, the other lanes of its instruction at its bytes (R237). -/
def performMates (s : State) (core : Nat) (e : StoreEntry) : State :=
  let mine (x : StoreEntry) : Bool := x == e || e.mates x
  modCore (((getCore s core).storeQ.filter mine).foldl (fun s x => performStore s core x) s) core fun c =>
    { c with storeQ := c.storeQ.filter fun x => !mine x }

/-- Queued stores perform in order; `false` where one is not ready, which is then asked for. -/
def performAll (s : State) (core : Nat) : List StoreEntry → Bool × State
  | [] => (true, s)
  | e :: es =>
    if !(getCore s core).storeQ.contains e then performAll s core es
    else if storeReady s e then performAll (performMates s core e) core es
    else (false, storeRequest s e)

/-- The queued stores of a core that satisfy `f` perform, with what must perform with them; `false` where one is not ready. -/
def drainWhere (s : State) (core : Nat) (f : StoreEntry → Bool) : Bool × State :=
  performAll s core (neededStores f (getCore s core).storeQ)

/-- The queued stores of some lanes of a pack perform. -/
def drain (s : State) (loc : PackLoc) (m : Mask) : Bool × State := drainWhere s loc.core fun e => e.loc == loc && m.has e.lane

/-- What a rejoin-set completion synchronises (R52, R129): the stores of the lanes whose arrival counts perform, and no lane of the pack sees
memory as it was before. -/
def drainCounted (s : State) (loc : PackLoc) (m : Mask) : Bool × State :=
  let r := drain s loc m
  (r.1, if r.1 && m != 0#64 then dropEarly r.2 loc.core (·.loc == loc) else r.2)

/-- The lanes of a pack whose queue holds an entry that satisfies `f`. -/
def queuedLanes (s : State) (loc : PackLoc) (m : Mask) (f : StoreEntry → Bool) : Mask :=
  let q := (getCore s loc.core).storeQ.filter fun e => e.loc == loc && f e
  m &&& Mask.ofPred fun l => q.any (·.lane == l)

/-- Entries put at the tail of a core's store queue. -/
def enqueue (s : State) (core : Nat) (es : List StoreEntry) : State :=
  if es.isEmpty then s else modCore s core fun c => { c with storeQ := c.storeQ ++ es }

/-- Bytes overlaid with what a lane's queued stores hold for them, the youngest last (R64); a global address as the caches know it. -/
def forward (s : State) (loc : PackLoc) (lane : Nat) (isSpad : Bool) (a : Nat) (bs : List Byte) : List Byte :=
  ((getCore s loc.core).storeQ.filter fun e => e.loc == loc && e.lane == lane).foldl (fun bs e =>
    let overlay (b : Nat) (x : List Byte) : List Byte :=
      (List.range bs.length).map fun k => if b ≤ a + k && a + k < b + x.length then x.getD (a + k - b) 0 else bs.getD k 0
    match e.op with
    | .global b x _ r _ => if isSpad then bs else overlay (placed b r.isSome) x
    | .spad b x _ => if isSpad then overlay b x else bs
    | .writeBack _ _ | .releaseFence => bs) bs

/-! ### The checks of one instruction (R236) -/

/-- A lane's access that passed its checks. -/
structure LaneAcc where
  lane : Nat
  pa   : Nat
  t    : Tlb
  deriving Repr

/-- Checks 2 to 4 for every aligned lane, in ascending lane order. -/
def resolveLanes (s : State) (p : Pack) (acc : Acc) (size : Nat) (addr : Nat → Nat) : List Nat → List (Nat × Resolved) × State
  | [] => ([], s)
  | l :: ls =>
    let r := resolve s p.loc.core p.part p.level acc (addr l) size
    let rest := resolveLanes r.2 p acc size addr ls
    ((l, r.1) :: rest.1, rest.2)

/-- The state in which an access of path `i` of a pack is held up: by a walk, whose time does not count toward the watchdog (R392), or else. -/
def heldUp (s : State) (p : Pack) (i va : Nat) : State := if walkHolds s p va then setPack s (p.holdCount i (now s)) else s

/-- The path waits at the instruction, which issues again later: nothing but what the check left in caches and requests has changed. -/
def stallAt (s : State) : Effect := .done s

/-- The accesses of the lanes that passed checks 1 to 4. -/
def passed (r : List (Nat × Resolved)) : List LaneAcc :=
  r.filterMap fun x => match x.2 with | .ok pa t => some ⟨x.1, pa, t⟩ | .fault _ | .stall => none

/-- A global access of the executing lanes: its checks in the order of R236, then `k` with what each lane resolved to.  An access that a
walk or a page hand-over holds up waits (R392, R408).  `ahead` performs older accesses that must perform first, and `bad` is the last check,
the poison of a byte read, made after that. -/
def globalAccess (i : Instr) (c : Ctx) (s : State) (acc : Acc) (size align : Nat) (addr : Nat → Nat)
    (ahead : List LaneAcc → State → Bool × State) (bad : State → LaneAcc → Bool) (k : List LaneAcc → State → Effect) : Effect :=
  let r := resolveLanes s c.pack acc size addr (c.exec.lanes.filter fun l => addr l % align == 0)
  let as := passed r.1
  let d := ahead as r.2
  let look (l : Nat) : LaneFault :=
    let a := BitVec.ofNat 64 (addr l)
    if addr l % align != 0 then some (7, a)
    else
      let hit : Option Resolved := (r.1.find? (·.1 == l)).map (·.2)
      match hit with
      | some (.fault code) => some (code, a)
      | some (.ok pa t) => if bad d.2 ⟨l, pa, t⟩ then some (15, a) else none
      | some .stall | none => none
  if r.1.any (·.2 == .stall) then stallAt r.2
  else if !d.1 then stallAt d.2
  else
    match laneFaults i c look with
    | some f => .fault f d.2
    | none => k as d.2

/-- Nothing need perform ahead of an access. -/
def noneAhead (_ : List LaneAcc) (s : State) : Bool × State := (true, s)
/-- An access that reads no byte meets no poison. -/
def noPoison (_ : State) (_ : LaneAcc) : Bool := false

/-- A queued store of the lane covers the `n` bytes at `a`: it makes a granule there clean before a younger access of the lane reads it
(R64, R429). -/
def ownCovers (s : State) (loc : PackLoc) (lane : Nat) (isSpad : Bool) (a n : Nat) : Bool :=
  (getCore s loc.core).storeQ.any fun e => e.loc == loc && e.lane == lane &&
    match e.op with
    | .global b x _ r _ => !isSpad && placed b r.isSome ≤ a && a + n ≤ placed b r.isSome + x.length
    | .spad b x _ => isSpad && b ≤ a && a + n ≤ b + x.length
    | .writeBack _ _ | .releaseFence => false

/-- A load of a lane reads a poisoned granule that no queued store of its own makes clean first. -/
def readsPoison (loc : PackLoc) (n : Nat) (s : State) (a : LaneAcc) : Bool :=
  l2Poisoned s (dieOf loc.core) a.t a.pa n &&
    (List.range n).any fun k =>
      l2Poisoned s (dieOf loc.core) a.t (a.pa + k) 1 &&
        !ownCovers s loc a.lane false (placed ((a.pa + k) / 8 * 8) (a.t.kind == 1)) 8

/-- The herd of the issuing pack; a handler pack has none, and no scratchpad (R344, R436). -/
def Ctx.herd (c : Ctx) (s : State) : Option Herd := c.pack.herd.bind (findHerd s)

/-- S of the issuing pack's herd, 0 for a handler pack. -/
def spadLimit (h : Option Herd) : Nat := (h.map (·.spadSize)).getD 0

/-- The scratchpad checks of a lane in the order of R236: `writes`, `checkEmpty` for `sts` and the atomics, and `bad` for the poison of a
byte that is read. -/
def spadFault (h : Option Herd) (off : Int) (size : Nat) (writes checkEmpty : Bool) (bad : Herd → Nat → Bool) : LaneFault :=
  let a := BitVec.ofInt 64 off
  if off % (size : Int) != 0 then some (7, a)
  else if off < 0 || (spadLimit h : Int) < off + size then some (11, a)
  else
    match h with
    | none => none
    | some h =>
      let o := off.toNat
      if writes && o < 16 * h.bars.length then some (13, a)
      else if checkEmpty && touchesEmpty h o size then some (14, a)
      else if bad h o then some (15, a)
      else none

/-! ### Whole blocks (R433) -/

/-- How the checks of a block end: its parts as physical ranges, a fault with its address, or a wait. -/
inductive Block where
  | ok (parts : List (Nat × Nat × Tlb))
  | fault (code addr : Nat)
  | stall

/-- A block's range cut at page boundaries. -/
def pageParts (va len : Nat) : Nat → List (Nat × Nat)
  | 0 => []
  | fuel + 1 =>
    if len == 0 then []
    else
      let n := min len (pageSize - va % pageSize)
      (va, n) :: pageParts (va + n) (len - n) fuel

/-- Checks 2 to 4 of every page of a block. -/
def resolveBlock (s : State) (core part level : Nat) (acc : Acc) : List (Nat × Nat) → Block × State
  | [] => (.ok [], s)
  | (va, n) :: rest =>
    match resolve s core part level acc va n with
    | (.fault code, s') => (.fault code va, s')
    | (.stall, s') => (.stall, s')
    | (.ok pa t, s') =>
      match resolveBlock s' core part level acc rest with
      | (.ok ps, s'') => (.ok ((pa, n, t) :: ps), s'')
      | r => r

/-- The address of the first byte of a block, as the L2 of a die reads it, that lies in a poisoned granule. -/
def firstPoison (s : State) (die : Nat) : Nat → List (Nat × Nat × Tlb) → Option Nat
  | _, [] => none
  | va, (pa, n, t) :: ps =>
    if l2Poisoned s die t pa n then ((List.range n).find? fun k => l2Poisoned s die t (pa + k) 1).map (va + ·)
    else firstPoison s die (va + n) ps

/-- The checks of a block of `len` bytes at `va`: alignment, canonical form, translation, permission, and for a block that is read its
poison, with the first byte it concerns (R236, R433). -/
def checkBlock (s : State) (core part level : Nat) (acc : Acc) (va len align : Nat) : Block × State :=
  if va % align != 0 then (.fault 7 va, s)
  else
    match resolveBlock s core part level acc (pageParts va len (len / pageSize + 2)) with
    | (.ok ps, s') =>
      match if acc == .read then firstPoison s' (dieOf core) va ps else none with
      | some a => (.fault 15 a, s')
      | none => (.ok ps, s')
    | r => r

/-- The bytes of a block, read at the L2. -/
def blockBytes (s : State) (core : Nat) (ps : List (Nat × Nat × Tlb)) : List Byte :=
  ps.flatMap fun x => l2Bytes s (dieOf core) x.2.2 x.1 x.2.1

/-- Bytes of one page written line by line, each line as one write. -/
def writeLines (s : State) (part core : Nat) (t : Tlb) (pa : Nat) (bs : List Byte) : Nat → State
  | 0 => s
  | fuel + 1 =>
    if bs.isEmpty then s
    else
      let n := lineSize - pa % lineSize
      let s := l1Store (globalWrite s part core (dieOf core) t pa (bs.take n) false) core t pa (bs.take n)
      writeLines s part core t (pa + n) (bs.drop n) fuel

/-- Bytes written to a block. -/
def writeBlock (s : State) (part core : Nat) : List (Nat × Nat × Tlb) → List Byte → State
  | [], _ => s
  | (pa, n, t) :: ps, bs =>
    writeBlock (writeLines s part core t pa (bs.take n) (n / lineSize + 2)) part core ps (bs.drop n)

end Sys2Proof.Machine
end

