-- ==== Sys2Proof/Machine/Flags.lean ====
section
/-!
DEFINITION. The conditions that write predicates: the comparisons of `icmp` (R192) and `fcmp` (R209), their combination with a
predicate, the classes of `fclass` (R210), carries (R187), the votes (R198, R230) and predicate operations (R194).
-/

namespace Sys2Proof.Machine

/-- The conditions of `icmp`: 0 eq, 1 ne, 2 lt, 3 le, 4 gt, 5 ge (R192). -/
def icond (k : Nat) (a b : Int) : Bool :=
  match k with
  | 0 => a == b
  | 1 => a != b
  | 2 => a < b
  | 3 => a ≤ b
  | 4 => b < a
  | _ => b ≤ a

/-- fn[4:3]: none, and, or, xor with predicate c (R192, R209). -/
def combine (k : Nat) (q c : Bool) : Bool :=
  match k with
  | 0 => q
  | 1 => q && c
  | 2 => q || c
  | _ => q != c

/-- The conditions of `fcmp` (R209): with a NaN operand only `.ne` and `.nan` give 1. -/
def fcond (k : Nat) (a b : Val) : Bool :=
  let ordered := !a.isNan && !b.isNan
  match k with
  | 0 => ordered && a.eq b
  | 1 => !ordered || !a.eq b
  | 2 => ordered && a.lt b
  | 3 => ordered && (a.lt b || a.eq b)
  | 4 => ordered && b.lt a
  | 5 => ordered && (b.lt a || a.eq b)
  | 6 => ordered
  | _ => !ordered

/-- The class mask of a bit pattern (R210). -/
def fclassBits (f : Fmt) (w : Nat) : Nat :=
  let neg := w / 2 ^ (f.width - 1) % 2 == 1
  let code := w % 2 ^ (f.width - 1)
  match fv f w with
  | .nan => if f.nanTop || code / 2 ^ (f.fbits - 1) % 2 == 1 then 2 ^ 9 else 2 ^ 8
  | .inf s => if s then 2 ^ 0 else 2 ^ 7
  | .zero s => if s then 2 ^ 3 else 2 ^ 4
  | .num _ _ =>
    if code / 2 ^ f.fbits == 0 then (if neg then 2 ^ 2 else 2 ^ 5) else (if neg then 2 ^ 1 else 2 ^ 6)

/-- The predicate operations of `pops`: and, or, xor, andn, orn (R194). -/
def popsOp (k : Nat) (a b : Bool) : Bool :=
  match k with
  | 0 => a && b
  | 1 => a || b
  | 2 => a != b
  | 3 => a && !b
  | _ => a || !b

/-- The votes over the executing lanes: any, all, none, uni (R198, R230). -/
def voteOf (k : Nat) (ps : List Bool) : Bool :=
  match k with
  | 0 => ps.any id
  | 1 => ps.all id
  | 2 => !ps.any id
  | _ => ps.all id || !ps.any id

end Sys2Proof.Machine
end

