-- ==== Sys2Proof/Machine/Moves.lean ====
section
/-!
DEFINITION. The move and special-register instructions, opcodes 0x50-0x56 (R155, R194-R196).
-/

namespace Sys2Proof.Machine

/-- `mov` (R194): a vector, a pair or a quad. -/
def execMov (h : Head) (o : V) (s : State) : Host.Outcome State Fault Refusal :=
  runPack (.mov h o) h s fun c =>
    match o.fn.toNat with
    | 0 => c.pack.writeReg o.d.toNat c.exec (c.v o.a)
    | 1 => c.pack.writePair o.d.toNat c.exec (c.q o.a)
    | _ => c.pack.writeQuad o.d.toNat c.exec (c.words o.a 4)

/-- `movi` (R194). -/
def execMovi (h : Head) (o : I) (s : State) : Host.Outcome State Fault Refusal :=
  runPack (.movi h o) h s fun c => c.pack.writeT o.ty o.d c.exec fun _ => truncI (immVal o false) (tyW o.ty)

/-- `pops` (R194). -/
def execPops (h : Head) (o : V) (s : State) : Host.Outcome State Fault Refusal :=
  runPack (.pops h o) h s fun c =>
    c.pack.writePred o.d.toNat c.exec fun l => popsOp o.fn.toNat (c.pack.pred o.a.toNat l) (c.pack.pred o.b.toNat l)

/-- `p2v` (R194). -/
def execP2v (h : Head) (o : V) (s : State) : Host.Outcome State Fault Refusal :=
  runPack (.p2v h o) h s fun c =>
    c.pack.writeReg o.d.toNat c.exec fun l =>
      BitVec.ofNat 32 (((List.range 8).map fun k => (c.pack.pred k l).toNat * 2 ^ k).sum)

/-- `v2p` (R194). -/
def execV2p (h : Head) (o : V) (s : State) : Host.Outcome State Fault Refusal :=
  runPack (.v2p h o) h s fun c =>
    (List.range 7).foldl (fun p k =>
      if o.fn.toNat / 2 ^ k % 2 == 1 then p.writePred k c.exec fun l => (c.v o.a l).toNat / 2 ^ k % 2 == 1 else p) c.pack

/-- `%rsfree` (R47). -/
def rsfreeMask (p : Pack) : Word :=
  BitVec.ofNat 32 (((List.range p.setCount).map fun k => (!(p.rset k).opened).toNat * 2 ^ k).sum)

/-- A special register in lane `l` (R155, R195); herd and grid indices read 0 in a handler pack (R436). -/
def specialReg (s : State) (c : Ctx) (n l : Nat) : Nat :=
  let h := c.herd s
  let d : Option Desc := (h.bind (herdLaunch s)).map (·.desc)
  match n with
  | 0 => l
  | 1 => if c.pack.isHandler then 0 else c.pack.num
  | 2 => (h.map (·.x)).getD 0
  | 3 => (h.map (·.y)).getD 0
  | 4 => (h.map (·.z)).getD 0
  | 5 => (d.map (·.gridx)).getD 0
  | 6 => (d.map (·.gridy)).getD 0
  | 7 => (d.map (·.gridz)).getD 0
  | 8 => c.pack.loc.core
  | 9 => dieOf c.pack.loc.core
  | 10 => s.clock.toNat
  | 11 => c.act.toNat
  | _ => (rsfreeMask c.pack).toNat

/-- `srd` (R195). -/
def execSrd (h : Head) (o : S) (s : State) : Host.Outcome State Fault Refusal :=
  runPack (.srd h o) h s fun c =>
    let n := o.imm.toNat
    if n == 10 || n == 11 then c.pack.writePair o.d.toNat c.exec fun l => BitVec.ofNat 64 (specialReg s c n l)
    else c.pack.writeReg o.d.toNat c.exec fun l => BitVec.ofNat 32 (specialReg s c n l)

/-- `swr` and `swr.rd` (R194, R195). -/
def execSwr (h : Head) (o : V) (s : State) : Host.Outcome State Fault Refusal :=
  runPack (.swr h o) h s fun c =>
    if o.fn.toNat == 1 then c.pack.writeReg o.d.toNat c.exec fun l => Lanes.get 0#32 c.pack.sto l
    else { c.pack with sto := Lanes.tab fun l => if c.exec.has l then c.v o.a l else Lanes.get 0#32 c.pack.sto l }

end Sys2Proof.Machine
end

