-- ==== Sys2Proof/Machine/Barriers.lean ====
section
/-!
DEFINITION. Barrier objects and the barrier instructions, opcodes 0x90-0x95 (R107, R108, R130, R248-R253), and the claims of operand
memory, opcodes 0x99 and 0x9A (R109, R110, R262).
-/

namespace Sys2Proof.Machine

/-! ### The object (R108) -/

/-- `barrier_check` (R108): the object after it, and whether a phase has completed. -/
def Barrier.check (b : Barrier) : Barrier × Bool :=
  if !b.inv && b.init != 0 && b.pending == 0 && b.balance == 0 then
    ({ b with phase := !b.phase, pending := b.next.getD b.init, next := none }, true)
  else (b, false)

/-- The balance a 24-bit signed field can hold (R107). -/
def balanceOk (x : Int) : Bool := -(2 ^ 23) ≤ x && x ≤ 2 ^ 23 - 1

/-- Bytes added to discarded, saturating (R107). -/
def Barrier.discard (b : Barrier) (n : Nat) : Barrier := { b with discarded := min (b.discarded + n) (2 ^ 32 - 1) }

/-- A landing of `n` bytes (R108): it never faults. -/
def Barrier.landing (b : Barrier) (n : Nat) : Barrier :=
  if b.inv || !balanceOk (b.balance - n) then b.discard n else { b with balance := b.balance - n }

/-! ### Releasing waiters (R252) -/

/-- A path released from a barrier wait goes on at the next instruction and enters the queue (R43, R252); the predicate is written at the
release. -/
def Pack.releaseBarPath (p : Pack) (active : Mask) (i pred : Nat) (value : Bool) : Pack :=
  (p.writePred pred active fun _ => value).releasePath i fun q => { q with pc := q.pc + 8, wbase := 0, wfrom := none }

/-- The paths of a pack that wait on object `k` and satisfy `f` of their phase are released; `settlePaths` then orders them. -/
def releaseInPack (s : State) (p : Pack) (k : Nat) (value : Bool) (f : Bool → Bool) : Pack :=
  (List.range p.paths.length).foldl (fun p i =>
    match p.paths[i]? with
    | some q =>
      match q.wait with
      | .bar k' ph pred => if k' == k && f ph then p.releaseBarPath (activeMask s p q) i pred value else p
      | .run | .set _ | .line _ _ | .again _ _ | .barDone _ _ _ _ => p
    | none => p) p

/-- One step is over, which began in `s0`: the paths that it released enter their packs' queues together, in ascending order of their lowest
lanes, and free slots are filled (R43). -/
def settlePacks (s0 s : State) : State :=
  { s with packs := s.packs.map fun p =>
      match findPack s0 p.loc with
      | some q => if q.qnext == p.qnext then p else p.settlePaths q.qnext
      | none => p }

/-- The pack runs, or is only parked: its barrier waits stay registered (R27). -/
def Pack.registered (s : State) (p : Pack) : Bool :=
  p.stop == .running && !((p.herd.bind (findHerd s)).map (·.saving)).getD false

/-- The waiters of a pack that is stopped are marked: its resumption releases them (R363). -/
def markInPack (p : Pack) (k : Nat) (value : Bool) (f : Bool → Bool) : Pack :=
  { p with paths := p.paths.map fun q =>
      match q.wait with
      | .bar k' ph pred => if k' == k && f ph then { q with wait := .barDone k ph pred value } else q
      | .run | .set _ | .line _ _ | .again _ _ | .barDone _ _ _ _ => q }

/-- Every waiter on an object of a herd whose phase satisfies `f` is released; released by completion, it acquires at herd scope (R130). -/
def releaseBar (s : State) (herd k : Nat) (value : Bool) (f : Bool → Bool) : State :=
  let s' := { s with packs := s.packs.map fun p =>
    if p.herd == some herd then (if p.registered s then releaseInPack s p k value f else markInPack p k value f) else p }
  if value then
    match findHerd s herd with
    | some h => acquireAll s' h.core
    | none => s'
  else s'

/-- An object replaced, checked, and the waiters of a completed phase released (R108). -/
def putBarrier (s : State) (herd k : Nat) (b : Barrier) : State :=
  let r := b.check
  let s := modHerd s herd fun h => { h with bars := h.bars.set k r.1 }
  if r.2 then releaseBar s herd k true (· == b.phase) else s

/-- The marked waiters of a pack go on. -/
def releaseMarked (s : State) (p : Pack) : Pack :=
  (List.range p.paths.length).foldl (fun p i =>
    match p.paths[i]? with
    | some q =>
      match q.wait with
      | .barDone _ _ pred value => p.releaseBarPath (activeMask s p q) i pred value
      | .run | .set _ | .line _ _ | .again _ _ | .bar _ _ _ => p
    | none => p) p

/-- What a path that waited while its pack did not run finds when it goes on (R252, R363): its phase completed, or the object
invalidated.  A waiter restored from an image compares its phase with the object's.  `settlePaths` then orders the paths released. -/
def releaseBarriers (s : State) (p : Pack) : Pack :=
  match p.herd.bind (findHerd s) with
  | none => p
  | some h =>
    (List.range h.bars.length).foldl (fun p k =>
      match h.bars[k]? with
      | none => p
      | some b =>
        let p := releaseInPack s p k true (· != b.phase)
        if b.inv then releaseInPack s p k false fun _ => true else p) (releaseMarked s p)

/-- The paths of a pack that runs again whose barrier wait is over enter the queue. -/
def wakeBarriers (s : State) (p : Pack) : Pack := (releaseBarriers s p).settlePaths p.qnext

/-- Some lane of a herd waits on an object. -/
def anyWaiter (s : State) (herd k : Nat) : Bool :=
  s.packs.any fun p => p.herd == some herd && p.paths.any fun q =>
    match q.wait with
    | .bar k' _ _ => k' == k
    | .run | .set _ | .line _ _ | .again _ _ | .barDone _ _ _ _ => false

/-! ### Faults (R249) -/

/-- The object that lane `l` names, where it exists. -/
def barOf (c : Ctx) (s : State) (k : Nat) : Option Barrier := (c.herd s).bind fun h => h.bars[k]?

/-- The lanes of E that name object `k`. -/
def barNamers (c : Ctx) (o : S) (k : Nat) : Mask := c.exec &&& Mask.ofPred fun l => c.name o l == k

/-- The objects that the lanes of E name, ascending. -/
def barNames (c : Ctx) (o : S) : List Nat := (List.range 32).filter fun k => c.exec.lanes.any fun l => c.name o l == k

/-- k ≥ n, or init = 0 for anything but `barinit` (R249). -/
def barUse (c : Ctx) (s : State) (needInit : Bool) (k : Nat) : LaneFault :=
  match barOf c s k with
  | none => some (20, BitVec.ofNat 64 k)
  | some b => if needInit && b.init == 0 then some (20, BitVec.ofNat 64 k) else none

/-- An arrival of `m` lanes at an object with inv = 0 would take pending below zero (R108). -/
def arrivalFault (b : Barrier) (k m : Nat) : LaneFault :=
  if !b.inv && b.pending < m then some (20, BitVec.ofNat 64 k) else none

/-- The fault a lane meets at the object it names, by a check on the object. -/
def barLook (c : Ctx) (s : State) (o : S) (needInit : Bool) (f : Barrier → Nat → LaneFault) (l : Nat) : LaneFault :=
  let k := c.name o l
  (barUse c s needInit k).or ((barOf c s k).bind fun b => f b k)

/-- A barrier instruction that updates each object its lanes name, ascending: the faults first, then the releases its arrival makes (R130),
then the updates. -/
def barOp (i : Instr) (h : Head) (o : S) (s : State) (needInit arrives : Bool) (bad : Ctx → Barrier → Nat → LaneFault)
    (write : Ctx → Pack) (f : Ctx → State → Nat → Barrier → State) : Host.Outcome State Fault Refusal :=
  run i h s fun c =>
    match laneFaults i c (barLook c s o needInit (bad c)) with
    | some r => .fault r s
    | none =>
      let r := if arrives then drain s c.pack.loc c.exec else (true, s)
      if !r.1 then stallAt r.2
      else
        let s := setPack r.2 ((write c).retire i c)
        .done (settlePacks r.2 ((barNames c o).foldl (fun s k => match barOf c s k with | some b => f c s k b | none => s) s))

/-- The number of the issuing pack's herd. -/
def Ctx.herdId (c : Ctx) : Nat := c.pack.herd.getD 0

/-- `barinit` (R250). -/
def execBarinit (h : Head) (o : S) (s : State) : Host.Outcome State Fault Refusal :=
  let count := o.imm.toNat
  barOp (.barinit h o) h o s false false
    (fun c b k =>
      if count == 0 || 2047 < count then some (20, BitVec.ofNat 64 k)
      else if b.landings != 0 || anyWaiter s c.herdId k then some (22, BitVec.ofNat 64 k)
      else none)
    (fun c => c.pack)
    fun c s k b =>
      putBarrier s c.herdId k { b with init := count, pending := count, balance := 0, inv := false, discarded := 0, next := none }

/-- `bararv` (R251): under `.ph` each lane receives the phase just before the update, also of an object with inv = 1, which itself does not
change (DESIGN CHOICE, log 73). -/
def execBararv (h : Head) (o : S) (s : State) : Host.Outcome State Fault Refusal :=
  barOp (.bararv h o) h o s true true (fun c b k => arrivalFault b k (barNamers c o k).size)
    (fun c =>
      if o.mod.toNat % 2 == 1 then
        c.pack.writeReg o.d.toNat c.exec fun l => BitVec.ofNat 32 (((barOf c s (c.name o l)).map (·.phase.toNat)).getD 0)
      else c.pack)
    fun c s k b => if b.inv then s else putBarrier s c.herdId k { b with pending := b.pending - (barNamers c o k).size }

/-- The bytes that `barexp` announces at object `k` (R251). -/
def expBytes (c : Ctx) (o : S) (k : Nat) : Nat :=
  if o.mod.toNat % 2 == 1 then (c.v o.b (Mask.lowest (barNamers c o k))).toNat else o.imm.toNat

/-- `barexp` (R251): mod[0] `.r`, mod[1] `.tx`. -/
def execBarexp (h : Head) (o : S) (s : State) : Host.Outcome State Fault Refusal :=
  let tx := o.mod.toNat / 2 % 2 == 1
  barOp (.barexp h o) h o s true (!tx)
    (fun c b k =>
      if b.inv then none
      else
        (if tx then none else arrivalFault b k (barNamers c o k).size).or
          (if 2 ^ 23 ≤ expBytes c o k || !balanceOk (b.balance + expBytes c o k) then some (21, BitVec.ofNat 64 k) else none))
    (fun c => c.pack)
    fun c s k b =>
      if b.inv then s
      else putBarrier s c.herdId k
        { b with pending := if tx then b.pending else b.pending - (barNamers c o k).size, balance := b.balance + expBytes c o k }

/-- `barinv` (R253). -/
def execBarinv (h : Head) (o : S) (s : State) : Host.Outcome State Fault Refusal :=
  barOp (.barinv h o) h o s true false (fun _ _ _ => none) (fun c => c.pack) fun c s k b =>
    if b.inv then s
    else releaseBar (modHerd s c.herdId fun h => { h with bars := h.bars.set k { b with inv := true } }) c.herdId k false fun _ => true

/-! ### Waiting (R252) -/

/-- The faults of `barsync` and `barwait`: the lanes must name one object (R249). -/
def waitFault (i : Instr) (c : Ctx) (s : State) (o : S) (f : Barrier → Nat → LaneFault) : Option FaultReq :=
  let k0 := c.name o c.low
  if c.exec.lanes.any fun l => c.name o l != k0 then wholeFault i c (some (20, BitVec.ofNat 64 k0))
  else laneFaults i c (barLook c s o true f)

/-- The executing lanes wait on an object in a phase; the rest of the path goes on (R252). -/
def waitBar (i : Instr) (c : Ctx) (s : State) (k : Nat) (ph : Bool) (pred : Nat) : State :=
  let m := c.movers s
  let p := (findPack s c.pack.loc).getD c.pack
  let w : Path := { pc := c.path.pc, mask := m, wait := .bar k ph pred, wfrom := some (now s), wstart := now s }
  setPack s (p.splitPath c.idx m (nextPc i c) [w])

/-- The executing lanes go on with the predicate written; with it set they acquire at herd scope (R130). -/
def passBar (i : Instr) (c : Ctx) (s : State) (pred : Nat) (value : Bool) : State :=
  let p := (findPack s c.pack.loc).getD c.pack
  let s := setPack s ((p.writePred pred c.exec fun _ => value).retire i c)
  if value then acquireAll s c.pack.loc.core else s

/-- `barsync` (R251, R252): imm16 is the next phase's count.  A count above 2047 raises the barrier-use fault of R248 whatever inv is (DESIGN
CHOICE, log 73). -/
def execBarsync (h : Head) (o : S) (s : State) : Host.Outcome State Fault Refusal :=
  run (.barsync h o) h s fun c =>
    let i : Instr := .barsync h o
    if c.exec == 0#64 then .done (setPack s (c.pack.retire i c))
    else
      let m := c.exec.size
      let bad (b : Barrier) (k : Nat) : LaneFault :=
        if 2047 < o.imm.toNat then some (20, BitVec.ofNat 64 k) else arrivalFault b k m
      match waitFault i c s o bad with
      | some r => .fault r s
      | none =>
        let k := c.name o c.low
        let r := drain s c.pack.loc c.exec
        if !r.1 then stallAt r.2
        else
          match barOf c r.2 k with
          | none => stallAt r.2
          | some b =>
            if b.inv then .done (passBar i c r.2 o.d.toNat false)
            else
              let b' := { b with pending := b.pending - m, next := if o.imm.toNat == 0 then b.next else some o.imm.toNat }
              if b'.check.2 then .done (passBar i c (settlePacks r.2 (putBarrier r.2 c.herdId k b')) o.d.toNat true)
              else .done (waitBar i c (putBarrier r.2 c.herdId k b') k b.phase o.d.toNat)

/-- `barwait` (R252): the parity is bit 0 of b in the lowest executing lane. -/
def execBarwait (h : Head) (o : S) (s : State) : Host.Outcome State Fault Refusal :=
  run (.barwait h o) h s fun c =>
    let i : Instr := .barwait h o
    if c.exec == 0#64 then .done (setPack s (c.pack.retire i c))
    else
      match waitFault i c s o (fun _ _ => none) with
      | some r => .fault r s
      | none =>
        let k := c.name o c.low
        match barOf c s k with
        | none => stallAt s
        | some b =>
          let q := (c.v o.b c.low).toNat % 2 == 1
          if b.phase != q then .done (passBar i c s o.d.toNat true)
          else if b.inv then .done (passBar i c s o.d.toNat false)
          else .done (waitBar i c s k q o.d.toNat)

/-! ### Operand memory claims (R110, R262) -/

/-- The faults of a claim instruction: a slot of n or above in a lane, then more than one slot, then the claim's own. -/
def opmFault (i : Instr) (c : Ctx) (s : State) (o : S) (f : OpmSlot → Bool) : Option FaultReq :=
  let slots := ((c.herd s).map (·.opm)).getD []
  let k0 := c.name o c.low
  match laneFaults i c fun l => if slots.length ≤ c.name o l then some (16, BitVec.ofNat 64 (c.name o l)) else none with
  | some r => some r
  | none =>
    if c.exec == 0#64 then none
    else if c.exec.lanes.any fun l => c.name o l != k0 then some ⟨17, c.exec, BitVec.ofNat 64 k0⟩
    else
      match slots[k0]? with
      | some t => if f t then some ⟨17, c.exec, BitVec.ofNat 64 k0⟩ else none
      | none => none

/-- A slot of a herd changed. -/
def modSlot (s : State) (herd k : Nat) (f : OpmSlot → OpmSlot) : State :=
  modHerd s herd fun h => { h with opm := h.opm.modify k f }

/-- `opmclm` (R110): claims a free slot, or joins the queue and waits. -/
def execOpmclm (h : Head) (o : S) (s : State) : Host.Outcome State Fault Refusal :=
  run (.opmclm h o) h s fun c =>
    let i : Instr := .opmclm h o
    match opmFault i c s o fun t => t.holder == some c.pack.num || t.queue.contains c.pack.num with
    | some r => .fault r s
    | none =>
      let k := c.name o c.low
      match ((c.herd s).map (·.opm)).bind fun l => l[k]? with
      | none => .done (setPack s (c.pack.retire i c))
      | some t =>
        if c.exec == 0#64 then .done (setPack s (c.pack.retire i c))
        else if t.holder.isNone && t.queue.isEmpty then
          .done (setPack (modSlot s c.herdId k fun t => { t with holder := some c.pack.num }) (c.pack.retire i c))
        else
          .done (setPack (modSlot s c.herdId k fun t => { t with queue := t.queue ++ [c.pack.num] })
            (c.pack.waitPath c.idx (.again 2 k) (now s)))

/-- The path of a pack that waits at `opmclm` for a slot that it has been given goes on (R110). -/
def grantClaim (s : State) (herd pack k : Nat) : State :=
  { s with packs := s.packs.map fun p =>
      if p.herd == some herd && p.num == pack then
        (match p.paths.findIdx? fun q => q.wait == .again 2 k with
         | some i => (p.releasePath i fun q => { q with pc := q.pc + 8, wbase := 0, wfrom := none }).fillSlots
         | none => p)
      else p }

/-- A slot is released: the head of its queue takes it (R110). -/
def releaseSlot (s : State) (herd k : Nat) : State :=
  match (findHerd s herd).bind fun h => h.opm[k]? with
  | none => s
  | some t =>
    match t.queue with
    | [] => modSlot s herd k fun t => { t with holder := none }
    | q :: qs => grantClaim (modSlot s herd k fun t => { t with holder := some q, queue := qs }) herd q k

/-- `opmrel` (R110). -/
def execOpmrel (h : Head) (o : S) (s : State) : Host.Outcome State Fault Refusal :=
  run (.opmrel h o) h s fun c =>
    let i : Instr := .opmrel h o
    match opmFault i c s o fun t => t.holder != some c.pack.num with
    | some r => .fault r s
    | none =>
      let s := setPack s (c.pack.retire i c)
      .done (if c.exec == 0#64 then s else releaseSlot s c.herdId (c.name o c.low))

end Sys2Proof.Machine
end

