-- ==== Sys2Proof/Machine/Coherence.lean ====
section
/-!
DEFINITION. Coherence across dies and with outside agents (R401-R404, R407-R409): LINE_REQUEST, NEAR_COPY_EVICTION, the page grants and their
acknowledgments, AGENT_FAILED, LINK_DOWN, and the answers and revocations of a remote home.
-/

namespace Sys2Proof.Machine

/-! ### Lines (R401, R402, R404) -/

/-- `LINE_REQUEST` (R402): the home serves a die's request for a line of a hardware-coherent page; it waits while the page's hand-over is in
progress, and asks the page back where an outside agent holds it in the way (R407, R408). -/
def execLineRequest (die line : Nat) (store : Bool) (s : State) : Host.Outcome State Fault Refusal :=
  let pa := line * lineSize
  let t := identityTlb 0
  if 8 ≤ die || !Config.installed pa || s.scCopies.any (·.line == line) then .next s
  else if pageReady s t pa store then .next (usePage (nearRequest s line die (homeDie t pa) store false) t pa)
  else .next (requestPage s t pa store)

/-- `NEAR_COPY_EVICTION` (R402, R404): a near copy goes, its data being at the home; an untracked copy writes its dirty bytes there, once its page
is not held outside (R407). -/
def execNearCopyEviction (die line : Nat) (s : State) : Host.Outcome State Fault Refusal :=
  match askBack s (scFind s line die).toList with
  | some s' => .next s'
  | none => .next (scWriteBack { s with near := s.near.filter fun n => !(n.line == line && n.die == die) } line die true)

/-! ### Page grants (R407, R408) -/

/-- A translation maps a local page as software-coherent. -/
def Tlb.mapsSc (t : Tlb) (page : Nat) : Bool := t.sc && t.kind == 0 && t.pa / pageSize ≤ page && page < t.pa / pageSize + t.pages

/-- The entries of a table page that may be valid: those of which memory lists a byte. -/
def tableIndices (s : State) (table : Nat) : List Nat :=
  ((s.mem.filter fun c => table ≤ c.1 && c.1 < table + pageSize).map fun c => (c.1 - table) / 8).eraseDups

/-- The leaf that an entry of a table is, whatever its M. -/
def leafAt (s : State) (p : Partition) (level table index vpn : Nat) : Option Tlb :=
  let w := readPhys8 s (table + 8 * index)
  if tableReady s table && pteV w && !pteBad level w && (level == 0 || pteL w) then
    some (leafTlb p w vpn (if level == 0 then 1 else bigPages) (pteAddr w))
  else none

/-- Some leaf of a partition's tables satisfies `f`. -/
def partLeaf (s : State) (p : Partition) (f : Tlb → Bool) : Bool :=
  let root := bitsOf p.ptroot.toNat 51 16 * pageSize
  p.ptroot.toNat % 2 == 1 && (tableIndices s root).any fun i2 =>
    match walkUpper s p 2 root i2 (i2 * 2 ^ 26) with
    | .error _ => false
    | .ok t1 => (tableIndices s t1).any fun i1 =>
      (leafAt s p 1 t1 i1 (i2 * 2 ^ 26 + i1 * 8192)).any f ||
        match walkUpper s p 1 t1 i1 (i2 * 2 ^ 26 + i1 * 8192) with
        | .ok t0 => (tableIndices s t0).any fun i0 => (leafAt s p 0 t0 i0 ((i2 * 8192 + i1) * 8192 + i0)).any f
        | .error _ => false

/-- The page is mapped with SC = 1 (R404): the tables map it so, a cached translation still does, or a die holds an untracked copy. -/
def pageSc (s : State) (page : Nat) : Bool :=
  s.scCopies.any (fun c => c.line / 512 == page) || s.dies.any (fun d => d.tlb.any (·.mapsSc page)) ||
    s.cores.any (fun c => c.tlb.any (·.mapsSc page)) || s.parts.any fun p => partLeaf s p (·.mapsSc page)

/-- The page entries that the H-die holds (R407). -/
def pageEntries : Nat := 262144

/-- A grant is made: every near copy of the page's lines is recalled, the entry names the holder, and the grant is sent.  What an exclusive
holder may write is seen by no lane as it was before. -/
def grantPage (s : State) (port page : Nat) (exclusive : Bool) : State :=
  let me := (port, ((getPort s port).incarn).getD 0)
  let others := match s.pages.find? (·.page == page) with
    | some e => if exclusive || e.exclusive then [] else e.holders.filter (·.1 != port)
    | none => []
  sendCoherence
    { (if exclusive then forgetAll s else s) with
      near := s.near.filter fun n => n.line / 512 != page
      pages := s.pages.filter (·.page != page) ++ [⟨page, exclusive, others ++ [me]⟩] }
    port 0 page exclusive

/-- A grant request that finds no free entry: retry, and the oldest grant is revoked. -/
def retryGrant (s : State) (port page : Nat) (exclusive : Bool) : State :=
  let s := sendCoherence s port 1 page exclusive
  match s.pages with
  | [] => s
  | e :: _ => if s.handOvers.any (·.page == e.page) then s else revokePage s e.page (fun _ => false) none false

/-- A grant request waits for its turn: behind the hand-over of its page, and the accesses of the device that wait for that (R408). -/
def waitGrant (s : State) (port page : Nat) (exclusive : Bool) : State :=
  let behind := s.handOvers.any (fun h => h.page == page && h.own) || s.waiting.any fun w => w.page == page && w.behind
  { s with waiting := s.waiting ++ [⟨page, port, exclusive, behind, now s⟩] }

/-- An outside agent asks for a grant of a local page.  The requests for one page are served one at a time, in order of arrival (R408).  A
software-coherent page is never granted: the agent is told so, and its accesses are served at the home slice (R404). -/
def askGrant (s : State) (port page : Nat) (exclusive : Bool) : State :=
  if !(getPort s port).opened || !Config.installed (page * pageSize) then s
  else if s.handOvers.any (·.page == page) || s.waiting.any (·.page == page) then waitGrant s port page exclusive
  else if pageSc s page then sendCoherence s port 5 page exclusive
  else
    match s.pages.find? (·.page == page) with
    | none => if s.pages.length < pageEntries then grantPage s port page exclusive else retryGrant s port page exclusive
    | some e =>
      let others := e.holders.any (·.1 != port)
      if others && (e.exclusive || exclusive) then revokePage s page (· == port) (some (port, exclusive)) false
      else grantPage s port page (exclusive || e.exclusive)

/-- `READ_GRANT_REQUEST` (R407). -/
def execReadGrantRequest (port page : Nat) (s : State) : Host.Outcome State Fault Refusal := .next (askGrant s port page false)

/-- `EXCLUSIVE_GRANT_REQUEST` (R407). -/
def execExclusiveGrantRequest (port page : Nat) (s : State) : Host.Outcome State Fault Refusal := .next (askGrant s port page true)

/-- A port no longer holds a page. -/
def dropHolder (s : State) (port page : Nat) : State :=
  { s with pages := s.pages.filterMap fun e =>
      if e.page == page then
        let hs := e.holders.filter (·.1 != port)
        if hs.isEmpty then none else some { e with holders := hs }
      else some e }

/-- A grant that waited for a hand-over is made, unless the port has closed or the page is software-coherent by now (R404). -/
def giveGrant (s : State) (page : Nat) (g : Nat × Bool) : State :=
  if !(getPort s g.1).opened then s else if pageSc s page then sendCoherence s g.1 5 page g.2 else grantPage s g.1 page g.2

/-- The Collie goes on with the first of the commands that wait (R421). -/
def nextCommand (s : State) : State := if s.aon.cmds.isEmpty then s else push s .collie

/-- A hand-over is over: the requests for the page that waited for nothing else have their turn, and a command of the Collie that waited goes
on (R408, R421). -/
def endHandOver (s : State) (page : Nat) : State := nextCommand (takeTurn s ((s.waiting.filter (·.page == page)).takeWhile (!·.behind)))

/-- An acknowledgment is counted; the last one ends the hand-over, and a grant that waits for it is made. -/
def endAwait (s : State) (port page : Nat) : State :=
  match s.handOvers.find? (·.page == page) with
  | none => s
  | some h =>
    let left := h.await.filter (· != port)
    if !left.isEmpty then { s with handOvers := updWhere (·.page == page) (fun h => { h with await := left }) s.handOvers }
    else
      let s := { s with handOvers := s.handOvers.filter (·.page != page) }
      endHandOver (match h.grant with
        | some g => giveGrant s page g
        | none => s) page

/-- Dirty bytes that a holder returns, by their offsets in the page, reach the home; a granule returned whole is clean.  A lane that reads them
may have synchronised with the holder, so none sees anything older. -/
def returnDirty (s : State) (page : Nat) (dirty : List (Nat × Byte)) : State :=
  let here := dirty.filter (·.1 < pageSize)
  let whole (g : Nat) : Bool := g / 8192 == page && (List.range 8).all fun k => here.any (·.1 == g % 8192 * 8 + k)
  here.foldl (fun s x => markBanks (cutHeads (putHome s false (page * pageSize + x.1) [x.2]) (page * pageSize + x.1) 1) false (page * pageSize + x.1) 1)
    { forgetAll s with poison := s.poison.filter fun g => !whole g }

/-- `REVOKE_ACKNOWLEDGMENT` (R407): a holder acknowledges; one that held the page exclusive-out returns its dirty lines with byte masks. -/
def execRevokeAcknowledgment (port page : Nat) (dirty : List (Nat × Byte)) (s : State) : Host.Outcome State Fault Refusal :=
  if !(getPort s port).opened || !s.handOvers.any (fun h => h.page == page && h.await.contains port) then .next s
  else
    let excl := s.pages.any fun e => e.page == page && e.exclusive
    .next (endAwait (dropHolder (if excl then returnDirty s page dirty else s) port page) port page)

/-! ### Accesses of outside agents to software-coherent pages (R404) -/

/-- An outside agent's own load or store of a range in one line of a software-coherent page, which it is never granted: the home slice serves
it, once the page is not held outside, and answers.  It sees the bytes that have been written back. -/
def agentAccess (s : State) (port pa len : Nat) (data : Option (List Byte)) : State :=
  let t : Tlb := { identityTlb 0 with sc := true }
  if s.power != .on || !(getPort s port).opened || len == 0 || pa / lineSize != (pa + len - 1) / lineSize || !Config.installed pa ||
      !pageSc s (pageNo pa) then s
  else if !pageReady s t pa data.isSome then requestPage s t pa data.isSome
  else
    let answer (s : State) (bs : List Byte) : State :=
      queueMessage s port ⟨1, 0, 0, 0, (Config.servedBody pa bs (poisoned s t pa bs.length)).take 192⟩
    match data with
    | none => answer s (homeBytes s t pa len)
    | some bs => answer (homeWrite s 0 0 8 t pa (bs.take len)) []

/-! ### Recovered agents (R408, R409) -/

/-- Every 8-byte granule of a page. -/
def pageGranules (page : Nat) : List Nat := (List.range 8192).map (page * 8192 + ·)

/-- A page exclusive-out to a lost incarnation: every line is poisoned at its home, and the page is logged. -/
def poisonPage (s : State) (agent : Word) (page : Nat) : State :=
  logEvent { s with poison := (s.poison.filter fun g => g / 8192 != page) ++ pageGranules page } 7 0 8 0 (BitVec.ofNat 64 (page * pageSize))
    (agent.zeroExtend 64)

/-- The home drops what it holds for the incarnation on a port: grants, exclusive pages, awaited acknowledgments and held messages (R409). -/
def dropAgent (s : State) (port : Nat) : State :=
  let agent := (getPort s port).agent
  let mine := s.pages.filter fun e => e.holders.any (·.1 == port)
  let s := (mine.filter (·.exclusive)).foldl (fun s e => poisonPage s agent e.page) s
  let s : State := mine.foldl (fun s e => dropHolder s port e.page) s
  let keep (h : HandOver) : HandOver := { h with grant := h.grant.filter fun g => g.1 != port }
  let s : State := { s with handOvers := s.handOvers.map keep, waiting := s.waiting.filter (·.port != port), parts := s.parts.map fun p => { p with held := p.held.filter (·.port != port) } }
  let waits := s.handOvers.filter fun h => h.await.contains port
  waits.foldl (fun s h => endAwait s port h.page) s

/-- The port carries nothing more until a hello is accepted: its streams end, and what was not wholly acknowledged is dropped (R409, R413). -/
def closePort (s : State) (port : Nat) : State :=
  makeRoom (modPort s port fun p => { p with opened := false, rx := [], tx := [], txq := [], inbox := [] }) port

/-- The agent on a port is declared failed, which is logged (R408, R409). -/
def failAgent (s : State) (port : Nat) : State :=
  closePort (dropAgent (logEvent s 10 0 8 port 0 ((getPort s port).agent.zeroExtend 64)) port) port

/-- `AGENT_FAILED` (R408): an agent has not acknowledged a revoke or recall within 2^24 cycles. -/
def execAgentFailed (port : Nat) (s : State) : Host.Outcome State Fault Refusal :=
  if s.handOvers.any fun h => h.await.contains port && h.since + 2 ^ 24 ≤ now s then .next (failAgent s port) else .next s

/-- `LINK_DOWN` (R409). -/
def execLinkDown (port : Nat) (s : State) : Host.Outcome State Fault Refusal :=
  if (getPort s port).up then .next (modPort (closePort (dropAgent s port) port) port fun p => { p with up := false }) else .next s

/-! ### Pages homed outside (R407, R408) -/

/-- Bytes of a remote page as granted; no lane sees anything older, and a granule given whole is clean.  The first grant gives the page's
contents; a later one gives the bytes that others have written meanwhile, which is noted at the constant banks (R112). -/
def takeRemote (s : State) (page : Nat) (bytes : List (Nat × Byte)) (exclusive : Bool) : State :=
  let here := bytes.filter (·.1 < pageSize)
  let known := s.remotePages.any fun r => r.page == page && r.known
  let base := placed (page * pageSize) true / 8
  let whole (g : Nat) : Bool := base ≤ g && g < base + 8192 && (List.range 8).all fun k => here.any (·.1 == (g - base) * 8 + k)
  (if known then here else []).foldl (fun s x => markBanks s true (page * pageSize + x.1) 1)
    { forgetAll s with
      remote := here.foldl (fun m x => memPut Config.blankByte m (page * pageSize + x.1) x.2) s.remote
      poison := s.poison.filter fun g => !whole g
      remotePages := updWhere (·.page == page) (fun r => { r with asked := none, shared := true, exclusive, known := true }) s.remotePages }

/-- The K9 has asked for a page, with the access that an answer gives. -/
def asked (s : State) (page : Nat) (exclusive : Bool) : Bool := s.remotePages.any fun r => r.page == page && r.asked == some exclusive

/-- `REMOTE_HOME_ANSWER` (R407, R408); nothing comes before a hello is accepted (R411). -/
def execRemoteHomeAnswer (page : Nat) (answer : RemoteAnswer) (s : State) : Host.Outcome State Fault Refusal :=
  if !(getPort s (Config.remotePort page)).opened then .next s
  else
  match answer with
  | .read bytes => .next (if asked s page false then takeRemote s page bytes false else s)
  | .exclusive bytes => .next (if asked s page true then takeRemote s page bytes true else s)
  | .retry => .next { s with remotePages := updWhere (·.page == page) (fun r => { r with asked := none }) s.remotePages }
  | .ack => .next { s with remotePages := updWhere (·.page == page) (fun r => { r with ackDue := r.ackDue - 1 }) s.remotePages }

/-- `REMOTE_HOME_REVOKE` (R407): the remote home takes a grant back; a read grant that is revoked, or a page that is recalled.  The route
die's home slice invalidates the near copies of the page's lines, dirty bytes of untracked copies are returned, and the K9 acknowledges. -/
def execRemoteHomeRevoke (page : Nat) (recalled : Bool) (s : State) : Host.Outcome State Fault Refusal :=
  let mine (r : RemotePage) : Bool := r.page == page && r.exclusive == recalled
  let drop (r : RemotePage) : RemotePage := { r with shared := false, exclusive := false }
  let port := Config.remotePort page
  let at_ := placed (page * pageSize) true / pageSize
  if !(getPort s port).opened || !s.remotePages.any mine then .next s
  else
    let s := (s.scCopies.filter fun c => c.line / 512 == at_).foldl (fun s c => scWriteBack s c.line c.die false) s
    .next (sendCoherence { forgetAll s with remotePages := updWhere mine drop s.remotePages, near := s.near.filter fun n => n.line / 512 != at_ } port 6
      page recalled)

end Sys2Proof.Machine
end

