-- ==== Sys2Proof/Machine/Crypto.lean ====
section
/-!
DEFINITION. SHA-256 and ECDSA on P-256, which the manual names and does not define (log 20): the published standards, FIPS 180-4 and
FIPS 186.
-/

namespace Sys2Proof.Machine

/-! ### SHA-256 -/

/-- A 32-bit word of the hash. -/
abbrev Sha := BitVec 32

/-- The big-endian number of bytes. -/
def numBE : List Byte → Nat := List.foldl (fun n b => n * 256 + b.toNat) 0

/-- `n` big-endian bytes of a number. -/
def bytesBE (n v : Nat) : List Byte := (bytesLE n v).reverse

/-- The integer part of the `n`-th root of `x`, found bit by bit from bit `k - 1` down, above `r`. -/
def rootFloor (n x : Nat) : Nat → Nat → Nat
  | 0, r => r
  | k + 1, r => rootFloor n x k (if (r + 2 ^ k) ^ n ≤ x then r + 2 ^ k else r)

/-- The primes below 312: there are 64 of them. -/
def hashPrimes : List Nat := (List.range 312).filter fun p => 2 ≤ p && (List.range p).all fun d => d < 2 || p % d != 0

/-- The first 32 bits of the fraction of the `n`-th root of `p` (a root below 32). -/
def rootFraction (n p : Nat) : Sha := BitVec.ofNat 32 (rootFloor n (p * 2 ^ (32 * n)) 37 0)

/-- The eight words the hash starts from (square roots of the first eight primes) and the constant of each round (cube roots of all 64). -/
def hashStart : List Sha := (hashPrimes.take 8).map (rootFraction 2)
def hashConstants : List Sha := hashPrimes.map (rootFraction 3)

/-- The exclusive or of `x` turned right by each amount. -/
def turns (x : Sha) (amounts : List Nat) : Sha := amounts.foldl (fun acc n => acc ^^^ x.rotateRight n) 0

/-- The schedule so far, newest word first, with `n` more words: each is the sum of the words 16 and 7 before it and of the words 15 and
2 before it, mixed. -/
def schedule : Nat → List Sha → List Sha
  | 0, ws => ws
  | n + 1, ws =>
    let back (k : Nat) : Sha := ws.getD (k - 1) 0
    let older := turns (back 15) [7, 18] ^^^ back 15 >>> 3
    let newer := turns (back 2) [17, 19] ^^^ back 2 >>> 10
    schedule n ((back 16 + older + back 7 + newer) :: ws)

/-- The working variables: a, b, c and d are the last four values of one sequence, e, f, g and h of another, newest first. -/
structure HashVars where
  lo : List Sha
  hi : List Sha
  deriving DecidableEq, Repr

/-- One round: what it adds is the round's constant plus its word of the schedule. -/
def HashVars.next (v : HashVars) (added : Sha) : HashVars :=
  match v.lo, v.hi with
  | [a, b, c, d], [e, f, g, h] =>
    let choice := g ^^^ (e &&& (f ^^^ g))
    let majority := (a &&& b) ||| (c &&& (a ||| b))
    let common := h + turns e [6, 11, 25] + choice + added
    ⟨[common + turns a [2, 13, 22] + majority, a, b, c], [d + common, e, f, g]⟩
  | _, _ => v

/-- The hash after one block of sixteen words. -/
def hashBlock (h block : List Sha) : List Sha :=
  let added := List.zipWith (· + ·) hashConstants (schedule 48 block.reverse).reverse
  let v := added.foldl HashVars.next ⟨h.take 4, h.drop 4⟩
  List.zipWith (· + ·) h (v.lo ++ v.hi)

/-- The words of a message: a one bit and zeros follow it, and its length in bits fills the last 64 bits of the last block. -/
def hashWords (m : List Byte) : List Sha :=
  let blocks := (m.length + 9 + 63) / 64
  let number := (numBE m * 256 + 128) * 256 ^ (64 * blocks - m.length - 1) + 8 * m.length
  (List.range (16 * blocks)).map fun i => BitVec.ofNat 32 (number >>> (32 * (16 * blocks - 1 - i)))

/-- SHA-256. -/
def sha256 (m : List Byte) : List Byte :=
  let ws := hashWords m
  let sum := (List.range (ws.length / 16)).foldl (fun h i => hashBlock h ((ws.drop (16 * i)).take 16)) hashStart
  sum.flatMap fun x => bytesBE 4 x.toNat

/-! ### ECDSA on P-256 -/

/-- The prime of the field, the order of the group, and the curve's b. -/
def p256P : Nat := 0xffffffff00000001000000000000000000000000ffffffffffffffffffffffff
def p256N : Nat := 0xffffffff00000000ffffffffffffffffbce6faada7179e84f3b9cac2fc632551
def p256B : Nat := 0x5ac635d8aa3a93e7b3ebbd55769886bc651d06b0cc53b0f63bce3c3e27d2604b
/-- The base point. -/
def p256G : Nat × Nat :=
  (0x6b17d1f2e12c4247f8bce6e563a440f277037d812deb33a0f4a13945d898c296, 0x4fe342e2fe1a7f9b8ee7eb4a7c0f9e162bce33576b315ececbb6406837bf51f5)

/-- `b ^ e mod m`, by the bits of `e` from bit `k - 1` down. -/
def powMod (b e m : Nat) : Nat → Nat → Nat
  | 0, acc => acc
  | k + 1, acc =>
    let sq := acc * acc % m
    powMod b e m k (if e / 2 ^ k % 2 == 1 then sq * b % m else sq)

/-- The inverse modulo a prime of 256 bits. -/
def invMod (a m : Nat) : Nat := powMod a (m - 2) m 256 1

/-- A point in Jacobian coordinates; z = 0 is the point at infinity. -/
structure JPoint where
  x : Nat
  y : Nat
  z : Nat
  deriving DecidableEq, Repr

/-- The difference modulo p. -/
def subP (a b : Nat) : Nat := (a + p256P - b % p256P) % p256P

/-- Doubling. -/
def JPoint.double (q : JPoint) : JPoint :=
  if q.z == 0 || q.y == 0 then ⟨1, 1, 0⟩
  else
    let z2 := q.z * q.z % p256P
    let m := 3 * (subP q.x z2 * ((q.x + z2) % p256P) % p256P) % p256P
    let y2 := q.y * q.y % p256P
    let s := 4 * q.x * y2 % p256P
    let x := subP (m * m % p256P) (2 * s % p256P)
    ⟨x, subP (m * subP s x % p256P) (8 * (y2 * y2 % p256P) % p256P), 2 * q.y * q.z % p256P⟩

/-- Addition. -/
def JPoint.add (q r : JPoint) : JPoint :=
  if q.z == 0 then r
  else if r.z == 0 then q
  else
    let qz2 := q.z * q.z % p256P
    let rz2 := r.z * r.z % p256P
    let u1 := q.x * rz2 % p256P
    let u2 := r.x * qz2 % p256P
    let s1 := q.y * rz2 * r.z % p256P
    let s2 := r.y * qz2 * q.z % p256P
    if u1 == u2 then (if s1 == s2 then q.double else ⟨1, 1, 0⟩)
    else
      let h := subP u2 u1
      let h2 := h * h % p256P
      let h3 := h2 * h % p256P
      let t := subP s2 s1
      let v := u1 * h2 % p256P
      let x := subP (subP (t * t % p256P) h3) (2 * v % p256P)
      ⟨x, subP (t * subP v x % p256P) (s1 * h3 % p256P), h * q.z % p256P * r.z % p256P⟩

/-- A multiple of a point, by the bits of the factor from bit `k - 1` down. -/
def JPoint.mul (q : JPoint) (e : Nat) : Nat → JPoint → JPoint
  | 0, acc => acc
  | k + 1, acc =>
    let d := acc.double
    q.mul e k (if e / 2 ^ k % 2 == 1 then d.add q else d)

/-- The affine x coordinate of a point that is not at infinity. -/
def JPoint.affineX (q : JPoint) : Nat := let i := invMod q.z p256P; q.x * (i * i % p256P) % p256P

/-- An affine point lies on the curve. -/
def onCurve (q : Nat × Nat) : Bool :=
  q.1 < p256P && q.2 < p256P && q.2 * q.2 % p256P == (subP (q.1 * q.1 % p256P * q.1 % p256P) (3 * q.1 % p256P) + p256B) % p256P

/-- ECDSA verification of `(r, s)` over a 256-bit digest with a public key. -/
def ecdsaVerify (key : Nat × Nat) (digest r s : Nat) : Bool :=
  if r == 0 || s == 0 || p256N ≤ r || p256N ≤ s || !onCurve key then false
  else
    let w := invMod s p256N
    let u1 := digest % p256N * w % p256N
    let u2 := r * w % p256N
    let inf : JPoint := ⟨1, 1, 0⟩
    let q := (JPoint.mul ⟨p256G.1, p256G.2, 1⟩ u1 256 inf).add (JPoint.mul ⟨key.1, key.2, 1⟩ u2 256 inf)
    q.z != 0 && q.affineX % p256N == r

end Sys2Proof.Machine
end

