-- ==== Sys2Proof/Machine/Special.lean ====
section
/-!
DEFINITION. The special functions (R215-R218): the exact value of each function to 2^-500, the results that the bound of R216 leaves,
and the free choice among them (log 8).  Values here are integers scaled by 2^512.
-/

namespace Sys2Proof.Machine

/-- The scale of the fixed-point values: 2^512. -/
def fxOne : Nat := 2 ^ 512
/-- π to 2^-512. -/
def fxPi : Nat := 42121870893450636219446821484559388105255997313489254605594685088103805782276098919793885372247726346443771296916333485327292916625599161542353774203832599
/-- ln 2 to 2^-512. -/
def fxLn2 : Nat := 9293584264128987901384440660653081117630633404975079641076009770578364573633075645167623918067512986930843040596952636663673675798576024949780480621393957

/-- A fraction as a fixed-point value, rounded down. -/
def fxOf (n : Int) (d : Nat) : Int := n * fxOne / (d : Nat)
/-- The product of fixed-point values. -/
def fxMul (a b : Int) : Int := a * b / (fxOne : Nat)

/-- `terms` of the series of e^r, from the term `t` that is number `k` (Taylor). -/
def expSeries (r : Int) : Nat → Nat → Int → Int
  | 0, _, _ => 0
  | fuel + 1, k, t => t + expSeries r fuel (k + 1) (fxMul t r / ((k + 1 : Nat) : Int))

/-- e^x for a fixed-point x; 0 far below, and a large value far above. -/
def fxExp (x : Int) : Int :=
  let k := x / (fxLn2 : Nat)
  let r := x - k * fxLn2
  let e := expSeries r 110 0 fxOne
  if k < -700 then 0 else if 0 ≤ k then e * (2 ^ (min k 900).toNat : Nat) else e / (2 ^ (-k).toNat : Nat)

/-- The series of sin or cos of r from term `t` number `k`: x^k/k! with alternating signs, in steps of two. -/
def trigSeries (r2 : Int) : Nat → Nat → Int → Int
  | 0, _, _ => 0
  | fuel + 1, k, t => t + trigSeries r2 fuel (k + 2) (-(fxMul t r2) / (((k + 1) * (k + 2) : Nat) : Int))

/-- sin and cos of a fraction, by an exact reduction to [-π/4, π/4] (R216). -/
def fxSinCos (n : Int) (d : Nat) : Int × Int :=
  let x := fxOf n d
  let half : Int := (fxPi / 2 : Nat)
  let k := (2 * x + half) / (2 * half)
  let r := x - k * half
  let r2 := fxMul r r
  let sn := trigSeries r2 60 1 r
  let cs := trigSeries r2 60 0 fxOne
  match (k % 4).toNat with
  | 0 => (sn, cs)
  | 1 => (cs, -sn)
  | 2 => (-sn, -cs)
  | _ => (-cs, sn)

/-- Bits of log2 of m in [1, 2), by squaring: `fuel` bits below the point. -/
def log2Bits : Nat → Nat → Nat → Nat
  | 0, _, acc => acc
  | fuel + 1, m, acc =>
    let q := m * m / fxOne
    if 2 * fxOne ≤ q then log2Bits fuel (q / 2) (2 * acc + 1) else log2Bits fuel q (2 * acc)

/-- log2 of a positive fraction, to 2^-200. -/
def fxLog2 (n d : Nat) : Int :=
  let e := log2Frac n d
  let m : Nat := if 0 ≤ e then n * fxOne / (d * 2 ^ e.toNat) else n * 2 ^ (-e).toNat * fxOne / d
  e * fxOne + (log2Bits 200 m 0 * 2 ^ 312 : Nat)

/-- The series of erf without its factor: x^(2k+1)/(k!(2k+1)) with alternating signs; `t` is ±x^(2k+1)/k!. -/
def erfSeries (x2 : Int) : Nat → Nat → Int → Int
  | 0, _, _ => 0
  | fuel + 1, k, t => t / ((2 * k + 1 : Nat) : Int) + erfSeries x2 fuel (k + 1) (-(fxMul t x2) / ((k + 1 : Nat) : Int))

/-- 2/√π. -/
def fxTwoOverRootPi : Int := ((2 * fxOne * fxOne / isqrt (fxPi * fxOne) : Nat) : Int)

/-- The fixed-point values nearest to 1 and -1 bound a function that never reaches them: just below 1 the ulp is half of that at 1. -/
def fxBelowOne (y : Int) : Int := max (1 - (fxOne : Int)) (min y ((fxOne : Int) - 1))

/-- erf of a fixed-point x. -/
def fxErf (x : Int) : Int :=
  fxBelowOne (if 24 * fxOne < x then fxOne else if x < -(24 * fxOne : Nat) then -(fxOne : Nat)
    else fxMul fxTwoOverRootPi (erfSeries (fxMul x x) 2400 0 x))

/-- tanh of a fixed-point x. -/
def fxTanh (x : Int) : Int :=
  fxBelowOne (if 180 * fxOne < x then fxOne else if x < -(180 * fxOne : Nat) then -(fxOne : Nat)
    else
      let e := fxExp (2 * x)
      (e - fxOne) * fxOne / (e + fxOne))

/-- 1/(1 + e^-x) of a fixed-point x. -/
def fxSig (x : Int) : Int :=
  max 1 (fxBelowOne (if x < -(400 * fxOne : Nat) then 0 else if 400 * fxOne < x then fxOne else ((fxOne : Nat) : Int) * fxOne / (fxOne + fxExp (-x))))

/-- The exact value of a function at a finite non-zero operand `n / d`, as a fraction (R215). -/
def specialExact (fn : SpecialFn) (n : Int) (d : Nat) : Int × Nat :=
  let x := fxOf n d
  let half (y : Int) : Int × Nat := (n * (fxOne + y), 2 * d * fxOne)
  match fn with
  | .rcp  => (if n < 0 then -(d : Int) else d, n.natAbs)
  | .rsq  => match sqrtVal d n.natAbs 64 with
             | .num a b => (a, b)
             | .zero _ | .inf _ | .nan => (0, 1)
  | .exp2 =>
    let k := n / (d : Int)
    let f := fxExp (fxMul (fxOf (n - k * d) d) fxLn2)
    let k := max (-1000) (min k 1000)
    if 0 ≤ k then (f * (2 ^ k.toNat : Nat), fxOne) else (f, fxOne * 2 ^ (-k).toNat)
  | .log2 => (fxLog2 n.natAbs d, fxOne)
  | .sin  => ((fxSinCos n d).1, fxOne)
  | .cos  => ((fxSinCos n d).2, fxOne)
  | .tanh => (fxTanh x, fxOne)
  | .sig  => (fxSig x, fxOne)
  | .erf  => (fxErf x, fxOne)
  | .geluErf => half (fxErf (x * (fxOne : Nat) / isqrt (2 * fxOne * fxOne)))
  | .geluTanh =>
    let c := x + fxMul (fxMul x (fxMul x x)) (fxOf 44715 1000000)
    let y : Int := if 20 * fxOne < x then ((200 * fxOne : Nat) : Int) else if x < -(20 * fxOne : Nat) then -((200 * fxOne : Nat) : Int)
      else fxMul ((isqrt (2 * fxOne * fxOne * fxOne / fxPi) : Nat) : Int) c
    half (fxTanh y)
  | .geluSig => (n * fxSig (fxMul x (fxOf 1702 1000)), d * fxOne)

/-- The accuracy of R216 in ulp of f; 0 stands for "cr". -/
def specialUlps (fn : SpecialFn) (isF32 : Bool) : Nat :=
  match fn with
  | .rcp | .rsq => if isF32 then 1 else 0
  | .exp2 | .log2 | .sin | .cos | .tanh | .sig | .erf => if isF32 then 2 else 1
  | .geluErf | .geluTanh | .geluSig => if isF32 then 4 else 2

/-- The operand is an exact point of R216 whose value is the fraction that `specialExact` gives exactly. -/
def isPow2 (n d : Nat) : Bool := 2 ^ n.log2 == n && 2 ^ d.log2 == d

/-- The exact value at an exact point (R216), if the operand is one; 2 to an integer that lies below every subnormal is none, for it is not
representable. -/
def exactPoint (f : Fmt) (fn : SpecialFn) (n : Int) (d : Nat) : Option Val :=
  match fn with
  | .rcp => if isPow2 n.natAbs d then some (.num (if n < 0 then -(d : Int) else d) n.natAbs) else none
  | .rsq =>
    let e := log2Frac n.natAbs d
    if isPow2 n.natAbs d && e % 2 == 0 then some (.scale (.num 1 1) (-(e / 2))) else none
  | .exp2 => if n % (d : Int) == 0 && 1 - (f.bias : Int) - f.fbits ≤ n / (d : Int) then some (.scale (.num 1 1) (max (-1000) (min (n / (d : Int)) 1000))) else none
  | .log2 => if isPow2 n.natAbs d then some (Val.ofInt (log2Frac n.natAbs d)) else none
  | .sin | .cos | .tanh | .sig | .erf | .geluErf | .geluTanh | .geluSig => none

/-- The codes without sign that the bound of R216 leaves for an exact magnitude `n / d`. -/
def withinBound (f : Fmt) (ulps n d : Nat) : List Nat :=
  let b := f.below n d
  let c := b.1
  -- below a power of two the codes are twice as close
  let lo := c - (2 * ulps + 2)
  -- the ulp of the exact value is the step below it, b.2.2 / ... ; compare |y - f| with ulps steps
  let e : Int := max (log2Frac n d) (1 - (f.bias : Int)) - f.fbits
  let u := scaled ulps e
  ((List.range (4 * ulps + 5)).map (· + lo)).filter fun y =>
    let m := f.mag y
    let v := scaled m.1 m.2
    -- | v.1/v.2 - n/d | ≤ u.1/u.2
    y ≤ f.maxCode && ((v.1 * d : Int) - n * v.2).natAbs * u.2 ≤ u.1 * (v.2 * d)

/-- The device's result at a finite non-zero operand (R215, R216, R218): fixed where the manual fixes it, else the free choice of
`Config.special` among the codes within the bound. -/
def specialFinite (fn : SpecialFn) (t code : Nat) (n : Int) (d : Nat) : Nat :=
  let f := fmtOf t
  match exactPoint f fn n d with
  | some v => roundTo f .rne false v
  | none =>
    let x := specialExact fn n d
    -- a value too small to tell from 0 has the sign the function has there
    let neg := if x.1 == 0 then (n < 0 && fn != .sig && fn != .exp2) else x.1 < 0
    let mag := if x.1 == 0 then 1 else x.1.natAbs
    let den := if x.1 == 0 then fxOne else x.2
    let r := roundTo f .rne false (.num (mag : Int) den)
    if r == f.inf then f.signed neg f.inf
    else if specialUlps fn (t == 8) == 0 then f.signed neg r
    else
      let cs := withinBound f (specialUlps fn (t == 8)) mag den
      let k := Config.special fn t code
      let y := cs.getD (k % cs.length) r
      -- a zero may have either sign
      f.signed (if y == 0 then k / cs.length % 2 == 1 else neg) y

/-- A special function of a bit pattern (R215-R218), the special operands of R217 included. -/
def specialFn (fn : SpecialFn) (t code : Nat) : Nat :=
  let f := fmtOf t
  let inf (neg : Bool) : Nat := f.signed neg f.inf
  let zero (neg : Bool) : Nat := f.signed neg 0
  let one (neg : Bool) : Nat := roundTo f .rne false (.num (if neg then -1 else 1) 1)
  let half : Nat := roundTo f .rne false (.num 1 2)
  match fv f code with
  | .nan => f.nan
  | .inf neg =>
    match fn with
    | .rcp => zero neg
    | .rsq => if neg then f.nan else zero false
    | .exp2 => if neg then zero false else inf false
    | .log2 => if neg then f.nan else inf false
    | .sin | .cos => f.nan
    | .tanh | .erf => one neg
    | .sig => if neg then zero false else one false
    | .geluErf | .geluTanh | .geluSig => if neg then zero true else inf false
  | .zero neg =>
    match fn with
    | .rcp | .rsq => inf neg
    | .exp2 | .cos => one false
    | .log2 => inf true
    | .sin | .tanh | .erf | .geluErf | .geluTanh | .geluSig => zero neg
    | .sig => half
  | .num n d =>
    match fn with
    | .rsq | .log2 => if n < 0 then f.nan else specialFinite fn t code n d
    | .rcp | .exp2 | .sin | .cos | .tanh | .sig | .erf | .geluErf | .geluTanh | .geluSig => specialFinite fn t code n d

end Sys2Proof.Machine
end

