-- ==== Sys2Proof/Machine/Float.lean ====
section
/-!
DEFINITION. The floating-point, conversion, special-function and microscaling instructions, opcodes 0x20-0x3A, 0x3D and 0x3E
(R205-R221, R226, R227).  Every operation delivers its default result; none faults (R76, R206).
-/

namespace Sys2Proof.Machine

/-- `.x2` in fn[0] (R205). -/
def V.x2 (o : V) : Bool := o.fn.toNat % 2 == 1

/-- An instruction that writes elements of d: `f` gives element `e` of lane `l` as bits (R205). -/
def elemsOp (i : Instr) (h : Head) (o : V) (s : State) (f : Ctx → Nat → Nat → Nat) : Host.Outcome State Fault Refusal :=
  runPack i h s fun c => c.pack.writeReg o.d.toNat c.exec fun l => packEls (V.ty o) (V.x2 o) fun e => f c e l

/-- An instruction that rounds its exact result once (R80, R207). -/
def roundOp (i : Instr) (h : Head) (o : V) (s : State) (f : Val → Val → Val → Val) : Host.Outcome State Fault Refusal :=
  elemsOp i h o s fun c e l =>
    V.round o (f (c.fval (V.ty o) o.a e l) (c.fval (V.ty o) o.b e l) (c.fval (V.ty o) o.c e l))

/-- `fadd` (R207). -/
def execFadd (h : Head) (o : V) (s : State) := roundOp (.fadd h o) h o s fun a b _ => a.add (V.dn o) b
/-- `fsub` (R207). -/
def execFsub (h : Head) (o : V) (s : State) := roundOp (.fsub h o) h o s fun a b _ => a.add (V.dn o) b.negate
/-- `fmul` (R207). -/
def execFmul (h : Head) (o : V) (s : State) := roundOp (.fmul h o) h o s fun a b _ => a.mul b
/-- `ffma` (R207). -/
def execFfma (h : Head) (o : V) (s : State) := roundOp (.ffma h o) h o s fun a b c => (a.mul b).add (V.dn o) c
/-- `fdiv` (R207). -/
def execFdiv (h : Head) (o : V) (s : State) := roundOp (.fdiv h o) h o s fun a b _ => a.div b
/-- `fsqrt` (R207). -/
def execFsqrt (h : Head) (o : V) (s : State) := roundOp (.fsqrt h o) h o s fun a _ _ => a.sqrt

/-- `frnd` (R207): the integer the mode picks; a zero keeps the sign of A, and an infinity passes unchanged. -/
def execFrnd (h : Head) (o : V) (s : State) : Host.Outcome State Fault Refusal :=
  elemsOp (.frnd h o) h o s fun c e l =>
    let f := fmtOf (V.ty o)
    match c.fval (V.ty o) o.a e l with
    | .num n d => roundTo f .rne false (Val.ofRat (roundInt (modeOf (V.rnd o)) n d) 1 (n < 0))
    | .inf neg => f.signed neg f.inf
    | .zero neg => f.signed neg 0
    | .nan => f.nan

/-- `fscale` (R207): an infinity is unchanged without `.sat`. -/
def execFscale (h : Head) (o : V) (s : State) : Host.Outcome State Fault Refusal :=
  elemsOp (.fscale h o) h o s fun c e l =>
    let f := fmtOf (V.ty o)
    match c.fval (V.ty o) o.a e l with
    | .inf neg => f.signed neg (if V.sat o then f.maxCode else f.inf)
    | x => V.round o (x.scaleWide (sextN (c.v o.b l).toNat 32))

/-- `fmin` and `fmax` (R208): fn[1] is `.nan`. -/
def minmaxOp (i : Instr) (h : Head) (o : V) (s : State) (isMax : Bool) : Host.Outcome State Fault Refusal :=
  elemsOp i h o s fun c e l =>
    fminmax (fmtOf (V.ty o)) isMax (o.fn.toNat / 2 % 2 == 1) (elOf (V.ty o) e (c.v o.a l)) (elOf (V.ty o) e (c.v o.b l))

/-- `fmin` (R208). -/
def execFmin (h : Head) (o : V) (s : State) := minmaxOp (.fmin h o) h o s false
/-- `fmax` (R208). -/
def execFmax (h : Head) (o : V) (s : State) := minmaxOp (.fmax h o) h o s true

/-- `fcmp` (R209): fn[5] compares element 1. -/
def execFcmp (h : Head) (o : V) (s : State) : Host.Outcome State Fault Refusal :=
  runPack (.fcmp h o) h s fun c =>
    let fn := o.fn.toNat
    c.pack.writePred o.d.toNat c.exec fun l =>
      combine (fn / 8 % 4) (fcond (fn % 8) (c.fval (V.ty o) o.a (fn / 32 % 2) l) (c.fval (V.ty o) o.b (fn / 32 % 2) l))
        (c.pack.pred o.c.toNat l)

/-- `fclass` (R210). -/
def execFclass (h : Head) (o : V) (s : State) : Host.Outcome State Fault Refusal :=
  runPack (.fclass h o) h s fun c =>
    c.pack.writeReg o.d.toNat c.exec fun l =>
      BitVec.ofNat 32 (fclassBits (fmtOf (V.ty o)) (field (c.v o.a l).toNat (tyBits (V.ty o)) (o.fn.toNat % 4)))

/-! ### Conversions -/

/-- The bits of a conversion's source or destination register in lane `l`, by type. -/
def Ctx.cvtBits (c : Ctx) (t : Nat) (r : Reg) (l : Nat) : Nat := if wide t then (c.q r l).toNat else (c.v r l).toNat

/-- A conversion's destination written, by type. -/
def writeCvt (p : Pack) (t : Nat) (r : Reg) (m : Mask) (f : Nat → Nat) : Pack :=
  if wide t then p.writePair r.toNat m fun l => BitVec.ofNat 64 (f l) else p.writeReg r.toNat m fun l => BitVec.ofNat 32 (f l)

/-- How many elements a conversion moves: n of R211. -/
def cvtCount (st dt : Nat) : Nat := min (elemsOf st) (elemsOf dt)

/-- `cvt` (R211). -/
def execCvt (h : Head) (o : V) (s : State) : Host.Outcome State Fault Refusal :=
  runPack (.cvt h o) h s fun c =>
    let st := o.fn.toNat % 16
    let dt := V.ty o
    writeCvt c.pack dt o.d c.exec fun l =>
      (List.range (cvtCount st dt)).foldl (fun d i =>
        setField d (tyBits dt) (o.fn.toNat / 64 + i)
          (convert o st dt (field (c.cvtBits st o.a l) (tyBits st) (o.fn.toNat / 16 % 4 + i)))) (c.cvtBits dt o.d l)

/-- The elements of `cvts` in one lane, from element 0 upward: d and the stochastic state after them (R83, R212). -/
def cvtsLane (o : V) (src d : Nat) (st0 : Word) : Nat × Word :=
  let st := o.fn.toNat % 16
  let dt := V.ty o
  (List.range (cvtCount st dt)).foldl (fun acc i =>
    let r := roundSto (fmtOf dt) (V.sat o) (fv (fmtOf st) (field src (tyBits st) (o.fn.toNat / 16 % 4 + i))) acc.2
    (setField acc.1 (tyBits dt) (o.fn.toNat / 64 + i) r.1, r.2)) (d, st0)

/-- `cvts` (R212): a lane outside E leaves its state. -/
def execCvts (h : Head) (o : V) (s : State) : Host.Outcome State Fault Refusal :=
  runPack (.cvts h o) h s fun c =>
    let one (l : Nat) := cvtsLane o (c.v o.a l).toNat (c.v o.d l).toNat (Lanes.get 0#32 c.pack.sto l)
    let p := c.pack.writeReg o.d.toNat c.exec fun l => BitVec.ofNat 32 (one l).1
    { p with sto := Lanes.tab fun l => if c.exec.has l then (one l).2 else Lanes.get 0#32 c.pack.sto l }

/-- `pack` (R213). -/
def execPack (h : Head) (o : V) (s : State) : Host.Outcome State Fault Refusal :=
  runPack (.pack h o) h s fun c =>
    let fn := o.fn.toNat
    let st := fn % 16
    let dt := V.ty o
    c.pack.writeReg o.d.toNat c.exec fun l =>
      let u0 := convert o st dt (field (c.v o.a l).toNat (tyBits st) (fn / 32 % 2))
      let u1 := convert o st dt (field (c.v o.b l).toNat (tyBits st) (fn / 64 % 2))
      BitVec.ofNat 32 (if tyBits dt == 16 then u1 * 2 ^ 16 + u0
        else setField (c.v o.c l).toNat 16 (fn / 16 % 2) (u1 * 2 ^ 8 + u0))

/-- `hdp2` (R214): the result is FP32, rounded once. -/
def execHdp2 (h : Head) (o : V) (s : State) : Host.Outcome State Fault Refusal :=
  runPack (.hdp2 h o) h s fun c =>
    let t := V.ty o
    c.pack.writeReg o.d.toNat c.exec fun l =>
      let prod (e : Nat) := (c.fval t o.a e l).mul (c.fval t o.b e l)
      let sum := ((c.fval 8 o.c 0 l).add (V.dn o) (prod 0)).add (V.dn o) (prod 1)
      BitVec.ofNat 32 (roundTo f32 (modeOf (V.rnd o)) (V.sat o) sum)

/-! ### Special functions -/

/-- A built-in special function (R215-R218). -/
def specialOp (i : Instr) (h : Head) (o : V) (s : State) (fn : SpecialFn) : Host.Outcome State Fault Refusal :=
  elemsOp i h o s fun c e l => specialFn fn (V.ty o) (elOf (V.ty o) e (c.v o.a l))

/-- `frcp` (R215). -/
def execFrcp (h : Head) (o : V) (s : State) := specialOp (.frcp h o) h o s .rcp
/-- `frsq` (R215). -/
def execFrsq (h : Head) (o : V) (s : State) := specialOp (.frsq h o) h o s .rsq
/-- `fexp2` (R215). -/
def execFexp2 (h : Head) (o : V) (s : State) := specialOp (.fexp2 h o) h o s .exp2
/-- `flog2` (R215). -/
def execFlog2 (h : Head) (o : V) (s : State) := specialOp (.flog2 h o) h o s .log2
/-- `fsin` (R215). -/
def execFsin (h : Head) (o : V) (s : State) := specialOp (.fsin h o) h o s .sin
/-- `fcos` (R215). -/
def execFcos (h : Head) (o : V) (s : State) := specialOp (.fcos h o) h o s .cos
/-- `ftanh` (R215). -/
def execFtanh (h : Head) (o : V) (s : State) := specialOp (.ftanh h o) h o s .tanh
/-- `fsig` (R215). -/
def execFsig (h : Head) (o : V) (s : State) := specialOp (.fsig h o) h o s .sig
/-- `ferf` (R215). -/
def execFerf (h : Head) (o : V) (s : State) := specialOp (.ferf h o) h o s .erf
/-- `gelu` (R215): fn[2:1] selects the form. -/
def execGelu (h : Head) (o : V) (s : State) :=
  specialOp (.gelu h o) h o s (match o.fn.toNat / 2 with | 0 => .geluErf | 1 => .geluTanh | _ => .geluSig)

/-! ### Loaded functions (R219-R221) -/

/-- The working values of a record (R220). -/
structure FnRun where
  r   : Nat
  k   : Int
  acc : Nat
  stopped : Bool
  deriving DecidableEq, Repr

/-- Step word `q` of a record. -/
def recStep (rec_ : List Byte) (q : Nat) : Nat := numLE ((rec_.drop (4 * q)).take 4)
/-- Constant `i` of a record. -/
def recConst (rec_ : List Byte) (i : Nat) : Nat := numLE ((rec_.drop (32 + 4 * i)).take 4)

/-- The fields of a step word that its kind leaves unused are zero, and the others are within their limits (R220). -/
def stepValid (w : Nat) : Bool :=
  let i := bitsOf w 27 23
  let j := bitsOf w 22 18
  let cond := bitsOf w 17 16
  bitsOf w 15 0 == 0 &&
  match bitsOf w 31 28 with
  | 0 => i == 0 && j == 0 && cond == 0
  | 1 => i ≤ 23 && j ≤ 23 && cond == 0
  | 2 => i ≤ 23 && j == 0 && cond == 0
  | 3 => j ≤ 3 && i + 2 ^ j ≤ 24 && cond == 0
  | 4 => i ≤ 23 && j == 0 && cond == 0
  | 5 => i == 0 && j ≤ 1 && cond == 0
  | 6 => i == 0 && j ≤ 3 && cond == 0
  | 7 => i ≤ 23 && (j ≤ 23 || j == 31)
  | 8 => i ≤ 23 && j == 0 && cond == 0
  | 9 => i ≤ 23 && j == 0 && cond == 0
  | _ => false

/-- The byte offset of the first step word that is not valid, or `none` for a valid record (R220, R222). -/
def firstBadStep (rec_ : List Byte) : Option Nat :=
  ((List.range 8).find? fun q => !stepValid (recStep rec_ q)).map (4 * ·)

/-- One step of a record on the argument `x`, an FP32 pattern (R220). -/
def runStep (rec_ : List Byte) (x : Nat) (f : FnRun) (w : Nat) : FnRun :=
  if f.stopped then f
  else
    let i := bitsOf w 27 23
    let j := bitsOf w 22 18
    let c (n : Nat) := recConst rec_ n
    match bitsOf w 31 28 with
    | 0 => { f with stopped := true }
    | 1 =>
      let y := (v32 x).mul (v32 (c i))
      if y.isFinite then
        let k : Int := match y with
          | .num n d => max (-(2 ^ 30)) (min (roundInt .rne n d) (2 ^ 30))
          | .zero _ | .inf _ | .nan => 0
        { f with k, r := rne32 ((v32 x).add false ((Val.ofInt k).mul (v32 (c j))).negate) }
      else { f with k := 0, r := x }
    | 2 => { f with acc := c i }
    | 3 => { f with acc := c (i + (f.k % (2 ^ j : Nat)).toNat) }
    | 4 => { f with acc := rne32 (((v32 f.acc).mul (v32 f.r)).add false (v32 (c i))) }
    | 5 => { f with acc := rne32 ((v32 f.acc).mul (v32 (if j == 0 then f.r else x))) }
    | 6 => { f with acc := rne32 ((v32 f.acc).scaleWide (f.k / (2 ^ j : Nat))) }
    | 7 =>
      let holds := match bitsOf w 17 16 with
        | 0 => (v32 x).lt (v32 (c i))
        | 1 => (v32 x).abs.lt (v32 (c i))
        | 2 => (v32 (c i)).lt (v32 x)
        | _ => (v32 x).isNan
      if holds then { f with acc := if j == 31 then x else c j } else f
    | 8 => { f with acc := rne32 ((v32 f.acc).add false (v32 (c i))) }
    | _ => { f with acc := rne32 ((v32 f.acc).mul (v32 (c i))) }

/-- `run_record` (R220), from an FP32 pattern to one. -/
def runRecord (rec_ : List Byte) (x : Nat) : Nat :=
  ((List.range 8).foldl (fun f q => runStep rec_ x f (recStep rec_ q)) (⟨x, 0, 0, false⟩ : FnRun)).acc

/-- The record in a slot of a bank; `none` for an empty slot (R219). -/
def slotRecord (p : Partition) (bank slot : Nat) : Option (List Byte) :=
  (p.slots.find? fun e => e.1 == bank && e.2.1 == slot).map (·.2.2)

/-- `sfn` of one element: an element widened exactly to FP32, the record run, and the result rounded (R221). -/
def loadedFn (rec_ : Option (List Byte)) (t code : Nat) : Nat :=
  match rec_ with
  | none => (fmtOf t).nan
  | some r => roundTo (fmtOf t) .rne false (v32 (runRecord r (if t == 8 then code else rne32 (fv (fmtOf t) code))))

/-- `sfn` (R221): fn[4] is `.x2`; the lookup takes the bank that is active as the instruction retires (R224). -/
def execSfn (h : Head) (o : V) (s : State) : Host.Outcome State Fault Refusal :=
  runPack (.sfn h o) h s fun c =>
    let rec_ := (findPart s c.pack.part).bind fun p => slotRecord p p.bank (o.fn.toNat % 16)
    c.pack.writeReg o.d.toNat c.exec fun l =>
      packEls (V.ty o) (o.fn.toNat / 16 % 2 == 1) fun e => loadedFn rec_ (V.ty o) (elOf (V.ty o) e (c.v o.a l))

/-! ### Microscaling (R226, R227) -/

/-- The element format of an MX type and its exponent of the largest power of two (R86, R87). -/
def mxFmt (t : Nat) : Fmt := if t == 13 then e2m1 else if t == 14 then e4m3 else e5m2
def mxEmax (t : Nat) : Int := if t == 13 then 2 else if t == 14 then 8 else 15

/-- `mxq` (R226). -/
def execMxq (h : Head) (o : V) (s : State) : Host.Outcome State Fault Refusal :=
  runPack (.mxq h o) h s fun c =>
    let block (b : Nat) : Nat × List Nat :=
      mxQuantise (mxFmt (V.ty o)) (mxEmax (V.ty o)) ((List.range 32).map fun i =>
        if c.exec.has (32 * b + i) then v32 (c.v o.a (32 * b + i)).toNat else .zero false)
    let b0 := block 0
    let b1 := block 1
    c.pack.writeReg o.d.toNat c.exec fun l =>
      let q := if l < 32 then b0 else b1
      BitVec.ofNat 32 (q.1 * 256 + q.2.getD (l % 32) 0)

/-- `mxdq` (R227). -/
def execMxdq (h : Head) (o : V) (s : State) : Host.Outcome State Fault Refusal :=
  runPack (.mxdq h o) h s fun c =>
    c.pack.writeReg o.d.toNat c.exec fun l =>
      let w := (c.v o.a l).toNat
      BitVec.ofNat 32 (rne32 (mxValue (mxFmt (V.ty o)) (w / 256 % 256) (if V.ty o == 13 then w % 16 else w % 256)))

end Sys2Proof.Machine
end

