-- ==== Sys2Proof/Machine/Memory.lean ====
section
/-!
DEFINITION. Loads, stores, cache operations, atomics, fences and the function store's instructions: opcodes 0x60-0x68, 0x80-0x85, 0x3B
and 0x3C (R222-R225, R235-R247).
-/

namespace Sys2Proof.Machine

/-! ### Loads (R239) -/

/-- The words a load of an access size delivers (R239). -/
def loadWords (sz : Nat) (bs : List Byte) : List Word :=
  let v := numLE bs
  match sz with
  | 5 => [BitVec.ofInt 32 (sextN v 8)]
  | 6 => [BitVec.ofInt 32 (sextN v 16)]
  | 3 => natWords 2 v
  | 4 => natWords 4 v
  | _ => [BitVec.ofNat 32 v]

/-- A destination of an access size written from per-lane words (R149). -/
def Pack.writeSized (p : Pack) (sz : Nat) (d : Reg) (m : Mask) (f : Nat → List Word) : Pack :=
  match szCls sz with
  | .quad => p.writeQuad d.toNat m f
  | .pair => (p.writeReg d.toNat m fun l => (f l).getD 0 0).writeReg (d.toNat + 1) m fun l => (f l).getD 1 0
  | .vec | .psrc | .pdst | .zero => p.writeReg d.toNat m fun l => (f l).getD 0 0

/-- An access acquires (R117): ord 2 or 4. -/
def acqOrd (ord : Nat) : Bool := ord == 2 || ord == 4

/-- The access carries an acquire at herd scope or wider (R128). -/
def acquires (ord sc : Nat) : Bool := acqOrd ord && 1 ≤ sc

/-- One lane's global load of up to 8 bytes at the point of R63-R66.  A plain load reads the L1 unless its cop is `.cg`; a strong one the L2,
where it reads writes of release sequences (R117, R120).  Either may see its line as the lane still may (`EarlyLine`), and over all lies what
the lane's own queued stores hold.  After a load that sees the line as it is, the lane sees it no older (R64). -/
def loadPart (s : State) (p : Pack) (ord sc cop : Nat) (a : LaneAcc) (n : Nat) : List Byte × State :=
  let core := p.loc.core
  let line := a.t.line a.pa
  let at_ := placed a.pa (a.t.kind == 1)
  let own (e : EarlyLine) : Bool := e.isAt p.loc none line && e.lane == a.lane
  let hears (s : State) (hs : List ReleaseHead) : State :=
    if ord == 0 then s else hear s p a.lane sc (acqOrd ord) (hs.filter (·.meets at_ n))
  let fresh (s : State) : List Byte × State :=
    let s := hears s s.heads
    if ord == 0 && cop != 1 then l1Read s core a.t a.pa n false (cop == 2)
    else
      let bs := l2Bytes s (dieOf core) a.t a.pa n
      let s := l2Touch s (dieOf core) a.t a.pa (cop == 2)
      -- a line left in the L1 would let a younger plain load of the lane return an older value (R64)
      (bs, if cop == 1 then l1Drop s core line false else l1Fill s core a.t a.pa false (cop == 2))
  let r : List Byte × State :=
    match (getCore s core).early.find? own with
    | none => fresh s
    | some e =>
      if Config.seesEarly s.fresh then
        ((List.range n).map fun k => e.bytes.getD (a.pa % lineSize + k) 0, l1Drop (hears (draw s) e.heads) core line false)
      else fresh (dropEarly (draw s) core own)
  (forward s p.loc a.lane false at_ r.1, r.2)

/-- One lane's global load: 16 bytes are read as two halves (R118). -/
def loadLane (s : State) (p : Pack) (ord sc cop : Nat) (a : LaneAcc) (n : Nat) : List Byte × State :=
  if n ≤ 8 then loadPart s p ord sc cop a n
  else
    let lo := loadPart s p ord sc cop a 8
    let hi := loadPart lo.2 p ord sc cop { a with pa := a.pa + 8 } (n - 8)
    (lo.1 ++ hi.1, hi.2)

/-- The loads of the executing lanes, in ascending order. -/
def loadLanes (s : State) (p : Pack) (ord sc cop n : Nat) : List LaneAcc → List (Nat × List Byte) × State
  | [] => ([], s)
  | a :: as =>
    let r := loadLane s p ord sc cop a n
    let rest := loadLanes r.2 p ord sc cop n as
    ((a.lane, r.1) :: rest.1, rest.2)

/-- What a lane loaded. -/
def lookBytes (l : List (Nat × List Byte)) (lane : Nat) : List Byte := ((l.find? (·.1 == lane)).map (·.2)).getD []

/-- `ld` (R239). -/
def execLd (h : Head) (o : M) (s : State) : Host.Outcome State Fault Refusal :=
  run (.ld h o) h s fun c =>
    let i : Instr := .ld h o
    let n := szBytes o.sz.toNat
    globalAccess i c s .read n n (c.addrM o) noneAhead (readsPoison c.pack.loc n) fun as s =>
      let r := loadLanes s c.pack o.ord.toNat o.sc.toNat o.cop.toNat n as
      let s := if acquires o.ord.toNat o.sc.toNat && c.exec != 0#64 then l1Acquire r.2 c.pack.loc.core else r.2
      let p := c.pack.writeSized o.sz.toNat o.d c.exec fun l => loadWords o.sz.toNat (lookBytes r.1 l)
      .done (setPack s (p.retire i c))

/-- The faults of a scratchpad access in each lane (R236). -/
def spadLook (c : Ctx) (s : State) (size : Nat) (writes checkEmpty : Bool) (bad : Nat → Herd → Nat → Bool) (off : Nat → Int) (l : Nat) :
    LaneFault :=
  spadFault (c.herd s) (off l) size writes checkEmpty (bad l)

/-- A scratchpad access that reads no byte, or has not come to the check of the bytes it reads. -/
def spadClean (_ : Nat) (_ : Herd) (_ : Nat) : Bool := false

/-- A lane's scratchpad load reads a poisoned granule that no queued store of its own makes clean first. -/
def readsSpadPoison (s : State) (loc : PackLoc) (n l : Nat) (h : Herd) (off : Nat) : Bool :=
  spadPoisoned h off n &&
    (List.range n).any fun k => spadPoisoned h (off + k) 1 && !ownCovers s loc l true ((off + k) / 4 * 4) 4

/-- A strong scratchpad access of some lanes: what release sequences it reads is not kept, so that nothing older is seen after it (log 60). -/
def spadHear (s : State) (c : Ctx) (ord : Nat) : State :=
  if ord == 0 then s else dropEarly s c.pack.loc.core fun e => e.loc == c.pack.loc && c.exec.has e.lane

/-- One lane's scratchpad load of up to 8 bytes: the line as it is, or as the lane may still see it; over it lies what the lane's own queued
stores hold.  After a load that sees the line as it is, the lane sees it no older (R64). -/
def spadPart (s : State) (loc : PackLoc) (hd : Herd) (lane off n : Nat) : List Byte × State :=
  let own (e : EarlyLine) : Bool := e.isAt loc (some hd.id) (off / lineSize) && e.lane == lane
  let r : List Byte × State :=
    match (getCore s loc.core).early.find? own with
    | none => (spadBytes hd off n, s)
    | some e =>
      if Config.seesEarly s.fresh then ((List.range n).map fun k => e.bytes.getD (off % lineSize + k) 0, draw s)
      else (spadBytes hd off n, dropEarly (draw s) loc.core own)
  (forward s loc lane true off r.1, r.2)

/-- One lane's scratchpad load: 16 bytes are read as two halves (R118). -/
def spadLane (s : State) (loc : PackLoc) (hd : Herd) (lane off n : Nat) : List Byte × State :=
  if n ≤ 8 then spadPart s loc hd lane off n
  else
    let lo := spadPart s loc hd lane off 8
    let hi := spadPart lo.2 loc hd lane (off + 8) (n - 8)
    (lo.1 ++ hi.1, hi.2)

/-- The scratchpad loads of some lanes, in ascending order. -/
def spadLanes (s : State) (loc : PackLoc) (hd : Herd) (n : Nat) (off : Nat → Nat) : List Nat → List (Nat × List Byte) × State
  | [] => ([], s)
  | l :: ls =>
    let r := spadLane s loc hd l (off l) n
    let rest := spadLanes r.2 loc hd n off ls
    ((l, r.1) :: rest.1, rest.2)

/-- The lanes with a queued `stse` at a line that the instruction touches: their stores perform first, so that a lane finds the line as its
own `stse` leaves it (R64, R241). -/
def stseLanes (s : State) (c : Ctx) (size : Nat) (off : Nat → Int) : Mask :=
  let lines (l : Nat) := linesOf (off l).toNat size
  Mask.ofPred fun l => c.exec.has l && (getCore s c.pack.loc.core).storeQ.any fun e =>
    e.loc == c.pack.loc && e.lane == l &&
      match e.op with
      | .spad a x eff => eff != .keep && (linesOf a x.length).any fun k => (lines l).contains k
      | .global _ _ _ _ _ | .writeBack _ _ | .releaseFence => false

/-- `lds` (R239): a load of a byte in an empty line makes the whole path wait until it is full (R66, R105); then the bytes are looked at.
DESIGN CHOICE, log 72: where lanes touch several empty lines the path waits for that of the lowest lane that meets one, and issues again. -/
def execLds (h : Head) (o : M) (s : State) : Host.Outcome State Fault Refusal :=
  run (.lds h o) h s fun c =>
    let i : Instr := .lds h o
    let n := szBytes o.sz.toNat
    -- an error in a full line counts among the faults of other lanes; alone it is looked at when no lane waits
    let bad (s : State) (l : Nat) (h : Herd) (off : Nat) : Bool := !touchesEmpty h off n && readsSpadPoison s c.pack.loc n l h off
    match laneFaults i c (spadLook c s n false false spadClean (c.offM o)) with
    | some f => .fault ((laneFaults i c (spadLook c s n false false (bad s) (c.offM o))).getD f) s
    | none =>
      let r := drain s c.pack.loc (stseLanes s c n (c.offM o))
      if !r.1 then stallAt r.2
      else
        let s := r.2
        match c.herd s with
        | none => .done (setPack s (c.pack.retire i c))
        | some hd =>
          match (c.exec.lanes.map fun l => (c.offM o l).toNat).find? fun off => touchesEmpty hd off n with
          | some off => .done (setPack s (c.pack.waitPath c.idx (.line off (assocGet 0 hd.fills (off / lineSize))) (now s)))
          | none =>
          match laneFaults i c (spadLook c s n false false (readsSpadPoison s c.pack.loc n) (c.offM o)) with
          | some f => .fault f s
          | none =>
            let s := spadHear s c o.ord.toNat
            let s := if acquires o.ord.toNat o.sc.toNat && c.exec != 0#64 then l1Acquire s c.pack.loc.core else s
            let r := spadLanes s c.pack.loc hd n (fun l => (c.offM o l).toNat) c.exec.lanes
            let p := c.pack.writeSized o.sz.toNat o.d c.exec fun l => loadWords o.sz.toNat (lookBytes r.1 l)
            .done (setPack r.2 (p.retire i c))

/-- The fault of an `ldc` in a lane (R112, R236). -/
def ldcFault (bank : Option Launch) (off : Int) (n : Nat) : LaneFault :=
  if off % (n : Int) != 0 then some (7, BitVec.ofInt 64 off)
  else if off < 0 || (bank.map (·.desc.cbank)).getD 0 == 0#64 || 65536 < off + n then some (12, BitVec.ofInt 64 off)
  else none

/-- `ldc` (R112, R239): through the L1 like a plain global load; a byte of the bank written while the launch runs reads as any value.  A
bank page that does not translate, or does not permit a read, gives code 9 or 10 with the global address (log 36). -/
def execLdc (h : Head) (o : M) (s : State) : Host.Outcome State Fault Refusal :=
  run (.ldc h o) h s fun c =>
    let i : Instr := .ldc h o
    let n := szBytes o.sz.toNat
    let bank : Option Launch := (c.herd s).bind (herdLaunch s)
    let addr (l : Nat) : Nat := truncI (((bank.map (·.desc.cbank)).getD 0#64).toNat + c.offM o l) 64
    let r := resolveLanes s c.pack .read n addr (c.exec.lanes.filter fun l => (ldcFault bank (c.offM o l) n).isNone)
    let look (l : Nat) : LaneFault :=
      let hit : Option Resolved := (r.1.find? (·.1 == l)).map (·.2)
      match hit with
      | some (.fault code) => some (code, BitVec.ofNat 64 (addr l))
      | some (.ok pa t) => if readsPoison c.pack.loc n r.2 ⟨l, pa, t⟩ then some (15, BitVec.ofInt 64 (c.offM o l)) else none
      | some .stall | none => none
    if r.1.any (·.2 == .stall) then stallAt r.2
    else
      match laneFaults i c fun l => (ldcFault bank (c.offM o l) n).or (look l) with
      | some f => .fault f r.2
      | none =>
        match bank with
        | none => .done (setPack r.2 (c.pack.retire i c))
        | some b =>
          let v := loadLanes r.2 c.pack 0 0 0 n (passed r.1)
          let dirty (l : Nat) : List Byte :=
            let off := (c.offM o l).toNat
            (List.range n).map fun k =>
              if b.bankDirty.contains (off + k) then Config.anyByte (v.2.fresh + 64 * k + l) else (lookBytes v.1 l).getD k 0
          let p := c.pack.writeSized o.sz.toNat o.d c.exec fun l => loadWords o.sz.toNat (dirty l)
          .done (setPack { v.2 with fresh := v.2.fresh + 64 * n } (p.retire i c))

/-! ### Stores (R240, R241) -/

/-- The bytes a store of an access size writes from lane `l`. -/
def storeBytes (c : Ctx) (sz : Nat) (d : Reg) (l : Nat) : List Byte :=
  let n := szBytes sz
  (wordBytes (c.words d (if n ≤ 4 then 1 else n / 4) l)).take n

/-- A queue entry of a store (R63). -/
def storeEntry (c : Ctx) (o : M) (lane : Nat) (op : StoreOp) : StoreEntry :=
  let vpn := match op with
    | .global _ _ _ _ _ | .writeBack _ _ => if c.pack.level == 2 then none else some (vpnOf (c.addrM o lane))
    | .spad _ _ _ | .releaseFence => none
  { loc := c.pack.loc, herd := c.pack.herd, part := c.pack.part, lane, issue := c.pack.issued, strong := o.ord.toNat != 0, release := o.ord.toNat == 3,
    scope := o.sc.toNat, vpn, first := o.cop.toNat == 2, op }

/-- The route of a page homed outside. -/
def Tlb.away (t : Tlb) : Option Nat := if t.kind == 1 then some t.route else none

/-- The queue entries of a lane's global store: 16 bytes perform as two halves (R118). -/
def storeEntries (c : Ctx) (o : M) (a : LaneAcc) : List StoreEntry :=
  let bs := storeBytes c o.sz.toNat o.d a.lane
  let part (pa : Nat) (bs : List Byte) : StoreEntry := storeEntry c o a.lane (.global pa bs a.t.sc a.t.away a.t.patch)
  if bs.length ≤ 8 then [part a.pa bs] else [part a.pa (bs.take 8), part (a.pa + 8) (bs.drop 8)]

/-- `st` (R240). -/
def execSt (h : Head) (o : M) (s : State) : Host.Outcome State Fault Refusal :=
  run (.st h o) h s fun c =>
    let i : Instr := .st h o
    let n := szBytes o.sz.toNat
    globalAccess i c s (.write (o.sz.toNat == 3)) n n (c.addrM o) noneAhead noPoison fun as s =>
      let es := as.flatMap (storeEntries c o)
      .done (setPack (enqueue s c.pack.loc.core es) (c.pack.retire i c))

/-- The queue entries of a lane's scratchpad store: 16 bytes of `sts` perform as two halves (R118); `stse` also sets its line's state, in one
step (R241). -/
def spadEntries (c : Ctx) (o : M) (eff : LineEffect) (l : Nat) : List StoreEntry :=
  let bs := storeBytes c o.sz.toNat o.d l
  let off := (c.offM o l).toNat
  if bs.length ≤ 8 || eff != .keep then [storeEntry c o l (.spad off bs eff)]
  else [storeEntry c o l (.spad off (bs.take 8) eff), storeEntry c o l (.spad (off + 8) (bs.drop 8) eff)]

/-- A scratchpad store: the checks, then the queue entries of each lane. -/
def spadStoreOp (i : Instr) (h : Head) (o : M) (s : State) (eff : LineEffect) : Host.Outcome State Fault Refusal :=
  run i h s fun c =>
    let n := szBytes o.sz.toNat
    let r := if eff == .keep then drain s c.pack.loc (stseLanes s c n (c.offM o)) else (true, s)
    if !r.1 then stallAt r.2
    else
      let s := r.2
      match laneFaults i c (spadLook c s n true (eff == .keep) spadClean (c.offM o)) with
      | some f => .fault f s
      | none =>
        let es := c.exec.lanes.flatMap fun l => spadEntries c o eff l
        .done (setPack (enqueue s c.pack.loc.core es) (c.pack.retire i c))

/-- `sts` (R240). -/
def execSts (h : Head) (o : M) (s : State) := spadStoreOp (.sts h o) h o s .keep

/-- `stse` (R241): the b field is the line state. -/
def execStse (h : Head) (o : M) (s : State) := spadStoreOp (.stse h o) h o s (if o.b.toNat == 1 then .setFull else .setEmpty)

/-! ### Cache operations (R242, R243) -/

/-- `pref` (R242): never faults; a lane whose address fails a check, that of poison among them, prefetches nothing (R243). -/
def execPref (h : Head) (o : M) (s : State) : Host.Outcome State Fault Refusal :=
  run (.pref h o) h s fun c =>
    let core := c.pack.loc.core
    let r := resolveLanes s c.pack .read 1 (c.addrM o) c.exec.lanes
    let s := r.1.foldl (fun s x =>
      match x.2 with
      | .ok pa t =>
        if readsPoison c.pack.loc 1 s ⟨x.1, pa, t⟩ then s
        else
          let s := l2Touch s (dieOf core) t pa false
          if o.cop.toNat == 0 then l1Fill s core t pa false false else s
      | .fault _ | .stall => s) r.2
    .done (setPack s (c.pack.retire (.pref h o) c))

/-- A cache operation on the lines of the executing lanes: checks 2 and 3, the page mapped with any permission (R243). -/
def lineOp (i : Instr) (h : Head) (o : M) (s : State) (f : Ctx → State → LaneAcc → State) : Host.Outcome State Fault Refusal :=
  run i h s fun c =>
    globalAccess i c s .mapped 1 1 (c.addrM o) noneAhead noPoison fun as s => .done (setPack (as.foldl (f c) s) (c.pack.retire i c))

/-- The lanes of a pack see a line as it is from here on. -/
def freshLine (s : State) (loc : PackLoc) (line : Nat) : State := dropEarly s loc.core fun e => e.isAt loc none line

/-- `cinv.l1` (R242). -/
def execCinvL1 (h : Head) (o : M) (s : State) :=
  lineOp (.cinvL1 h o) h o s fun c s a => freshLine (l1Drop s c.pack.loc.core (a.t.line a.pa) false) c.pack.loc (a.t.line a.pa)

/-- `cinv.l1all` (R242): no lane-dependent check. -/
def execCinvL1all (h : Head) (o : M) (s : State) : Host.Outcome State Fault Refusal :=
  run (.cinvL1all h o) h s fun c =>
    let s := if c.exec == 0#64 then s else dropEarly (l1Acquire s c.pack.loc.core) c.pack.loc.core (·.loc == c.pack.loc)
    .done (setPack s (c.pack.retire (.cinvL1all h o) c))

/-- A write-back of the line of a lane enters the store queue, where younger releases of the lane wait for it (R243). -/
def queueWriteBack (c : Ctx) (o : M) (inv : Bool) (s : State) (a : LaneAcc) : State :=
  enqueue s c.pack.loc.core [storeEntry c o a.lane (.writeBack (a.t.line a.pa * lineSize) inv)]

/-- `cinv.near` on the line of a lane: a software-coherent copy is discarded with its dirty bytes, else it is written back and goes; in each
case the core's L1 drops the line, so that its bytes then read the home's value (R242). -/
def nearInvalid (loc : PackLoc) (s : State) (a : LaneAcc) : State :=
  let line := a.t.line a.pa
  let die := dieOf loc.core
  freshLine (l1Drop (if a.t.copied die a.pa then scDrop s line die else cwbNear (scWriteBack s line die true) line die true) loc.core line false) loc line

/-- The lanes with a queued access to the line that they name. -/
def lineLanes (s : State) (c : Ctx) (as : List LaneAcc) : Mask :=
  queuedLanes s c.pack.loc c.exec fun e => as.any fun a => a.lane == e.lane && e.op.meets (.writeBack (a.t.line a.pa * lineSize) false)

/-- Before `cinv.near`: the lanes' queued accesses to the lines perform, and a copy that is to be written back has its page (R407). -/
def nearAhead (c : Ctx) (as : List LaneAcc) (s : State) : Bool × State :=
  let d := drain s c.pack.loc (lineLanes s c as)
  let die := dieOf c.pack.loc.core
  let back := as.filterMap fun a => if a.t.copied die a.pa then none else scFind d.2 (a.t.line a.pa) die
  match if d.1 then askBack d.2 back else none with
  | some s' => (false, s')
  | none => d

/-- `cinv.near` (R242): complete before a younger access of its lane performs (R243), so it acts at once, after the lane's queued accesses to
the line. -/
def execCinvNear (h : Head) (o : M) (s : State) : Host.Outcome State Fault Refusal :=
  run (.cinvNear h o) h s fun c =>
    let i : Instr := .cinvNear h o
    globalAccess i c s .mapped 1 1 (c.addrM o) (nearAhead c) noPoison fun as s =>
      .done (setPack (as.foldl (nearInvalid c.pack.loc) s) (c.pack.retire i c))

/-- `cwb.home` (R242). -/
def execCwbHome (h : Head) (o : M) (s : State) := lineOp (.cwbHome h o) h o s fun c s a => queueWriteBack c o false s a
/-- `cwb.mem` (R242): the home slice's line and its frame are one memory here. -/
def execCwbMem (h : Head) (o : M) (s : State) := lineOp (.cwbMem h o) h o s fun c s a => queueWriteBack c o false s a
/-- `cwb.inv` (R242). -/
def execCwbInv (h : Head) (o : M) (s : State) := lineOp (.cwbInv h o) h o s fun c s a => queueWriteBack c o true s a

/-! ### Atomics (R244-R246) -/

/-- Bits of an atomic's operand by sz (R244). -/
def atomWidth (sz : Nat) : Nat := if sz == 3 || sz == 8 then 64 else 32

/-- The new value of an atomic, from the old value and the operand, as bit patterns (R244). -/
def atomValue (aop sz o b : Nat) : Nat :=
  let w := atomWidth sz
  if sz == 9 then
    match aop with
    | 0 => rne32 ((v32 o).add false (v32 b))
    | 1 => fminmax f32 false false o b
    | 2 => fminmax f32 true false o b
    | _ => b
  else
    let val (x : Nat) : Int := if sz == 7 || sz == 8 then sextN x w else (x % 2 ^ w : Nat)
    match aop with
    | 0 => (o + b) % 2 ^ w
    | 1 => if val b < val o then b else o
    | 2 => if val o < val b then b else o
    | 3 => Nat.land o b
    | 4 => Nat.lor o b
    | 5 => Nat.xor o b
    | 6 => b
    | 7 => if val o < val b then (o + 1) % 2 ^ w else o
    | _ => if val b < val o then (o + 2 ^ w - 1) % 2 ^ w else o

/-- A compare-and-swap's new value, `none` where the compare fails (R245). -/
def casValue (w o b : Nat) : Option Nat := if o == b % 2 ^ w then some (b / 2 ^ w % 2 ^ w) else none

/-- The operand of lane `l` as a number, from a field of `n` registers. -/
def Ctx.operand (c : Ctx) (r : Reg) (n l : Nat) : Nat := wordsNat (c.words r n l)

/-- The lanes whose queued stores an atomic finds ahead of it: stores to its bytes (R64), everything for a release, everything ahead of a
queued release fence (R119, R128). -/
def aheadOf (s : State) (c : Ctx) (release : Bool) (op : Nat → StoreOp) : Mask :=
  queuedLanes s c.pack.loc c.exec fun e => release || e.op == .releaseFence || e.op.meets (op e.lane)

/-- A sys-scope release waits for the remote homes (R408). -/
def awaitsHome (s : State) (sc : Nat) : Bool := sc == 4 && !(s.remotePages.all (·.ackDue == 0))

/-- An access releases: ord 3 or 4 (R117). -/
def relOrd (ord : Nat) : Bool := ord == 3 || ord == 4

/-- The release sequences that an atomic's write leaves (R119): those of its bytes that it is mutually scoped with go on; a release, or a write
after a release fence of its lane, heads one of its own. -/
def atomHeads (s : State) (p : Pack) (ord sc lane at_ n : Nat) : List ReleaseHead :=
  let fences := (getCore s p.loc.core).fences.filter fun f => f.1 == p.loc && f.2.2.has lane
  let scopes := (if relOrd ord then [sc] else []) ++ fences.map (·.2.1)
  (scopes.map fun k => ⟨at_, n, s.tick, k, p.loc, p.herd⟩) ++ (s.heads.filter fun h => h.meets at_ n && h.mutual sc p.loc p.herd).map (·.within at_ n)

/-- One lane's atomic at the home slice (R245): its old value goes in front of the list. -/
def atomLane (c : Ctx) (ord sc w : Nat) (f : Nat → Nat → Option Nat) (acc : List (Nat × Nat) × State) (a : LaneAcc) :
    List (Nat × Nat) × State :=
  let core := c.pack.loc.core
  let line := a.t.line a.pa
  let at_ := placed a.pa (a.t.kind == 1)
  let old := numLE (homeBytes acc.2 a.t a.pa (w / 8))
  let s := dropEarly acc.2 core fun e => e.isAt c.pack.loc none line
  let s := hear s c.pack a.lane sc (acqOrd ord) (s.heads.filter (·.meets at_ (w / 8)))
  let s := l1Drop (nearInvalidate s line) core line false
  let s := match f a.lane old with
    | some v =>
      addHeads (homeWrite s c.pack.part core (dieOf core) a.t a.pa (bytesLE (w / 8) v)) (atomHeads s c.pack ord sc a.lane at_ (w / 8))
    | none => s
  ((a.lane, old) :: acc.1, s)

/-- The old value of a global atomic is poisoned at the home slice (R246). -/
def atomPoison (n : Nat) (s : State) (a : LaneAcc) : Bool := poisoned s a.t a.pa n

/-- A global atomic: `f` gives a lane's new value, `none` for a failed compare; `dst` is false for `red` (R245, R246). -/
def globalAtomic (i : Instr) (h : Head) (o : MA) (s : State) (dst : Bool) (f : Ctx → Nat → Nat → Option Nat) :
    Host.Outcome State Fault Refusal :=
  run i h s fun c =>
    let w := atomWidth o.sz.toNat
    let n := w / 8
    let ord := o.ord.toNat
    let release := relOrd ord
    let opOf (as : List LaneAcc) (l : Nat) : StoreOp :=
      match as.find? (·.lane == l) with
      | some a => .global a.pa (List.replicate n 0) false a.t.away false
      | none => .releaseFence
    let ahead (as : List LaneAcc) (s : State) : Bool × State := drain s c.pack.loc (aheadOf s c release (opOf as))
    globalAccess i c s .rmw n n (c.addrMA o) ahead (atomPoison n) fun as s =>
      if release && awaitsHome s o.sc.toNat then stallAt s
      else
        let done := as.foldl (atomLane c ord o.sc.toNat w (f c)) ([], s)
        let s := if acquires ord o.sc.toNat && c.exec != 0#64 then l1Acquire done.2 c.pack.loc.core else done.2
        let old (l : Nat) : Nat := ((done.1.find? (·.1 == l)).map (·.2)).getD 0
        let p := if dst then c.pack.writeSized o.sz.toNat o.d c.exec fun l => natWords 2 (old l) else c.pack
        .done (setPack s (p.retire i c))

/-- `atom` (R245). -/
def execAtom (h : Head) (o : MA) (s : State) :=
  globalAtomic (.atom h o) h o s true fun c l old =>
    some (atomValue o.aop.toNat o.sz.toNat old (c.operand o.b (atomWidth o.sz.toNat / 32) l))

/-- `atomcas` (R245): compare then new in b. -/
def execAtomcas (h : Head) (o : MA) (s : State) :=
  globalAtomic (.atomcas h o) h o s true fun c l old =>
    casValue (atomWidth o.sz.toNat) old (c.operand o.b (atomWidth o.sz.toNat / 16) l)

/-- `red` (R245): no result. -/
def execRed (h : Head) (o : MA) (s : State) :=
  globalAtomic (.red h o) h o s false fun c l old =>
    some (atomValue o.aop.toNat o.sz.toNat old (c.operand o.b (atomWidth o.sz.toNat / 32) l))

/-- One lane's scratchpad atomic (R245). -/
def atomsLane (off : Nat → Nat) (w : Nat) (f : Nat → Nat → Option Nat) (acc : List (Nat × Nat) × Herd) (l : Nat) : List (Nat × Nat) × Herd :=
  let old := numLE (spadBytes acc.2 (off l) (w / 8))
  ((l, old) :: acc.1, match f l old with | some v => spadWrite acc.2 (off l) (bytesLE (w / 8) v) | none => acc.2)

/-- A scratchpad atomic: it executes in the core (R245). -/
def spadAtomic (i : Instr) (h : Head) (o : MA) (s : State) (f : Ctx → Nat → Nat → Option Nat) : Host.Outcome State Fault Refusal :=
  run i h s fun c =>
    let w := atomWidth o.sz.toNat
    let n := w / 8
    let ord := o.ord.toNat
    let release := relOrd ord
    let off (l : Nat) : Nat := (c.offMA o l).toNat
    let ahead := stseLanes s c n (c.offMA o) ||| aheadOf s c release fun l => .spad (off l) (List.replicate n 0) .keep
    let r := drain s c.pack.loc ahead
    if !r.1 then stallAt r.2
    else
      let s := r.2
      match laneFaults i c (spadLook c s n true true (fun _ h off => spadPoisoned h off n) (c.offMA o)) with
      | some fl => .fault fl s
      | none =>
        if release && awaitsHome s o.sc.toNat then stallAt s
        else
          match c.herd s with
          | none => .done (setPack s (c.pack.retire i c))
          | some hd =>
            let done := c.exec.lanes.foldl (atomsLane off w (f c)) ([], hd)
            let s := spadHear (modHerd s hd.id fun _ => done.2) c (max 1 ord)
            let s := if acquires ord o.sc.toNat && c.exec != 0#64 then l1Acquire s c.pack.loc.core else s
            let old (l : Nat) : Nat := ((done.1.find? (·.1 == l)).map (·.2)).getD 0
            .done (setPack s ((c.pack.writeSized o.sz.toNat o.d c.exec fun l => natWords 2 (old l)).retire i c))

/-- `atoms` (R245). -/
def execAtoms (h : Head) (o : MA) (s : State) :=
  spadAtomic (.atoms h o) h o s fun c l old =>
    some (atomValue o.aop.toNat o.sz.toNat old (c.operand o.b (atomWidth o.sz.toNat / 32) l))

/-- `atomscas` (R245). -/
def execAtomscas (h : Head) (o : MA) (s : State) :=
  spadAtomic (.atomscas h o) h o s fun c l old =>
    casValue (atomWidth o.sz.toNat) old (c.operand o.b (atomWidth o.sz.toNat / 16) l)

/-! ### Fences (R247) -/

/-- Lanes of a pack have executed a release fence of a scope: their later strong writes head release sequences (R119). -/
def addFence (s : State) (loc : PackLoc) (sc : Nat) (m : Mask) : State :=
  modCore s loc.core fun c =>
    let old := ((c.fences.find? fun f => f.1 == loc && f.2.1 == sc).map (·.2.2)).getD 0
    if old &&& m == m then c else { c with fences := (loc, sc, old ||| m) :: c.fences.filter fun f => !(f.1 == loc && f.2.1 == sc) }

/-- `fence` (R247): kinds 2 `acq`, 3 `rel`, 4 `ar`, 5 `sc`.  An `sc` fence waits until its lanes' older accesses have performed (R128). -/
def execFence (h : Head) (o : M) (s : State) : Host.Outcome State Fault Refusal :=
  run (.fence h o) h s fun c =>
    let i : Instr := .fence h o
    let kind := o.ord.toNat
    if c.exec == 0#64 then .done (setPack s (c.pack.retire i c))
    else
      let core := c.pack.loc.core
      let r := if kind == 5 then drain s c.pack.loc c.exec else (true, s)
      if !r.1 || (kind == 5 && awaitsHome r.2 o.sc.toNat) then stallAt r.2
      else
        -- a release fence holds up the lanes that have stores queued, and all of them where a remote home's acknowledgment is still due
        let marked := if awaitsHome r.2 o.sc.toNat then c.exec else queuedLanes r.2 c.pack.loc c.exec fun _ => true
        let s := if kind == 3 || kind == 4 then
            enqueue r.2 core (marked.lanes.map fun l => { storeEntry c o l .releaseFence with release := true })
          else r.2
        let s := if kind == 2 then s else addFence s c.pack.loc o.sc.toNat c.exec
        let s := if kind == 3 then s else fenceAcquire s c.pack c.exec o.sc.toNat (kind == 5)
        let s := if kind != 3 && 1 ≤ o.sc.toNat then l1Acquire s core else s
        .done (setPack s (c.pack.retire i c))

/-! ### The function store's instructions (R222-R225) -/

/-- A cell word is an `sfu` cell configured for a loaded function (R225, R320). -/
def readsBank (w : Quad) : Bool := bitsOf w.toNat 63 58 == 0x08 && bitsOf w.toNat 3 0 == 13

/-- A residency of a partition holds a bank, which an `sfu` cell of it reads (R225). -/
def bankHeld (s : State) (part bank : Nat) : Bool :=
  s.residencies.any fun r => r.part == part && r.bank == bank && (r.phase == .active || r.phase == .draining || r.phase == .cutting) &&
    r.cells.any fun c => readsBank c.word

/-- `sfnld` (R222, R225): the checks in the order of R222; a held bank keeps the path here, and a control pack that holds it itself
faults. -/
def execSfnld (h : Head) (o : V) (s : State) : Host.Outcome State Fault Refusal :=
  run (.sfnld h o) h s fun c =>
    let i : Instr := .sfnld h o
    if c.exec == 0#64 then .done (setPack s (c.pack.retire i c))
    else
      let core := c.pack.loc.core
      let va := (c.q o.a c.low).toNat
      let bad (code : Nat) (detail : Quad) (s : State) : Effect :=
        match wholeFault i c (some (code, detail)) with
        | some f => .fault f s
        | none => stallAt s
      -- every older access of the lane performs before the record is read (R222)
      let r := drain s c.pack.loc (1#64 <<< c.low)
      match wholeFault i c none with
      | some f => .fault f s
      | none =>
        if !canonical va then bad 8 (BitVec.ofNat 64 va) s
        else if !r.1 then stallAt r.2
        else
          match checkBlock r.2 core c.pack.part c.pack.level .read va 128 128 with
          | (.stall, s') => stallAt s'
          | (.fault code a, s') => bad code (BitVec.ofNat 64 a) s'
          | (.ok ps, s') =>
            let bytes := blockBytes s' core ps
            match firstBadStep bytes with
            | some off => bad 30 (BitVec.ofNat 64 off) s'
            | none =>
              match findPart s' c.pack.part with
              | none => stallAt s'
              | some pt =>
                let shadow := 1 - pt.bank
                let own := ((c.pack.control.bind (findRes s')).filter fun r => r.cells.any fun c => readsBank c.word).map (·.bank)
                if own == some shadow && bankHeld s' pt.id shadow then bad 26 0 s'
                else if bankHeld s' pt.id shadow then stallAt s'
                else
                  let slot := o.fn.toNat % 16
                  let s'' := modPart s' pt.id fun p =>
                    { p with slots := (shadow, slot, bytes) :: p.slots.filter fun e => !(e.1 == shadow && e.2.1 == slot) }
                  .done (setPack s'' (c.pack.retire i c))

/-- `sfnsw` (R223). -/
def execSfnsw (h : Head) (o : V) (s : State) : Host.Outcome State Fault Refusal :=
  run (.sfnsw h o) h s fun c =>
    let s := if c.exec == 0#64 then s else modPart s c.pack.part fun p => { p with bank := 1 - p.bank }
    .done (setPack s (c.pack.retire (.sfnsw h o) c))

end Sys2Proof.Machine
end

