-- ==== Sys2Proof/Machine/Control.lean ====
section
/-!
DEFINITION. Fetching a word, the control-transfer instructions, opcodes 0xA0-0xAA (R139, R160, R197-R200), and the rejoin-set
instructions, opcodes 0xB0-0xB7 (R46-R52, R201-R204).
-/

namespace Sys2Proof.Machine

/-! ### Fetch -/

/-- What fetching one word gives. -/
inductive Fetch where
  | word (w : Quad) (pa : Nat) (t : Tlb)
  /-- the fetch fault, 1 or 2 (R159) -/
  | fault (code : Nat)
  | stall
  deriving DecidableEq, Repr

/-- The word at an address, read at the L2 or from an L1 instruction line (R139). -/
def fetchWord (s : State) (core part level : Nat) (va : Nat) : Fetch × State :=
  match resolve s core part level .fetch va 8 with
  | (.fault code, s') => (.fault (if code == 10 then 2 else 1), s')
  | (.stall, s') => (.stall, s')
  | (.ok pa t, s') =>
    let r := l1Read s' core t pa 8 true false
    (.word (BitVec.ofNat 64 (numLE r.1)) pa t, r.2)

/-! ### Transfers (R160, R198) -/

/-- How the checks of one target end (R160). -/
inductive Target where
  | ok
  | fault (code : Nat)
  | stall
  deriving DecidableEq, Repr

/-- The checks of a transfer target (R160).  A page that cannot be fetched from lets the transfer retire. -/
def checkTarget (s : State) (core part level : Nat) (t : Nat) : Target × State :=
  if !canonical t then (.fault 8, s)
  else if t % 8 != 0 then (.fault 3, s)
  else
    match fetchWord s core part level t with
    | (.fault _, s') => (.ok, s')
    | (.stall, s') => (.stall, s')
    | (.word w _ _, s') =>
      if t % 16 == 8 then
        match fetchWord s' core part level (t - 8) with
        | (.word w8 _ _, s'') => (if xBit w8 then .fault 6 else if xBit w then .fault 3 else .ok, s'')
        | (.fault _, s'') => (.ok, s'')
        | (.stall, s'') => (.stall, s'')
      else (.ok, s')

/-- The checks of every distinct target. -/
def checkTargets (s : State) (core part level : Nat) : List Nat → List (Nat × Target) × State
  | [] => ([], s)
  | t :: ts =>
    let r := checkTarget s core part level t
    let rest := checkTargets r.2 core part level ts
    ((t, r.1) :: rest.1, rest.2)

/-- The path whose lanes of `m` go to per-lane targets; the rest stays behind at the next instruction (R41, R198). -/
def Pack.moveLanes (p : Pack) (i : Instr) (c : Ctx) (m : Mask) (target : Nat → Quad) : Pack :=
  let ts := (m.lanes.map target).eraseDups
  match ts with
  | [] => p.retire i c
  | [t] =>
    if m == c.path.mask then p.modPath c.idx fun q => { q with pc := t, wait := .run, wbase := 0, wfrom := none }
    else p.splitPath c.idx m (nextPc i c) [{ pc := t, mask := m }]
  | _ => p.splitPath c.idx m (nextPc i c) (ts.map fun t => { pc := t, mask := Mask.ofPred fun l => m.has l && target l == t })

/-- `transfer` (R198): the checks of R160 on every target, then the split; `link` writes v10:v11 before it (R198). -/
def transfer (i : Instr) (c : Ctx) (s : State) (link : Bool) (target : Nat → Quad) : Effect :=
  let ts := (c.exec.lanes.map fun l => (target l).toNat).eraseDups
  let r := checkTargets s c.pack.loc.core c.pack.part c.pack.level ts
  if r.1.any (·.2 == .stall) then stallAt r.2
  else
    let look (l : Nat) : LaneFault :=
      let hit : Option Target := (r.1.find? (·.1 == (target l).toNat)).map (·.2)
      match hit with
      | some (.fault code) => some (code, target l)
      | some .ok | some .stall | none => none
    match laneFaults i c look with
    | some f => .fault f r.2
    | none =>
      let p := if link then c.pack.writePair 10 c.exec fun _ => nextPc i c else c.pack
      let dest (l : Nat) : Quad := if laneZeroOnly s c.pack then target c.low else target l
      .done (setPack r.2 (p.moveLanes i c (c.movers s) dest))

/-- The target of a direct transfer: pc + off32 × 8 (R151). -/
def relTarget (c : Ctx) (o : B) : Quad := c.path.pc + BitVec.ofInt 64 (sextN o.off.toNat 32 * 8)

/-- `bra` (R198). -/
def execBra (h : Head) (o : B) (s : State) : Host.Outcome State Fault Refusal :=
  run (.bra h o) h s fun c => transfer (.bra h o) c s false fun _ => relTarget c o

/-- `brx` (R198). -/
def execBrx (h : Head) (o : B) (s : State) : Host.Outcome State Fault Refusal :=
  run (.brx h o) h s fun c => transfer (.brx h o) c s false fun l => c.q o.a l

/-- `brvote` (R198): no transfer when E is empty or the vote is 0. -/
def execBrvote (h : Head) (o : B) (s : State) : Host.Outcome State Fault Refusal :=
  run (.brvote h o) h s fun c =>
    if c.exec != 0#64 && voteOf o.k.toNat (c.exec.lanes.map (c.pack.pred o.a.toNat)) then
      transfer (.brvote h o) c s false fun _ => relTarget c o
    else .done (setPack s (c.pack.retire (.brvote h o) c))

/-- `call` (R198). -/
def execCall (h : Head) (o : B) (s : State) : Host.Outcome State Fault Refusal :=
  run (.call h o) h s fun c => transfer (.call h o) c s true fun _ => relTarget c o

/-- `callx` (R198): a is read before v10:v11 is written. -/
def execCallx (h : Head) (o : B) (s : State) : Host.Outcome State Fault Refusal :=
  run (.callx h o) h s fun c => transfer (.callx h o) c s true fun l => c.q o.a l

/-- `ret` (R198). -/
def execRet (h : Head) (o : B) (s : State) : Host.Outcome State Fault Refusal :=
  run (.ret h o) h s fun c => transfer (.ret h o) c s false fun l => c.pack.pair 10 l

/-- Exiting lanes quit every set of which they are members, in ascending order (R199). -/
def Pack.quitAll (p : Pack) (m : Mask) : Pack :=
  (List.range 32).foldl (fun p k => if (p.rset k).member &&& m != 0#64 then p.quitSet k ((p.rset k).member &&& m) else p) p

/-- The lanes of `m` leave path `i`; the rest stays at `pc`, and a path left with no lanes ends (R41, R199). -/
def Pack.leave (p : Pack) (i : Nat) (m : Mask) (pc : Quad) : Pack :=
  match p.paths[i]? with
  | none => p
  | some q =>
    if q.mask &&& ~~~m == 0#64 then (p.dropPath i).fillSlots
    else p.modPath i fun q => { q with mask := q.mask &&& ~~~m, pc := pc, wait := .run, wbase := 0, wfrom := none }

/-- `exit` (R199): the spatial-mode fault in a control pack (R185); a handler pack never exits (R344, log 17).  A pack whose lanes have all
exited ends, its stores performed. -/
def execExit (h : Head) (o : B) (s : State) : Host.Outcome State Fault Refusal :=
  run (.exit h o) h s fun c =>
    let i : Instr := .exit h o
    if c.exec == 0#64 || c.pack.isHandler then .done (setPack s (c.pack.retire i c))
    else if c.pack.control.isSome then .fault ⟨26, c.exec, 0⟩ s
    else
      let exited := c.pack.exited ||| c.exec
      if exited == Mask.full then
        let r := drain s c.pack.loc Mask.full
        if r.1 then .done { r.2 with packs := r.2.packs.filter (·.loc != c.pack.loc) } else stallAt r.2
      else
        let r := drainCounted s c.pack.loc (c.pack.countedBy (List.range 32) fun _ => RSet.without c.exec)
        if !r.1 then stallAt r.2
        else
          -- the path leaves the list first, so that a completion cannot disturb its place
          let p := { c.pack.leave c.idx c.exec (nextPc i c) with exited }
          .done (setPack r.2 ((p.quitAll c.exec).settlePaths c.pack.qnext))

/-- `trap` (R200). -/
def execTrap (h : Head) (o : B) (s : State) : Host.Outcome State Fault Refusal :=
  run (.trap h o) h s fun c =>
    if c.exec == 0#64 then .done (setPack s (c.pack.retire (.trap h o) c))
    else .fault ⟨32, c.exec, o.off.zeroExtend 64⟩ s

/-- The partition's debug level (R425). -/
def debugLevel (s : State) (part : Nat) : Nat := ((findPart s part).map (·.dbglvl.toNat)).getD 0

/-- `bkpt` (R200): a `nop` when the partition's debug level is none. -/
def execBkpt (h : Head) (o : B) (s : State) : Host.Outcome State Fault Refusal :=
  run (.bkpt h o) h s fun c =>
    if c.exec == 0#64 || debugLevel s c.pack.part == 0 then .done (setPack s (c.pack.retire (.bkpt h o) c))
    else .fault ⟨33, c.exec, o.off.zeroExtend 64⟩ s

/-- `nop` (R200). -/
def execNop (h : Head) (o : B) (s : State) : Host.Outcome State Fault Refusal :=
  runPack (.nop h o) h s fun c => c.pack

/-- `yield` (R45). -/
def execYield (h : Head) (o : B) (s : State) : Host.Outcome State Fault Refusal :=
  run (.yield h o) h s fun c => .done (setPack s ((c.pack.retire (.yield h o) c).yieldSlot c.idx))

/-! ### Rejoin-set instructions -/

/-- The distinct set numbers that the executing lanes name, ascending (R48). -/
def setNames (c : Ctx) (o : S) : List Nat := (List.range 32).filter fun k => c.exec.lanes.any fun l => c.name o l == k

/-- The executing lanes that name a set. -/
def namers (c : Ctx) (o : S) (k : Nat) : Mask := c.exec &&& Mask.ofPred fun l => c.name o l == k

/-- A set number of N or above raises the rejoin-set overflow fault (R19, R48). -/
def overflowFault (c : Ctx) (o : S) (l : Nat) : LaneFault :=
  if c.pack.setCount ≤ c.name o l then some (23, BitVec.ofNat 64 (c.name o l)) else none

/-- A rejoin-set instruction: per lane the overflow fault, then `bad`; then the stores of the lanes `counted` perform, whose arrival counts
toward a set that it completes (R52, R129); then `f` on the pack, whose released paths enter the queue together (R43, R49). -/
def setOp (i : Instr) (h : Head) (o : S) (s : State) (bad : Ctx → Nat → LaneFault) (counted : Ctx → Mask) (f : Ctx → Pack) :
    Host.Outcome State Fault Refusal :=
  run i h s fun c =>
    match laneFaults i c fun l => (overflowFault c o l).or (bad c l) with
    | some r => .fault r s
    | none =>
      let r := drainCounted s c.pack.loc (counted c)
      if r.1 then .done (setPack r.2 ((f c).settlePaths c.pack.qnext)) else stallAt r.2

/-- A lane that names a set of which it is not a member, or at which it has arrived (R49). -/
def misuse (o : S) (c : Ctx) (l : Nat) : LaneFault :=
  let k := c.name o l
  if (c.pack.rset k).member.has l && !(c.pack.rset k).arrived.has l then none else some (24, BitVec.ofNat 64 k)

/-- `rsopen` (R49, R204). -/
def execRsopen (h : Head) (o : S) (s : State) : Host.Outcome State Fault Refusal :=
  run (.rsopen h o) h s fun c =>
    let i : Instr := .rsopen h o
    if c.exec == 0#64 then .done (setPack s (c.pack.retire i c))
    else
      match (List.range c.pack.setCount).find? fun k => !(c.pack.rset k).opened with
      | none => .fault ⟨23, c.exec, BitVec.ofNat 64 c.pack.setCount⟩ s
      | some k =>
        let p := (c.pack.putSet k ⟨c.exec, 0#64, true⟩).writeReg o.d.toNat c.exec fun _ => BitVec.ofNat 32 k
        .done (setPack s (p.retire i c))

/-- `rsenter` (R49). -/
def execRsenter (h : Head) (o : S) (s : State) : Host.Outcome State Fault Refusal :=
  setOp (.rsenter h o) h o s (fun _ _ => none) (fun _ => 0#64) fun c =>
    ((setNames c o).foldl (fun p k =>
      let r := p.rset k
      p.putSet k (if r.opened then { r with member := r.member ||| namers c o k } else ⟨namers c o k, 0#64, true⟩)) c.pack).retire
      (.rsenter h o) c

/-- The pack controls a residency, so that its lanes 1 to 63 are held and their sets stay as they were at `spxenter` (R204). -/
def holdsSets (s : State) (p : Pack) : Bool := laneZeroOnly s p && p.control.isSome

/-- A set without lane 0, which alone leaves it while the other lanes are held (R204, log 71). -/
def RSet.leftHeld (r : RSet) : RSet := if (r.without 1#64).member == 0#64 then RSet.free else r.without 1#64

/-- Lanes quit a set; of a control pack lane 0 alone does, and the set stays open for the held lanes (R204). -/
def Pack.quitAt (p : Pack) (s : State) (k : Nat) (m : Mask) : Pack :=
  if holdsSets s p then (if m.has 0 then p.putSet k (p.rset k).leftHeld else p) else p.quitSet k m

/-- Lanes arrive at a set; a completion by lane 0 of a control pack takes lane 0 alone out of it, as it cannot change what the held lanes are
in the set (R204, log 71). -/
def Pack.arriveAt (p : Pack) (s : State) (k : Nat) (m : Mask) : Pack :=
  if holdsSets s p then
    let r := (p.rset k).with_ m
    p.putSet k (if r.arrived == r.member then r.leftHeld else r)
  else p.arriveSet k m

/-- `rsquit` (R49).  The path goes on first: a completion does not move it. -/
def execRsquit (h : Head) (o : S) (s : State) : Host.Outcome State Fault Refusal :=
  setOp (.rsquit h o) h o s (fun _ _ => none) (fun c => c.pack.countedBy (setNames c o) fun k => RSet.without (namers c o k)) fun c =>
    (setNames c o).foldl (fun p k => p.quitAt s k (namers c o k)) (c.pack.retire (.rsquit h o) c)

/-- `rsarv` (R49): a lane that arrives so is not released by the completion. -/
def execRsarv (h : Head) (o : S) (s : State) : Host.Outcome State Fault Refusal :=
  setOp (.rsarv h o) h o s (misuse o) (fun c => c.pack.countedBy (setNames c o) fun k => RSet.with_ (namers c o k)) fun c =>
    (setNames c o).foldl (fun p k => p.arriveAt s k (namers c o k)) (c.pack.retire (.rsarv h o) c)

/-- The lanes of `m` leave the path and wait on a set (R51); they resume at the next instruction. -/
def Pack.waitOnSet (p : Pack) (m : Mask) (k : Nat) (resume : Quad) : Pack :=
  { p with
    waitSet := Lanes.tab fun l => if m.has l then some k else Lanes.get none p.waitSet l
    resumePc := Lanes.tab fun l => if m.has l then resume else Lanes.get 0#64 p.resumePc l }

/-- `rswait` (R51): the spatial-mode fault in a control pack (R185), after the check of a register error and before those of R49 (log 57). -/
def execRswait (h : Head) (o : S) (s : State) : Host.Outcome State Fault Refusal :=
  run (.rswait h o) h s fun c =>
    let i : Instr := .rswait h o
    if c.exec == 0#64 then .done (setPack s (c.pack.retire i c))
    else
      match laneFaults i c fun l => if c.pack.control.isSome then some (26, 0) else (overflowFault c o l).or (misuse o c l) with
      | some r => .fault r s
      | none =>
        let d := drainCounted s c.pack.loc (c.pack.countedBy (setNames c o) fun k => RSet.with_ (namers c o k))
        if !d.1 then stallAt d.2
        else
        let held := laneZeroOnly s c.pack
        let names := setNames c o
        -- the lanes that wait on each set; under R25 the held lanes wait with lane 0
        let waiters (k : Nat) : Mask := if held then c.path.mask else namers c o k
        let p := names.foldl (fun p k => p.waitOnSet (waiters k) k (nextPc i c)) c.pack
        let p := p.splitPath c.idx (c.movers s) (nextPc i c) (names.map fun k => { pc := c.path.pc, mask := waiters k, wait := .set k })
        .done (setPack d.2 ((names.foldl (fun p k => p.arriveSet k (namers c o k)) p).settlePaths c.pack.qnext))

/-- The lanes a rejoin-set instruction acts for: under R25 lane 0 alone, so that the held lanes keep their membership (R204). -/
def setLanes (s : State) (p : Pack) : Mask := if laneZeroOnly s p then 1#64 else Mask.full

/-- `rsfree` (R49): under R25 lane 0 alone loses its membership (R204). -/
def execRsfree (h : Head) (o : S) (s : State) : Host.Outcome State Fault Refusal :=
  setOp (.rsfree h o) h o s
    (fun c l =>
      let k := c.name o l
      if (c.pack.rset k).opened && (c.pack.waitingOn k) &&& (c.pack.rset k).member != 0#64 then some (25, BitVec.ofNat 64 k) else none)
    (fun _ => 0#64)
    fun c => (setNames c o).foldl (fun p k =>
      let r := (p.rset k).without (setLanes s c.pack)
      p.putSet k (if r.member == 0#64 then RSet.free else r)) (c.pack.retire (.rsfree h o) c)

/-- `rsget` (R202). -/
def execRsget (h : Head) (o : S) (s : State) : Host.Outcome State Fault Refusal :=
  setOp (.rsget h o) h o s (fun _ _ => none) (fun _ => 0#64) fun c =>
    let at_ (l : Nat) : RSet := c.pack.rset (c.name o l)
    let p := match o.mod.toNat with
      | 0 => c.pack.writePair o.d.toNat c.exec fun l => (at_ l).member
      | 1 => c.pack.writePair o.d.toNat c.exec fun l => (at_ l).arrived
      | 2 => c.pack.writePair o.d.toNat c.exec fun l => c.pack.waitingOn (c.name o l)
      | _ => c.pack.writeReg o.d.toNat c.exec fun l => BitVec.ofNat 32 (at_ l).opened.toNat
    p.retire (.rsget h o) c

/-- The masks that `rsput` brings for a set: from the lowest lane that names it, without the lanes that have exited (R203); under R25 for lane
0 alone (R204). -/
def rsputMasks (s : State) (c : Ctx) (o : S) (k : Nat) : Mask × Mask :=
  let l := Mask.lowest (namers c o k)
  let m := c.pack.alive &&& setLanes s c.pack
  (c.q o.b l &&& m, c.q o.d l &&& m)

/-- `rsput` (R49, R203).  A register error of any executing lane in b or d counts, also of one that supplies no masks (log 57). -/
def execRsput (h : Head) (o : S) (s : State) : Host.Outcome State Fault Refusal :=
  setOp (.rsput h o) h o s
    (fun c l =>
      let k := c.name o l
      let m := rsputMasks s c o k
      if !(c.pack.rset k).opened && m.2 &&& ~~~m.1 == 0#64 then none else some (24, BitVec.ofNat 64 k))
    (fun _ => 0#64)
    fun c =>
      (setNames c o).foldl (fun p k =>
        let m := rsputMasks s c o k
        (p.putSet k ⟨m.1, m.2, m.1 != 0#64⟩).checkComplete k) (c.pack.retire (.rsput h o) c)

end Sys2Proof.Machine
end

