-- ==== Sys2Proof/Machine/Issue.lean ====
section
/-!
DEFINITION. What a quarter issues: ready packs and the choice among them (R24, R32-R34, R361), the choice of a path (R43, R44), and the
fetch of an instruction with the faults of R156-R162.
-/

namespace Sys2Proof.Machine

/-- A pack as admission leaves it (R82, R359): registers zero, predicates clear, sets free, one path of lanes 0 to 63 in slot 0. -/
def Pack.admitted (loc : PackLoc) (herd : Option Nat) (part num regCount window setCount level : Nat) (pc : Quad) : Pack :=
  { loc, herd, part, num, regCount, window, setCount, level
    regs := List.replicate regCount (List.replicate 64 0#32)
    preds := List.replicate 7 0#64
    sto := Lanes.tab fun l => BitVec.ofNat 32 (0x5EED0000 + l)
    sets := List.replicate 32 RSet.free
    waitSet := List.replicate 64 none
    resumePc := List.replicate 64 0#64
    paths := [{ pc, mask := Mask.full, slot := some 0 }]
    exited := 0#64, stop := .running, parked := false, record := none, bad := [], control := none, issued := 0, cycle := 0, qnext := 1,
    readyAt := none, passed := 0, starved := false, wakes := [], wake := none, shoot := none }

/-- A handler pack at partition formation (R344, R436): 32 sets, idle, at supervisor level. -/
def Pack.handler (core quarter part regCount window : Nat) : Pack :=
  { Pack.admitted ⟨core, quarter, handlerSlot⟩ none part 0 regCount window 32 1 0#64 with paths := [] }

/-- The partition of a pack runs (R346). -/
def partRuns (s : State) (part : Nat) : Bool := ((findPart s part).map fun p => !p.stopped).getD false

/-- A path waits at a scratchpad line that has become full since, be it empty again (R66). -/
def lineFull (h : Herd) (q : Path) : Bool :=
  match q.wait with
  | .line off fills => !touchesEmpty h off 1 || assocGet 0 h.fills (off / lineSize) != fills
  | .run | .set _ | .bar _ _ _ | .barDone _ _ _ _ | .again _ _ => false

/-- Waiting paths whose scratchpad line has become full are released, to issue their load again (R43, R66). -/
def wakeLines (s : State) (p : Pack) : Pack :=
  match p.herd.bind (findHerd s) with
  | none => p
  | some h => p.releaseWhere (lineFull h) fun q => { q with wbase := 0, wfrom := none }

/-- A path may issue: it is not waiting, and under R25 it holds lane 0. -/
def pathRuns (s : State) (p : Pack) (q : Path) : Bool := q.ready && activeMask s p q != 0#64

/-- The control pack of a residency that is still entering, drains, or awaits reinstall is not ready: it stays at its `spxenter` or `spxleave`,
or where a cut found it (R285, R288, R372).  During a cut the quarter is spatial, and the pack issues (R24). -/
def atSpxenter (s : State) (p : Pack) : Bool :=
  match p.control.bind (findRes s) with
  | none => false
  | some r => r.phase != .active && r.phase != .cutting

/-- A pack is ready (R24, R32, R361). -/
def packReady (s : State) (p : Pack) : Bool :=
  p.stop == .running && !p.parked && partRuns s p.part && !((p.herd.bind (findHerd s)).map (·.saving)).getD false &&
  (p.herd.isSome || p.wake.isSome) && !atSpxenter s p && p.paths.any (fun q => pathRuns s p q) &&
  match (getQuarter s p.loc.core p.loc.quarter).state with
  | .simt => true
  | .parking | .spatial => p.isHandler || p.control.isSome
  | .unparking => false

/-! ### A cycle of a quarter (R34, R361)

A turn of a quarter is one cycle of it (log 18).  Bit `k` of the turn's choice says that the pack of slot `k` has the operands of its next
instruction still outstanding, so that it is not ready (R32); the bits above say which of its slotted paths a pack issues from. -/

/-- The operands of the pack's next instruction are available in this cycle (R32). -/
def operandsReady (choice : Nat) (p : Pack) : Bool := choice / 2 ^ p.loc.slot % 2 == 0

/-- The pack belongs to a quarter. -/
def Pack.inQuarter (core quarter : Nat) (p : Pack) : Bool := p.loc.core == core && p.loc.quarter == quarter

/-- What a pack of the quarter notes at the start of cycle `n`: since when it is ready, and that 64 cycles passed over put it ahead of the
others; a pack that is not ready starts anew (R34, R361). -/
def Pack.noteReady (n : Nat) (ready : Bool) (p : Pack) : Pack :=
  if ready then { p with cycle := p.cycle + 1, readyAt := some (p.readyAt.getD n), starved := p.starved || 64 ≤ p.passed }
  else { p with cycle := p.cycle + 1, readyAt := none, passed := 0, starved := false }

/-- A cycle of a quarter begins. -/
def beginCycle (s : State) (core quarter choice : Nat) : State :=
  let q := getQuarter s core quarter
  let n := q.cycle + 1
  let s' := setQuarter s { q with cycle := n }
  { s' with packs := s.packs.map fun p =>
      if p.inQuarter core quarter then p.noteReady n (packReady s p && operandsReady choice p) else p }

/-- The packs of a quarter that are ready in this cycle. -/
def readyPacks (s : State) (core quarter : Nat) : List Pack :=
  s.packs.filter fun p => p.inQuarter core quarter && p.readyAt.isSome

/-- The pack that became ready earliest; of two, the one in the lower-numbered slot (R34). -/
def earliest : List Pack → Option Pack
  | [] => none
  | p :: ps =>
    match earliest ps with
    | none => some p
    | some r =>
      if p.readyAt.getD 0 < r.readyAt.getD 0 || (p.readyAt.getD 0 == r.readyAt.getD 0 && p.loc.slot ≤ r.loc.slot) then some p else some r

/-- The handler pack has had each of the last three cycles (R34). -/
def handlerSated (q : Quarter) : Bool := (q.recent.take 3).length == 3 && (q.recent.take 3).all id

/-- Of the packs that have been passed over for 64 cycles, those that came to 64 first: they have been passed over longest (R361). -/
def starvedFirst (users : List Pack) : List Pack :=
  let l := users.filter (·.starved)
  l.filter fun p => l.all fun q => q.passed ≤ p.passed

/-- The user pack that is next among the ready ones (R34, R361): one passed over for 64 cycles ahead of the others, the first to have come
to 64; else, and of several that came to 64 in one cycle, the one that became ready earliest. -/
def nextUser (users : List Pack) : Option Pack := (earliest (starvedFirst users)).or (earliest users)

/-- The pack that a quarter issues from (R34): the handler unless it has had the last three cycles and a user pack is ready; else the next
user pack. -/
def choosePack (s : State) (core quarter : Nat) : Option Pack :=
  let ready := readyPacks s core quarter
  let users := ready.filter fun p => !p.isHandler
  match ready.find? (·.isHandler) with
  | some h => if users.isEmpty || !handlerSated (getQuarter s core quarter) then some h else nextUser users
  | none => nextUser users

/-- The cycle goes to a pack, or to none: the other ready packs are passed over, and the quarter keeps its last three cycles (R34, R361). -/
def endCycle (s : State) (core quarter : Nat) (chosen : Option Pack) : State :=
  let q := getQuarter s core quarter
  let loc := chosen.map (·.loc)
  let handler := (chosen.map (·.isHandler)).getD false
  let s := setQuarter s { q with recent := (handler :: q.recent).take 3 }
  { s with packs := s.packs.map fun p =>
      if !p.inQuarter core quarter || p.readyAt.isNone then p
      else if some p.loc == loc then { p with passed := 0, starved := false }
      else { p with passed := p.passed + 1 } }

/-! ### The choice of a path (R33, R43, R44) -/

/-- The slotted path that took its slot last; of two, the one with the higher lowest lane (R43). -/
def youngestSlotted (ps : List Path) : Option Nat :=
  (List.range ps.length).foldl (fun best i =>
    match ps[i]? with
    | some q =>
      if q.slot.isNone then best
      else
        match best with
        | none => some i
        | some j =>
          let r := ps.getD j default
          if r.tookAt < q.tookAt || (r.tookAt == q.tookAt && Mask.lowest r.mask < Mask.lowest q.mask) then some i else best
    | none => best) none

/-- A path takes a slot at once: its own, else that of the youngest slotted path (R44). -/
def Pack.takeSlot (p : Pack) (i : Nat) : Pack :=
  match p.paths[i]? with
  | none => p
  | some q =>
    if q.slot.isSome then p
    else
      match youngestSlotted p.paths with
      | none => p.modPath i fun q => { q with slot := some 0, took := p.issued, tookAt := p.cycle }
      | some j =>
        let k := (p.paths[j]?).bind (·.slot)
        (p.unslot j).modPath i fun q => { q with slot := k, took := p.issued, tookAt := p.cycle }

/-- A path is held (R44). -/
def Pack.hold (p : Pack) (i : Nat) : Pack := (p.takeSlot i).modPath i fun q => { q with held := true }

/-- The path has had its slot for 64 issue cycles of its pack (R43). -/
def rotates (p : Pack) (q : Path) : Bool := q.slot.isSome && !q.held && q.took + 64 ≤ p.issued

/-- The path has not issued for 768 issue cycles of its pack, and has not been waiting (R44). -/
def overdue (p : Pack) (q : Path) : Bool := q.ready && q.last + 768 ≤ p.issued

/-- The places of the paths that satisfy `f`, in ascending order of their lowest lane. -/
def placesByLow (ps : List Path) (f : Path → Bool) : List Nat :=
  (sortByLow (ps.filter f)).map fun q => ps.findIdx (·.mask == q.mask)

/-- Slotted paths whose 64 issue cycles are over hand their slots to the paths that are queued now, one each (R43). -/
def Pack.rotateDue (p : Pack) : Pack :=
  let queued := (p.paths.filter fun q => q.ready && q.slot.isNone).length
  ((placesByLow p.paths (rotates p)).take queued).foldl Pack.yieldSlot p

/-- The path that has gone longest without issuing is held, where one is overdue and none is held already (R44).  DESIGN CHOICE, log 72: of
several overdue at once one is held at a time, the longest unissued first, then the one of the lowest lane. -/
def Pack.holdDue (p : Pack) : Pack :=
  if p.paths.any (·.held) then p
  else
    match ((p.paths.filter (overdue p)).map (·.last)).min? with
    | none => p
    | some t =>
      match (placesByLow p.paths fun q => overdue p q && q.last == t).head? with
      | some i => p.hold i
      | none => p

/-- What R43 and R44 make due before a pack issues.  Under R25 lane 0's path has a slot, and the paths of held lanes take none. -/
def prepare (s : State) (p : Pack) : Pack :=
  if laneZeroOnly s p then
    match p.paths.findIdx? (pathRuns s p) with
    | some i => p.takeSlot i
    | none => p
  else p.rotateDue.holdDue

/-- The path that a pack issues from (R43, R44): the held path, else any path in a slot, whose order the manual leaves open (R41). -/
def choosePath (s : State) (p : Pack) (choice : Nat) : Option Nat :=
  let runs := (List.range p.paths.length).filter fun i =>
    match p.paths[i]? with
    | some q => pathRuns s p q && q.slot.isSome
    | none => false
  match runs.find? fun i => ((p.paths[i]?).map (·.held)).getD false with
  | some i => some i
  | none => if runs.isEmpty then none else runs[choice % runs.length]?

/-- What the word at a path's PC gives: an instruction, a fault of the path with its x bit, or a wait. -/
inductive Fetched where
  | instr (i : Instr)
  | fault (code : Nat) (x : Bool)
  | stall
  deriving Repr

/-- The literal after a first word with x = 1, from the L1 line that the first word's fetch has left there: both lie in one line. -/
def fetchLiteral (s : State) (core : Nat) (t : Tlb) (pa : Nat) (x : Bool) : Quad :=
  if x then
    match (getCore s core).line? (t.line pa) true with
    | some l => BitVec.ofNat 64 (numLE ((List.range 8).map fun k => l.bytes.getD (pa % lineSize + 8 + k) 0))
    | none => 0#64
  else 0#64

/-- Fetch and decode at a PC, with the faults in the order of R159; a word with x = 1 in a patch slot is illegal (R162). -/
def fetchAt (s : State) (p : Pack) (pc : Nat) : Fetched × State :=
  match fetchWord s p.loc.core p.part p.level pc with
  | (.fault code, s') => (.fault code false, s')
  | (.stall, s') => (.stall, s')
  | (.word w pa t, s') =>
    let x := xBit w
    if x && pc % 16 == 8 then (.fault 3 x, s')
    else if p.level < wordLevel w then (.fault 4 x, s')
    else if x && t.patch && patchSlot s' t pa then (.fault 5 x, s')
    else
      match decode w (fetchLiteral s' p.loc.core t pa x) with
      | .ok i => (.instr i, s')
      | .error _ => (.fault 5 x, s')

/-- The accounts of an issue (R43, R44): the pack's issue cycles and the path's last issue. -/
def account (s : State) (p : Pack) (i : Nat) : State :=
  let n := p.issued + 1
  setPack s ({ p with issued := n }.modPath i fun q => { q with last := n, held := false })

end Sys2Proof.Machine
end

