-- ==== Sys2Proof/Machine/Integer.lean ====
section
/-!
DEFINITION. The integer, logic, shift, bit-field, compare and select instructions, opcodes 0x01-0x1D (R183-R193).
-/

namespace Sys2Proof.Machine

/-- A V/I arithmetic instruction: put of an exact function of the typed operands (R186). -/
def aluVI (i : Instr) (h : Head) (o : VI) (s : State) (f : Int → Int → Int) : Host.Outcome State Fault Refusal :=
  runPack i h s fun c =>
    c.pack.writeT (VI.ty o) (VI.d o) c.exec fun l => tyPut (f (c.tval (VI.ty o) (VI.a o) l) (c.opB o l)) (VI.ty o) (VI.sat o)

/-- A V arithmetic instruction with three typed operands (R186). -/
def aluV (i : Instr) (h : Head) (o : V) (s : State) (f : Int → Int → Int → Int) : Host.Outcome State Fault Refusal :=
  runPack i h s fun c =>
    c.pack.writeT o.ty o.d c.exec fun l => tyPut (f (c.tval o.ty o.a l) (c.tval o.ty o.b l) (c.tval o.ty o.c l)) o.ty o.sat

/-- A bitwise V/I instruction: fn[0] complements b (R190). -/
def bitVI (i : Instr) (h : Head) (o : VI) (s : State) (f : Nat → Nat → Nat) : Host.Outcome State Fault Refusal :=
  runPack i h s fun c =>
    let t := VI.ty o
    c.pack.writeT t (VI.d o) c.exec fun l =>
      let b := truncI (c.opB o l) (tyW t)
      f (c.tbits t (VI.a o) l) (if VI.variant o % 2 == 1 then 2 ^ tyW t - 1 - b else b)

/-- A shift: a function of the width, a and the amount (R190). -/
def shiftVI (i : Instr) (h : Head) (o : VI) (s : State) (f : Nat → Nat → Nat → Nat) : Host.Outcome State Fault Refusal :=
  runPack i h s fun c =>
    let t := VI.ty o
    c.pack.writeT t (VI.d o) c.exec fun l => f (tyW t) (c.tbits t (VI.a o) l) (c.shiftB o l)

/-- Integer dot product (R189): `e` bits per element. -/
def dotProduct (i : Instr) (h : Head) (o : V) (s : State) (e : Nat) : Host.Outcome State Fault Refusal :=
  runPack i h s fun c =>
    let ext (signed : Bool) (v : Nat) : Int := if signed then sextN v e else (v : Int)
    let fn := o.fn.toNat
    c.pack.writeT o.ty o.d c.exec fun l =>
      let prods : List Int := (List.range (32 / e)).map fun k =>
        ext (fn % 2 == 1) (field (c.v o.a l).toNat e k) * ext (fn / 2 % 2 == 1) (field (c.v o.b l).toNat e k)
      tyPut (sextN (c.v o.c l).toNat 32 + prods.sum) o.ty o.sat

/-! ### Bit helpers -/

/-- The number of 1 bits among the low `w` (R190). -/
def popCount (w v : Nat) : Nat := ((List.range w).filter fun k => v / 2 ^ k % 2 == 1).length
/-- Leading zeros in `w` bits (R190). -/
def leadingZeros (w v : Nat) : Nat := if v == 0 then w else w - 1 - v.log2
/-- The low `w` bits reversed (R190). -/
def bitReverse (w v : Nat) : Nat := (List.range w).foldl (fun acc k => acc + v / 2 ^ k % 2 * 2 ^ (w - 1 - k)) 0
/-- Bit `k` of d is the bit of the truth table that a, b and c select there (R190). -/
def lop3Bits (w table a b c : Nat) : Nat :=
  (List.range w).foldl (fun acc k =>
    acc + table / 2 ^ (a / 2 ^ k % 2 + 2 * (b / 2 ^ k % 2) + 4 * (c / 2 ^ k % 2)) % 2 * 2 ^ k) 0
/-- `shl` (R190). -/
def shlBits (w a n : Nat) : Nat := if w ≤ n then 0 else a * 2 ^ n % 2 ^ w
/-- `shr` (R190). -/
def shrBits (w a n : Nat) : Nat := if w ≤ n then 0 else a / 2 ^ n
/-- `sar` (R190). -/
def sarBits (w a n : Nat) : Nat := truncI (sextN a w / (2 ^ min n (w - 1) : Nat)) w
/-- `fshf` (R190): fn 0 right, 1 left. -/
def fshfBits (left : Bool) (a b c : Nat) : Nat :=
  let y := a * 2 ^ 32 + b
  let n := min c 32
  if left then y * 2 ^ n / 2 ^ 32 % 2 ^ 32 else y / 2 ^ n % 2 ^ 32
/-- `bfx` (R191). -/
def bfxBits (w : Nat) (signed : Bool) (a ctl : Nat) : Nat :=
  let pos := ctl % 256
  let len := ctl / 256 % 256
  if w ≤ pos || len == 0 then 0
  else
    let n := min len (w - pos)
    let f := a / 2 ^ pos % 2 ^ n
    if signed then truncI (sextN f n) w else f
/-- `bfi` (R191). -/
def bfiBits (w a b ctl : Nat) : Nat :=
  let pos := ctl % 256
  let len := ctl / 256 % 256
  if w ≤ pos || len == 0 then a
  else
    let n := min len (w - pos)
    a - a / 2 ^ pos % 2 ^ n * 2 ^ pos + b % 2 ^ n * 2 ^ pos

/-! ### The instructions -/

/-- `iadd` (R186). -/
def execIadd (h : Head) (o : VI) (s : State) := aluVI (.iadd h o) h o s (· + ·)
/-- `isub` (R186). -/
def execIsub (h : Head) (o : VI) (s : State) := aluVI (.isub h o) h o s (· - ·)
/-- `imul` (R186): `.hi` keeps the high w bits of the exact product. -/
def execImul (h : Head) (o : VI) (s : State) :=
  aluVI (.imul h o) h o s fun a b => if VI.variant o == 1 then a * b / (2 ^ tyW (VI.ty o) : Nat) else a * b
/-- `imad` (R186). -/
def execImad (h : Head) (o : V) (s : State) := aluV (.imad h o) h o s fun a b c => a * b + c
/-- `imulw` (R186): 32-bit operands, the product into 64 bits. -/
def execImulw (h : Head) (o : V) (s : State) : Host.Outcome State Fault Refusal :=
  runPack (.imulw h o) h s fun c =>
    c.pack.writePair o.d.toNat c.exec fun l => BitVec.ofNat 64 (truncI (c.tval o.ty o.a l * c.tval o.ty o.b l) 64)
/-- `imin` (R186). -/
def execImin (h : Head) (o : VI) (s : State) := aluVI (.imin h o) h o s min
/-- `imax` (R186). -/
def execImax (h : Head) (o : VI) (s : State) := aluVI (.imax h o) h o s max
/-- `iabs` (R186). -/
def execIabs (h : Head) (o : V) (s : State) := aluV (.iabs h o) h o s fun a _ _ => (a.natAbs : Int)
/-- `iclamp` (R186). -/
def execIclamp (h : Head) (o : V) (s : State) := aluV (.iclamp h o) h o s fun a b c => min (max a b) c
/-- `isad` (R186). -/
def execIsad (h : Head) (o : V) (s : State) := aluV (.isad h o) h o s fun a b c => ((a - b).natAbs : Int) + c

/-- `iaddc` (R187): the sum or difference with a carry-in, and the carry-out predicate. -/
def execIaddc (h : Head) (o : V) (s : State) : Host.Outcome State Fault Refusal :=
  runPack (.iaddc h o) h s fun c =>
    let t := o.ty
    let sub := o.fn.toNat / 8 % 2 == 1
    let x (l : Nat) : Int :=
      let ci : Int := if c.pack.pred o.c.toNat l then 1 else 0
      if sub then c.tval t o.a l - c.tval t o.b l - ci else c.tval t o.a l + c.tval t o.b l + ci
    (c.pack.writeT t o.d c.exec fun l => truncI (x l) (tyW t)).writePred (o.fn.toNat % 8) c.exec fun l =>
      if sub then x l < 0 else (2 ^ tyW t : Nat) ≤ x l

/-- `lea` (R188). -/
def execLea (h : Head) (o : V) (s : State) : Host.Outcome State Fault Refusal :=
  runPack (.lea h o) h s fun c =>
    c.pack.writePair o.d.toNat c.exec fun l =>
      BitVec.ofNat 64 (truncI (((c.q o.a l).toNat : Int) + tyVal o.ty (c.v o.b l).toNat * (2 ^ (o.fn.toNat % 8) : Nat)) 64)

/-- `and` (R190). -/
def execAnd (h : Head) (o : VI) (s : State) := bitVI (.and h o) h o s Nat.land
/-- `or` (R190). -/
def execOr (h : Head) (o : VI) (s : State) := bitVI (.or h o) h o s Nat.lor
/-- `xor` (R190). -/
def execXor (h : Head) (o : VI) (s : State) := bitVI (.xor h o) h o s Nat.xor

/-- `lop3` (R190). -/
def execLop3 (h : Head) (o : V) (s : State) : Host.Outcome State Fault Refusal :=
  runPack (.lop3 h o) h s fun c =>
    c.pack.writeT o.ty o.d c.exec fun l =>
      lop3Bits (tyW o.ty) o.fn.toNat (c.tbits o.ty o.a l) (c.tbits o.ty o.b l) (c.tbits o.ty o.c l)

/-- `shl` (R190). -/
def execShl (h : Head) (o : VI) (s : State) := shiftVI (.shl h o) h o s shlBits
/-- `shr` (R190). -/
def execShr (h : Head) (o : VI) (s : State) := shiftVI (.shr h o) h o s shrBits
/-- `sar` (R190). -/
def execSar (h : Head) (o : VI) (s : State) := shiftVI (.sar h o) h o s sarBits

/-- `fshf` (R190). -/
def execFshf (h : Head) (o : V) (s : State) : Host.Outcome State Fault Refusal :=
  runPack (.fshf h o) h s fun c =>
    c.pack.writeT o.ty o.d c.exec fun l =>
      fshfBits (o.fn.toNat == 1) (c.v o.a l).toNat (c.v o.b l).toNat (c.v o.c l).toNat

/-- `bfx` (R191). -/
def execBfx (h : Head) (o : V) (s : State) : Host.Outcome State Fault Refusal :=
  runPack (.bfx h o) h s fun c =>
    c.pack.writeT o.ty o.d c.exec fun l => bfxBits (tyW o.ty) (tySigned o.ty) (c.tbits o.ty o.a l) (c.v o.b l).toNat

/-- `bfi` (R191). -/
def execBfi (h : Head) (o : V) (s : State) : Host.Outcome State Fault Refusal :=
  runPack (.bfi h o) h s fun c =>
    c.pack.writeT o.ty o.d c.exec fun l => bfiBits (tyW o.ty) (c.tbits o.ty o.a l) (c.tbits o.ty o.b l) (c.v o.c l).toNat

/-- `popc` (R190). -/
def execPopc (h : Head) (o : V) (s : State) : Host.Outcome State Fault Refusal :=
  runPack (.popc h o) h s fun c =>
    c.pack.writeReg o.d.toNat c.exec fun l => BitVec.ofNat 32 (popCount (tyW o.ty) (c.tbits o.ty o.a l))

/-- `clz` (R190). -/
def execClz (h : Head) (o : V) (s : State) : Host.Outcome State Fault Refusal :=
  runPack (.clz h o) h s fun c =>
    c.pack.writeReg o.d.toNat c.exec fun l => BitVec.ofNat 32 (leadingZeros (tyW o.ty) (c.tbits o.ty o.a l))

/-- `brev` (R190). -/
def execBrev (h : Head) (o : V) (s : State) : Host.Outcome State Fault Refusal :=
  runPack (.brev h o) h s fun c =>
    c.pack.writeT o.ty o.d c.exec fun l => bitReverse (tyW o.ty) (c.tbits o.ty o.a l)

/-- `icmp` (R192): the I form has no combination and no predicate source. -/
def execIcmp (h : Head) (o : VI) (s : State) : Host.Outcome State Fault Refusal :=
  runPack (.icmp h o) h s fun c =>
    c.pack.writePred (VI.d o).toNat c.exec fun l =>
      let q := icond (VI.variant o % 8) (c.tval (VI.ty o) (VI.a o) l) (c.opB o l)
      match o with
      | .v w => combine (w.fn.toNat / 8 % 4) q (c.pack.pred w.c.toNat l)
      | .i _ => q

/-- `sel` (R193): bits move unchanged. -/
def execSel (h : Head) (o : V) (s : State) : Host.Outcome State Fault Refusal :=
  runPack (.sel h o) h s fun c =>
    c.pack.writeT o.ty o.d c.exec fun l => if c.pack.pred o.c.toNat l then c.tbits o.ty o.a l else c.tbits o.ty o.b l

/-- `idp4` (R189). -/
def execIdp4 (h : Head) (o : V) (s : State) := dotProduct (.idp4 h o) h o s 8
/-- `idp2` (R189). -/
def execIdp2 (h : Head) (o : V) (s : State) := dotProduct (.idp2 h o) h o s 16

end Sys2Proof.Machine
end

