-- ==== Sys2Proof/Machine/Copy.lean ====
section
/-!
DEFINITION. The tile copy engine: the copy instructions, opcodes 0x96-0x98 and 0x9B, and the landing and suspension of copies
(R104, R111, R131, R132, R254-R261).
-/

namespace Sys2Proof.Machine

/-- The words of a copy record (R255). -/
structure CopyRec where
  lbase   : Nat
  rowb    : Nat
  rows    : Nat
  gstride : Nat
  lstride : Nat
  deriving DecidableEq, Repr

/-- A record from its four words. -/
def copyRec (w : List Word) : CopyRec :=
  let x (k : Nat) : Nat := (w.getD k 0).toNat
  ⟨x 0, x 1 % 65536, x 1 / 65536, x 2, x 3⟩

/-- ext(n, b, s) (R255). -/
def copyExt (n b s : Nat) : Nat := if n == 0 || b == 0 then 0 else (n - 1) * s + b

/-- A copy as an instruction or a `req` token asks for it. -/
structure CopyReq where
  kind  : CopyKind
  /-- the destination is the OPM -/
  opm   : Bool
  bar   : Option Nat
  gbase : Nat
  r     : CopyRec
  deriving DecidableEq, Repr

/-- The element size of a sparse form, 0 for none. -/
def CopyKind.elem : CopyKind → Nat
  | .load sp _ => sp
  | .store cp _ => cp
  | .gather _ => 0

/-- The metadata address. -/
def CopyKind.mdata : CopyKind → Nat
  | .load _ m => m.toNat
  | .store _ m => m.toNat
  | .gather _ => 0

/-- The copy writes global memory. -/
def CopyKind.isStore : CopyKind → Bool
  | .store _ _ => true
  | .load _ _ | .gather _ => false

/-- Local rows, the stride between them, and the bytes of a global row (R257-R259). -/
def CopyReq.localRows (q : CopyReq) : Nat :=
  match q.kind with
  | .gather rows => rows.length
  | .load _ _ | .store _ _ => q.r.rows
def CopyReq.localStride (q : CopyReq) : Nat :=
  match q.kind with
  | .gather _ => q.r.rowb
  | .load _ _ | .store _ _ => q.r.lstride
def CopyReq.globalRowBytes (q : CopyReq) : Nat := if q.kind.elem == 0 then q.r.rowb else q.r.rowb / 2

/-- The local offset: the scratchpad offset, or the byte offset within the slot (R255). -/
def CopyReq.offset (q : CopyReq) : Nat := if q.opm then q.r.lbase % 65536 else q.r.lbase
/-- The OPM slot of a record. -/
def CopyReq.slot (q : CopyReq) : Nat := q.r.lbase / 65536 % 16

/-- `check_record` for the local region of a copy (R111). -/
def checkLocal (h : Option Herd) (q : CopyReq) : LaneFault :=
  let off := q.offset
  let ext := copyExt q.localRows q.r.rowb q.localStride
  let bars := (h.map (·.bars.length)).getD 0
  if off % 128 != 0 || q.r.rowb % 128 != 0 || q.localStride % 128 != 0 then some (7, BitVec.ofNat 64 off)
  else if q.opm then (if 32768 < off + ext then some (16, BitVec.ofNat 64 q.slot) else none)
  else if spadLimit h < off + ext then some (11, BitVec.ofNat 64 off)
  else if ext != 0 && off < 16 * bars then some (13, BitVec.ofNat 64 off)
  else none

/-- The checks on the global region (R255). -/
def checkGlobal (q : CopyReq) : LaneFault :=
  let b := q.globalRowBytes
  let rows := match q.kind with | .gather _ => q.r.lstride | .load _ _ | .store _ _ => q.r.rows
  let ext := copyExt rows b q.r.gstride
  if q.gbase % 16 != 0 || q.r.gstride % 16 != 0 || b % 16 != 0 then some (7, BitVec.ofNat 64 q.gbase)
  else if !canonical q.gbase then some (8, BitVec.ofNat 64 q.gbase)
  else if ext != 0 && (2 ^ 64 ≤ q.gbase + ext - 1 || !canonical (q.gbase + ext - 1)) then some (8, BitVec.ofNat 64 (q.gbase + ext - 1))
  else none

/-- The further conditions of R255, with those of the sparse forms (R257, R258).  The detail of the OPM-slot fault is lbase[31:16], so that it
also shows a non-zero [31:20] (DESIGN CHOICE, log 73). -/
def checkRecord (h : Option Herd) (q : CopyReq) : LaneFault :=
  let slots := (h.map (·.opm.length)).getD 0
  let e := q.kind.elem
  let isGather := match q.kind with | .gather _ => true | .load _ _ | .store _ _ => false
  if q.opm && (slots ≤ q.slot || 2 ^ 20 ≤ q.r.lbase) then some (16, BitVec.ofNat 64 (q.r.lbase / 65536))
  else if !isGather && 1 < q.r.rows && (q.r.lstride < q.r.rowb || (q.kind.isStore && q.r.gstride < q.globalRowBytes)) then some (18, 0)
  else if e != 0 && (q.r.rowb % (128 * e) != 0 || q.kind.mdata % 16 != 0) then some (18, 0)
  else none

/-- The named barrier has k < n and init ≠ 0 (R255). -/
def checkCopyBar (h : Option Herd) (q : CopyReq) : LaneFault :=
  match q.bar with
  | none => none
  | some k =>
    match h.bind fun h => h.bars[k]? with
    | some b => if b.init == 0 then some (20, BitVec.ofNat 64 k) else none
    | none => some (20, BitVec.ofNat 64 k)

/-- The checks of a copy at issue but for its row indices, in the order of R255. -/
def checkCopy (h : Option Herd) (q : CopyReq) : LaneFault :=
  ((checkLocal h q).or (checkGlobal q)).or ((checkRecord h q).or (checkCopyBar h q))

/-! ### Lines (R104, R256) -/

/-- One landing of a copy: the local offset, the row and column it comes from, and for a copy out its global address and length; `meta_`
for a run of metadata. -/
structure CopyLine where
  loc   : Nat
  row   : Nat
  col   : Nat
  ga    : Nat
  len   : Nat
  meta_ : Bool
  deriving DecidableEq, Repr

/-- A global range cut at 128-byte lines, with offsets from its start. -/
def cutLines (ga len : Nat) : Nat → Nat → List (Nat × Nat × Nat)
  | 0, _ => []
  | fuel + 1, off =>
    if len ≤ off then []
    else
      let a := ga + off
      let n := min (len - off) (lineSize - a % lineSize)
      (off, a, n) :: cutLines ga len fuel (off + n)

/-- The landings of a copy in order (R104, R257-R259). -/
def Copy.lines (c : Copy) : List CopyLine :=
  let perRow := c.rowb / lineSize
  match c.kind with
  | .load _ _ =>
    (List.range c.rows).flatMap fun (r : Nat) => (List.range perRow).map fun k =>
      ⟨c.lbase + r * c.lstride + k * lineSize, r, k * lineSize, 0, lineSize, false⟩
  | .gather rows =>
    (List.range rows.length).flatMap fun j => (List.range perRow).map fun k =>
      ⟨c.lbase + j * c.rowb + k * lineSize, rows.getD j 0, k * lineSize, 0, lineSize, false⟩
  | .store cp mdata =>
    let growb := if cp == 0 then c.rowb else c.rowb / 2
    let values := (List.range c.rows).flatMap fun (r : Nat) =>
      let ga := truncI (c.gbase.toNat + r * c.gstride) 64
      (cutLines ga growb (growb / lineSize + 2) 0).map fun x => (⟨c.lbase + r * c.lstride, r, x.1, x.2.1, x.2.2, false⟩ : CopyLine)
    let mlen := if cp == 0 then 0 else c.rows * (c.rowb / (8 * cp))
    let metas := (cutLines mdata.toNat mlen (mlen / lineSize + 2) 0).map fun x => (⟨c.lbase, 0, x.1, x.2.1, x.2.2, true⟩ : CopyLine)
    values ++ metas

/-- The herd's queued scratchpad stores to some lines perform (R106); `false` where one is not ready. -/
def settleLines (s : State) (core : Nat) (herd : Option Nat) (lines : List Nat) : Bool × State :=
  drainWhere s core fun e => herd.isSome && e.herd == herd && match e.op with
    | .spad off bs _ => lines.any fun k => k * lineSize < off + bs.length && off < k * lineSize + lineSize
    | .global _ _ _ _ _ | .writeBack _ _ | .releaseFence => false

/-- The queue entry that a copy takes. -/
def newCopy (s : State) (loc : PackLoc) (herd : Option Nat) (part level : Nat) (seq : Word) (q : CopyReq) : Copy :=
  { entry := ((List.range 64).find? fun k => !(getCore s loc.core).copies.any (·.entry == k)).getD 0
    tag := s.nextId, herd, loc, seq, part, level, kind := q.kind, opm := if q.opm then some q.slot else none, bar := q.bar,
    gbase := BitVec.ofNat 64 q.gbase, lbase := q.offset, rowb := q.r.rowb, rows := q.localRows, gstride := q.r.gstride,
    lstride := q.localStride, done := [], suspended := none }

/-- The scratchpad lines that a copy lands in. -/
def Copy.dst (c : Copy) : List Nat := if c.kind.isStore || c.opm.isSome then [] else c.lines.map fun x => x.loc / lineSize

/-- A herd's lines become empty for a copy, and its barrier counts it (R104, R250, R256). -/
def Herd.await (c : Copy) (h : Herd) : Herd :=
  let h := setEmpty h c.dst
  let h := { h with tags := (c.dst.map fun k => (k, c.tag)) ++ h.tags.filter fun t => !(c.dst.contains t.1) }
  match c.bar with
  | none => h
  | some k => { h with bars := h.bars.modify k fun b => { b with landings := b.landings + 1 } }

/-- A copy enters the queue of its core: the queued stores to its destination lines perform first (R106, R132: the copy's bytes are the later
ones), and `false` where one of them is not ready; then the lines become empty.  One that carries no line completes at once. -/
def issueCopy (s : State) (loc : PackLoc) (herd : Option Nat) (part level : Nat) (seq : Word) (q : CopyReq) : Bool × State :=
  let c := newCopy s loc herd part level seq q
  let d := settleLines s loc.core herd c.dst
  let s := { d.2 with nextId := s.nextId + 1 }
  if !d.1 then d
  else if c.lines.isEmpty then (true, s)
  else
    let s := modCore s loc.core fun k => { k with copies := k.copies ++ [c] }
    match herd with
    | none => (true, s)
    | some h => (true, modHerd (dropSpad s loc.core h c.dst) h (Herd.await c))

/-! ### The instructions -/

/-- The copy a copy instruction asks for, from the lowest executing lane (R254). -/
def copyReqOf (c : Ctx) (o : S) (kind : CopyKind) (opm : Bool) : CopyReq :=
  { kind, opm, bar := if o.mod.toNat / 2 % 2 == 1 then none else some o.idx.toNat, gbase := (c.q o.a c.low).toNat,
    r := copyRec (c.words o.b 4 c.low) }

/-- A copy instruction (R254-R259): `q` is the copy; its operands are the registers `once` of the lowest executing lane and, for the row
indices of `tgather`, the registers `each` of every executing lane (R432), whose faults are `bad`.  Of a fault of the first kind and one of
the second the lower code is reported (R68). -/
def copyOp (i : Instr) (h : Head) (s : State) (once each : List Nat) (q : Ctx → CopyReq) (bad : Ctx → CopyReq → Nat → LaneFault) :
    Host.Outcome State Fault Refusal :=
  run i h s fun c =>
    if c.exec == 0#64 then .done (setPack s (c.pack.retire i c))
    else
      let q := q c
      let hd := c.herd s
      match lowerFault (onceFault once c (checkCopy hd q)) (pickFault c.exec fun l => (poisonFault c.pack each l).or (bad c q l)) with
      | some f => .fault f s
      | none =>
        -- a full queue holds the instruction back; the lanes' older stores perform before the copy reads (R131, R256)
        if 64 ≤ (getCore s c.pack.loc.core).copies.length then stallAt s
        else
          let r := drain s c.pack.loc c.exec
          if !r.1 then stallAt r.2
          else
            let d := issueCopy r.2 c.pack.loc c.pack.herd c.pack.part c.pack.level ((hd.map (·.seq)).getD 0) q
            if d.1 then .done (setPack d.2 (c.pack.retire i c)) else stallAt d.2

/-- `tcopy` (R257). -/
def execTcopy (h : Head) (o : S) (s : State) : Host.Outcome State Fault Refusal :=
  copyOp (.tcopy h o) h s (sourceRegs (.tcopy h o)) []
    (fun c => copyReqOf c o (.load (o.mod.toNat / 4 % 4) (if o.mod.toNat / 4 % 4 == 0 then 0 else c.q o.d c.low)) (o.mod.toNat % 2 == 1))
    fun _ _ _ => none

/-- `tstore` (R258). -/
def execTstore (h : Head) (o : S) (s : State) : Host.Outcome State Fault Refusal :=
  copyOp (.tstore h o) h s (sourceRegs (.tstore h o)) []
    (fun c => copyReqOf c o (.store (o.mod.toNat / 4 % 4) (if o.mod.toNat / 4 % 4 == 0 then 0 else c.q o.d c.low)) false)
    fun _ _ _ => none

/-- `tgather` (R259). -/
def execTgather (h : Head) (o : S) (s : State) : Host.Outcome State Fault Refusal :=
  copyOp (.tgather h o) h s ([0, 1].map (o.a.toNat + ·) ++ [0, 1, 2, 3].map (o.b.toNat + ·)) [o.d.toNat]
    (fun c => copyReqOf c o (.gather (c.exec.lanes.map fun l => (c.v o.d l).toNat)) (o.mod.toNat % 2 == 1))
    fun c q l => if q.r.lstride ≤ (c.v o.d l).toNat then some (19, (c.v o.d l).zeroExtend 64) else none

/-! ### Landing (R104, R256-R258) -/

/-- The bytes of a block with, for each, whether it lies in a poisoned granule. -/
def markedBytes (s : State) (core : Nat) (ps : List (Nat × Nat × Tlb)) : List (Byte × Bool) :=
  ps.flatMap fun x => (List.range x.2.1).map fun k =>
    (l2Byte s (dieOf core) x.2.2 (x.1 + k), l2Poisoned s (dieOf core) x.2.2 (x.1 + k) 1)

/-- A copy's access to a global range: its parts by page. -/
def copyResolve (s : State) (core : Nat) (c : Copy) (acc : Acc) (va len : Nat) : Block × State :=
  resolveBlock s core c.part c.level acc (pageParts va len 4)

/-- The zero byte that expansion puts in. -/
def zeroByte : Byte × Bool := (0, false)

/-- 2:4 expansion of one group: element size `e`, its two source elements and its nibble (R257). -/
def expandGroup (e : Nat) (src : List (Byte × Bool)) (nib : Nat) (nibBad : Bool) : List (Byte × Bool) :=
  let el (k : Nat) := (src.drop (k * e)).take e
  (List.range 4).flatMap fun k =>
    let v := if k == nib / 4 % 4 then el 1 else if k == nib % 4 then el 0 else List.replicate e zeroByte
    v.map fun x => (x.1, x.2 || nibBad)

/-- 128 dense bytes from 64 source bytes and their metadata (R257). -/
def expandLine (e : Nat) (src md : List (Byte × Bool)) : List (Byte × Bool) :=
  (List.range (32 / e)).flatMap fun g =>
    let m := md.getD (g / 2) zeroByte
    expandGroup e ((src.drop (g * 2 * e)).take (2 * e)) (m.1.toNat / 16 ^ (g % 2) % 16) m.2

/-- The positions that compaction keeps of four elements (R258). -/
def keptPair (els : List (List (Byte × Bool))) : Nat × Nat :=
  let nz := (List.range 4).filter fun k => (els.getD k []).any fun x => x.1 != 0
  let zs := (List.range 4).filter fun k => !nz.contains k
  match nz with
  | a :: b :: _ => (a, b)
  | [a] => let z := zs.headD 0; (min a z, max a z)
  | [] => (0, 1)

/-- The four elements of a scratchpad group at `off`. -/
def groupEls (h : Herd) (e off : Nat) : List (List (Byte × Bool)) :=
  (List.range 4).map fun k => (List.range e).map fun b => (spadByte h (off + k * e + b), spadPoisoned h (off + k * e + b) 1)

/-- The bytes a copy out writes at one landing, and the scratchpad ranges it reads (R258). -/
def storeLineBytes (h : Herd) (c : Copy) (x : CopyLine) : List (Byte × Bool) :=
  let e := c.kind.elem
  if e == 0 then (List.range x.len).map fun k => (spadByte h (x.loc + x.col + k), spadPoisoned h (x.loc + x.col + k) 1)
  else if x.meta_ then
    let perRow := c.rowb / (8 * e)
    (List.range x.len).map fun k =>
      let m := x.col + k
      let base := c.lbase + m / perRow * c.lstride + m % perRow * 8 * e
      let nib (g : Nat) : Nat := let p := keptPair (groupEls h e (base + g * 4 * e)); p.2 * 4 + p.1
      (BitVec.ofNat 8 (nib 0 + 16 * nib 1), false)
  else
    (List.range x.len).map fun k =>
      let v := x.col + k
      let els := groupEls h e (x.loc + v / (2 * e) * 4 * e)
      let p := keptPair els
      ((els.getD (if v / e % 2 == 0 then p.1 else p.2) []).getD (v % e) zeroByte)

/-- The scratchpad range a landing of a copy out reads. -/
def storeLineSource (c : Copy) (x : CopyLine) : List (Nat × Nat) :=
  let e := c.kind.elem
  if e == 0 then [(x.loc + x.col, x.len)]
  else if x.meta_ then
    let perRow := c.rowb / (8 * e)
    (List.range x.len).map fun k => (c.lbase + (x.col + k) / perRow * c.lstride + (x.col + k) % perRow * 8 * e, 8 * e)
  else [(x.loc + x.col * 2, x.len * 2)]

/-- How one landing stands: its access faults, or waits, or gives the state after it. -/
inductive Landing where
  | fault (code addr : Nat) (s : State)
  | wait (s : State)
  | done (s : State)

/-- The data of a landing of a copy in (R257, R259), read in the step of the landing (DESIGN CHOICE, log 67). -/
def loadLineData (s : State) (core : Nat) (c : Copy) (x : CopyLine) : Except Landing (List (Byte × Bool) × State) :=
  let e := c.kind.elem
  let row := truncI (c.gbase.toNat + x.row * c.gstride) 64
  let src := if e == 0 then copyResolve s core c .read (row + x.col) lineSize else copyResolve s core c .read (row + x.col / 2) 64
  match src with
  | (.fault code a, s') => .error (.fault code a s')
  | (.stall, s') => .error (.wait s')
  | (.ok ps, s') =>
    if e == 0 then .ok (markedBytes s' core ps, s')
    else
      match copyResolve s' core c .read (truncI (c.kind.mdata + x.row * (c.rowb / (8 * e)) + x.col / (8 * e)) 64) (16 / e) with
      | (.fault code a, s'') => .error (.fault code a s'')
      | (.stall, s'') => .error (.wait s'')
      | (.ok ms, s'') => .ok (expandLine e (markedBytes s'' core ps) (markedBytes s'' core ms), s'')

/-- Granules of `g` bytes that hold a marked byte, for data at `off`. -/
def markedGranules (g off : Nat) (d : List (Byte × Bool)) : List Nat :=
  (((List.range d.length).filter fun k => (d.getD k zeroByte).2).map fun k => (off + k) / g).eraseDups

/-- A line lands in the scratchpad, unless a younger copy has emptied it since (R256); poison is kept (R260). -/
def landSpad (s : State) (herd tag off : Nat) (d : List (Byte × Bool)) : State :=
  modHerd s herd fun h =>
    let line := off / lineSize
    if ((h.tags.find? (·.1 == line)).map (·.2)).getD tag != tag then h
    else
      let h := spadWrite h off (d.map (·.1))
      setFull { h with bad := markedGranules 4 off d ++ h.bad } [line]

/-- A line lands in an OPM slot (R110, R260). -/
def landOpm (s : State) (herd slot off : Nat) (d : List (Byte × Bool)) : State :=
  modSlot s herd slot fun t =>
    { t with
      data := memWrite 0#8 t.data off (d.map (·.1))
      bad := markedGranules 16 off d ++ t.bad.filter fun g => !(off ≤ 16 * g && 16 * g + 16 ≤ off + d.length) }

/-- Poison that a landing brings to a global range (R260, R429): to the untracked copy that holds the bytes, else to the home. -/
def landMarks (s : State) (die : Nat) (t : Tlb) (pa : Nat) (d : List (Byte × Bool)) : State :=
  let marks := markedGranules 8 (placed pa (t.kind == 1)) d
  let copy := if t.copied die pa then scFind s (t.line pa) die else none
  if marks.isEmpty then s
  else
    match copy with
    | some c => scPut s { c with bad := (marks.map (· % 16)) ++ c.bad.filter fun g => !(marks.map (· % 16)).contains g }
    | none => { s with poison := marks ++ s.poison.filter fun g => !marks.contains g }

/-- Data written to a global range by the engine: at the L2, no L1 updated (R132); poison is kept. -/
def landGlobal (s : State) (part core : Nat) : List (Nat × Nat × Tlb) → List (Byte × Bool) → State
  | [], _ => s
  | (pa, n, t) :: ps, d =>
    let here := d.take n
    landGlobal (landMarks (globalWrite s part core (dieOf core) t pa (here.map (·.1)) false) (dieOf core) t pa here) part core ps (d.drop n)

/-- Every landing of a copy is done: it leaves the queue and its outstanding landing ends (R250, R256). -/
def finishCopy (s : State) (core : Nat) (c : Copy) : State :=
  let s := modCore s core fun k => { k with copies := k.copies.filter (·.tag != c.tag) }
  match c.herd, c.bar with
  | some h, some k => modHerd s h fun hd => { hd with bars := hd.bars.modify k fun b => { b with landings := b.landings - 1 } }
  | _, _ => s

/-- One landing is done: its bytes are counted to the barrier, and the copy completes with its last one (R108, R256). -/
def countLanding (s : State) (core : Nat) (c : Copy) (line n : Nat) : State :=
  let c' := { c with done := line :: c.done }
  let s := modCore s core fun k => { k with copies := updWhere (·.tag == c.tag) (fun _ => c') k.copies }
  let s := if c'.done.length == c.lines.length then finishCopy s core c' else s
  match c.herd, c.bar with
  | some h, some k =>
    match (findHerd s h).bind fun hd => hd.bars[k]? with
    | some b => settlePacks s (putBarrier s h k (b.landing n))
    | none => s
  | _, _ => s

/-- The landing of a line of a copy in (R256). -/
def landLoad (s : State) (core : Nat) (c : Copy) (line : Nat) (x : CopyLine) : Landing :=
  match loadLineData s core c x with
  | .error e => e
  | .ok (d, s') =>
    match c.herd with
    | none => .wait s'
    | some h =>
      let s'' := match c.opm with
        | some k => landOpm s' h k x.loc d
        | none => landSpad s' h c.tag x.loc d
      .done (countLanding s'' core c line lineSize)

/-- The landing of a line of a copy out (R258): its source lines must be full. -/
def landStore (s : State) (core : Nat) (c : Copy) (line : Nat) (x : CopyLine) : Landing :=
  match c.herd.bind (findHerd s) with
  | none => .wait s
  | some h =>
    if (storeLineSource c x).any fun r => touchesEmpty h r.1 r.2 then .wait s
    else
      match copyResolve s core c (.write false) x.ga x.len with
      | (.fault code a, s') => .fault code a s'
      | (.stall, s') => .wait s'
      | (.ok ps, s') => .done (countLanding (landGlobal s' c.part core ps (storeLineBytes h c x)) core c line x.len)

/-- The copy of a queue entry. -/
def findCopy (s : State) (core entry : Nat) : Option Copy := (getCore s core).copies.find? (·.entry == entry)

/-- One landing of a copy. -/
def landLine (s : State) (core : Nat) (c : Copy) (line : Nat) : Landing :=
  match c.lines[line]? with
  | none => .wait s
  | some x => if c.kind.isStore then landStore s core c line x else landLoad s core c line x

/-- `COPY_LINE_LANDING` (R104, R256): a line that has not landed lands whole; a line that cannot land waits. -/
def execCopyLineLanding (core entry line : Nat) (s : State) : Host.Outcome State Fault Refusal :=
  match findCopy s core entry with
  | none => .next s
  | some c =>
    if c.suspended.isSome || c.done.contains line then .next s
    else
      match landLine s core c line with
      | .fault _ _ _ => .next s
      | .wait s' => .next s'
      | .done s' => .next s'

/-- `COPY_FAULT` (R260): a line whose page faults suspends the copy, and its cause goes to the handler of the issuing pack's quarter. -/
def execCopyFault (core entry line : Nat) (s : State) : Host.Outcome State Fault Refusal :=
  match findCopy s core entry with
  | none => .next s
  | some c =>
    if c.suspended.isSome || c.done.contains line then .next s
    else
      match landLine s core c line with
      | .fault code a s' =>
        let n := s'.nextId
        let s' := modCore { s' with nextId := n + 1 } core fun k =>
          { k with copies := updWhere (·.tag == c.tag) (fun c => { c with suspended := some ⟨code, BitVec.ofNat 64 a, s'.clock, false, n⟩ }) k.copies }
        .next (queueCause s' core c.loc.quarter
          { code, src := 1, quarter := c.loc.quarter, slot := c.loc.slot, unit := entry, seq := c.seq, detail := BitVec.ofNat 64 a,
            machine := routedToMachine s' c.part code, serial := n })
      | .wait _ | .done _ => .next s

/-! ### Cancelling (R104, R113, R261) -/

/-- The unlanded scratchpad lines of a cancelled copy are full, with any data (R8, R104). -/
def cancelLines (s : State) (c : Copy) : State :=
  match c.herd with
  | none => s
  | some h =>
    if c.kind.isStore || c.opm.isSome then s
    else
      (List.range c.lines.length).foldl (fun s k =>
        match c.lines[k]? with
        | none => s
        | some x =>
          if c.done.contains k then s
          else
            let any : List (Byte × Bool) := (List.range lineSize).map fun b => (Config.anyByte (s.fresh + b), false)
            { landSpad s h c.tag x.loc any with fresh := s.fresh + lineSize }) s

/-- One copy cancelled: nothing more lands, nothing is counted, and its outstanding landing ends. -/
def cancelCopy (s : State) (core : Nat) (c : Copy) : State := finishCopy (cancelLines s c) core c

/-- `tcancel` (R261). -/
def execTcancel (h : Head) (o : S) (s : State) : Host.Outcome State Fault Refusal :=
  run (.tcancel h o) h s fun c =>
    let i : Instr := .tcancel h o
    if c.exec == 0#64 then .done (setPack s (c.pack.retire i c))
    else
      let all := o.mod.toNat % 2 == 1
      let k := o.idx.toNat
      let bad : LaneFault := if !all && (barOf c s k).isNone then some (20, BitVec.ofNat 64 k) else none
      match wholeFault i c bad with
      | some f => .fault f s
      | none =>
        let core := c.pack.loc.core
        let hit := (getCore s core).copies.filter fun x => c.pack.herd.isSome && x.herd == c.pack.herd && (all || x.bar == some k)
        let p := c.pack.writeReg o.d.toNat c.exec fun _ => BitVec.ofNat 32 hit.length
        .done (hit.foldl (fun s x => cancelCopy s core x) (setPack s (p.retire i c)))

end Sys2Proof.Machine
end

