-- ==== Sys2Proof/Machine/Regions.lean ====
section
/-!
DEFINITION. Regions and registers: the quarters of a region (R12, R13), the registers a quarter has free (R21, R26), parking and unparking
(R27, R29), leases (R286, R426), and the roll-back and end of a residency (R285, R288).
-/

namespace Sys2Proof.Machine

/-- The quarters of the region of a shape that contains a quarter, ascending (R13, R26). -/
def regionQuarters (shape quarter : Nat) : List Nat :=
  match shape with
  | 0 => [quarter]
  | 1 => if quarter < 2 then [0, 1] else [2, 3]
  | 2 => if quarter % 2 == 0 then [0, 2] else [1, 3]
  | _ => [0, 1, 2, 3]

/-- The width and height of a shape in cells (R13). -/
def shapeWidth (shape : Nat) : Nat := if shape == 1 || shape == 3 then 16 else 8
def shapeHeight (shape : Nat) : Nat := if shape == 2 || shape == 3 then 16 else 8
/-- The cells of a shape. -/
def shapeCells (shape : Nat) : Nat := shapeWidth shape * shapeHeight shape

/-- The registers that a pack of A registers and window class W reserves (R21). -/
def reserve (regs window : Nat) : Nat := regs + 8 * 2 ^ window

/-- The registers of a quarter (R10). -/
def quarterRegs : Nat := 2048

/-- The quarters of a residency's region. -/
def Residency.quarters (r : Residency) : List Nat := regionQuarters r.mould.shape r.ctl.quarter

/-- The residency holds its region: from the start of parking until it is unparked (R24, R26). -/
def Residency.holds (r : Residency) : Bool :=
  match r.phase with
  | .lease | .install | .active | .draining | .cutting => true
  | .validate | .saved => false

/-- The residency has taken its queue registers (R285). -/
def Residency.installed (r : Residency) : Bool :=
  match r.phase with
  | .active | .draining | .cutting => true
  | .validate | .lease | .install | .saved => false

/-- A residency other than `except_` holds a quarter. -/
def coveredBy (s : State) (core quarter : Nat) (f : Residency → Bool) : Bool :=
  s.residencies.any fun r => f r && r.ctl.core == core && r.quarters.contains quarter

/-- The registers that the packs and the residency of a quarter hold (R21). -/
def heldRegs (s : State) (core quarter : Nat) (f : Pack → Bool) : Nat :=
  ((s.packs.filter fun p => p.loc.core == core && p.loc.quarter == quarter && f p).map fun p => reserve p.regCount p.window).sum +
    ((s.residencies.filter fun r => r.installed && r.ctl.core == core && r.quarters.contains quarter).map (·.mould.qregs)).sum

/-- The free registers of a quarter. -/
def freeRegs (s : State) (core quarter : Nat) : Nat := quarterRegs - heldRegs s core quarter fun _ => true

/-- The launch of a partition by its number. -/
def findLaunch (s : State) (part : Nat) (seq : Word) : Option Launch := (findPart s part).bind fun p => p.launches.find? (·.seq == seq)

/-- The launch of a herd. -/
def launchOf (s : State) (h : Herd) : Option Launch := findLaunch s h.part h.seq

/-- The shape of the region that a kind-1 herd still reserves (R31, R358). -/
def reservedShape (s : State) (h : Herd) : Option Nat :=
  if h.reserves then (launchOf s h).map (·.desc.shape) else none

/-- A resident kind-1 herd reserves a quarter. -/
def reservedBy (s : State) (core quarter : Nat) (f : Herd → Bool) : Bool :=
  s.herds.any fun h => f h && h.place == .resident && h.core == core &&
    match reservedShape s h with
    | none => false
    | some sh => (s.packs.filter fun p => p.herd == some h.id).any fun p => (regionQuarters sh p.loc.quarter).contains quarter

/-! ### Parking and unparking (R27, R29) -/

/-- A pack of a region's quarters that parking stops: every one but the control pack and the handlers. -/
def parks (core : Nat) (quarters : List Nat) (ctl : PackLoc) (p : Pack) : Bool :=
  p.loc.core == core && quarters.contains p.loc.quarter && p.loc != ctl && !p.isHandler

/-- Every quarter of a list put into a state. -/
def setQuarters (s : State) (core : Nat) (quarters : List Nat) (st : QuarterState) : State :=
  quarters.foldl (fun s q => setQuarter s { getQuarter s core q with state := st }) s

/-- The packs of a region stop at their precise points (R27). -/
def park (s : State) (r : Residency) : State :=
  let s := setQuarters s r.ctl.core r.quarters .parking
  { s with packs := s.packs.map fun p =>
      if parks r.ctl.core r.quarters r.ctl p then (if p.stop == .running then { p.freeze (now s) with parked := true } else { p with parked := true }) else p }

/-- Each parked pack may issue again, its counts running on (R29). -/
def unpark (s : State) (r : Residency) : State :=
  let s := setQuarters s r.ctl.core r.quarters .unparking
  { s with packs := s.packs.map fun p =>
      if p.parked && parks r.ctl.core r.quarters r.ctl p then
        (if p.stop == .running then { p.thaw (now s) with parked := false } else { p with parked := false })
      else p }

/-! ### Leases (R286, R426) -/

/-- The lease of a residency, or its request, given back. -/
def returnLease (s : State) (r : Residency) : State :=
  modDie s (dieOf r.ctl.core) fun d =>
    { d with
      granted := if r.leased then d.granted - r.mould.lease else d.granted
      requests := d.requests.filter (·.res != r.id) }

/-- The pack no longer controls a residency. -/
def releaseControl (s : State) (r : Residency) : State :=
  { s with packs := s.packs.map fun p => if p.control == some r.id then { p with control := none } else p }

/-- The region is given up: lease, queue registers and quarters (R285, R288, R291). -/
def vacate (s : State) (r : Residency) : State :=
  let s := returnLease s r
  if r.holds then unpark s r else s

/-- A residency ends (R288, R382): nothing of it stays. -/
def endResidency (s : State) (r : Residency) : State :=
  let s := releaseControl (vacate s r) r
  { s with
    residencies := s.residencies.filter (·.id != r.id)
    herds := updWhere (·.residency == some r.id) (fun h => { h with residency := none }) s.herds }

/-- A roll back (R285, R292): a fresh `spxenter` is undone; a reinstall goes back to the saved state. -/
def rollBack (s : State) (r : Residency) : State :=
  if r.restore then modRes (vacate s r) r.id fun r => { r with phase := .saved, leased := false } else endResidency s r

/-- A saved residency enters the phases of `spxenter` again, in the region that contains its control pack's quarter (R292). -/
def reinstall (s : State) (rid : Nat) (ctl : PackLoc) : State :=
  modRes s rid fun r => { r with phase := .validate, restore := true, leased := false, saveHerd := false, ctl, since := now s }

end Sys2Proof.Machine
end

