-- ==== Sys2Proof/Machine/Spatial.lean ====
section
/-!
DEFINITION. Moulds and channels: the cell word (R165), the mould checks (R163-R169, R271, R315, R316), feeders (R277), tokens (R267), the
channels of a residency (R270), and its semaphores (R280, R282).
-/

namespace Sys2Proof.Machine

/-! ### The cell word (R165) -/

/-- Its fields. -/
def cwCop (w : Quad) : Nat := bitsOf w.toNat 63 58
def cwLtype (w : Quad) : Nat := bitsOf w.toNat 37 34
def cwCfg (w : Quad) : Nat := bitsOf w.toNat 31 0
/-- Bits [33] and [32] of config: the row feeder is input A, the column feeder is input B (R315). -/
def cwFa (w : Quad) : Bool := bitsOf w.toNat 33 33 == 1
def cwFb (w : Quad) : Bool := bitsOf w.toNat 32 32 == 1

/-- The consumer fields in order, as a region index with an input (0-3 for A-D), 0xFF for none; `fork` has two more (R316). -/
def cwFields (w : Quad) : List (Nat × Nat) :=
  let n := w.toNat
  if cwCop w == 0 then []
  else
    [(bitsOf n 57 50, bitsOf n 49 48), (bitsOf n 47 40, bitsOf n 39 38)] ++
      if cwCop w == 2 then [(bitsOf n 31 24, bitsOf n 23 22), (bitsOf n 21 14, bitsOf n 13 12)] else []

/-- The consumers: place of the field, region index and input. -/
def cwConsumers (w : Quad) : List (Nat × Nat × Nat) :=
  ((List.range 4).filterMap fun k => ((cwFields w)[k]?).map fun f => (k, f.1, f.2)).filter fun x => x.2.1 != 255

/-- A cell with neither consumer (R288).  A `fork` counts as having one when any of its four fields names a cell, also where the check of R169
on a link type with no consumer asks (DESIGN CHOICE, log 68). -/
def cwSink (w : Quad) : Bool := (cwConsumers w).isEmpty

/-- The put mode and the get mode of `pass` (R316). -/
def cwPut (w : Quad) : Bool := cwCop w == 1 && cwCfg w % 2 == 1
def cwGet (w : Quad) : Bool := cwCop w == 1 && cwCfg w / 2 % 2 == 1

/-- The operators that take stream commands: `agen`, `mpld`, `mpst`, `spld`, `spst`, `gath`, `tas` (R279). -/
def cwPort (w : Quad) : Bool := (0x0D ≤ cwCop w && cwCop w ≤ 0x12) || cwCop w == 0x14

/-- The source ports of R304. -/
def cwSourcePort (w : Quad) : Bool := cwCop w == 0x0D || cwCop w == 0x0E || cwCop w == 0x10 || cwCop w == 0x12

/-! ### What an operator takes and gives (R316) -/

/-- An input of an operator accepts a link type. -/
def acceptsType (w : Quad) (port t : Nat) : Bool :=
  let c := cwCfg w
  let any := 1 ≤ t && t ≤ 15
  match cwCop w with
  | 0x01 => port == 0 && any && c % 2 == 0
  | 0x02 | 0x05 => port == 0 && any
  | 0x03 => c / 4 / 2 ^ port % 2 == 1 && any
  | 0x04 => (port == 0 && any) || (port == 1 && t == 1)
  | 0x06 => (port == 0 || (port == 1 && c / 32 % 2 == 0)) && t == 2
  | 0x07 => (t == 3 || t == 15) && (match c / 8 % 4 with | 0 => port ≤ 2 | 3 => port == 0 | _ => port ≤ 1)
  | 0x08 => port == 0 && 3 ≤ t && t ≤ 5
  | 0x09 => port == 0 && ((2 ≤ t && t ≤ 11) || t == 15)
  | 0x0A => port == 0 && ((3 ≤ t && t ≤ 5) || t == 15)
  | 0x0B => port ≤ 1 && 4 ≤ t && t ≤ 10
  | 0x0C => (port == 0 || (port == 1 && c / 2 % 2 == 0)) && t == 12
  | 0x0F | 0x11 => port == 0 && any && t != 14
  | 0x12 => port == 0 && t == 13
  | 0x13 => port == 0 && (t == 14 || t == 2)
  | 0x14 => (port == 0 && t == 13) || (port == 1 && (t == 2 || t == 3))
  | 0x16 => port == 0 && t == 1
  | _ => false

/-- An operator has an input at all. -/
def hasInput (w : Quad) (port : Nat) : Bool := (List.range 16).any fun t => acceptsType w port t

/-- The ltype of a cell is one its row lists. -/
def ltypeOk (w : Quad) : Bool :=
  let t := cwLtype w
  let c := cwCfg w
  match cwCop w with
  | 0x01 => if c / 2 % 2 == 1 then t == 0 else t != 0
  | 0x02 | 0x03 | 0x04 => t != 0
  | 0x05 => t == 1
  | 0x06 => t == 2
  | 0x07 | 0x0A => t == 3
  | 0x08 => 3 ≤ t && t ≤ 5
  | 0x09 => 2 ≤ t && t ≤ 11
  | 0x0B => 4 ≤ t && t ≤ 10
  | 0x0C => t == 12
  | 0x0D => t == 13
  | 0x0E | 0x10 | 0x12 => 1 ≤ t && t ≤ 13
  | 0x0F | 0x11 | 0x13 => t == 0
  | 0x14 => if c / 64 % 2 == 1 then t == 2 || t == 3 else t == 0
  | 0x15 => t == 15
  | 0x16 => t ≤ 1
  | _ => false

/-- The bits of config [31:0] that an operator uses. -/
def cfgUsed (cop : Nat) : Nat :=
  match cop with
  | 0x01 => 0x3
  | 0x02 => 0xFFFFF000
  | 0x03 => 0x3F
  | 0x04 => 0x1
  | 0x05 => 0xFFFFFFFF
  | 0x06 => 0x803FFFFF
  | 0x07 => 0x801FFFFF
  | 0x08 => 0xFF
  | 0x09 => 0x7
  | 0x0A => 0x80001FFF
  | 0x0B => 0xFF
  | 0x0C => 0x3
  | 0x14 => 0x8000007F
  | 0x16 => 0x1FF
  | _ => 0

/-- Config holds no reserved value (R315-R326); whether a `cvt` allows its value is checked with its input type.  The
fields of an `acc` mode must be 0 outside it (DEDUCED, log 68), and a `merge`, whose mask names linked inputs, takes no feeder (DESIGN CHOICE,
log 68). -/
def cfgOk (w : Quad) : Bool :=
  let c := cwCfg w
  let bit (n : Nat) : Bool := c / 2 ^ n % 2 == 1
  Nat.land c (cfgUsed (cwCop w)) == c && (!cwFa w || (hasInput w 0 && !cwPut w)) && (!cwFb w || hasInput w 1) &&
  match cwCop w with
  | 0x01 => c != 3
  | 0x03 => c % 4 != 3 && 2 ≤ ((List.range 4).filter fun k => bit (k + 2)).length && !cwFa w && !cwFb w
  | 0x06 =>
    let op := c % 16
    op ≤ 12 && (!bit 4 || op ≤ 1) && (if bit 5 then op == 0 || (2 ≤ op && op ≤ 7) else c / 64 == 0)
  | 0x07 => c / 8 % 4 == 3 || c / 32 == 0
  | 0x08 => c % 16 ≤ 13 && (c % 16 == 13 || c / 16 == 0)
  | 0x0A => c / 2 % 4 ≤ 2 && !(bit 31 && c / 2 % 4 == 2)
  | 0x14 => c / 16 % 4 ≤ 2 && c % 16 ≤ 8 && (c / 16 % 4 != 2 || aopOk (c % 16) 9)
  | _ => true

/-- The type code (R147) of a link type's elements; the MX types are not among them. -/
def linkTy (t : Nat) : Nat :=
  match t with
  | 2 => 2 | 4 => 10 | 5 => 9 | 6 => 11 | 7 => 12 | 11 => 0 | _ => 8

/-- A link type carries MX blocks. -/
def isMx (t : Nat) : Bool := 8 ≤ t && t ≤ 10

/-- The conversions of `cvt` cells with their config [2:0] (R322).  `acc`, which R322 reads as f32, is taken into an MX type too, whose bullet names
FP32, FP16 and BF16 alone (DESIGN CHOICE, log 68). -/
def cellCvtOk (st dt cfg : Nat) : Bool :=
  if isMx dt then (st == 3 || st == 4 || st == 5 || st == 15) && cfg == 0
  else if isMx st || (st == 15 && dt == 3) then dt == 3 && cfg == 0
  else
    match cvtKind (linkTy st) (linkTy dt) with
    | none => false
    | some .round | some .fromInt => true
    | some .exact | some .widen => cfg == 0
    | some .toInt => cfg < 4
    | some .narrow => cfg % 4 == 0

/-! ### The mould (R163, R164) -/

/-- Header bits [127:64]. -/
structure Header where
  version : Nat
  shape   : Nat
  qregs   : Nat
  lease   : Nat
  semmax  : Nat
  ncells  : Nat
  deriving DecidableEq, Repr

/-- A header from its high half. -/
def header (hi : Nat) : Header :=
  ⟨bitsOf hi 63 56, bitsOf hi 55 54, bitsOf hi 53 40, bitsOf hi 39 24, bitsOf hi 23 16, bitsOf hi 15 0⟩

/-- The words of an image after its header. -/
def imageWords : Nat → List Byte → List Quad
  | 0, _ => []
  | n + 1, bs => BitVec.ofNat 64 (numLE (bs.take 8)) :: imageWords n (bs.drop 8)

/-- A link: consumer, input, producer and type. -/
structure Link where
  to_  : Nat
  port : Nat
  src  : Nat
  ty   : Nat
  deriving DecidableEq, Repr

/-- The links of a mould in order of their producers; a word whose cop is reserved names no input (DESIGN CHOICE, log 68). -/
def mouldLinks (words : List Quad) : List Link :=
  (List.range words.length).flatMap fun i =>
    let w := words.getD i 0
    if 0x16 < cwCop w then [] else (cwConsumers w).map fun x => ⟨x.2.1, x.2.2, i, cwLtype w⟩

/-- The distinct inputs of cell `i`: link inputs, feeder inputs, and the input of a put-mode `pass` (R270, R316). -/
def cellInputs (words : List Quad) (i : Nat) : List Nat :=
  let w := words.getD i 0
  (List.range 4).filter fun k =>
    (k == 0 && (cwFa w || cwPut w)) || (k == 1 && cwFb w) || (mouldLinks words).any fun l => l.to_ == i && l.port == k

/-- The offset of a cell word in the image. -/
def cellOffset (i : Nat) : Nat := 16 + 8 * i

/-- A cell word fails on its own account or by its consumer fields (R166, R169, R315): where an input is named twice, or is not to be named,
the words that name it fail (DESIGN CHOICE, log 68). -/
def producerBad (h : Header) (words : List Quad) (links : List Link) (i : Nat) : Bool :=
  let w := words.getD i 0
  let cop := cwCop w
  let wd := shapeWidth h.shape
  if cop == 0 then w != 0
  else if 0x16 < cop || !cfgOk w || !ltypeOk w then true
  else
    cwSink w != (cwLtype w == 0) ||
    (cwFa w && i % wd % 8 != 0) || (cwFb w && i / wd % 8 != 0) ||
    (i == 255 && !(cop == 5 || cop == 0x0D || cop == 0x0E || cop == 0x10)) ||
    (cop == 0x0B && (cwCfg w == 255 || words.length ≤ cwCfg w || cwCop (words.getD (cwCfg w) 0) != 0x15)) ||
    (cop == 0x0C && cwCfg w / 2 % 2 == 0 && (cwConsumers w).length != 2) ||
    (links.filter (·.src == i)).any fun l =>
      words.length ≤ l.to_ || cwCop (words.getD l.to_ 0) == 0 ||
      1 < (links.filter fun k => k.to_ == l.to_ && k.port == l.port).length ||
      (l.port == 0 && cwFa (words.getD l.to_ 0)) || (l.port == 1 && cwFb (words.getD l.to_ 0)) ||
      (l.port == 2 && !(i == l.to_ + 1 && l.to_ / wd == i / wd)) || (l.port == 3 && i != l.to_ + wd)

/-- A cell word fails by what its inputs bring (R169, R316, R322). -/
def consumerBad (words : List Quad) (links : List Link) (i : Nat) : Bool :=
  let w := words.getD i 0
  let ins := links.filter (·.to_ == i)
  let ty (k : Nat) : Option Nat := (ins.find? (·.port == k)).map (·.ty)
  let same (k : Nat) : Bool := ((ty k).map (· == cwLtype w)).getD true
  ins.any (fun l => !acceptsType w l.port l.ty) ||
  match cwCop w with
  | 0x01 => !(cwGet w || same 0)
  | 0x02 | 0x04 | 0x08 => !same 0
  | 0x03 => !((List.range 4).all fun k => (cwCfg w / 4 / 2 ^ k % 2 == 1) == (ty k).isSome && same k)
  | 0x09 => ((ty 0).map fun t => !cellCvtOk t (cwLtype w) (cwCfg w)).getD false
  | 0x0B => !(same 0 && same 1)
  | _ => false

/-- The checks of R169 after the version check, on the header and all `ncells` words: the lowest failing offset.  `image` is the bytes that
the digest covers; where `ncells` is out of range no cell word is looked at beyond the shape. -/
def checkTable (h : Header) (digest : List Byte) (image : List Byte) (words : List Quad) : Option Nat :=
  let words := words.take (shapeCells h.shape)
  let links := mouldLinks words
  let cells := (List.range words.length).filter fun i => producerBad h words links i || consumerBad words links i
  let hdr : List (Nat × Bool) :=
    [(0, (sha256 image).take 8 != digest), (8, h.ncells == 0 || shapeCells h.shape < h.ncells),
     (11, h.lease == 0 && words.any fun w => cwCop w == 0x0B), (13, 2048 < h.qregs || h.qregs % 8 != 0)]
  (((hdr.filter (·.2)).map (·.1)) ++ (cells.map cellOffset)).min?

/-- The depth check (R271). -/
def checkDepth (h : Header) (words : List Quad) : Option Nat :=
  ((List.range words.length).find? fun i =>
    let n := (cellInputs words i).length
    n != 0 && h.qregs / 8 / n < 4).map cellOffset

/-- The mould of a checked image. -/
def mouldOf (h : Header) (words : List Quad) : Mould := ⟨h.shape, h.qregs, h.lease, h.semmax, h.ncells, words⟩

/-! ### Geometry (R12, R13, R277) -/

/-- The lowest cell coordinates of a quarter. -/
def quarterXY (q : Nat) : Nat × Nat := (q % 2 * 8, q / 2 * 8)

/-- The lowest coordinates of a residency's region. -/
def Residency.origin (r : Residency) : Nat × Nat := quarterXY (r.quarters.headD 0)

/-- The region index of the cell at device coordinates. -/
def Residency.index (r : Residency) (x y : Nat) : Nat := (y - r.origin.2) * shapeWidth r.mould.shape + (x - r.origin.1)

/-- The cell and input that a feeder of the region can deliver to, if the cell takes it. -/
def Residency.feederTarget (r : Residency) (f : Nat) : Option (Nat × Nat) :=
  let q := f / 16
  let k := f % 16
  let o := quarterXY q
  if !(f < 64 && r.quarters.contains q) then none
  else if k < 8 then
    let i := r.index o.1 (o.2 + k)
    if cwFa (r.mould.words.getD i 0) then some (i, 0) else none
  else
    let i := r.index (o.1 + (k - 8)) o.2
    if cwFb (r.mould.words.getD i 0) then some (i, 1) else none

/-- The port numbers of a residency, ascending: its port cells, its `rqst` cells, which stop as ports do, and 256 + f for its feeders
(R268, R279, R298). -/
def Residency.portNumbers (r : Residency) : List Nat :=
  ((List.range r.mould.words.length).filter fun i => cwPort (r.mould.words.getD i 0) || cwCop (r.mould.words.getD i 0) == 0x13) ++
    (((List.range 64).filter fun f => (r.feederTarget f).isSome).map (256 + ·))

/-! ### Tokens (R267) -/

/-- A mark (R269). -/
def Token.mark (k : TokenKind) : Token := ⟨k, 0, 0, 0⟩

/-- Bits and number of the elements of a link type. -/
def linkBits (t : Nat) : Nat :=
  match t with
  | 4 | 5 => 16 | 6 | 7 | 9 | 10 | 11 => 8 | 8 => 4 | 12 | 13 => 64 | 14 => 256 | _ => 32
def linkCount (t : Nat) : Nat :=
  match t with
  | 1 | 14 => 1 | 4 | 5 => 16 | 6 | 7 | 8 | 9 | 10 | 11 => 32 | 12 | 13 => 4 | _ => 8

/-- The elements of a token's payload, read as a link type. -/
def elements (t : Nat) (x : Token) : List Nat := (List.range (linkCount t)).map fun k => field x.payload.toNat (linkBits t) k

/-- Elements packed, the first lowest. -/
def packElements (w : Nat) : List Nat → Nat
  | [] => 0
  | e :: es => e % 2 ^ w + 2 ^ w * packElements w es

/-- A data token of a link type from its elements and side field. -/
def Token.data (t : Nat) (es : List Nat) (side : Nat) : Token := ⟨.data, t, BitVec.ofNat 256 (packElements (linkBits t) es), BitVec.ofNat 8 side⟩

/-- The memory footprint tb (R301). -/
def footprint (t : Nat) : Nat := if t == 1 then 4 else if t == 8 then 16 else 32

/-- Every bit that a link type leaves unused is zero (R267). -/
def unusedZero (t : Nat) (x : Token) : Bool :=
  (match t with
   | 1 => x.payload.toNat < 2 ^ 32
   | 8 => x.payload.toNat < 2 ^ 128
   | 14 => x.payload.toNat < 2 ^ 201
   | _ => true) &&
  (match t with
   | 8 | 9 | 10 => true
   | 15 => x.side.toNat < 8
   | _ => x.side == 0)

/-! ### Channels (R265, R270) -/

/-- A cell at install: channels empty, counts zero, banks +0, bank 0 active (R266, R275, R285). -/
def Cell.fresh (w : Quad) : Cell :=
  { word := w, chans := List.replicate 4 []
    data := { counts := [0, 0, 0, 0], words := [], buffer := [], bank0 := List.replicate 64 0, bank1 := List.replicate 64 0,
              active1 := false, draining := false, panelA := [], panelB := [] }
    eos := false, putEos := false, saved := false, whistled := [], saveArea := List.replicate 4 [] }

/-- A port with an empty queue. -/
def Port.fresh (n : Nat) : Port :=
  { num := n, queue := [], ranges := [], ended := false, flagged := false, eos := false, stopped := none, lastType := 0, whistle := false, relatch := [],
    dropped := [] }

/-- A cell of a residency; an index that names none is off. -/
def Residency.cell (r : Residency) (i : Nat) : Cell := r.cells.getD i (Cell.fresh 0)

/-- A cell changed. -/
def Residency.modCell (r : Residency) (i : Nat) (f : Cell → Cell) : Residency := { r with cells := r.cells.modify i f }

/-- A port of a residency by its number. -/
def Residency.port? (r : Residency) (n : Nat) : Option Port := r.ports.find? (·.num == n)

/-- A port changed. -/
def Residency.modPort (r : Residency) (n : Nat) (f : Port → Port) : Residency := { r with ports := updWhere (·.num == n) f r.ports }

/-- The channel of an input. -/
def Cell.chan (c : Cell) (k : Nat) : List Token := c.chans.getD k []

/-- The configured inputs of a cell of a residency. -/
def Residency.inputs (r : Residency) (i : Nat) : List Nat := cellInputs r.mould.words i

/-- A channel has a free slot (R270). -/
def Residency.room (r : Residency) (i k : Nat) : Bool :=
  ((r.cell i).chan k).length < r.mould.qregs / 8 / max 1 (r.inputs i).length

/-- Every consumer of a cell has a free slot (R265). -/
def Residency.canEmit (r : Residency) (i : Nat) : Bool := (cwConsumers (r.cell i).word).all fun x => r.room x.2.1 x.2.2

/-- A token enters a channel at its tail. -/
def Residency.deliver (r : Residency) (i k : Nat) (x : Token) : Residency :=
  r.modCell i fun c => { c with chans := c.chans.modify k (· ++ [x]) }

/-- A token sent to every consumer of a cell. -/
def Residency.emit (r : Residency) (i : Nat) (x : Token) : Residency :=
  (cwConsumers (r.cell i).word).foldl (fun r f => r.deliver f.2.1 f.2.2 x) r

/-- A token sent to the consumer that field `k` names, if it names one. -/
def Residency.emitTo (r : Residency) (i k : Nat) (x : Token) : Residency :=
  match (cwConsumers (r.cell i).word).find? (·.1 == k) with
  | some f => r.deliver f.2.1 f.2.2 x
  | none => r

/-- The head of a channel taken. -/
def Residency.take (r : Residency) (i k : Nat) : Residency := r.modCell i fun c => { c with chans := c.chans.modify k (·.drop 1) }

/-- The head of a channel. -/
def Residency.head? (r : Residency) (i k : Nat) : Option Token := ((r.cell i).chan k).head?

/-- The operator state of a cell changed. -/
def Residency.modData (r : Residency) (i : Nat) (f : CellData → CellData) : Residency :=
  r.modCell i fun c => { c with data := f c.data }

/-- Counter `q` of a cell. -/
def CellData.count (d : CellData) (q : Nat) : Nat := d.counts.getD q 0
/-- Counter `q` set. -/
def CellData.setCount (d : CellData) (q n : Nat) : CellData := { d with counts := d.counts.set q n }

/-- A step of chained counters with their limits (R266): the counters from `q` on, and whether the last one wrapped. -/
def CellData.step (d : CellData) (q : Nat) : List Nat → CellData × Bool
  | [] => (d, true)
  | lim :: lims => if d.count q + 1 < lim then (d.setCount q (d.count q + 1), false) else (d.setCount q 0).step (q + 1) lims

/-! ### Semaphores (R280, R282) -/

/-- A semaphore's value. -/
def Residency.sem (r : Residency) (k : Nat) : Nat := assocGet 0 r.sems k

/-- A signal: saturating at 2^32 − 1, which is noted (R282). -/
def Residency.signal (r : Residency) (k inc : Nat) : Residency :=
  let v := r.sem k + inc
  { r with sems := assocPut 0 r.sems k (min v (2 ^ 32 - 1)), semovf := r.semovf || 2 ^ 32 ≤ v }

/-- One attempt at a wait (R280): met, the semaphore is reduced at once; else the wait is in the queue of waits.  A wait that began
earlier and can be met goes first. -/
def Residency.tryWait (r : Residency) (sem thr port : Nat) : Bool × Residency :=
  if thr == 0 then (true, r)
  else
    let me := (sem, thr, port)
    let earlier := if r.semWaits.contains me then r.semWaits.takeWhile (· != me) else r.semWaits
    if thr ≤ r.sem sem && !(earlier.any fun w => w.1 == sem && w.2.1 ≤ r.sem sem) then
      (true, { r with sems := assocPut 0 r.sems sem (r.sem sem - thr), semWaits := r.semWaits.erase me })
    else (false, if r.semWaits.contains me then r else { r with semWaits := r.semWaits ++ [me] })

/-- Whether a wait would be met now. -/
def Residency.waitMet (r : Residency) (sem thr port : Nat) : Bool := (r.tryWait sem thr port).1

end Sys2Proof.Machine
end

