-- ==== Sys2Proof/Machine/Cells.lean ====
section
/-!
DEFINITION. The cell operators that touch no memory (R265, R269, R273-R278, R316-R324, R326): what one firing of each does to its residency.
A firing is one step (log 11): it takes its tokens, computes, and puts its result into the consumers' channels.
-/

namespace Sys2Proof.Machine

/-! ### Firing (R265, R269) -/

/-- The residency's cells fire: it is active, drains, or is being cut. -/
def Residency.firing (r : Residency) : Bool := r.installed

/-- A cell may fire at all: configured, not yet fired on EOS, not saved; under a cut a source fires no more (R269, R290). -/
def Residency.live (r : Residency) (i : Nat) : Bool :=
  let c := r.cell i
  r.firing && cwCop c.word != 0 && !c.eos && !c.saved && !(r.phase == .cutting && (r.inputs i).isEmpty)

/-- The heads of some inputs, where every one is a data token of a type that the operator accepts (R269); a put-mode `pass` takes what
`spxput` put there (R306). -/
def Residency.dataHeads (r : Residency) (i : Nat) : List Nat → Option (List Token)
  | [] => some []
  | k :: ks =>
    match r.head? i k, r.dataHeads i ks with
    | some x, some xs => if x.kind == .data && (cwPut (r.cell i).word || acceptsType (r.cell i).word k x.ltype) then some (x :: xs) else none
    | _, _ => none

/-- The aligned mark that heads every input of a list (R269). -/
def Residency.alignedMark (r : Residency) (i : Nat) (ins : List Nat) : Option TokenKind :=
  let all (k : TokenKind) : Bool := !ins.isEmpty && ins.all fun p => ((r.head? i p).map (·.kind)) == some k
  if all .eos then some .eos else if all .sweep then some .sweep else none

/-- A cell fires on an aligned mark of some inputs: it takes them and sends one on (R269). -/
def Residency.passMark (r : Residency) (i : Nat) (ins : List Nat) (k : TokenKind) : Residency :=
  let r := (ins.foldl (fun r p => r.take i p) r).emit i (Token.mark k)
  if k == .eos then r.modCell i fun c => { c with eos := true } else r

/-- One firing of an operator: buffered results first; then, on an aligned mark, what the operator flushes ahead of it (`flush`: a token
and the state it leaves), then the mark with its action (`onMark`, `none` where it must wait); else a data firing. -/
def Residency.fireWith (r : Residency) (i : Nat) (data : Residency → Option Residency)
    (flush : CellData → Option (Token × CellData)) (onMark : TokenKind → CellData → Option CellData) : Option Residency :=
  if !r.live i || !r.canEmit i then none
  else
    let d := (r.cell i).data
    match d.buffer with
    | x :: xs => some ((r.modData i fun d => { d with buffer := xs }).emit i x)
    | [] =>
      match r.alignedMark i (r.inputs i) with
      | none => data r
      | some k =>
        match flush d with
        | some (x, d') => some ((r.modData i fun _ => d').emit i x)
        | none => (onMark k d).map fun d' => (r.modData i fun _ => d').passMark i (r.inputs i) k

/-- No token goes ahead of a mark. -/
def noFlush (_ : CellData) : Option (Token × CellData) := none
/-- A mark has no action. -/
def plainMark (_ : TokenKind) (d : CellData) : Option CellData := some d

/-- A data firing on some inputs, which it takes, that emits one token computed from their heads. -/
def Residency.mapHeads (r : Residency) (i : Nat) (ins : List Nat) (f : List Token → Token) : Option Residency :=
  (r.dataHeads i ins).map fun xs => (ins.foldl (fun r p => r.take i p) r).emit i (f xs)

/-! ### Routing operators -/

/-- `pass` (R316, R434): in get mode it fires only in the drain, discarding what heads its channel. -/
def firePass (r : Residency) (i : Nat) : Option Residency :=
  if cwGet (r.cell i).word then
    if r.phase != .draining || !r.live i then none
    else
      match r.head? i 0 with
      | none => none
      | some x =>
        if x.kind == .whistle then none
        else some ((r.take i 0).modCell i fun c => { c with eos := x.kind == .eos })
  else r.fireWith i (fun r => r.mapHeads i [0] fun xs => xs.headD (Token.mark .data)) noFlush plainMark

/-- `fork` (R316): each token to all of its consumers. -/
def fireFork (r : Residency) (i : Nat) : Option Residency :=
  r.fireWith i (fun r => r.mapHeads i [0] fun xs => xs.headD (Token.mark .data)) noFlush plainMark

/-- The class of a key in the order of R278: 0 a number, 1 a NaN. -/
def keyRank (w : Nat) : Nat := if (v32 w).isNan then 1 else 0

/-- a before b in the order of R278, on pairs of 64 bits. -/
def kvLess (a b : Nat) : Bool :=
  let x := a % 2 ^ 32
  let y := b % 2 ^ 32
  let ix := sextN (a / 2 ^ 32) 32
  let iy := sextN (b / 2 ^ 32) 32
  if keyRank x != keyRank y then keyRank x < keyRank y
  else if keyRank x == 1 then ix < iy
  else
    let vx := v32 x
    let vy := v32 y
    if vx.lt vy then true
    else if vy.lt vx then false
    else if vx.neg? != vy.neg? then vx.neg?
    else ix < iy

/-- The tag of a token is less than another's (R317). -/
def tagLess (x y : Token) : Bool :=
  if x.ltype == 12 then kvLess (x.payload.toNat % 2 ^ 64) (y.payload.toNat % 2 ^ 64)
  else x.payload.toNat % 2 ^ 32 < y.payload.toNat % 2 ^ 32

/-- The input that a merge takes from (R317): `ins` its inputs, `rot` those still in the rotation, `next` where the round-robin stands. -/
def mergeChoice (r : Residency) (i : Nat) (mode next choice : Nat) (ins rot : List Nat) : Option Nat :=
  let isData (k : Nat) : Bool := ((r.head? i k).map (·.kind)) == some .data
  match mode with
  | 0 =>
    let order := (ins.filter fun k => next ≤ k && rot.contains k) ++ (ins.filter fun k => k < next && rot.contains k)
    match order.head? with
    | some k => if isData k then some k else none
    | none => none
  | 1 =>
    if rot.any fun k => (r.head? i k).isNone then none
    else
      (rot.filter isData).foldl (fun best k =>
        match best with
        | none => some k
        | some b =>
          match r.head? i k, r.head? i b with
          | some x, some y => if tagLess x y then some k else some b
          | _, _ => some b) none
  | _ =>
    let ds := rot.filter isData
    if ds.isEmpty then none else ds[choice % ds.length]?

/-- `merge` (R317): with a whistle at an input it fires no more (R290); an input whose head is EOS leaves the rotation; a sweep is aligned over those still in it. -/
def fireMerge (r : Residency) (i choice : Nat) : Option Residency :=
  if !r.live i || !r.canEmit i then none
  else
    let ins := r.inputs i
    if ins.any fun k => ((r.head? i k).map (·.kind)) == some .whistle then none else
    let rot := ins.filter fun k => ((r.head? i k).map (·.kind)) != some .eos
    if rot.isEmpty then some (r.passMark i ins .eos)
    else if r.alignedMark i rot == some .sweep then some (r.passMark i rot .sweep)
    else
      let d := (r.cell i).data
      match mergeChoice r i (cwCfg (r.cell i).word % 4) (d.words.headD 0).toNat choice ins rot with
      | none => none
      | some k =>
        match r.head? i k with
        | none => none
        | some x => some (((r.take i k).modData i fun d => { d with words := [BitVec.ofNat 32 (k + 1)] }).emit i x)

/-- `filter` (R319). -/
def fireFilter (r : Residency) (i : Nat) : Option Residency :=
  let inv := cwCfg (r.cell i).word % 2 == 1
  r.fireWith i (fun r =>
    match r.dataHeads i [0, 1] with
    | some [a, b] =>
      let r := (r.take i 0).take i 1
      some (if (b.payload.toNat % 2 ^ 32 != 0) != inv then r.emit i a else r)
    | _ => none) noFlush plainMark

/-- `cnt` (R318): counter 2 marks that the last token of a cell with no input is out. -/
def fireCnt (r : Residency) (i : Nat) : Option Residency :=
  let c := cwCfg (r.cell i).word
  let d := (r.cell i).data
  let free := (r.inputs i).isEmpty
  let value : Token := Token.data 1 [d.count 1 * 2 ^ 16 + d.count 0] 0
  let next := d.step 0 [c % 2 ^ 16 + 1, c / 2 ^ 16 + 1]
  let reset (k : TokenKind) (d : CellData) : Option CellData := some (if k == .sweep then (d.setCount 0 0).setCount 1 0 else d)
  if free && d.count 2 == 1 then (if r.live i && r.canEmit i then some (r.passMark i [] .eos) else none)
  else
    r.fireWith i (fun r =>
      if free then some ((r.modData i fun _ => if next.2 then next.1.setCount 2 1 else next.1).emit i value)
      else
        match r.dataHeads i [0] with
        | some _ => some (((r.take i 0).modData i fun _ => next.1).emit i value)
        | none => none) noFlush reset

/-! ### Arithmetic operators (R321) -/

/-- The element function of `alu`: ops 0-12. -/
def aluElement (op : Nat) (sat : Bool) (a b : Nat) : Nat :=
  let x := sextN a 32
  let y := sextN b 32
  let put (v : Int) : Nat := if sat then satS v 32 else truncI v 32
  match op with
  | 0 => put (x + y)
  | 1 => put (x - y)
  | 2 => truncI (x * y) 32
  | 3 => truncI (min x y) 32
  | 4 => truncI (max x y) 32
  | 5 => Nat.land a b
  | 6 => Nat.lor a b
  | 7 => Nat.xor a b
  | 8 => shlBits 32 a b
  | 9 => shrBits 32 a b
  | 10 => sarBits 32 a b
  | 11 => if x == y then 1 else 0
  | _ => if x < y then 1 else 0

/-- A fold of L tokens into one (R321): counter 0 counts them, `words` holds the partial. -/
def foldFire (r : Residency) (i lim t : Nat) (f : Nat → Nat → Nat) : Option Residency :=
  let flush (d : CellData) : Option (Token × CellData) :=
    if d.words.isEmpty then none else some (Token.data t (d.words.map (·.toNat)) 0, { d with words := [] }.setCount 0 0)
  r.fireWith i (fun r =>
    match r.dataHeads i [0] with
    | some [x] =>
      let d := (r.cell i).data
      let es := elements t x
      let acc := if d.words.isEmpty then es else (List.range 8).map fun k => f (d.words.getD k 0).toNat (es.getD k 0)
      let n := d.step 0 [lim]
      let r := r.take i 0
      some (if n.2 then (r.modData i fun _ => { n.1 with words := [] }).emit i (Token.data t acc 0)
            else r.modData i fun _ => { n.1 with words := acc.map (BitVec.ofNat 32) })
    | _ => none) flush fun _ d => some (d.setCount 0 0)

/-- `alu` (R321): config [3:0] op, [4] sat, [5] acc, [21:6] L − 1. -/
def fireAlu (r : Residency) (i : Nat) : Option Residency :=
  let c := cwCfg (r.cell i).word
  let f := aluElement (c % 16) (c / 16 % 2 == 1)
  if c / 32 % 2 == 1 then foldFire r i (c / 64 % 2 ^ 16 + 1) 2 f
  else
    r.fireWith i (fun r => r.mapHeads i [0, 1] fun xs =>
      Token.data 2 (List.zipWith f (elements 2 (xs.headD default)) (elements 2 (xs.getD 1 default))) 0) noFlush plainMark

/-- `fmac` (R321): config [1:0] mode, [2] sat, [4:3] form, [20:5] L − 1. -/
def fireFmac (r : Residency) (i : Nat) : Option Residency :=
  let c := cwCfg (r.cell i).word
  let dn := c % 4 == 3
  let rnd (x : Val) : Nat := roundTo f32 (modeOf (c % 4)) (c / 4 % 2 == 1) x
  let form := c / 8 % 4
  if form == 3 then foldFire r i (c / 32 % 2 ^ 16 + 1) 3 fun a b => rnd ((v32 a).add dn (v32 b))
  else
    r.fireWith i (fun r => r.mapHeads i (if form == 0 then [0, 1, 2] else [0, 1]) fun xs =>
      let e (p k : Nat) : Val := v32 ((elements 3 (xs.getD p default)).getD k 0)
      Token.data 3 ((List.range 8).map fun k =>
        match form with
        | 0 => rnd (((e 0 k).mul (e 1 k)).add dn (e 2 k))
        | 1 => rnd ((e 0 k).mul (e 1 k))
        | _ => rnd ((e 0 k).add dn (e 1 k))) 0) noFlush plainMark

/-- The special function of a code of R320, but for 4 (square root) and 13 (loaded). -/
def sfuFn (n : Nat) : SpecialFn :=
  match n with
  | 0 => .exp2 | 1 => .log2 | 2 => .rcp | 3 => .rsq | 5 => .sin | 6 => .cos | 7 => .tanh | 8 => .sig | 9 => .erf
  | 10 => .geluErf | 11 => .geluTanh | _ => .geluSig

/-- One element of an `sfu` cell; `rec_` is the record of the slot that fn 13 names, in the bank the residency holds (R225). -/
def sfuElement (fn : Nat) (rec_ : Option (List Byte)) (ty e : Nat) : Nat :=
  if fn == 4 then roundTo (fmtOf ty) .rne false (fv (fmtOf ty) e).sqrt
  else if fn == 13 then loadedFn rec_ ty e
  else specialFn (sfuFn fn) ty e

/-- `sfu` (R320). -/
def fireSfu (r : Residency) (i : Nat) (rec_ : Nat → Option (List Byte)) : Option Residency :=
  let c := cwCfg (r.cell i).word
  r.fireWith i (fun r => r.mapHeads i [0] fun xs =>
    let x := xs.headD default
    Token.data x.ltype ((elements x.ltype x).map (sfuElement (c % 16) (rec_ (c / 16 % 16)) (linkTy x.ltype))) 0) noFlush plainMark

/-! ### Conversion (R322) -/

/-- The element format of an MX link type and its exponent of the largest power of two (R87). -/
def mxLinkFmt (t : Nat) : Fmt := if t == 8 then e2m1 else if t == 9 then e4m3 else e5m2
def mxLinkEmax (t : Nat) : Int := if t == 8 then 2 else if t == 9 then 8 else 15

/-- One element converted; into an MX type the element waits, as it is, for its block. -/
def cellConvert (st dt cfg side e : Nat) : Nat :=
  if isMx dt then e
  else if isMx st then rne32 (mxValue (mxLinkFmt st) side e)
  else if st == 15 && dt == 3 then e
  else
    let s := linkTy st
    let d := linkTy dt
    let sat := cfg / 4 % 2 == 1
    match cvtKind s d with
    | none => e
    | some .round | some .exact => roundTo (fmtOf d) (modeOf (cfg % 4)) sat (fv (fmtOf s) e)
    | some .toInt => toIntSat (modeOf (cfg % 4)) true (tyBits d) (fv (fmtOf s) e)
    | some .fromInt => roundTo (fmtOf d) (modeOf (cfg % 4)) sat (Val.ofInt (sextN e (tyBits s)))
    | some .widen => truncI (sextN e (tyBits s)) (tyBits d)
    | some .narrow => if sat then satS (sextN e (tyBits s)) (tyBits d) else truncI (sextN e (tyBits s)) (tyBits d)

/-- A group of converted elements as a token; a group for an MX type is a block to quantise, of elements of type `st` (R87). -/
def cvtToken (st dt : Nat) (es : List Nat) : Token :=
  if isMx dt then
    let q := mxQuantise (mxLinkFmt dt) (mxLinkEmax dt) (es.map (fv (fmtOf (linkTy st))))
    Token.data dt q.2 q.1
  else Token.data dt es 0

/-- `cvt` (R322): `words` is the partial output group, counter 1 the position within the input token, counter 2 the group's input type. -/
def fireCvt (r : Residency) (i : Nat) : Option Residency :=
  let w := (r.cell i).word
  let dt := cwLtype w
  let eo := linkCount dt
  let flush (d : CellData) : Option (Token × CellData) :=
    if d.words.isEmpty then none
    else some (cvtToken (d.count 2) dt ((List.range eo).map fun k => (d.words.getD k 0).toNat), { d with words := [] })
  r.fireWith i (fun r =>
    match r.dataHeads i [0] with
    | some [x] =>
      let st := x.ltype
      let d := (r.cell i).data
      let es := (elements st x).map (cellConvert st dt (cwCfg w) x.side.toNat)
      let ei := linkCount st
      if !cellCvtOk st dt (cwCfg w) then none
      else if ei ≤ eo then
        let group := d.words.map (·.toNat) ++ es
        let r := r.take i 0
        some (if group.length < eo then r.modData i fun d => { d with words := group.map (BitVec.ofNat 32) }.setCount 2 st
              else (r.modData i fun d => { d with words := [] }).emit i (cvtToken st dt group))
      else
        let k := d.count 1
        let out := cvtToken st dt ((es.drop (k * eo)).take eo)
        some (if (k + 1) * eo < ei then (r.modData i fun d => d.setCount 1 (k + 1)).emit i out
              else ((r.take i 0).modData i fun d => d.setCount 1 0).emit i out)
    | _ => none) flush plainMark

/-! ### Row statistics (R323) -/

/-- eps of a code. -/
def rstatEps (code : Nat) : Nat := if code == 0 then 0 else (code + 63) * 2 ^ 23

/-- The tokens that a row's end emits, for its partial and the FP32 elements buffered under norm. -/
def rowResults (rms : Bool) (out eps : Nat) (p : Partial) (row : List Nat) : List Token :=
  let tok (es : List Nat) : Token := Token.data 3 es 0
  if p.n == 0 then []
  else
    let fin : List Nat := if rms then (let f := rmsFinal p eps; [f.1, f.2]) else (let f := rstatFinal p eps; [f.1, f.2.1, f.2.2])
    match out with
    | 0 => [tok (if rms then [p.n, p.mean] else [p.n, p.mean, p.m2])]
    | 1 => [tok fin]
    | _ =>
      let rs := v32 (fin.getLastD 0)
      let one (x : Nat) : Nat :=
        if rms then rne32 ((v32 x).mul rs) else rne32 ((v32 (rne32 ((v32 x).add false (v32 (fin.headD 0)).negate))).mul rs)
      (List.range (row.length / 8)).map fun k => tok (((row.drop (8 * k)).take 8).map one)

/-- `rstat` (R323): `words` is the partial, `panelA` the buffered row, `buffer` the results still to be emitted. -/
def fireRstat (r : Residency) (i : Nat) : Option Residency :=
  let c := cwCfg (r.cell i).word
  let rms := c % 2 == 1
  let out := c / 2 % 4
  let partialOf (d : CellData) : Partial := ⟨(d.words.getD 0 0).toNat, (d.words.getD 1 0).toNat, (d.words.getD 2 0).toNat⟩
  let endRow (d : CellData) : List Token × CellData :=
    (rowResults rms out (rstatEps (c / 2 ^ 7 % 64)) (partialOf d) (d.panelA.flatMap (elements 3)), { d with words := [], panelA := [] })
  let flush (d : CellData) : Option (Token × CellData) :=
    match endRow d with
    | (x :: xs, d') => some (x, { d' with buffer := xs }.setCount 0 0)
    | ([], _) => none
  r.fireWith i (fun r =>
    match r.dataHeads i [0] with
    | some [x] =>
      let d := (r.cell i).data
      let es := (elements x.ltype x).map fun e => if x.ltype == 3 || x.ltype == 15 then e else rne32 (fv (fmtOf (linkTy x.ltype)) e)
      let p := es.foldl (fun p e => if rms then rmsAdd p e else welfordAdd p e) (partialOf d)
      let row := (List.range (es.length / 8)).map fun k => Token.data 3 ((es.drop (8 * k)).take 8) 0
      let n := d.step 0 [c / 8 % 16 + 1]
      let d' := { n.1 with
        words := [BitVec.ofNat 32 p.n, BitVec.ofNat 32 p.mean, BitVec.ofNat 32 p.m2]
        panelA := if out == 2 then d.panelA ++ row else [] }
      let r := r.take i 0
      if n.2 then
        match endRow d' with
        | (y :: ys, d'') => some ((r.modData i fun _ => { d'' with buffer := ys }).emit i y)
        | ([], d'') => some (r.modData i fun _ => d'')
      else some (r.modData i fun _ => d')
    | _ => none) flush fun _ d => some (d.setCount 0 0)

/-! ### The MAC rectangle (R88, R273-R276) -/

/-- The sum of a step's products for one accumulator (R88): `xs` the pairs, `e` the scale exponent, `none` for a scale of 0xFF. -/
def macSum (xs : List (Val × Val)) (e : Option Int) : Val :=
  let ps : List Val := xs.map fun x => x.1.mul x.2
  match e with
  | none => .nan
  | some e =>
    if xs.any (fun x => x.1.isNan || x.2.isNan) || ps.any Val.isNan || (ps.contains (.inf false) && ps.contains (.inf true)) then .nan
    else if ps.contains (.inf false) then .inf false
    else if ps.contains (.inf true) then .inf true
    else if ps.all (fun (p : Val) => p == .zero true) then .zero true
    else
      match ps.foldl (fun (a p : Val) => a.add false p) (.zero false) with
      | .zero _ => .zero false
      | v => v.scale e

/-- The scale exponent of an MX token (R274). -/
def macScale (mx : Bool) (x : Token) : Option Int :=
  if !mx then some 0 else if x.side == 255 then none else some ((x.side.toNat : Int) - 127)

/-- The elements of a panel token as values. -/
def macValues (t : Nat) (x : Token) : List Val :=
  (elements t x).map (fv (if isMx t then mxLinkFmt t else fmtOf (linkTy t)))

/-- k of R88 for a link type. -/
def macK (t : Nat) : Nat := if t == 4 || t == 5 then 1 else if t == 8 then 4 else 2

/-- One accumulator after the steps of a panel, in ascending order (R274). -/
def macAccumulate (k steps : Nat) (a b : List Val) (e : Option Int) (acc : Nat) : Nat :=
  (List.range steps).foldl (fun acc s =>
    rne32 ((v32 acc).add false (macSum (((a.drop (k * s)).take k).zip ((b.drop (k * s)).take k)) e))) acc

/-- A bank after a panel of eight A tokens and eight B tokens (R88, R274). -/
def macPanel (t : Nat) (bank : List Word) (as bs : List Token) : List Word :=
  let k := macK t
  let steps := linkCount t / k
  let av := as.map (macValues t)
  let bv := bs.map (macValues t)
  (List.range 64).map fun n =>
    let i := n / 8
    let j := n % 8
    let e : Option Int := match macScale (isMx t) (as.getD i default), macScale (isMx t) (bs.getD j default) with
      | some x, some y => some (x + y)
      | _, _ => none
    BitVec.ofNat 32 (macAccumulate k steps (av.getD i []) (bv.getD j []) e (bank.getD n 0).toNat)

/-- The panel buffer applied to the active bank, padded to eight tokens each (R275). -/
def applyPanel (t : Nat) (d : CellData) : CellData :=
  if d.panelA.isEmpty then d
  else
    let pad (l : List Token) : List Token := l ++ List.replicate (8 - l.length) (Token.data t [] (if isMx t then 127 else 0))
    let f (b : List Word) : List Word := macPanel t b (pad d.panelA) (pad d.panelB)
    { d with
      bank0 := if d.active1 then d.bank0 else f d.bank0
      bank1 := if d.active1 then f d.bank1 else d.bank1
      panelA := [], panelB := [] }

/-- `macs` (R273-R275): a panel's steps are applied with its eighth pair; a sweep waits while the other bank drains. -/
def fireMacs (r : Residency) (i : Nat) : Option Residency :=
  let t := cwLtype (r.cell i).word
  r.fireWith i (fun r =>
    match r.dataHeads i [0, 1] with
    | some [a, b] =>
      if a.ltype != t || b.ltype != t then none
      else
        let r := ((r.take i 0).take i 1).modData i fun d =>
          let d := { d with panelA := d.panelA ++ [a], panelB := d.panelB ++ [b] }
          if d.panelA.length == 8 then applyPanel t d else d
        some ((r.emitTo i 0 a).emitTo i 1 b)
    | _ => none) noFlush fun k d =>
      if k == .sweep then
        if d.draining then none else some { applyPanel t d with active1 := !d.active1, draining := true }
      else some (applyPanel t d)

/-- The `macs` cells that an `accd` cell serves, ascending (R276). -/
def servedMacs (r : Residency) (i : Nat) : List Nat :=
  (List.range r.cells.length).filter fun m => cwCop (r.cell m).word == 0x0B && cwCfg (r.cell m).word == i

/-- The draining bank of a `macs` cell. -/
def CellData.drainBank (d : CellData) : List Word := if d.active1 then d.bank0 else d.bank1

/-- The drain of a bank ends: it is +0 (R275). -/
def CellData.endDrain (d : CellData) : CellData :=
  { d with
    draining := false
    bank0 := if d.active1 then List.replicate 64 0 else d.bank0
    bank1 := if d.active1 then d.bank1 else List.replicate 64 0 }

/-- `accd` (R276, R326): counter 0 is the place of the next `macs` cell among those it serves, counter 1 the next beat. -/
def fireAccd (r : Residency) (i : Nat) : Option Residency :=
  let c := r.cell i
  let ms := servedMacs r i
  let pos := c.data.count 0
  let beat := c.data.count 1
  if !(r.firing && cwCop c.word != 0 && !c.eos && !c.saved) || !r.canEmit i then none
  else if !ms.isEmpty && pos == ms.length then some ((r.modData i fun d => d.setCount 0 0).emit i (Token.mark .sweep))
  else
    let m := ms.getD pos 0
    if !ms.isEmpty && (r.cell m).data.draining then
      let row := (((r.cell m).data.drainBank.drop (8 * beat)).take 8).map (·.toNat)
      let r := r.emit i (Token.data 15 row beat)
      some (if beat == 7 then (r.modData i fun d => (d.setCount 1 0).setCount 0 (pos + 1)).modData m CellData.endDrain
            else r.modData i fun d => d.setCount 1 (beat + 1))
    else if pos == 0 && ms.all (fun m => (r.cell m).eos && !(r.cell m).data.draining) then some (r.passMark i [] .eos)
    else none

/-! ### Sorting and semaphores -/

/-- Insertion into a sorted list of pairs (R278). -/
def kvInsert (x : Nat) : List Nat → List Nat
  | [] => [x]
  | y :: ys => if kvLess x y then x :: y :: ys else y :: kvInsert x ys

/-- Pairs in ascending order. -/
def kvSort (l : List Nat) : List Nat := l.foldl (fun acc x => kvInsert x acc) []

/-- `cmpx` (R324): config [0] dir, [1] sort. -/
def fireCmpx (r : Residency) (i : Nat) : Option Residency :=
  let c := cwCfg (r.cell i).word
  let down := c % 2 == 1
  r.fireWith i (fun r =>
    if c / 2 % 2 == 1 then
      r.mapHeads i [0] fun xs =>
        let l := kvSort (elements 12 (xs.headD default))
        Token.data 12 (if down then l.reverse else l) 0
    else
      match r.dataHeads i [0, 1] with
      | some [a, b] =>
        let ps := (elements 12 a).zip (elements 12 b)
        let lo := Token.data 12 (ps.map fun p => if kvLess p.2 p.1 then p.2 else p.1) 0
        let hi := Token.data 12 (ps.map fun p => if kvLess p.2 p.1 then p.1 else p.2) 0
        let r := (r.take i 0).take i 1
        some ((r.emitTo i 0 (if down then hi else lo)).emitTo i 1 (if down then lo else hi))
      | _ => none) noFlush plainMark

/-- `sems` (R326): config [7:0] semaphore, [8] wait. -/
def fireSems (r : Residency) (i : Nat) : Option Residency :=
  let c := cwCfg (r.cell i).word
  r.fireWith i (fun r =>
    match r.dataHeads i [0] with
    | some [x] =>
      let v := x.payload.toNat % 2 ^ 32
      if c / 256 % 2 == 1 then
        let w := r.tryWait (c % 256) v i
        if w.1 then some ((w.2.take i 0).emit i x) else none
      else some (((r.signal (c % 256) v).take i 0).emit i x)
    | _ => none) noFlush plainMark

/-- The wait of a wait-mode `sems` cell whose token is there (R280, R326). -/
def semsWait (r : Residency) (i : Nat) : Option (Nat × Nat × Nat) :=
  let c := cwCfg (r.cell i).word
  if cwCop (r.cell i).word != 0x16 || !r.live i || !r.canEmit i || c / 256 % 2 == 0 then none
  else
    match r.dataHeads i [0] with
    | some [x] => some (c % 256, x.payload.toNat % 2 ^ 32, i)
    | _ => none

/-- A wait-mode `sems` cell that cannot go on has begun its wait. -/
def beginSems (r : Residency) (i : Nat) : Residency :=
  match semsWait r i with
  | some w => (r.tryWait w.1 w.2.1 i).2
  | none => r

end Sys2Proof.Machine
end

