-- ==== Sys2Proof/Machine/Ports.lean ====
section
/-!
DEFINITION. The ports of a residency (R279-R284, R289, R301, R302, R304, R325, R393, R394): stream commands, their accesses, the cell operators
that touch memory, and whether any cell can fire.
-/

namespace Sys2Proof.Machine

/-- A residency put back. -/
def putRes (s : State) (r : Residency) : State := modRes s r.id fun _ => r

/-! ### Commands (R301) -/

/-- Token positions of a command. -/
def Command.total (c : Command) : Nat := c.n0 * c.n1 * c.n2

/-- The address of position `p`, `i0` fastest. -/
def Command.addr (c : Command) (p : Nat) : Nat :=
  truncI (c.base.toNat + (p % c.n0 * footprint c.ltype : Nat) + (p / c.n0 % c.n1 : Nat) * c.s1 + (p / (c.n0 * c.n1) : Nat) * c.s2) 64

/-- The scale byte of an address of the command. -/
def Command.scaleOf (c : Command) (a : Nat) : Nat :=
  truncI ((c.sbase.toNat : Int) + ((a : Int) - c.base.toNat) / (footprint c.ltype : Nat)) 64

/-- A command has issued its last access or token (R280). -/
def Command.issued (c : Command) : Bool := c.kind == .command && c.begun && c.total ≤ c.pos

/-- The entries of a queue behind the commands that have issued their last access or token (R280). -/
def Port.ahead (p : Port) : List Command := p.queue.dropWhile Command.issued

/-- The command that a port is carrying out: begun, with positions left, the port not stopped. -/
def Port.current (p : Port) : Option Command :=
  match p.ahead with
  | c :: _ => if c.begun && c.pos < c.total && p.stopped.isNone then some c else none
  | [] => none

/-- The first entry behind the issued commands replaced. -/
def Port.modAhead (p : Port) (f : Command → Command) : Port :=
  match p.ahead with
  | c :: cs => { p with queue := p.queue.takeWhile Command.issued ++ f c :: cs }
  | [] => p

/-- Positions of the current command done. -/
def Port.advance (p : Port) (n : Nat) : Port := p.modAhead fun c => { c with pos := c.pos + n }

/-- An entry is a divider. -/
def Command.isDivider (c : Command) : Bool := match c.kind with | .divider _ => true | .command | .sweep _ => false

/-- The port has emitted everything it was given and will be given nothing more: its EOS is due (R284, R288). -/
def Port.eosDue (p : Port) : Bool := p.ended && p.queue.all (fun c => c.issued || c.isDivider) && !p.eos && p.stopped.isNone

/-! ### How a port's attempt ends -/

/-- An attempt of a cell or feeder: it fires, or its access faults and is not begun (R289), or its access waits for a walk or a page, or
its firing rule is not met. -/
inductive Try where
  | fire (s : State)
  | fault (code : Nat) (detail : Nat) (s : State)
  | stall (s : State)
  | no

/-- A firing that changes only its residency. -/
def Try.ofRes (s : State) : Option Residency → Try
  | some r => .fire (putRes s r)
  | none => .no

/-- What one access of a port gives. -/
inductive PortAcc where
  | ok (pa : Nat) (t : Tlb) (s : State)
  | fault (code : Nat) (addr : Nat) (s : State)
  | stall (s : State)

/-- A port's translation: a range entry, else the Retriever (R394); with `ptroot.en` = 0 every translation fails (R385). -/
def portTranslate (s : State) (die : Nat) (pt : Partition) (ranges : List Tlb) (va : Nat) : Trans × State :=
  if pt.ptroot.toNat % 2 == 0 then (.fault, s)
  else
    match (ranges ++ (getDie s die).tlb).find? (·.covers pt.id (vpnOf va)) with
    | some t => (.ok t, s)
    | none => retrieve s die pt va

/-- A byte that a port's access reads lies in a poisoned granule: an atomic reads at the home (R246), any other access at the L2 (R429). -/
def portPoison (s : State) (die : Nat) (t : Tlb) (acc : Acc) (pa size : Nat) : Bool :=
  if acc == .rmw then poisoned s t pa size else l2Poisoned s die t pa size

/-- The checks of one port access, in the order of R236, with the rights of the control pack (R289, R388).  The
alignment is the token group's, as R301 and R303 have it (DESIGN CHOICE, log 65). -/
def portAccess (s : State) (r : Residency) (p : Port) (acc : Acc) (reads : Bool) (va size align : Nat) : PortAcc :=
  if va % align != 0 then .fault 7 va s
  else if !canonical va then .fault 8 va s
  else
    match findPart s r.part with
    | none => .fault 9 va s
    | some pt =>
      match portTranslate s (dieOf r.ctl.core) pt p.ranges va with
      | (.fault, s') => .fault 9 va s'
      | (.stall, s') => .stall s'
      | (.ok t, s') =>
        let pa := t.phys va
        if !permitted s' t true acc va then .fault 10 va s'
        else if !pageReady s' t pa acc.writes then .stall (requestPage s' t pa acc.writes)
        else if reads && portPoison s' (dieOf r.ctl.core) t acc pa size then .fault 15 va s'
        else .ok pa t (usePage s' t pa)

/-! ### Loads: `mpld`, `spld`, `gath` and the feeders -/

/-- The bytes at a place of a port's space, or how reading them ends. -/
inductive PortRead where
  | ok (bs : List Byte) (s : State)
  | fault (code : Nat) (addr : Nat) (s : State)
  | stall (s : State)

/-- A global read, served at the L2 (R134). -/
def readGlobal (s : State) (r : Residency) (p : Port) (va n align : Nat) : PortRead :=
  match portAccess s r p .read true va n align with
  | .fault c a s' => .fault c a s'
  | .stall s' => .stall s'
  | .ok pa t s' => .ok (l2Bytes s' (dieOf r.ctl.core) t pa n) (l2Touch s' (dieOf r.ctl.core) t pa false)

/-- A scratchpad read waits on an empty line (R105). -/
def readSpad (s : State) (r : Residency) (off n : Nat) : PortRead :=
  match findHerd s r.herd with
  | none => .stall s
  | some h =>
    if touchesEmpty h off n then .stall s
    else if spadPoisoned h off n then .fault 15 off s
    else .ok (spadBytes h off n) s

/-- The byte that a copy on its way into an OPM slot will land at an offset, if some copy's line will. -/
def comingByte (s : State) (r : Residency) (slot off : Nat) : Option Byte :=
  (getCore s r.ctl.core).copies.findSome? fun c =>
    if c.herd != some r.herd || c.opm != some slot then none
    else
      (List.range c.lines.length).findSome? fun k =>
        match c.lines[k]? with
        | none => none
        | some x =>
          if c.done.contains k || off < x.loc || x.loc + lineSize ≤ off then none
          else
            match loadLineData s r.ctl.core c x with
            | .ok (d, _) => (d[off - x.loc]?).bind fun b => if b.2 then none else some b.1
            | .error _ => none

/-- An OPM read by a feeder: [19:16] is the slot, [15:0] the offset (R302).  A byte that a copy has not yet landed reads as its old or its
new value (R110). -/
def readOpm (s : State) (r : Residency) (a n : Nat) : PortRead :=
  let off := a % 65536
  let slot := a / 65536
  match (findHerd s r.herd).bind fun h => h.opm[slot]? with
  | none => .fault 16 a s
  | some t =>
    if t.bad.any fun g => off < 16 * g + 16 && 16 * g < off + n then .fault 15 a s
    else
      let old (k : Nat) : Byte := memGet 0#8 t.data (off + k)
      if (getCore s r.ctl.core).copies.any fun c => c.herd == some r.herd && c.opm == some slot then
        .ok ((List.range n).map fun k => if Config.landsEarly (s.fresh + k) then (comingByte s r slot (off + k)).getD (old k) else old k)
          { s with fresh := s.fresh + n }
      else .ok ((List.range n).map old) s

/-- A token of type `ty` read at `a`: tb bytes, and for an MX type its scale byte (R301, R325). -/
def readToken (s : State) (rd : State → Nat → Nat → PortRead) (ty a sa : Nat) : Except Try (Token × State) :=
  match rd s a (footprint ty) with
  | .fault c d s' => .error (.fault c d s')
  | .stall s' => .error (.stall s')
  | .ok bs s' =>
    let tok (side : Byte) : Token := ⟨.data, ty, BitVec.ofNat 256 (numLE bs), side⟩
    if isMx ty then
      match rd s' sa 1 with
      | .fault c d s'' => .error (.fault c d s'')
      | .stall s'' => .error (.stall s'')
      | .ok b s'' => .ok (tok (b.headD 0), s'')
    else .ok (tok 0, s')

/-- Cell `i` has a port, with its current command. -/
def Residency.portCmd (r : Residency) (i : Nat) : Option (Port × Command) :=
  (r.port? i).bind fun p => (p.current).map fun c => (p, c)

/-- A port cell's EOS by the end flag or the drain (R284, R288). -/
def Residency.endPort (r : Residency) (i : Nat) : Option Residency :=
  match r.port? i with
  | none => none
  | some p => if p.eosDue && r.live i && r.canEmit i then some ((r.passMark i [] .eos).modPort i fun p => { p with eos := true }) else none

/-- `mpld` and `spld` (R325): one token per position. -/
def tryLoad (s : State) (r : Residency) (i : Nat) (spad : Bool) : Try :=
  if !r.live i || !r.canEmit i then .no
  else
    match r.portCmd i with
    | none => Try.ofRes s (r.endPort i)
    | some (p, c) =>
      let a := c.addr c.pos
      let rd (s : State) (a n : Nat) : PortRead := if spad then readSpad s r a n else readGlobal s r p a n n
      match readToken s rd c.ltype a (c.scaleOf a) with
      | .error e => e
      | .ok (x, s') => .fire (putRes s' ((r.emit i x).modPort i (·.advance 1)))

/-- A cell port with inputs fires on an aligned mark, or emits its own EOS.  The EOS of an end flag comes right after the last token, and no
mark after it (R284); that of the drain comes only when the heads of the inputs can no longer be taken, so that the marks ahead of them pass
first.  Neither depends on when the marks arrive (R293). -/
def Residency.markOrEnd (r : Residency) (i : Nat) : Option Residency :=
  let flagged := ((r.port? i).map fun p => p.flagged && p.eosDue).getD false
  match if flagged then none else r.alignedMark i (r.inputs i) with
  | some k => some ((r.passMark i (r.inputs i) k).modPort i fun p => { p with eos := p.eos || k == .eos })
  | none => if flagged || (r.inputs i).all fun k => (r.head? i k).isSome then r.endPort i else none

/-- `gath` (R325): one token per address, four firings per addr token. -/
def tryGath (s : State) (r : Residency) (i : Nat) : Try :=
  if !r.live i || !r.canEmit i then .no
  else
    match r.markOrEnd i with
    | some r' => .fire (putRes s r')
    | none =>
      match r.portCmd i with
      | none => .no
      | some (p, c) =>
        match r.dataHeads i [0] with
        | some [x] =>
          let k := (r.cell i).data.count 0
          let a := (elements 13 x).getD k 0
          match readToken s (fun s a n => readGlobal s r p a n n) c.ltype a (c.scaleOf a) with
          | .error e => e
          | .ok (y, s') =>
            let r := (r.emit i y).modData i fun d => d.setCount 0 ((k + 1) % 4)
            .fire (putRes s' (if k == 3 then (r.take i 0).modPort i (·.advance 1) else r))
        | _ => .no

/-- `agen` (R302): four consecutive positions' addresses per token. -/
def tryAgen (s : State) (r : Residency) (i : Nat) : Try :=
  if !r.live i || !r.canEmit i then .no
  else
    match r.portCmd i with
    | none => Try.ofRes s (r.endPort i)
    | some (_, c) =>
      .fire (putRes s ((r.emit i (Token.data 13 ((List.range 4).map fun k => c.addr (c.pos + k)) 0)).modPort i (·.advance 4)))

/-! ### Stores: `mpst`, `spst` -/

/-- A sink's or store port's firing on an aligned mark of its inputs. -/
def sinkMark (s : State) (r : Residency) (i : Nat) : Try :=
  match r.alignedMark i (r.inputs i) with
  | some k => .fire (putRes s ((r.passMark i (r.inputs i) k).modPort i fun p => { p with eos := p.eos || k == .eos }))
  | none => .no

/-- A global write of a port, at the L2 (R134). -/
def writeGlobal (s : State) (r : Residency) (pa : Nat) (t : Tlb) (bs : List Byte) : State :=
  globalWrite s r.part r.ctl.core (dieOf r.ctl.core) t pa bs false

/-- `mpst` (R325): the element access and the scale access are checked before either is made. -/
def tryMpst (s : State) (r : Residency) (i : Nat) : Try :=
  if !r.live i then .no
  else
    match r.dataHeads i [0], r.portCmd i with
    | some [x], some (p, c) =>
      let a := c.addr c.pos
      let tb := footprint c.ltype
      let done (s : State) : Try := .fire (putRes s ((r.take i 0).modPort i (·.advance 1)))
      match portAccess s r p (.write false) false a tb tb with
      | .fault c d s' => .fault c d s'
      | .stall s' => .stall s'
      | .ok pa t s' =>
        let bs := bytesLE tb x.payload.toNat
        if !isMx c.ltype then done (writeGlobal s' r pa t bs)
        else
          match portAccess s' r p (.write false) false (c.scaleOf a) 1 1 with
          | .fault c d s'' => .fault c d s''
          | .stall s'' => .stall s''
          | .ok pb u s'' => done (writeGlobal (writeGlobal s'' r pa t bs) r pb u [x.side])
    | _, _ => sinkMark s r i

/-- `spst` (R105, R325): an empty line stalls it. -/
def trySpst (s : State) (r : Residency) (i : Nat) : Try :=
  if !r.live i then .no
  else
    match r.dataHeads i [0], r.portCmd i with
    | some [x], some (_, c) =>
      let a := c.addr c.pos
      let tb := footprint c.ltype
      let sa := c.scaleOf a
      match findHerd s r.herd with
      | none => .stall s
      | some h =>
        if touchesEmpty h a tb || (isMx c.ltype && touchesEmpty h sa 1) then .stall s
        else
          let s := spadStore s r.herd r.ctl.core a (bytesLE tb x.payload.toNat) .keep
          let s := if isMx c.ltype then spadStore s r.herd r.ctl.core sa [x.side] .keep else s
          .fire (putRes s ((r.take i 0).modPort i (·.advance 1)))
    | _, _ => sinkMark s r i

/-! ### Atomics: `tas` -/

/-- The access size code of R244 for the sz of a `tas` cell. -/
def tasSz (c : Nat) : Nat := match c / 16 % 4 with | 0 => 2 | 1 => 7 | _ => 9

/-- The four places of a firing, checked in ascending order before any is changed (R246). -/
def tasPlaces (s : State) (r : Residency) (p : Port) : List Nat → Except Try (List (Nat × Tlb) × State)
  | [] => .ok ([], s)
  | a :: as =>
    match portAccess s r p .rmw true a 4 4 with
    | .fault c d s' => .error (.fault c d s')
    | .stall s' => .error (.stall s')
    | .ok pa t s' => (tasPlaces s' r p as).map fun x => ((pa, t) :: x.1, x.2)

/-- The atomics of a firing in ascending order (R245): old values, last first, and the state. -/
def tasApply (s : State) (r : Residency) (aop sz : Nat) : List (Nat × Tlb) → List Nat → List Nat → List Nat × State
  | (pa, t) :: ps, b :: bs, old =>
    let o := numLE (homeBytes s t pa 4)
    let s := homeWrite s r.part r.ctl.core (dieOf r.ctl.core) t pa (bytesLE 4 (atomValue aop sz o b))
    tasApply s r aop sz ps bs (o :: old)
  | _, _, old => (old, s)

/-- `tas` (R325): config [3:0] aop, [5:4] sz, [6] ret. -/
def tryTas (s : State) (r : Residency) (i : Nat) : Try :=
  let c := cwCfg (r.cell i).word
  if !r.live i || !r.canEmit i then .no
  else
    match r.dataHeads i [0, 1], r.portCmd i with
    | some [a, b], some (p, _) =>
      match tasPlaces s r p (elements 13 a) with
      | .error e => e
      | .ok (ps, s') =>
        let x := tasApply s' r (c % 16) (tasSz c) ps (elements 2 b) []
        let r := (r.take i 0).take i 1
        let r := if c / 64 % 2 == 1 then r.emit i (Token.data (cwLtype (r.cell i).word) x.1.reverse 0) else r
        .fire (putRes x.2 (r.modPort i (·.advance 1)))
    | _, _ => if cwSink (r.cell i).word then sinkMark s r i else Try.ofRes s (r.markOrEnd i)

/-! ### Copy requests: `rqst` (R268, R325) -/

/-- `rqst`: each token goes to the TCE; a token there holds the next one back. -/
def tryRqst (s : State) (r : Residency) (i : Nat) : Try :=
  if !r.live i || !(r.cell i).data.buffer.isEmpty then .no
  else
    match r.dataHeads i [0] with
    | some [x] => .fire (putRes s ((r.take i 0).modData i fun d => { d with buffer := [x] }))
    | _ => sinkMark s r i

/-- The copy that a request asks for. -/
def reqCopy (x : Token) : CopyReq :=
  let w := x.payload.toNat
  { kind := if bitsOf w 193 192 == 1 then .store 0 0 else .load 0 0
    opm := bitsOf w 194 194 == 1
    bar := if bitsOf w 195 195 == 1 then none else some (bitsOf w 200 196)
    gbase := bitsOf w 63 0
    r := copyRec ((List.range 4).map fun k => BitVec.ofNat 32 (bitsOf w (95 + 32 * k) (64 + 32 * k))) }

/-- A request's own fields (R268). -/
def reqFields (x : Token) : Bool :=
  let w := x.payload.toNat
  bitsOf w 193 192 ≤ 1 && !(bitsOf w 193 192 == 1 && bitsOf w 194 194 == 1) && !(bitsOf w 195 195 == 1 && bitsOf w 200 196 != 0) &&
    bitsOf w 255 201 == 0

/-! ### Feeders (R277) -/

/-- Feeder `f`'s next delivery, or its EOS. -/
def tryFeeder (s : State) (r : Residency) (f : Nat) : Try :=
  match r.port? (256 + f), r.feederTarget f with
  | some p, some (i, k) =>
    if !r.firing || r.phase == .cutting || p.eos || !r.room i k then .no
    else
      match p.current with
      | none =>
        if p.eosDue then .fire (putRes s ((r.deliver i k (Token.mark .eos)).modPort (256 + f) fun p => { p with eos := true })) else .no
      | some c =>
        let a := c.addr c.pos
        match readToken s (fun s a n => readOpm s r a n) c.ltype a (c.scaleOf a) with
        | .error e => e
        | .ok (x, s') => .fire (putRes s' ((r.deliver i k x).modPort (256 + f) (·.advance 1)))
  | _, _ => .no

/-! ### Range entries (R302, R393, R397) -/

/-- Two translations differ only in place. -/
def Tlb.sameKind (a b : Tlb) : Bool := { a with vpn := 0, pages := 0, pa := 0 } == { b with vpn := 0, pages := 0, pa := 0 }

/-- What the cell's operator does to memory through its range entries; none for the others (R393). -/
def rangeAcc (w : Quad) : Option Acc :=
  match cwCop w with
  | 0x0E | 0x12 => some .read
  | 0x0F => some (.write false)
  | 0x14 => some .rmw
  | _ => none

/-- The leaf of a page as the Retriever gives it now, without holding a walk, if the access may use it (R393). -/
def leafNow (s : State) (die : Nat) (pt : Partition) (acc : Acc) (vpn : Nat) : Option Tlb :=
  let t := match (getDie s die).tlb.find? (·.covers pt.id vpn) with
    | some t => some t
    | none =>
      match (walk s die pt vpn).1 with
      | .leaf t => some t
      | .moving | .away _ | .fault _ => none
  if pt.ptroot.toNat % 2 == 0 then none else t.filter fun t => permitted s t true acc (vpn * pageSize)

/-- A translation joins the range entries, the youngest first: it extends the youngest, or takes an entry of its own while there are
fewer than eight (R393). -/
def addRange (t : Tlb) : List Tlb → Option (List Tlb)
  | e :: es =>
    if e.vpn + e.pages == t.vpn && e.pa + e.pages * pageSize == t.pa && e.sameKind t then some ({ e with pages := e.pages + t.pages } :: es)
    else if 8 ≤ (e :: es).length then none
    else some (t :: e :: es)
  | [] => some [t]

/-- Range entries for the pages from `vpn` to `last`, from the lowest upward: eight at most, up to the first page that is absent or would
fault (R393).  `acc` holds the entries so far, the youngest first. -/
def latchPages (s : State) (die : Nat) (pt : Partition) (a : Acc) (last : Nat) : Nat → Nat → List Tlb → List Tlb
  | 0, _, acc => acc
  | fuel + 1, vpn, acc =>
    if last < vpn then acc
    else
      match (leafNow s die pt a vpn).bind fun t => (addRange t acc).map fun acc => (t, acc) with
      | none => acc
      | some (t, acc) => latchPages s die pt a last fuel (t.vpn + t.pages) acc

/-- The extent of a command's addresses (R303): [lo, hi), exact. -/
def Command.extent (c : Command) : Int × Int :=
  let m := ((c.n1 : Int) - 1) * c.s1
  let o := ((c.n2 : Int) - 1) * c.s2
  (c.base.toNat + min 0 m + min 0 o, c.base.toNat + (((c.n0 - 1) * footprint c.ltype + footprint c.ltype : Nat) : Int) + max 0 m + max 0 o)

/-- The pages a memory port latches as it begins a command (R302, R393). -/
def latch (s : State) (r : Residency) (w : Quad) (c : Command) : List Tlb :=
  match findPart s r.part, rangeAcc w with
  | some pt, some a =>
    let e := if cwCop w == 0x12 || cwCop w == 0x14 then ((c.base.toNat : Int), (c.base.toNat + c.range : Int)) else c.extent
    if e.2 ≤ e.1 then []
    else
      let lo := vpnOf (truncI e.1 64)
      let hi := vpnOf (truncI (e.2 - 1) 64)
      (latchPages s (dieOf r.ctl.core) pt a hi (hi - lo + 1) lo []).reverse
  | _, _ => []

/-- The global addresses of a memory port's next firing. -/
def Residency.nextAddrs (r : Residency) (i : Nat) : List Nat :=
  match r.portCmd i with
  | none => []
  | some (_, c) =>
    let heads : List Nat := (((r.dataHeads i [0]).bind (·.head?)).map (elements 13)).getD []
    let withScale (a : Nat) : List Nat := if isMx c.ltype then [a, c.scaleOf a] else [a]
    match cwCop (r.cell i).word with
    | 0x0E | 0x0F => withScale (c.addr c.pos)
    | 0x12 => withScale (heads.getD ((r.cell i).data.count 0) 0)
    | 0x14 => heads
    | _ => []

/-- A port latches again a page whose range entry a token dropped, if it is there (R397). -/
def relatchPage (s : State) (r : Residency) (pt : Partition) (acc : Acc) (p : Port) (va : Nat) : Port :=
  let v := vpnOf va
  if p.ranges.any (·.covers r.part v) || !(p.dropped.any fun d => d.1 ≤ v && v < d.1 + d.2) then p
  else
    match (leafNow s (dieOf r.ctl.core) pt acc v).bind fun t => addRange t p.ranges.reverse with
    | some es => { p with ranges := es.reverse }
    | none => p

/-- Before a firing of a memory port: the dropped pages that it accesses are latched again (R397). -/
def Residency.relatched (s : State) (r : Residency) (i : Nat) : Residency :=
  match findPart s r.part, rangeAcc (r.cell i).word with
  | some pt, some acc => if (r.port? i).any fun p => !p.dropped.isEmpty then r.modPort i fun p => (r.nextAddrs i).foldl (relatchPage s r pt acc) p else r
  | _, _ => r

/-! ### Every cell -/

/-- The record of a slot in the bank that a residency holds (R225). -/
def heldRecord (s : State) (r : Residency) (slot : Nat) : Option (List Byte) := (findPart s r.part).bind fun p => slotRecord p r.bank slot

/-- The next firing of a cell, whatever its operator. -/
def tryCell (s : State) (r : Residency) (i : Nat) : Try :=
  match cwCop (r.cell i).word with
  | 0x01 => Try.ofRes s (firePass r i)
  | 0x02 => Try.ofRes s (fireFork r i)
  | 0x03 => Try.ofRes s (fireMerge r i (Config.arrival s.fresh))
  | 0x04 => Try.ofRes s (fireFilter r i)
  | 0x05 => Try.ofRes s (fireCnt r i)
  | 0x06 => Try.ofRes s (fireAlu r i)
  | 0x07 => Try.ofRes s (fireFmac r i)
  | 0x08 => Try.ofRes s (fireSfu r i (heldRecord s r))
  | 0x09 => Try.ofRes s (fireCvt r i)
  | 0x0A => Try.ofRes s (fireRstat r i)
  | 0x0B => Try.ofRes s (fireMacs r i)
  | 0x0C => Try.ofRes s (fireCmpx r i)
  | 0x0D => tryAgen s r i
  | 0x0E => tryLoad s (r.relatched s i) i false
  | 0x0F => tryMpst s (r.relatched s i) i
  | 0x10 => tryLoad s r i true
  | 0x11 => trySpst s r i
  | 0x12 => tryGath s (r.relatched s i) i
  | 0x13 => tryRqst s r i
  | 0x14 => tryTas s (r.relatched s i) i
  | 0x15 => Try.ofRes s (fireAccd r i)
  | 0x16 => Try.ofRes s (fireSems r i)
  | _ => .no

/-- A cell fires, if it has the operator `cop` and can. -/
def fireCell (s : State) (res i cop : Nat) : Host.Outcome State Fault Refusal :=
  match findRes s res with
  | none => .next s
  | some r =>
    if cwCop (r.cell i).word != cop then .next s
    else
      match tryCell s r i with
      | .fire s' => .next s'
      | .stall s' => .next s'
      | .fault _ _ _ | .no => .next s

/-- `PASS` (R316). -/
def execPass (res cell : Nat) (s : State) : Host.Outcome State Fault Refusal := fireCell s res cell 0x01
/-- `FORK` (R316). -/
def execFork (res cell : Nat) (s : State) : Host.Outcome State Fault Refusal := fireCell s res cell 0x02
/-- `MERGE` (R317): an arrival-mode merge draws a free choice. -/
def execMerge (res cell : Nat) (s : State) : Host.Outcome State Fault Refusal :=
  match fireCell s res cell 0x03 with
  | .next s' => .next (draw s')
  | .fault f => .fault f
  | .refused r => .refused r
/-- `FILTER` (R319). -/
def execFilter (res cell : Nat) (s : State) : Host.Outcome State Fault Refusal := fireCell s res cell 0x04
/-- `CNT` (R318). -/
def execCnt (res cell : Nat) (s : State) : Host.Outcome State Fault Refusal := fireCell s res cell 0x05
/-- `ALU` (R321). -/
def execAlu (res cell : Nat) (s : State) : Host.Outcome State Fault Refusal := fireCell s res cell 0x06
/-- `FMAC` (R321). -/
def execFmac (res cell : Nat) (s : State) : Host.Outcome State Fault Refusal := fireCell s res cell 0x07
/-- `SFU` (R320). -/
def execSfu (res cell : Nat) (s : State) : Host.Outcome State Fault Refusal := fireCell s res cell 0x08
/-- `CVT_CELL` (R322). -/
def execCvtCell (res cell : Nat) (s : State) : Host.Outcome State Fault Refusal := fireCell s res cell 0x09
/-- `RSTAT_CELL` (R323). -/
def execRstatCell (res cell : Nat) (s : State) : Host.Outcome State Fault Refusal := fireCell s res cell 0x0A
/-- `MACS` (R273-R275). -/
def execMacs (res cell : Nat) (s : State) : Host.Outcome State Fault Refusal := fireCell s res cell 0x0B
/-- `CMPX` (R324). -/
def execCmpx (res cell : Nat) (s : State) : Host.Outcome State Fault Refusal := fireCell s res cell 0x0C
/-- `AGEN` (R302, R325). -/
def execAgen (res cell : Nat) (s : State) : Host.Outcome State Fault Refusal := fireCell s res cell 0x0D
/-- `MPLD` (R325). -/
def execMpld (res cell : Nat) (s : State) : Host.Outcome State Fault Refusal := fireCell s res cell 0x0E
/-- `MPST` (R325). -/
def execMpst (res cell : Nat) (s : State) : Host.Outcome State Fault Refusal := fireCell s res cell 0x0F
/-- `SPLD` (R105, R325). -/
def execSpld (res cell : Nat) (s : State) : Host.Outcome State Fault Refusal := fireCell s res cell 0x10
/-- `SPST` (R105, R325). -/
def execSpst (res cell : Nat) (s : State) : Host.Outcome State Fault Refusal := fireCell s res cell 0x11
/-- `GATH` (R325). -/
def execGath (res cell : Nat) (s : State) : Host.Outcome State Fault Refusal := fireCell s res cell 0x12
/-- `RQST` (R268, R325). -/
def execRqst (res cell : Nat) (s : State) : Host.Outcome State Fault Refusal := fireCell s res cell 0x13
/-- `TAS` (R325). -/
def execTas (res cell : Nat) (s : State) : Host.Outcome State Fault Refusal := fireCell s res cell 0x14
/-- `ACCD` (R276, R326). -/
def execAccd (res cell : Nat) (s : State) : Host.Outcome State Fault Refusal := fireCell s res cell 0x15
/-- `SEMS` (R326): a wait that is not met begins. -/
def execSems (res cell : Nat) (s : State) : Host.Outcome State Fault Refusal :=
  match findRes s res with
  | none => .next s
  | some r =>
    if cwCop (r.cell cell).word != 0x16 then .next s
    else
      match tryCell s r cell with
      | .fire s' => .next s'
      | .stall _ | .fault _ _ _ | .no => .next (putRes s (beginSems r cell))

/-- `FEEDER_DELIVERY` (R277). -/
def execFeederDelivery (res feeder : Nat) (s : State) : Host.Outcome State Fault Refusal :=
  match findRes s res with
  | none => .next s
  | some r =>
    match tryFeeder s r feeder with
    | .fire s' => .next s'
    | .stall s' => .next s'
    | .fault _ _ _ | .no => .next s

/-! ### Dividers (R283) -/

/-- Entry `d` is a divider of that number. -/
def Command.isBar (id : Nat) (c : Command) : Bool := c.kind == .divider id

/-- The first divider whose queues all have it at their heads is passed, and its signal applied (R283, R305). -/
def Residency.passBar (r : Residency) : Option Residency :=
  match r.bars.find? fun b => r.ports.all fun p => !(p.queue.any (Command.isBar b.id)) || ((p.queue.head?).map (Command.isBar b.id)).getD false with
  | none => none
  | some b =>
    let ports := r.ports.map fun (p : Port) => { p with queue := p.queue.filter fun c => !c.isBar b.id }
    some (({ r with bars := r.bars.filter (·.id != b.id), ports } : Residency).signal b.ssem b.sinc)

/-- Every divider that can be passed is. -/
def Residency.settleBars (r : Residency) : Nat → Residency
  | 0 => r
  | n + 1 => match r.passBar with
    | some r' => r'.settleBars n
    | none => r

/-- Dividers settled. -/
def Residency.settle (r : Residency) : Residency := r.settleBars r.bars.length

/-! ### Beginning and completing commands (R280, R281) -/

/-- The word of a port's cell; a feeder has none. -/
def Residency.portWord (r : Residency) (n : Nat) : Quad := if n < 256 then (r.cell n).word else 0

/-- A port may begin a command at all: the command before it has issued its last access or token, and the port is not stopped, saved, or, as a
source under a cut, still. -/
def Residency.beginnable (r : Residency) (p : Port) : Option Command :=
  let moves := if p.num < 256 then !(r.cell p.num).saved && !(r.phase == .cutting && (r.inputs p.num).isEmpty) else r.phase != .cutting
  match p.ahead with
  | c :: _ => if r.firing && p.stopped.isNone && moves && c.kind == .command && !c.begun then some c else none
  | [] => none

/-- `COMMAND_BEGIN` (R280): the wait of the command at the head is met, and a memory port latches its ranges. -/
def execCommandBegin (res port : Nat) (s : State) : Host.Outcome State Fault Refusal :=
  match findRes s res with
  | none => .next s
  | some r =>
    match (r.port? port).bind r.beginnable with
    | none => .next s
    | some c =>
      let w := r.tryWait c.wsem c.wthr port
      if !w.1 then .next (putRes s w.2)
      else
        .next (putRes s (w.2.modPort port fun p =>
          { p.modAhead (fun c => { c with begun := true }) with ranges := latch s r (r.portWord port) c, dropped := [] }))

/-- The command at the head of a port's queue has emitted and accessed all it has to. -/
def Port.finished (p : Port) : Option Command :=
  match p.queue with
  | c :: _ => if c.issued then some c else none
  | [] => none

/-- `COMMAND_COMPLETE` (R281): its signal is applied. -/
def execCommandComplete (res port : Nat) (s : State) : Host.Outcome State Fault Refusal :=
  match findRes s res with
  | none => .next s
  | some r =>
    match (r.port? port).bind Port.finished with
    | none => .next s
    | some c =>
      if !r.firing then .next s
      else .next (putRes s (((r.modPort port fun p => { p with queue := p.queue.drop 1 }).signal c.ssem c.sinc).settle))

/-! ### Sweeps (R304) -/

/-- Where a source port puts a mark: the consumers of a cell, the target of a feeder. -/
def Residency.portRoom (r : Residency) (n : Nat) : Bool :=
  if n < 256 then r.live n && r.canEmit n
  else r.phase != .cutting && ((r.feederTarget (n - 256)).map fun t => r.room t.1 t.2).getD false

/-- A source port emits a mark. -/
def Residency.portMark (r : Residency) (n : Nat) (k : TokenKind) : Residency :=
  if n < 256 then r.emit n (Token.mark k)
  else
    match r.feederTarget (n - 256) with
    | some t => r.deliver t.1 t.2 (Token.mark k)
    | none => r

/-- A sweep group can begin, but for its wait: every entry is at its queue's head, and every command ahead of it has issued its last token. -/
def Residency.sweepReady (r : Residency) (g : SweepGroup) : Bool :=
  r.firing && g.ports.all fun n =>
    match r.port? n with
    | some p => p.stopped.isNone && ((p.ahead.head?).map fun c => c.kind == .sweep g.id).getD false
    | none => false

/-- A sweep group's wait is met, now or before. -/
def Residency.sweepWait (r : Residency) (g : SweepGroup) : Bool × Residency :=
  let w := if g.begun then (true, r) else r.tryWait g.wsem g.wthr (g.ports.headD 0)
  (w.1, if w.1 then { w.2 with groups := updWhere (·.id == g.id) (fun g => { g with begun := true }) w.2.groups } else w.2)

/-- `SWEEP_GROUP_BEGIN` (R304): the wait is met once, with the lowest named port's number; then, when there is room for all of them, every port
emits its mark, in one step, and the signal follows. -/
def execSweepGroupBegin (res group : Nat) (s : State) : Host.Outcome State Fault Refusal :=
  match findRes s res with
  | none => .next s
  | some r =>
    match r.groups.find? (·.id == group) with
    | none => .next s
    | some g =>
      if !r.sweepReady g then .next s
      else
        let w := r.sweepWait g
        if !w.1 || !g.ports.all w.2.portRoom then .next (putRes s w.2)
        else
          let r := g.ports.foldl (fun r n => (r.portMark n .sweep).modPort n fun p => { p with queue := p.queue.filter fun c => c.kind != .sweep group }) w.2
          .next (putRes s ((({ r with groups := r.groups.filter (·.id != group) } : Residency).signal g.ssem g.sinc).settle))

/-! ### The order of waits (R280, R298) -/

/-- The waits of ports, sweep groups and `sems` cells that have begun by now, in ascending port number. -/
def Residency.openWaits (r : Residency) : List (Nat × Nat × Nat) :=
  let ws := (List.range r.cells.length).filterMap (semsWait r) ++
    (r.ports.filterMap fun p => (r.beginnable p).map fun c => (c.wsem, c.wthr, p.num)) ++
    (r.groups.filter fun g => !g.begun && r.sweepReady g).map fun g => (g.wsem, g.wthr, g.ports.headD 0)
  (List.range 512).flatMap fun n => ws.filter (·.2.2 == n)

/-- The waits that have begun take their places in the queue of waits: those that begin in one turn in ascending port number. -/
def Residency.noteWaits (r : Residency) : Residency :=
  { r with semWaits := r.semWaits ++ r.openWaits.filter fun w => w.2.1 != 0 && !r.semWaits.contains w }

/-! ### Port faults and the quiescent point (R268, R289) -/

/-- Where a port met an uncorrectable error (R430): the physical address of a global access, 0 in the scratchpad or the OPM. -/
def portConsumedAt (s : State) (r : Residency) (port va : Nat) : Nat :=
  let cop := cwCop (r.cell port).word
  if 256 ≤ port || cop == 0x10 || cop == 0x11 then 0
  else
    match ((((r.port? port).map (·.ranges)).getD []) ++ (getDie s (dieOf r.ctl.core)).tlb).find? (·.covers r.part (vpnOf va)) with
    | some t => t.phys va
    | none => 0

/-- A port stops with a fault: its cause goes to the handler of the control pack's quarter (R289, R365); consumed poison is logged (R431). -/
def stopPort (s : State) (r : Residency) (port code detail : Nat) : State :=
  let s := logConsumed s r.part r.ctl.core code port (portConsumedAt s r port detail)
  let n := s.nextId
  let s := modRes { s with nextId := n + 1 } r.id fun r => r.modPort port fun p =>
    { p with stopped := some ⟨code, BitVec.ofNat 64 detail, s.clock, false, n⟩ }
  queueCause s r.ctl.core r.ctl.quarter
    { code, src := 2, quarter := r.ctl.quarter, slot := r.ctl.slot, unit := port, seq := ((findHerd s r.herd).map (·.seq)).getD 0,
      detail := BitVec.ofNat 64 detail, machine := routedToMachine s r.part code, serial := n }

/-- The next move of a port: of its cell, or of its feeder. -/
def tryPort (s : State) (r : Residency) (n : Nat) : Try := if n < 256 then tryCell s r n else tryFeeder s r (n - 256)

/-- `PORT_FAULT` (R289): the port's next access faults; it has not begun. -/
def execPortFault (res port : Nat) (s : State) : Host.Outcome State Fault Refusal :=
  match findRes s res with
  | none => .next s
  | some r =>
    if ((r.port? port).map (·.stopped.isSome)).getD true then .next s
    else
      match tryPort s r port with
      | .fault code detail s' => .next (stopPort s' r port code detail)
      | .fire _ | .stall _ | .no => .next s

/-- The first fault of a request at the TCE (R268). -/
def reqFault (s : State) (r : Residency) (x : Token) : LaneFault :=
  if !reqFields x then some (18, 0) else checkCopy (findHerd s r.herd) (reqCopy x)

/-- `COPY_REQUEST` (R268): the TCE checks the token that a `rqst` cell has sent; a copy that passes is issued, unless the copy queue is
full; one that fails stops the cell as a faulted port. -/
def execCopyRequest (res cell : Nat) (s : State) : Host.Outcome State Fault Refusal :=
  match findRes s res with
  | none => .next s
  | some r =>
    let x := (r.cell cell).data.buffer.head?
    if cwCop (r.cell cell).word != 0x13 || !r.firing || ((r.port? cell).map (·.stopped.isSome)).getD true then .next s
    else
      match x with
      | none => .next s
      | some x =>
        match reqFault s r x with
        | some f => .next (stopPort s r cell f.1 f.2.toNat)
        | none =>
          if 64 ≤ (getCore s r.ctl.core).copies.length then .next s
          else
            let d := issueCopy s r.ctl (some r.herd) r.part 0 (((findHerd s r.herd).map (·.seq)).getD 0) (reqCopy x)
            .next (if d.1 then putRes d.2 (r.modData cell fun d => { d with buffer := d.buffer.drop 1 }) else d.2)

/-- A cell or feeder can fire, or has an access in flight, or can begin or complete a command. -/
def Residency.canMove (s : State) (r : Residency) : Bool :=
  let goes : Try → Bool
    | .fire _ | .stall _ | .fault _ _ _ => true
    | .no => false
  (List.range r.cells.length).any (fun i => (((r.port? i).map (·.stopped.isNone)).getD true) && goes (tryCell s r i)) ||
  r.ports.any (fun p =>
    (256 ≤ p.num && p.stopped.isNone && goes (tryFeeder s r (p.num - 256))) ||
    (p.finished).isSome || ((r.beginnable p).map fun c => r.waitMet c.wsem c.wthr p.num).getD false ||
    (p.num < 256 && cwCop (r.cell p.num).word == 0x13 && p.stopped.isNone && !(r.cell p.num).data.buffer.isEmpty)) ||
  r.groups.any fun g => r.sweepReady g && if g.begun then g.ports.all r.portRoom else (r.sweepWait g).1

/-- The quiescent point (R289). -/
def Residency.quiescent (s : State) (r : Residency) : Bool := !r.canMove s

/-- `QUIESCENT_POINT` (R289): with a port stopped, no cell can fire. -/
def execQuiescentPoint (res : Nat) (s : State) : Host.Outcome State Fault Refusal :=
  match findRes s res with
  | none => .next s
  | some r =>
    if r.firing && r.ports.any (·.stopped.isSome) && r.quiescent s then .next (putRes s { r with quiet := true }) else .next s

end Sys2Proof.Machine
end

