-- ==== Sys2Proof/Machine/Residencies.lean ====
section
/-!
DEFINITION. The phases of a residency (R26, R27, R285-R292, R426, R434): parking, the lease, install, the drain, the whistle cut and what it
saves, and reinstall.
-/

namespace Sys2Proof.Machine

/-! ### The mould (R26, R163, R299) -/

/-- The registers of a quarter that the handler's reservation and the herd's own packs leave for queue registers (R26). -/
def quarterShare (s : State) (core quarter part : Nat) (herd : Option Nat) : Nat :=
  let handler := ((findPart s part).map fun p => reserve p.handlerRegs p.handlerWin).getD 0
  let own := ((s.packs.filter fun p => p.loc.core == core && p.loc.quarter == quarter && p.herd == herd && p.herd.isSome).map
    fun p => reserve p.regCount p.window).sum
  quarterRegs - handler - own

/-- The image as read, or how reading it ends. -/
inductive Image where
  | ok (h : Header) (digest : List Byte) (covered : List Byte) (words : List Quad) (s : State)
  | fault (code : Nat) (detail : Nat) (s : State)
  | stall (s : State)

/-- The image at an address, read at the L2 as plain loads (R163, R299): the header, its version (R7), then every cell word. -/
def readImage (s : State) (p : Pack) (va : Nat) : Image :=
  match checkBlock s p.loc.core p.part p.level .read va 16 16 with
  | (.fault code a, s') => .fault code a s'
  | (.stall, s') => .stall s'
  | (.ok ps, s') =>
    let bs := blockBytes s' p.loc.core ps
    let h := header (numLE (bs.drop 8))
    if h.version != 1 then .fault 28 15 s'
    else
      match checkBlock s' p.loc.core p.part p.level .read (truncI (va + 16) 64) (8 * h.ncells) 8 with
      | (.fault code a, s'') => .fault code a s''
      | (.stall, s'') => .stall s''
      | (.ok qs, s'') =>
        let ws := blockBytes s'' p.loc.core qs
        .ok h (bs.take 8) (bs.drop 8 ++ ws) (imageWords h.ncells ws) s''

/-- The checks of validate that fault, in their order (R26, R169, R271, R286). -/
def validateFault (s : State) (p : Pack) (h : Header) (digest covered : List Byte) (words : List Quad) : LaneFault :=
  match checkTable h digest covered words with
  | some off => some (28, BitVec.ofNat 64 off)
  | none =>
    match checkDepth h words with
    | some off => some (28, BitVec.ofNat 64 off)
    | none =>
      if (regionQuarters h.shape p.loc.quarter).any (fun q => quarterShare s p.loc.core q p.part p.herd < h.qregs) ||
          (getDie s (dieOf p.loc.core)).budget < h.lease then some (27, 0)
      else none

/-! ### Entering (R26, R27, R285) -/

/-- The stall conditions of R26 are clear for a residency in validate: no residency covers a quarter of its region, every quarter is in
the SIMT state, and each has enough free registers.  DESIGN CHOICE, log 56: a region reserved for a launch of one mould (R31) holds back no
`spxenter`, for R26 lists no such condition. -/
def regionFree (s : State) (r : Residency) : Bool :=
  r.quarters.all fun q =>
    !coveredBy s r.ctl.core q (fun x => x.id != r.id && x.holds) && (getQuarter s r.ctl.core q).state == .simt &&
      r.mould.qregs ≤ freeRegs s r.ctl.core q

/-- The control pack of a residency may take it on: it runs, is not parked, and its herd is not being saved. -/
def controlRuns (s : State) (r : Residency) : Bool :=
  match findPack s r.ctl with
  | some p =>
    p.control == some r.id && p.stop == .running && !p.parked && partRuns s p.part &&
      !((p.herd.bind (findHerd s)).map (·.saving)).getD false
  | none => false

/-- How the validate phase of a reinstall goes (R285, R292): the mould is read again, and the checks that can fault are made. -/
inductive Revalidated where
  | ok (s : State)
  | fault (code : Nat) (detail : Quad) (s : State)
  | stall (s : State)

/-- The mould of a saved residency read again at the address that its `spxenter` gave; one that no longer reads as the mould that the saved
state is of fails as a mould that breaks its format (log 62). -/
def revalidate (s : State) (p : Pack) (r : Residency) : Revalidated :=
  match readImage s p r.image.toNat with
  | .stall s' => .stall s'
  | .fault code d s' => .fault code (BitVec.ofNat 64 d) s'
  | .ok hd digest covered words s' =>
    match validateFault s' p hd digest covered words with
    | some f => .fault f.1 f.2 s'
    | none => if mouldOf hd words == r.mould then .ok s' else .fault 28 0 s'

/-- A reinstall fails: the control pack stops with the fault at its precise point, and the saved state is kept (R292, log 62). -/
def failReinstall (s : State) (p : Pack) (r : Residency) (code : Nat) (detail : Quad) : State :=
  match p.paths.head? with
  | none => s
  | some q => stopPack (putRes s { r with phase := .saved }) p q.pc false ⟨code, activeMask s p q, detail⟩ none

/-- Validation passes: the region's packs park, and the lease is asked for. -/
def parkRegion (s : State) (r : Residency) : State :=
  let s := park s r
  if r.mould.lease == 0 then putRes s { r with phase := .install }
  else
    putRes (modDie s (dieOf r.ctl.core) fun d => { d with requests := d.requests ++ [⟨r.id, r.mould.lease⟩] }) { r with phase := .lease }

/-- `REGION_PARKING` (R26, R27, R285): validate ends, once its stall conditions are clear; of a reinstall it makes every check again (R292). -/
def execRegionParking (loc : PackLoc) (s : State) : Host.Outcome State Fault Refusal :=
  match findPack s loc with
  | none => .next s
  | some p =>
    match p.control.bind (findRes s) with
    | none => .next s
    | some r =>
      if r.phase != .validate || r.ctl != loc || !controlRuns s r then .next s
      else if r.restore then
        match revalidate s p r with
        | .stall s' => .next s'
        | .fault code d s' => .next (failReinstall s' p r code d)
        | .ok s' => .next (if regionFree s' r then parkRegion s' r else s')
      else .next (if regionFree s r then parkRegion s r else s)

/-- `LEASE_GRANT` (R286, R426): the head of the die's queue is granted when the budget covers it. -/
def execLeaseGrant (die : Nat) (s : State) : Host.Outcome State Fault Refusal :=
  let d := getDie s die
  match d.requests with
  | [] => .next s
  | q :: qs =>
    if d.budget < d.granted + q.units then .next s
    else
      .next (modRes (modDie s die fun d => { d with granted := d.granted + q.units, requests := qs }) q.res
        fun r => { r with leased := true, phase := .install })

/-- A cell reinstalled: its saved tokens head its channels again (R292). -/
def Cell.restore (c : Cell) : Cell :=
  { c with chans := List.zipWith (· ++ ·) c.saveArea c.chans, saveArea := List.replicate 4 [], saved := false, whistled := [] }

/-- A port reinstalled: not stopped, its ranges latched afresh for the command it is carrying out (R292, R397). -/
def Port.restore (s : State) (r : Residency) (p : Port) : Port :=
  { p with
    stopped := none, whistle := false, relatch := [], dropped := []
    ranges := match p.ahead with
      | c :: _ => if c.begun then latch s r (r.portWord p.num) c else []
      | [] => [] }

/-- `MOULD_INSTALL` (R285, R292): the cells wake, empty or as a cut saved them; the region is active, and the control pack of a fresh
residency goes on after its `spxenter`. -/
def execMouldInstall (res : Nat) (s : State) : Host.Outcome State Fault Refusal :=
  match findRes s res with
  | none => .next s
  | some r =>
    if r.phase != .install || !controlRuns s r then .next s
    else
      let bank := ((findPart s r.part).map (·.bank)).getD 0
      let r' : Residency :=
        if r.restore then
          { r with cells := r.cells.map Cell.restore, ports := r.ports.map (Port.restore s r), semWaits := [] }
        else
          { r with
            cells := r.mould.words.map Cell.fresh, ports := r.portNumbers.map Port.fresh, sems := [], semWaits := [], semovf := false
            groups := [], bars := [], serial := 0 }
      let s := putRes (setQuarters s r.ctl.core r.quarters .spatial)
        { r' with phase := .active, bank, restore := false, cutWanted := false, quiet := false }
      if r.restore then .next s
      else
        match findPack s r.ctl with
        | some p => .next (setPack s { p with paths := p.paths.map fun q => { q with pc := q.pc + 16, wait := .run, wbase := 0, wfrom := none } })
        | none => .next s

/-! ### Leaving (R288) -/

/-- Every sink has fired on EOS. -/
def Residency.sinksDone (r : Residency) : Bool := r.cells.all fun c => cwCop c.word == 0 || !cwSink c.word || c.eos

/-- The residency is drained (R288). -/
def Residency.drained (r : Residency) : Bool :=
  r.sinksDone && r.ports.all (fun p => p.queue.isEmpty && p.stopped.isNone) &&
    r.cells.all fun c => !(cwCop c.word == 0x0B && c.data.draining) && !(cwCop c.word == 0x13 && !c.data.buffer.isEmpty)

/-- `RESIDENCY_DRAINED` (R288, R300): the lease returns, the region unparks, and the control pack goes on after its `spxleave` with the
acquire of R134; the region of a kind-1 herd is no longer reserved. -/
def execResidencyDrained (res : Nat) (s : State) : Host.Outcome State Fault Refusal :=
  match findRes s res with
  | none => .next s
  | some r =>
    if r.phase != .draining || !r.drained then .next s
    else
      let s := modHerd (acquireAll (endResidency s r) r.ctl.core) r.herd fun h => { h with reserves := false }
      match findPack s r.ctl with
      | some p => .next (setPack s { p with paths := p.paths.map fun q => { q with pc := q.pc + 16, wait := .run, wbase := 0, wfrom := none } })
      | none => .next s

/-! ### The whistle cut (R290, R291, R372, R434) -/

/-- A port has a command bound. -/
def Port.bound (p : Port) : Bool := p.queue.any fun c => c.kind == .command

/-- Every token of a cell's channels up to each channel's whistle goes into the save area, and the whistles that head them are taken. -/
def Cell.spill (c : Cell) : Cell :=
  let part (k : Nat) : List Token × List Token := (c.chan k).span fun x => x.kind != .whistle
  { c with
    saveArea := (List.range 4).map fun k => c.saveArea.getD k [] ++ (part k).1
    chans := (List.range 4).map fun k => (part k).2.drop 1
    whistled := c.whistled ++ (List.range 4).filter fun k => !(part k).2.isEmpty }

/-- `WHISTLE_CUT` (R290, R434): the whistles are placed; with a port stopped, not before the quiescent point (R289). -/
def execWhistleCut (res : Nat) (s : State) : Host.Outcome State Fault Refusal :=
  match findRes s res with
  | none => .next s
  | some r =>
    if !r.cutWanted || !(r.phase == .active || r.phase == .draining) || (r.ports.any (·.stopped.isSome) && !r.quiet) then .next s
    else
      let cells := r.cells.map fun c =>
        if cwPut c.word then { c with chans := c.chans.modify 0 (· ++ [Token.mark .whistle]) }
        else if cwGet c.word then { c.spill with saved := true }
        else c
      let ports := r.ports.map fun (p : Port) => { p with whistle := 256 ≤ p.num && p.bound }
      .next (putRes s { r with phase := .cutting, cutWanted := false, cells, ports })

/-- An input of a cell that a whistle reaches: a link, the input of put mode, or a feeder whose whistle is on its way or has come. -/
def Residency.expects (r : Residency) (i k : Nat) : Bool :=
  let c := r.cell i
  let fed := (k == 0 && cwFa c.word) || (k == 1 && cwFb c.word)
  (r.inputs i).contains k &&
    (!fed || c.whistled.contains k || (c.chan k).any (·.kind == .whistle) ||
      r.ports.any fun p => p.whistle && 256 ≤ p.num && r.feederTarget (p.num - 256) == some (i, k))

/-- A whistle heads an input of the cell, or none will come and it acts as a source (R290). -/
def Residency.whistleAt (r : Residency) (i : Nat) : Bool :=
  let c := r.cell i
  (List.range 4).any (fun k => ((r.head? i k).map (·.kind)) == some .whistle) ||
    (List.range 4).all fun k => !r.expects i k && !c.whistled.contains k

/-- What must end before the cell may save: results still to be emitted, a request at the TCE, a drain in progress (R290); a stopped port
completes nothing. -/
def Residency.unfinished (r : Residency) (i : Nat) : Bool :=
  let c := r.cell i
  let stopped := ((r.port? i).map (·.stopped.isSome)).getD false
  (!c.data.buffer.isEmpty && !stopped) ||
  (cwCop c.word == 0x0B && c.data.draining && !(r.cell (cwCfg c.word)).saved) ||
  (cwCop c.word == 0x15 && ((servedMacs r i)[c.data.count 0]?).any fun m => (r.cell m).data.draining)

/-- A cell that has not saved may save now. -/
def Residency.savesNow (r : Residency) (i : Nat) : Bool :=
  let c := r.cell i
  cwCop c.word != 0 && !c.saved && r.whistleAt i && r.canEmit i && !r.unfinished i

/-- A saved cell has tokens to move into the save area. -/
def Residency.spillsNow (r : Residency) (i : Nat) : Bool := (r.cell i).saved && (r.cell i).chans.any fun l => !l.isEmpty

/-- A feeder's whistle can be placed. -/
def Residency.feederWhistles (r : Residency) (f : Nat) : Bool :=
  ((r.port? (256 + f)).map (·.whistle)).getD false && ((r.feederTarget f).map fun t => r.room t.1 t.2).getD false

/-- Nothing else can happen in the cut: then a cell whose whistle is still on its way behind data may save (R290). -/
def Residency.stuck (s : State) (r : Residency) : Bool :=
  !r.canMove s && !((List.range r.cells.length).any fun i => r.savesNow i || r.spillsNow i) && !((List.range 64).any r.feederWhistles)

/-- The cell saves: its whistle to every consumer, and its waiting tokens into the save area. -/
def Residency.saveCell (r : Residency) (i : Nat) : Residency :=
  (r.emit i (Token.mark .whistle)).modCell i fun c => { c.spill with saved := true }

/-- `CELL_WHISTLE` (R290): a cell, or feeder 256 + f, acts on the whistle. -/
def execCellWhistle (res cell : Nat) (s : State) : Host.Outcome State Fault Refusal :=
  match findRes s res with
  | none => .next s
  | some r =>
    if r.phase != .cutting then .next s
    else if 256 ≤ cell then
      let f := cell - 256
      match r.feederTarget f with
      | none => .next s
      | some t =>
        if r.feederWhistles f then
          .next (putRes s ((r.deliver t.1 t.2 (Token.mark .whistle)).modPort cell fun p => { p with whistle := false }))
        else .next s
    else if r.spillsNow cell then .next (putRes s (r.modCell cell Cell.spill))
    else if r.savesNow cell || (cwCop (r.cell cell).word != 0 && !(r.cell cell).saved && r.canEmit cell &&
        (r.cell cell).chans.any (fun l => !l.isEmpty) && r.stuck s) then
      .next (putRes s (r.saveCell cell))
    else .next s

/-- The cut is complete (R290): every cell has saved, and no whistle or token is on its way. -/
def Residency.cutDone (r : Residency) : Bool :=
  r.ports.all (fun p => !p.whistle) &&
    (List.range r.cells.length).all fun i =>
      let c := r.cell i
      cwCop c.word == 0 || (c.saved && c.chans.all List.isEmpty && (List.range 4).all fun k => !r.expects i k || c.whistled.contains k)

/-- The queued causes of a residency's ports end (R372, R376). -/
def dropPortCauses (s : State) (r : Residency) : State :=
  match findPack s ⟨r.ctl.core, r.ctl.quarter, handlerSlot⟩ with
  | some h => setPack s { h with wakes := keptWakes s (fun c => !(c.src == 2 && c.slot == r.ctl.slot)) h.wakes }
  | none => s

/-- A cause concerns a herd of a core.  That of a copy or a port does so while the unit stands stopped by it: a cut ends those of its
residency's ports, in service or not (R372, R376). -/
def Cause.ofHerd (s : State) (core : Nat) (herd : Nat) (c : Cause) : Bool :=
  if c.slot == handlerSlot then false
  else
    match c.src with
    | 0 => ((findHerd s herd).map (·.seq)) == some c.seq && (findPack s ⟨core, c.quarter, c.slot⟩).any fun p => p.herd == some herd
    | 1 => (getCore s core).copies.any fun y => y.herd == some herd && y.suspended.any (·.serial == c.serial)
    | _ => s.residencies.any fun r => r.herd == herd && r.ports.any fun (p : Port) => p.stopped.any (·.serial == c.serial)

/-- A cause of the herd is queued or in service (R370, R373), other than the one that a handler at `me` serves. -/
def herdCaused (s : State) (h : Herd) (me : Option PackLoc) : Bool :=
  s.packs.any fun p => p.isHandler && p.loc.core == h.core &&
    (p.wakes.any (Cause.ofHerd s h.core h.id) ||
      match p.wake with
      | none => false
      | some w => (some p.loc != me && w.cause.ofHerd s h.core h.id) || w.outer.any (Cause.ofHerd s h.core h.id))

/-- A herd that the Shepherd may save: no pack stopped by a fault or a halt, no queued, in-service or deferred cause, no suspended copy, no
stopped port (R373). -/
def savable (s : State) (h : Herd) : Bool :=
  !herdCaused s h none &&
  (s.packs.filter fun p => p.herd == some h.id).all (fun p => p.stop == .running) &&
    ((getCore s h.core).copies.all fun c => !(c.herd == some h.id && c.suspended.isSome)) &&
    s.residencies.all fun r => r.herd != h.id || r.ports.all fun (p : Port) => p.stopped.isNone

/-- Every pack of a herd stops, as parking stops packs, so that the herd can be saved (R373). -/
def freezeHerd (s : State) (id : Nat) : State :=
  let s := modHerd s id fun h => { h with saving := true }
  { s with packs := s.packs.map fun p => if p.herd == some id then p.freeze (now s) else p }

/-! ### The start of a save (R30, R38, R285, R373, R376) -/

/-- The herds that are pre-empted with one: those of a co-resident launch, all together (R38). -/
def preemptGroup (s : State) (h : Herd) : List Herd :=
  if ((launchOf s h).map (·.desc.cores)).getD false then
    s.herds.filter fun g => g.part == h.part && g.seq == h.seq && g.place == .resident
  else [h]

/-- The residency of a resident herd, in any phase. -/
def herdRes (s : State) (herd : Nat) : Option Residency := s.residencies.find? (·.herd == herd)

/-- The Shepherd begins to save a herd: a residency still entering rolls back, an installed one is cut, and the packs stop. -/
def beginSave (s : State) (herd : Nat) : State :=
  match herdRes s herd with
  | none => freezeHerd s herd
  | some r =>
    match r.phase with
    | .validate | .lease | .install => freezeHerd (rollBack s r) herd
    | .active | .draining => modRes s r.id fun r => { r with cutWanted := true, saveHerd := true }
    | .cutting => modRes s r.id fun r => { r with saveHerd := true }
    | .saved => freezeHerd s herd

/-- A save is in progress. -/
def beingSaved (s : State) (h : Herd) : Bool := h.saving || ((herdRes s h.id).map (·.saveHerd)).getD false

/-- The state of a residency that its cut leaves (R291). -/
def Residency.cutState (r : Residency) : Residency :=
  { r with
    phase := .saved, leased := false, restore := true, quiet := false
    sems := r.sems.filter fun x => x.1 ≤ r.mould.semmax
    ports := r.ports.map fun (p : Port) => { p with stopped := none, ranges := [], relatch := [], dropped := [] } }

/-- `WHISTLE_CUT_COMPLETE` (R291, R372, R373): the region is given up; the herd is saved, and with it the other herds of a co-resident launch
(R38), or it keeps the state, which is reinstalled at once where the control pack runs on. -/
def execWhistleCutComplete (res : Nat) (s : State) : Host.Outcome State Fault Refusal :=
  match findRes s res with
  | none => .next s
  | some r =>
    if r.phase != .cutting || !r.cutDone then .next s
    else
      let s := dropPortCauses (putRes (vacate s r) r.cutState) r
      let s := modHerd s r.herd fun h => { h with residency := some r.id }
      let runs := ((findPack s r.ctl).map (·.stop == .running)).getD false
      let group := ((findHerd s r.herd).map (preemptGroup s)).getD []
      if r.saveHerd && !group.isEmpty && group.all (savable s) then
        let mates := group.filter fun g => g.id != r.herd && !beingSaved s g
        .next ((mates.map (·.id)).foldl beginSave (freezeHerd s r.herd))
      else if runs then .next (reinstall s r.id r.ctl)
      else .next s

end Sys2Proof.Machine
end

