-- ==== Sys2Proof/Machine/SpatialIns.lean ====
section
/-!
DEFINITION. The spatial instructions, opcodes 0xC0-0xC8 (R283, R295-R308): the control pack enters and leaves a residency, gives its ports
commands and sweeps, and exchanges tokens and semaphore counts with its cells.
-/

namespace Sys2Proof.Machine

/-! ### `spxenter` (R285, R299) -/

/-- A residency in its validate phase. -/
def Residency.entered (id herd : Nat) (p : Pack) (m : Mould) (va : Quad) (t : Nat) : Residency :=
  { id, herd, part := p.part, ctl := p.loc, phase := .validate, mould := m, cells := [], ports := [], sems := [], semWaits := [],
    semovf := false, groups := [], bars := [], leased := false, bank := 0, image := va, since := t, restore := false, saveHerd := false,
    cutWanted := false, quiet := false, serial := 0 }

/-- `spxenter` (R285, R299): the checks, and the residency in validate; the control pack stays at the instruction. -/
def execSpxenter (h : Head) (o : X) (s : State) : Host.Outcome State Fault Refusal :=
  run (.spxenter h o) h s fun c =>
    let i : Instr := .spxenter h o
    let p := c.pack
    let bad (code : Nat) (detail : Quad) (s : State) : Effect := .fault ⟨code, c.exec, detail⟩ s
    if c.exec == 0#64 then .done (setPack s (p.retire i c))
    else
      match wholeFault i c none with
      | some f => .fault f s
      | none =>
        match p.herd with
        | none => bad 26 0 s
        | some hid =>
          if p.control.isSome || !c.exec.has 0 || p.paths.length != 1 then bad 26 0 s
          else if s.packs.any fun q => q.herd == some hid && q.control.isSome then bad 27 0 s
          else
            let va := (c.q o.a 0).toNat
            if va % 16 != 0 then bad 7 (BitVec.ofNat 64 va) s
            else
              let r := drain s p.loc 1#64
              if !r.1 then stallAt r.2
              else
                match readImage r.2 p va with
                | .stall s' => stallAt s'
                | .fault code d s' => bad code (BitVec.ofNat 64 d) s'
                | .ok hd digest covered words s' =>
                  match validateFault s' p hd digest covered words with
                  | some f => bad f.1 f.2 s'
                  | none =>
                    let s' := { s' with nextId := s'.nextId + 1, residencies := s'.residencies ++
                      [Residency.entered s'.nextId hid p (mouldOf hd words) (BitVec.ofNat 64 va) (now s')] }
                    .done (setPack s' { p with control := some r.2.nextId })

/-! ### The other spatial instructions -/

/-- The residency whose region is in the spatial state under its control pack (R296): until a cut is complete (R24). -/
def activeRes (s : State) (p : Pack) : Option Residency :=
  (p.control.bind (findRes s)).bind fun r => if (r.phase == .active || r.phase == .cutting) && r.ctl == p.loc then some r else none

/-- A spatial instruction: nothing with E empty; the spatial-mode fault but in a control pack whose region is spatial (R295, R296). -/
def spatialOp (i : Instr) (h : Head) (s : State) (srcs : Ctx → Residency → List Nat) (k : Ctx → Residency → Effect) :
    Host.Outcome State Fault Refusal :=
  run i h s fun c =>
    if c.exec == 0#64 then .done (setPack s (c.pack.retire i c))
    else
      match activeRes s c.pack with
      | none => .fault ⟨26, c.exec, 0⟩ s
      | some r =>
        match poisonFault c.pack (srcs c r) c.low with
        | some f => .fault ⟨f.1, c.exec, f.2⟩ s
        | none => k c { r with quiet := false }

/-- A spatial instruction that the cells of a residency under a cut cannot serve: it waits until the residency is active again, its path at
its precise point (DEDUCED from R290-R292 and R434, log 58). -/
def cutHolds (s : State) (r : Residency) (e : Effect) : Effect := if r.phase == .cutting then stallAt s else e

/-- `spxleave` (R288, R300, R434): the residency drains; the control pack stays until it is drained. -/
def execSpxleave (h : Head) (o : X) (s : State) : Host.Outcome State Fault Refusal :=
  spatialOp (.spxleave h o) h s (fun _ _ => []) fun _ r =>
    let cells := r.cells.map fun c =>
      if cwPut c.word && !c.putEos then { c with putEos := true, chans := c.chans.modify 0 (· ++ [Token.mark .eos]) } else c
    let ports := r.ports.map fun (p : Port) => { p with ended := true }
    cutHolds s r (.done (putRes s { r with phase := .draining, cells, ports }))

/-- The port number that a port field names (R298). -/
def strmPort (o : X) : Nat := o.low.toNat % 256 + (if o.low.toNat / 256 % 2 == 1 then 256 else 0)

/-- A stream-command fault (R303). -/
def strmBad (c : Ctx) (o : X) (s : State) : Effect := .fault ⟨29, c.exec, o.low.zeroExtend 64⟩ s

/-- The link type of input A of a cell: of its link, else of the last command queued at its feeder (R303). -/
def inputType (r : Residency) (i : Nat) : Nat :=
  match (mouldLinks r.mould.words).find? fun l => l.to_ == i && l.port == 0 with
  | some l => l.ty
  | none => ((r.ports.find? fun p => 256 ≤ p.num && r.feederTarget (p.num - 256) == some (i, 0)).map (·.lastType)).getD 0

/-- The token type of a command (R303): the port field's for a feeder, the cell's for a source port, input A's for the others. -/
def strmType (r : Residency) (o : X) : Nat :=
  let n := strmPort o
  if 256 ≤ n then o.low.toNat / 1024 % 16
  else if cwSourcePort (r.cell n).word then cwLtype (r.cell n).word
  else inputType r n

/-- The command of a `spxstrm` (R301, R302). -/
def strmCommand (c : Ctx) (o : X) (r : Residency) : Command :=
  let n := strmPort o
  let w := c.words o.b 4 c.low
  let lo := (w.getD 0 0).toNat
  let hi := (w.getD 1 0).toNat
  let cop := cwCop (r.portWord n)
  let byRange := cop == 0x12 || cop == 0x14
  let short := 256 ≤ n || cop == 0x10 || cop == 0x11
  let space (q : Quad) : Quad := if short then (q.extractLsb' 0 32).zeroExtend 64 else q
  { kind := .command, base := space (c.q o.a c.low), sbase := space (c.q o.d c.low)
    n0 := lo % 65536 + 1, n1 := lo / 65536 + 1, n2 := hi % 65536 + 1
    s1 := if byRange then 0 else sextN (w.getD 2 0).toNat 32
    s2 := if byRange then 0 else sextN (w.getD 3 0).toNat 32
    range := if byRange then (w.getD 2 0).toNat else 0
    ltype := strmType r o
    last := o.low.toNat / 512 % 2 == 1
    wsem := o.wsem.toNat, wthr := o.wthr.toNat, ssem := o.ssem.toNat, sinc := o.sinc.toNat, begun := false, pos := 0 }

/-- An extent lies in the space of its port (R103, R109, R111, R303): a fault with its detail. -/
def extentFault (h : Option Herd) (cop : Nat) (base lo hi : Int) : LaneFault :=
  let at_ (x : Int) : Quad := BitVec.ofNat 64 (truncI x 64)
  if cop == 0 then
    let slot := base.toNat / 65536
    let start : Int := (slot * 65536 : Nat)
    if ((h.map (·.opm.length)).getD 0) ≤ slot || lo < start || start + 32768 < hi then some (16, BitVec.ofNat 64 slot) else none
  else if cop == 0x10 || cop == 0x11 then
    if lo < 0 || (spadLimit h : Int) < hi then some (11, at_ lo)
    else if lo < 16 * (((h.map (·.bars.length)).getD 0 : Nat) : Int) then some (13, at_ lo)
    else none
  else
    let ok (x : Int) : Bool := 0 ≤ x && x < 2 ^ 64 && canonical x.toNat
    if !ok lo then some (8, at_ lo) else if !ok (hi - 1) then some (8, at_ (hi - 1)) else none

/-- Checks 4 and 5 of R303. -/
def strmRanges (h : Option Herd) (cop : Nat) (k : Command) : LaneFault :=
  let tb := footprint k.ltype
  let byRange := cop == 0x12 || cop == 0x14
  let off (x : Int) : Bool := x % (tb : Nat) != 0
  let base : Int := k.base.toNat
  let sbase : Int := k.sbase.toNat
  if off base then some (7, k.base)
  else if !byRange && (off k.s1 || off k.s2) then some (7, k.base)
  else if !byRange && isMx k.ltype && off sbase then some (7, k.sbase)
  else
    let e := if byRange then (base, base + max 1 (k.range : Int)) else k.extent
    (extentFault h cop base e.1 e.2).or
      (if isMx k.ltype then extentFault h cop sbase (sbase + (e.1 - base) / (tb : Nat)) (sbase + (e.2 - base + (tb : Nat) - 1) / (tb : Nat)) else none)

/-- The entries of a port's queue; a divider takes no entry (R279). -/
def Port.entries (p : Port) : Nat := (p.queue.filter fun c => match c.kind with | .divider _ => false | .command | .sweep _ => true).length

/-- The registers that a `spxstrm` reads: d only where its token type is MX (R297). -/
def strmSources (o : X) (r : Residency) : List Nat :=
  let pair (x : Reg) : List Nat := [x.toNat, x.toNat + 1]
  (if isMx (strmType r o) then pair o.d else []) ++ pair o.a ++ (List.range 4).map (o.b.toNat + ·)

/-- `spxstrm` (R303): the checks in their order; a full queue holds it back (R279). -/
def execSpxstrm (h : Head) (o : X) (s : State) : Host.Outcome State Fault Refusal :=
  spatialOp (.spxstrm h o) h s (fun _ r => strmSources o r) fun c r =>
    let i : Instr := .spxstrm h o
    let n := strmPort o
    let cop := cwCop (r.portWord n)
    match r.port? n with
    | none => strmBad c o s
    | some p =>
      let k := strmCommand c o r
      if cop == 0x13 then strmBad c o s
      else if p.ended then .fault ⟨26, c.exec, 0⟩ s
      else if (cop == 0x0D && k.total % 4 != 0) || (n < 256 && !isMx k.ltype && o.d.toNat != 0) then strmBad c o s
      else
        match strmRanges (c.herd s) cop k with
        | some f => .fault ⟨f.1, c.exec, f.2⟩ s
        | none =>
          let d := drain s c.pack.loc 1#64
          if 16 ≤ p.entries || !d.1 then stallAt d.2
          else
            let r := r.modPort n fun p => { p with queue := p.queue ++ [k], ended := k.last, flagged := k.last, lastType := k.ltype }
            .done (setPack (putRes d.2 r) (c.pack.retire i c))

/-- `spxsem` (R305): the wait with port number 512, then the signal; under `.rd` the value of the semaphore in literal [7:0]. -/
def execSpxsem (h : Head) (o : X) (s : State) : Host.Outcome State Fault Refusal :=
  spatialOp (.spxsem h o) h s (fun _ _ => []) fun c r =>
    let i : Instr := .spxsem h o
    let d := drain s c.pack.loc 1#64
    if !d.1 then stallAt d.2
    else
      let w := r.tryWait o.wsem.toNat o.wthr.toNat 512
      if !w.1 then .done (setPack (putRes d.2 w.2) (c.pack.waitPath c.idx (.again 4 0) (now s)))
      else
        let r := w.2.signal o.ssem.toNat o.sinc.toNat
        let p := if o.op.toNat % 2 == 1 then
            c.pack.writeReg o.d.toNat c.exec fun _ => BitVec.ofNat 32 (r.sem (o.low.toNat % 256))
          else c.pack
        .done (acquireAll (setPack (putRes d.2 r) (p.retire i c)) c.pack.loc.core)

/-- The port numbers that a `spxsweep` names, ascending. -/
def sweepPorts (c : Ctx) (o : X) : List Nat :=
  if o.op.toNat % 2 == 1 then ((List.range 64).filter fun f => (c.q o.a c.low).getLsbD f).map (256 + ·) else [strmPort o]

/-- A port that a sweep group may name: a source port with a consumer. -/
def sweepable (r : Residency) (n : Nat) : Bool :=
  (r.port? n).isSome && (256 ≤ n || (cwSourcePort (r.cell n).word && !cwSink (r.cell n).word))

/-- `spxsweep` (R304). -/
def execSpxsweep (h : Head) (o : X) (s : State) : Host.Outcome State Fault Refusal :=
  spatialOp (.spxsweep h o) h s (fun _ _ => if o.op.toNat % 2 == 1 then [o.a.toNat, o.a.toNat + 1] else []) fun c r =>
    let i : Instr := .spxsweep h o
    let ns := sweepPorts c o
    let ps := ns.filterMap r.port?
    if ns.isEmpty || !ns.all (sweepable r) then strmBad c o s
    else if ps.any (·.ended) then .fault ⟨26, c.exec, 0⟩ s
    else if ps.any fun p => 16 ≤ p.entries then stallAt s
    else
      let e : Command :=
        { kind := .sweep r.serial, base := 0, sbase := 0, n0 := 1, n1 := 1, n2 := 1, s1 := 0, s2 := 0, range := 0, ltype := 0, last := false,
          wsem := 0, wthr := 0, ssem := 0, sinc := 0, begun := false, pos := 0 }
      let g : SweepGroup := ⟨r.serial, ns, o.wsem.toNat, o.wthr.toNat, o.ssem.toNat, o.sinc.toNat, false⟩
      let r := ns.foldl (fun r n => r.modPort n fun p => { p with queue := p.queue ++ [e] }) r
      .done (setPack (putRes s { r with groups := r.groups ++ [g], serial := r.serial + 1 }) (c.pack.retire i c))

/-- `spxbar` (R283, R305): a divider in every port's queue. -/
def execSpxbar (h : Head) (o : X) (s : State) : Host.Outcome State Fault Refusal :=
  spatialOp (.spxbar h o) h s (fun _ _ => []) fun c r =>
    let i : Instr := .spxbar h o
    let e : Command :=
      { kind := .divider r.serial, base := 0, sbase := 0, n0 := 1, n1 := 1, n2 := 1, s1 := 0, s2 := 0, range := 0, ltype := 0, last := false,
        wsem := 0, wthr := 0, ssem := 0, sinc := 0, begun := false, pos := 0 }
    let ports := r.ports.map fun (p : Port) => { p with queue := p.queue ++ [e] }
    let b : BarSignal := ⟨r.serial, o.ssem.toNat, o.sinc.toNat⟩
    let r : Residency := { r with ports, bars := r.bars ++ [b], serial := r.serial + 1 }
    .done (setPack (putRes s r.settle) (c.pack.retire i c))

/-- The token that a `spxput` brings (R306). -/
def putToken (c : Ctx) (o : X) (t : Nat) : Token :=
  match o.op.toNat % 4 with
  | 0 => ⟨.data, t, BitVec.ofNat 256 (wordsNat (c.words o.a 4 c.low ++ c.words o.b 4 c.low)), BitVec.ofNat 8 (o.low.toNat / 256)⟩
  | 1 => Token.mark .eos
  | _ => Token.mark .sweep

/-- `spxput` (R306): the token enters the channel of a put-mode `pass` cell, or the path waits for a free slot. -/
def execSpxput (h : Head) (o : X) (s : State) : Host.Outcome State Fault Refusal :=
  spatialOp (.spxput h o) h s (fun _ _ => sourceRegs (.spxput h o)) fun c r =>
    let i : Instr := .spxput h o
    let n := o.low.toNat % 256
    let cell := r.cell n
    let x := putToken c o (cwLtype cell.word)
    if !cwPut cell.word then strmBad c o s
    else if cell.putEos then .fault ⟨26, c.exec, 0⟩ s
    else if x.kind == .data && !unusedZero x.ltype x then strmBad c o s
    else cutHolds s r <| if !r.room n 0 then .done (setPack s (c.pack.waitPath c.idx (.again 5 (2 * n + 1)) (now s)))
    else
      let r := (r.deliver n 0 x).modCell n fun k => { k with putEos := x.kind == .eos }
      .done (setPack (putRes s r) (c.pack.retire i c))

/-- The kind field of a `spxget` status. -/
def TokenKind.code : TokenKind → Nat
  | .data => 0
  | .eos => 1
  | .sweep => 2
  | .whistle => 3

/-- The destinations of a `spxget` (R307). -/
def writeGet (c : Ctx) (o : X) (x : Token) : Pack :=
  let words (k : Nat) : List Word := (List.range 4).map fun q => x.payload.extractLsb' (128 * k + 32 * q) 32
  let p := c.pack.writeQuad o.d.toNat c.exec fun _ => words 0
  let p := if o.op.toNat % 2 == 1 then p.writeQuad o.b.toNat c.exec fun _ => words 1 else p
  p.writeReg o.a.toNat c.exec fun _ => BitVec.ofNat 32 (x.side.toNat + x.kind.code * 256)

/-- `spxget` (R307): the head of a get-mode `pass` cell, or the path waits for one; after EOS every later one gives EOS. -/
def execSpxget (h : Head) (o : X) (s : State) : Host.Outcome State Fault Refusal :=
  spatialOp (.spxget h o) h s (fun _ _ => []) fun c r =>
    let i : Instr := .spxget h o
    let n := o.low.toNat % 256
    let cell := r.cell n
    if !cwGet cell.word then strmBad c o s
    else cutHolds s r <| if cell.eos then .done (setPack s ((writeGet c o (Token.mark .eos)).retire i c))
    else
      match r.head? n 0 with
      | none => .done (setPack s (c.pack.waitPath c.idx (.again 5 (2 * n)) (now s)))
      | some x =>
        let r := (r.take n 0).modCell n fun k => { k with eos := x.kind == .eos }
        .done (setPack (putRes s r) ((writeGet c o x).retire i c))

/-- The residency status (R308). -/
def resStatus (s : State) (r : Residency) : Nat :=
  let stopped := (r.ports.filter (·.stopped.isSome)).length
  let bit (b : Bool) (n : Nat) : Nat := if b then 2 ^ n else 0
  bit (stopped != 0) 0 + bit (r.quiescent s) 1 + bit r.semovf 2 + bit r.sinksDone 3 + stopped % 256 * 2 ^ 8 +
    (r.ports.map (·.entries)).sum % 2 ^ 32 * 2 ^ 32

/-- `spxstat` (R308): `.clr` clears semovf after the read. -/
def execSpxstat (h : Head) (o : X) (s : State) : Host.Outcome State Fault Refusal :=
  spatialOp (.spxstat h o) h s (fun _ _ => []) fun c r =>
    let p := if o.op.toNat % 2 == 1 then c.pack.writeReg o.d.toNat c.exec fun _ => BitVec.ofNat 32 (r.sem (o.low.toNat % 256))
      else c.pack.writePair o.d.toNat c.exec fun _ => BitVec.ofNat 64 (resStatus s r)
    let s := if o.op.toNat / 2 % 2 == 1 then modRes s r.id fun r => { r with semovf := false } else s
    .done (setPack s (p.retire (.spxstat h o) c))

/-! ### Waiting paths go on -/

/-- A waiting `spxsem`, `spxput` or `spxget` could go on (R305-R307). -/
def ctlWaitOver (s : State) (p : Pack) (w : Wait) : Bool :=
  match w with
  | .again 4 _ =>
    (activeRes s p).any fun r => ((r.semWaits.find? (·.2.2 == 512)).map fun x => r.waitMet x.1 x.2.1 512).getD true
  | .again 5 k =>
    (activeRes s p).any fun r => if k % 2 == 1 then r.room (k / 2) 0 else (r.head? (k / 2) 0).isSome || (r.cell (k / 2)).eos
  | .again _ _ | .run | .set _ | .bar _ _ _ | .barDone _ _ _ _ | .line _ _ => false

/-- Paths whose wait is over go on: at a full line (R66), at a semaphore, a slot or a token. -/
def wakeWaits (s : State) (p : Pack) : Pack :=
  (List.range p.paths.length).foldl (fun p i =>
    match p.paths[i]? with
    | some q => if ctlWaitOver s p q.wait then p.wakePath i else p
    | none => p) (wakeLines s p)

end Sys2Proof.Machine
end

