-- ==== Sys2Proof/Machine/Submit.lean ====
section
/-!
DEFINITION. Work comes to the Shepherd: the accesses made for launches and match entries (R435), the launch descriptor and its submission
(R350-R353), eligibility and the chosen launch (R354-R357), and the launch and task instructions, opcodes 0xD0-0xD4 (R309-R314).
-/

namespace Sys2Proof.Machine

/-! ### Accesses made for launches and match entries (R435) -/

/-- How the checks of such an access end. -/
inductive Served where
  | ok (parts : List (Nat × Nat × Tlb))
  | fail (code : Nat)
  | stall

/-- Translation, permission and windows with the rights of a user pack, page by page. -/
def servePages (s : State) (p : Partition) (acc : Acc) : List (Nat × Nat) → Served × State
  | [] => (.ok [], s)
  | (va, n) :: rest =>
    if !canonical va then (.fail 8, s)
    else
      match portTranslate s p.die0 p [] va with
      | (.fault, s') => (.fail 9, s')
      | (.stall, s') => (.stall, s')
      | (.ok t, s') =>
        let pa := t.phys va
        if !permitted s' t true acc va then (.fail 10, s')
        else if !pageReady s' t pa acc.writes then (.stall, requestPage s' t pa acc.writes)
        else if (acc == .read || acc == .rmw) && poisoned s' t pa n then (.fail 15, s')
        else
          match servePages (usePage s' t pa) p acc rest with
          | (.ok ps, s'') => (.ok ((pa, n, t) :: ps), s'')
          | r => r

/-- The access to `len` bytes at `va`, an address that must be a multiple of `align`. -/
def serve (s : State) (part : Nat) (acc : Acc) (va len align : Nat) : Served × State :=
  match findPart s part with
  | none => (.fail 9, s)
  | some p => if va % align != 0 then (.fail 7, s) else servePages s p acc (pageParts va len (len / pageSize + 2))

/-- The bytes of a served read, at their homes: a sys-scope load. -/
def servedBytes (s : State) (ps : List (Nat × Nat × Tlb)) : List Byte := ps.flatMap fun x => homeBytes s x.2.2 x.1 x.2.1

/-- Bytes of one page written at the home, line by line. -/
def homeLines (s : State) (part : Nat) (t : Tlb) (pa : Nat) (bs : List Byte) : Nat → State
  | 0 => s
  | fuel + 1 =>
    if bs.isEmpty then s
    else
      let n := lineSize - pa % lineSize
      homeLines (homeWrite s part 0 8 t pa (bs.take n)) part t (pa + n) (bs.drop n) fuel

/-- A served write: sys-scope writes. -/
def servedWrite (s : State) (part : Nat) : List (Nat × Nat × Tlb) → List Byte → State
  | [], _ => s
  | (pa, n, t) :: ps, bs => servedWrite (homeLines s part t pa (bs.take n) (n / lineSize + 2)) part ps (bs.drop n)

/-- The type-17 entry of a failed access: its kind, fault code, and launch or match entry (R431, R435). -/
def logServed (s : State) (part kind code who : Nat) : State :=
  logEvent s 17 part 8 0 0 (BitVec.ofNat 64 (code + kind * 2 ^ 8 + who * 2 ^ 32))

/-! ### The launch descriptor (R350) -/

/-- The bits of a descriptor that no field names. -/
def descReserved (n : Nat) : Bool :=
  bitsOf n 15 14 != 0 || bitsOf n 31 30 != 0 || bitsOf n 59 51 != 0 || bitsOf n 191 176 != 0 || bitsOf n 271 263 != 0 ||
    bitsOf n 319 281 != 0 || bitsOf n 323 323 != 0 || bitsOf n 1023 775 != 0

/-- The fields of a descriptor, its declarations decoded. -/
def descOf (n : Nat) : Desc :=
  { kind := bitsOf n 9 8, cores := bitsOf n 10 10 == 1, prio := bitsOf n 13 11, npack := bitsOf n 19 16 + 1
    regs := 16 * (bitsOf n 22 20 + 1), window := bitsOf n 24 23, rsets := bitsOf n 29 25 + 1, spad := bitsOf n 39 32
    bars := bitsOf n 45 40, opm := bitsOf n 50 46, qw := bitsOf n 63 60 + 1, entry := BitVec.ofNat 64 (bitsOf n 127 64)
    gridx := bitsOf n 143 128, gridy := bitsOf n 159 144, gridz := bitsOf n 175 160, cbank := BitVec.ofNat 64 (bitsOf n 255 192)
    akind := bitsOf n 259 256, qen := bitsOf n 260 260 == 1, aq := bitsOf n 262 261, atarget := bitsOf n 280 272
    dep0 := BitVec.ofNat 32 (bitsOf n 415 384), dep1 := BitVec.ofNat 32 (bitsOf n 447 416), crec := BitVec.ofNat 64 (bitsOf n 511 448)
    cgate := BitVec.ofNat 64 (bitsOf n 575 512), cinc := BitVec.ofNat 64 (bitsOf n 639 576), cmsg := BitVec.ofNat 64 (bitsOf n 703 640)
    ctag := BitVec.ofNat 32 (bitsOf n 735 704), clen := bitsOf n 756 736, cport := bitsOf n 761 757, cpart := bitsOf n 764 762
    relsc := bitsOf n 767 765, shape := bitsOf n 769 768, mqueue := bitsOf n 774 770 }

/-- The gates a descriptor names, and the address of their list. -/
def descGates (n : Nat) : Nat := bitsOf n 322 320
def descGlist (n : Nat) : Nat := bitsOf n 383 324 * 16

/-- The herds of a launch. -/
def Desc.herds (d : Desc) : Nat := d.gridx * d.gridy * d.gridz

/-- Registers that one pack reserves (R21). -/
def Desc.reserve (d : Desc) : Nat := Sys2Proof.Machine.reserve d.regs d.window

/-! ### Submission (R351, R352) -/

/-- Packs of a launch that a quarter of an empty core takes: its user slots, and its registers beside the handler's reservation. -/
def emptyQuarter (p : Partition) (d : Desc) : Nat := min 31 ((quarterRegs - reserve p.handlerRegs p.handlerWin) / d.reserve)

/-- The lowest-numbered quarters of the regions of a shape (R13). -/
def regionStarts (shape : Nat) : List Nat :=
  match shape with
  | 0 => [0, 1, 2, 3]
  | 1 => [0, 2]
  | 2 => [0, 1]
  | _ => [0]

/-- The regions of an empty core that could hold a kind-1 herd; `qen` binds its pack to the lowest quarter of one (R334, R358). -/
def emptyRegions (p : Partition) (d : Desc) : Nat :=
  if emptyQuarter p d == 0 then 0 else ((regionStarts d.shape).filter fun q => !d.qen || q == d.aq).length

/-- Herds of a launch that an empty core takes at once (R23). -/
def emptyHerds (p : Partition) (d : Desc) : Nat :=
  let places := if d.kind == 1 then emptyRegions p d else (if d.qen then 1 else 4) * emptyQuarter p d / d.npack
  min places (min (176 / max 1 d.spad) (if d.opm == 0 then places else 16 / d.opm))

/-- Codes 1 to 6 of R351, which the descriptor's bits and the partition's formation decide. -/
def descCode (p : Partition) (n : Nat) : Option Nat :=
  let d := descOf n
  let inside :=
    if d.akind == 1 then p.die0 ≤ d.atarget && d.atarget < p.die0 + p.dies
    else if d.akind == 2 then 42 * p.die0 ≤ d.atarget && d.atarget < 42 * (p.die0 + p.dies) else true
  let lenOk := if d.cmsg == 0 then d.clen == 0 else 1 ≤ d.clen && d.clen ≤ 2 ^ 20
  let addrOk (a : Quad) (k : Nat) : Bool := a.toNat % k == 0 && canonical a.toNat
  if bitsOf n 7 0 != 1 then some 1
  else if 2 ≤ d.kind || 4 ≤ d.akind || descReserved n || (d.aq != 0 && !d.qen) ||
      (d.atarget != 0 && (d.akind == 0 || d.akind == 3)) || 17 ≤ d.cport then some 2
  else if d.spad == 0 || 176 < d.spad || 32 < d.bars || 16 < d.opm || (d.kind == 1 && d.npack != 1) || (d.kind == 0 && d.shape != 0) ||
      4 < d.relsc || !inside || !lenOk then some 3
  else if !addrOk d.entry 8 || !addrOk d.cbank 128 || !canonical (descGlist n) || !addrOk d.crec 32 || !addrOk d.cgate 8 ||
      !addrOk d.cmsg 16 then some 4
  else if d.herds != 0 && emptyHerds p d == 0 then some 5
  else if d.herds != 0 && d.cores && 42 * p.dies * emptyHerds p d < d.herds then some 6
  else none

/-- The gate list's entries: address and threshold. -/
def gateEntries : Nat → List Byte → List (Quad × Quad × Bool)
  | 0, _ => []
  | n + 1, bs => (BitVec.ofNat 64 (numLE (bs.take 8)), BitVec.ofNat 64 (numLE ((bs.drop 8).take 8)), false) :: gateEntries n (bs.drop 16)

/-- How far back a sequence number lies; 0 is skipped as the numbers wrap (R352). -/
def seqAge (last seq : Word) : Nat := if seq.toNat ≤ last.toNat then last.toNat - seq.toNat else last.toNat + (2 ^ 32 - 1) - seq.toNat

/-- A dependence is satisfied (R352). -/
def depMet (p : Partition) (dep : Word) : Bool := dep == 0 || !(p.openSeqs.contains dep) || 2 ^ 20 ≤ seqAge p.lastSeq dep

/-- The launch is pending (R354): it has not been eligible yet, or R357 has made it pending again. -/
def Launch.pending (l : Launch) : Bool := l.eligible.isNone || l.ageHeld.isSome

/-- Gates that pending launches of a partition watch, each once (R354). -/
def watchedGates (p : Partition) : List Quad := ((p.launches.filter Launch.pending).flatMap fun l => l.gates.map (·.1)).eraseDups

/-- The number after a sequence number. -/
def nextSeq (last : Word) : Word := if last == BitVec.allOnes 32 then 1 else last + 1

/-- Codes 7 to 10 of R351, or the launch's gates; `stall` while the gate list cannot be read yet. -/
def gateCode (s : State) (p : Partition) (queue n : Nat) : Except (Option Nat) (List (Quad × Quad × Bool)) × State :=
  let k := descGates n
  if 4 < k then (.error (some 7), s)
  else
    match serve s p.id .read (descGlist n) (16 * k) 16 with
    | (.fail _, s') => (.error (some 7), s')
    | (.stall, s') => (.error none, s')
    | (.ok ps, s') =>
      let gs := gateEntries k (servedBytes s' ps)
      let unassigned (x : Word) : Bool := x != 0 && !p.wrapped && p.lastSeq.toNat < x.toNat
      if gs.any fun g => g.1.toNat % 8 != 0 || !canonical g.1.toNat then (.error (some 7), s')
      else if 512 * p.dies < (watchedGates p ++ gs.map (·.1)).eraseDups.length then (.error (some 8), s')
      else if unassigned (descOf n).dep0 || unassigned (descOf n).dep1 then (.error (some 9), s')
      else if 256 ≤ (p.launches.filter (·.queue == queue)).length then (.error (some 10), s')
      else (.ok gs, s')

/-! ### Eligibility and choice (R354, R355, R357) -/

/-- Every gate has been observed at its threshold and every dependence is satisfied (R354). -/
def Launch.met (p : Partition) (l : Launch) : Bool := l.gates.all (·.2.2) && depMet p l.desc.dep0 && depMet p l.desc.dep1

/-- The change of one launch when its conditions are looked at (R354, R357): met in a queue that is not blocked, they make it eligible; a
block of its queue stops the count of its waiting, which goes on when the block ends. -/
def Launch.refresh (t : Nat) (p : Partition) (blocked : Bool) (l : Launch) : Launch :=
  match l.eligible, l.ageHeld with
  | none, _ => if l.term.isNone && !blocked && l.met p then { l with eligible := some t, agedAt := t } else l
  | some _, none => if blocked then { l with ageHeld := some (t - l.agedAt) } else l
  | some _, some k => if blocked then l else { l with ageHeld := none, agedAt := t - k }

/-- prio with the aging levels, capped (R355). -/
def Launch.level (l : Launch) : Nat := min 7 (l.desc.prio + l.aging)

/-- Herds of a launch that await resumption. -/
def storedHerds (s : State) (part : Nat) (seq : Word) : List Herd :=
  s.herds.filter fun h => h.part == part && h.seq == seq && h.place == .stored

/-- The launch has herds to place. -/
def hasWork (s : State) (p : Partition) (l : Launch) : Bool :=
  l.term.isNone && (l.nextHerd < l.desc.herds || !(storedHerds s p.id l.seq).isEmpty)

/-- The queue's oldest launch has herds awaiting resumption, and this is a later one (R357). -/
def queueBlocked (s : State) (p : Partition) (l : Launch) : Bool :=
  match p.launches.find? (·.queue == l.queue) with
  | some o => o.seq != l.seq && !(storedHerds s p.id o.seq).isEmpty
  | none => false

/-- Launches whose conditions are met become eligible, and stay so while their queue is not blocked (R354, R357). -/
def refresh (s : State) (p : Partition) : Partition :=
  { p with launches := p.launches.map fun l => l.refresh (now s) p (queueBlocked s p l) }

/-- Launches that may be chosen, in the order of their numbers. -/
def candidates (s : State) (p : Partition) : List Launch :=
  p.launches.filter fun l => l.eligible.isSome && hasWork s p l && !queueBlocked s p l

/-- A queue that has no eligible launch of a level left ends its turn there (R355). -/
def passTurns (s : State) (p : Partition) : Partition :=
  { p with turns := p.turns.map fun x =>
      if (candidates s p).any fun l => l.level == x.1 && l.queue == x.2.1 then x else (x.1, x.2.1, 0) }

/-- The queue whose turn it is among those that hold launches of a level: the one in its turn, else the next in order (R355). -/
def turnQueue (p : Partition) (top : Nat) (at_ : List Launch) : Option (Nat × Nat) :=
  let x := (p.turns.find? (·.1 == top)).getD (top, 31, 0)
  if x.2.2 != 0 && at_.any (·.queue == x.2.1) then some x.2
  else
    let order := (List.range 32).map fun k => (x.2.1 + 1 + k) % 32
    ((order.filterMap fun k => at_.find? (·.queue == k)).head?).map fun l => (l.queue, l.desc.qw)

/-- A launch of a level is chosen in the turn of a queue. -/
def Partition.choose (p : Partition) (t top queue left : Nat) (seq : Word) : Partition :=
  { p with
    chosen := some seq, noBackfill := false, turns := (top, queue, left - 1) :: p.turns.filter (·.1 != top)
    launches := updWhere (·.seq == seq) (fun l => { l with chosen := some t }) p.launches }

/-- The Shepherd's choice (R355): a chosen launch stays chosen while it has herds to place; else the highest effective priority, weighted
round-robin among its queues, and the oldest of the queue. -/
def settleChoice (s : State) (part : Nat) : State :=
  match findPart s part with
  | none => s
  | some p =>
    let stays := match p.chosen with
      | some q => p.launches.any fun l => l.seq == q && hasWork s p l
      | none => false
    if stays then s
    else
      let cands := candidates s p
      match (cands.map Launch.level).max? with
      | none => modPart s part fun p => { p with chosen := none, noBackfill := false }
      | some top =>
        let at_ := cands.filter fun l => l.level == top
        match turnQueue p top at_ with
        | none => s
        | some (q, left) =>
          match at_.find? (·.queue == q) with
          | none => s
          | some l => modPart s part fun p => p.choose (now s) top q left l.seq

/-- What may have become eligible or chosen is settled, and the turns that have passed. -/
def settleLaunches (s : State) (part : Nat) : State :=
  settleChoice (modPart s part fun p => passTurns s (refresh s p)) part

/-- A launch accepted: it takes the next number and enters its queue (R352, R353). -/
def accept (s : State) (part queue n : Nat) (gates : List (Quad × Quad × Bool)) : Word × State :=
  let seq := nextSeq (((findPart s part).map (·.lastSeq)).getD 0)
  let l : Launch :=
    { seq, queue, desc := descOf n, gates, eligible := none, aging := 0, agedAt := 0, ageHeld := none, chosen := none, nextHerd := 0, ended := 0,
      opmrel := false, bankDirty := [], term := none }
  let s := modPart s part fun p =>
    { p with
      lastSeq := seq, wrapped := p.wrapped || p.lastSeq == BitVec.allOnes 32
      openSeqs := (p.openSeqs.filter fun x => seqAge seq x < 2 ^ 20) ++ [seq], launches := p.launches ++ [l] }
  let s := (gates.map (·.1)).eraseDups.foldl (fun s g => push s (.event (.gateObservation part g))) s
  (seq, settleLaunches s part)

/-- A submission (R351): the code and, for code 0, the number; `none` while the gate list cannot be read yet. -/
def submit (s : State) (part queue n : Nat) : Option (Nat × Word) × State :=
  match findPart s part with
  | none => (some (2, 0), s)
  | some p =>
    match descCode p n with
    | some code => (some (code, 0), s)
    | none =>
      match gateCode s p queue n with
      | (.error none, s') => (none, s')
      | (.error (some code), s') => (some (code, 0), s')
      | (.ok gs, s') => let r := accept s' part queue n gs; (some (0, r.1), r.2)

/-! ### Match release (R353) -/

/-- The 32 bytes of a completion record (R360). -/
def recordBytes (seq : Word) (status code : Nat) (opmrel msgdrop : Bool) (herds : Nat) (clock fpc : Quad) : List Byte :=
  bytesLE 8 (seq.toNat + status * 2 ^ 32 + code * 2 ^ 40 + opmrel.toNat * 2 ^ 48 + msgdrop.toNat * 2 ^ 49) ++
    bytesLE 8 herds ++ bytesLE 8 clock.toNat ++ bytesLE 8 fpc.toNat

/-- A completion record written; a failed access writes none and is logged (R435).  `false` while the page is away. -/
def writeRecord (s : State) (part : Nat) (seq : Word) (crec : Quad) (bs : List Byte) : Bool × State :=
  if crec == 0 then (true, s)
  else
    match serve s part (.write false) crec.toNat 32 32 with
    | (.ok ps, s') => (true, servedWrite s' part ps bs)
    | (.fail code, s') => (true, logServed s' part 2 code seq.toNat)
    | (.stall, s') => (false, s')

/-- The launch of a match entry is submitted to its queue (R353); `false` while a page it needs is away. -/
def releaseMatch (s : State) (part entry : Nat) (desc : Quad) : Bool × State :=
  match serve s part .read desc.toNat 128 128 with
  | (.fail code, s') => (true, logServed s' part 5 code entry)
  | (.stall, s') => (false, s')
  | (.ok ps, s') =>
    let n := numLE (servedBytes s' ps)
    match submit s' part (descOf n).mqueue n with
    | (none, s'') => (false, s'')
    | (some (0, _), s'') => (true, s'')
    | (some (code, _), s'') => writeRecord s'' part 0 (descOf n).crec (recordBytes 0 4 code false false 0 s''.clock 0)

/-! ### The launch and task instructions (R309-R314) -/

/-- A launch or task instruction: nothing with E empty; a register error first; then the effect (R295, R428). -/
def taskOp (i : Instr) (h : Head) (s : State) (k : Ctx → Effect) : Host.Outcome State Fault Refusal :=
  run i h s fun c =>
    if c.exec == 0#64 then .done (setPack s (c.pack.retire i c))
    else
      match wholeFault i c none with
      | some f => .fault f s
      | none => k c

/-- A block that the instruction reads or writes whole: its checks, with the mask E (R432, R433). -/
def blockOp (c : Ctx) (s : State) (acc : Acc) (va len align : Nat) (k : List (Nat × Nat × Tlb) → State → Effect) : Effect :=
  match checkBlock s c.pack.loc.core c.pack.part c.pack.level acc va len align with
  | (.fault code a, s') => .fault ⟨code, c.exec, BitVec.ofNat 64 a⟩ s'
  | (.stall, s') => stallAt s'
  | (.ok ps, s') => k ps s'

/-- `launch` (R310): older accesses perform, the descriptor is read at the L2 and submitted. -/
def execLaunch (h : Head) (o : X) (s : State) : Host.Outcome State Fault Refusal :=
  taskOp (.launch h o) h s fun c =>
    let d := drain s c.pack.loc c.exec
    if !d.1 then stallAt d.2
    else
      blockOp c d.2 .read (c.q o.a c.low).toNat 128 128 fun ps s =>
        match submit s c.pack.part (o.low.toNat % 32) (numLE (blockBytes s c.pack.loc.core ps)) with
        | (none, s') => stallAt s'
        | (some (code, seq), s') =>
          .done (setPack s' ((c.pack.writePair o.d.toNat c.exec fun _ => BitVec.ofNat 64 (code + seq.toNat * 2 ^ 32)).retire (.launch h o) c))

/-- The Shepherd re-reads a gate that a pending launch of some partition watches (R354). -/
def pushGate (s : State) (gate : Quad) : State :=
  s.parts.foldl (fun s p => if (watchedGates p).contains gate then push s (.event (.gateObservation p.id gate)) else s) s

/-- `gateadd` (R311): an `atom.add.rel` of 64 bits. -/
def execGateadd (h : Head) (o : X) (s : State) : Host.Outcome State Fault Refusal :=
  taskOp (.gateadd h o) h s fun c =>
    let va := (c.q o.a c.low).toNat
    let d := drain s c.pack.loc c.exec
    if !d.1 || awaitsHome d.2 (o.op.toNat % 8) then stallAt d.2
    else if va % 8 != 0 then .fault ⟨7, c.exec, BitVec.ofNat 64 va⟩ d.2
    else
      match resolve d.2 c.pack.loc.core c.pack.part c.pack.level .rmw va 8 with
      | (.fault code, s') => .fault ⟨code, c.exec, BitVec.ofNat 64 va⟩ s'
      | (.stall, s') => stallAt s'
      | (.ok pa t, s') =>
        if poisoned s' t pa 8 then .fault ⟨15, c.exec, BitVec.ofNat 64 va⟩ s'
        else
          let r := atomLane c 3 (o.op.toNat % 8) 64 (fun _ old => some ((old + (c.q o.b c.low).toNat) % 2 ^ 64)) ([], s') ⟨c.low, pa, t⟩
          let old := ((r.1.head?).map (·.2)).getD 0
          let p := c.pack.writePair o.d.toNat c.exec fun _ => BitVec.ofNat 64 old
          .done (pushGate (setPack r.2 (p.retire (.gateadd h o) c)) (BitVec.ofNat 64 va))

/-- `gatewait` (R312): a strong acquire load; below the threshold the path waits and reads again later. -/
def execGatewait (h : Head) (o : X) (s : State) : Host.Outcome State Fault Refusal :=
  taskOp (.gatewait h o) h s fun c =>
    let va := (c.q o.a c.low).toNat
    match checkBlock s c.pack.loc.core c.pack.part c.pack.level .read va 8 8 with
    | (.fault code a, s') => .fault ⟨code, c.exec, BitVec.ofNat 64 a⟩ s'
    | (.stall, s') => stallAt (heldUp s' c.pack c.idx va)
    | (.ok ps, s) =>
      match ps.head? with
      | none => stallAt s
      | some x =>
        let r := loadLane s c.pack 2 (o.op.toNat % 8) 0 ⟨c.low, x.1, x.2.2⟩ 8
        let v := numLE r.1
        let s := if o.op.toNat % 8 == 0 then r.2 else l1Acquire r.2 c.pack.loc.core
        if (c.q o.b c.low).toNat ≤ v then
          .done (setPack s ((c.pack.writePair o.d.toNat c.exec fun _ => BitVec.ofNat 64 v).retire (.gatewait h o) c))
        else .done (setPack s (c.pack.waitPath c.idx (.again 3 0) (now s)))

/-- The field rules of an arm record (R313); its reserved bits are not looked at (R7). -/
def armOk (n : Nat) : Bool :=
  bitsOf n 63 0 % 128 == 0 && bitsOf n 127 64 % 16 == 0 && 1 ≤ bitsOf n 191 160 && bitsOf n 191 160 ≤ 2 ^ 20 &&
    (bitsOf n 199 192 ≤ 16 || bitsOf n 199 192 == 0xFF)

/-- An arm record's fields, for an entry. -/
def armOf (entry n : Nat) : Armed :=
  ⟨entry, BitVec.ofNat 64 (bitsOf n 63 0), BitVec.ofNat 64 (bitsOf n 127 64), BitVec.ofNat 32 (bitsOf n 159 128), bitsOf n 191 160,
    bitsOf n 199 192⟩

/-- A message of a tag, a length and a port matches an entry (R313). -/
def Armed.takes (a : Armed) (port : Nat) (tag : Word) (len : Nat) : Bool :=
  a.tag == tag && a.len == len && (a.src == 0xFF || a.src == port)

/-- The entry lies in the partition's share of the match table (R349). -/
def Partition.ownsEntry (p : Partition) (entry : Nat) : Bool := 128 * p.die0 ≤ entry && entry < 128 * (p.die0 + p.dies)

/-- `matcharm` (R313, R414): the status, or the oldest held message that the record matches, taken at once. -/
def execMatcharm (h : Head) (o : X) (s : State) : Host.Outcome State Fault Refusal :=
  taskOp (.matcharm h o) h s fun c =>
    let entry := o.low.toNat % 1024
    let status (s : State) (k : Nat) : Effect :=
      .done (setPack s ((c.pack.writeReg o.d.toNat c.exec fun _ => BitVec.ofNat 32 k).retire (.matcharm h o) c))
    let d := drain s c.pack.loc c.exec
    if !d.1 then stallAt d.2 else
    blockOp c d.2 .read (c.q o.a c.low).toNat 32 32 fun ps s =>
      let n := numLE (blockBytes s c.pack.loc.core ps)
      let a := armOf entry n
      match findPart s c.pack.part with
      | none => status s 1
      | some p =>
        if !p.ownsEntry entry then status s 1
        else if p.armed.any (·.entry == entry) then status s 2
        else if !armOk n then status s 3
        else
          match p.held.find? fun m => a.takes m.port m.tag m.bytes.length with
          | none => status (modPart s p.id fun p => { p with armed := p.armed ++ [a] }) 0
          | some m =>
            blockOp c s (.write false) a.buf.toNat a.len 16 fun qs s =>
              match releaseMatch (modPart (servedWrite s p.id qs m.bytes) p.id fun p => { p with held := p.held.erase m }) p.id entry a.desc with
              | (false, s') => stallAt { s with agenda := s'.agenda, dies := s'.dies, remotePages := s'.remotePages, handOvers := s'.handOvers, ports := s'.ports }
              | (true, s') => status s' 0

/-- `msgsend` (R314): length, port and queue are judged first; then the buffer is read and the message queued. -/
def execMsgsend (h : Head) (o : X) (s : State) : Host.Outcome State Fault Refusal :=
  taskOp (.msgsend h o) h s fun c =>
    let port := o.low.toNat % 32
    let b := (c.q o.b c.low).toNat
    let len := b % 2 ^ 32
    let status (s : State) (k : Nat) : Effect :=
      .done (setPack s ((c.pack.writeReg o.d.toNat c.exec fun _ => BitVec.ofNat 32 k).retire (.msgsend h o) c))
    let d := drain s c.pack.loc c.exec
    if !d.1 || awaitsHome d.2 4 then stallAt d.2
    else
      let s := d.2
      if len == 0 || 2 ^ 20 < len then status s 2
      else if !(getPort s port).up then status s 1
      else if (getPort s port).full then status s 3
      else
        blockOp c s .read (c.q o.a c.low).toNat len 16 fun ps s =>
          let m : TxMessage := ⟨0, o.low.toNat / 32 % 8, c.pack.part, BitVec.ofNat 32 (b / 2 ^ 32), blockBytes s c.pack.loc.core ps⟩
          status (queueMessage s port m) 0

end Sys2Proof.Machine
end

