-- ==== Sys2Proof/Machine/Links.lean ====
section
/-!
DEFINITION. Hellos, messages and segments that arrive at the ports (R409-R414): LINK_UP, KMT_HELLO, KMT_MESSAGE, SEGMENT_RECEIVE,
KIOP_FLIT_RECEIVE, SEGMENT_ACK, ACK_TIMER and SEGMENT_RESEND.
-/

namespace Sys2Proof.Machine

/-! ### Links and hellos (R409, R411) -/

/-- `LINK_UP` (R411, R416): firmware has brought the port up, and the K9 says hello (log 46). -/
def execLinkUp (port : Nat) (s : State) : Host.Outcome State Fault Refusal :=
  if 17 ≤ port || (getPort s port).up || !s.booted then .next s
  else .next (sendAlone (modPort s port fun p => { p with up := true }) port ⟨2, 0, 0, 0, []⟩)

/-- The hello's fields are as R411 has them, and its versions can meet 0x01. -/
def helloOk (h : KmtHeader) : Bool :=
  h.version == 1 && h.typ == 2 && h.rsv == 0 && h.rsv2 == 0 && h.len == 0 && 1 ≤ h.kmtmax.toNat && 1 ≤ h.linkmax.toNat

/-- The last accepted incarnation of an agent, at whatever port it said hello. -/
def lastIncarn (s : State) (agent : Word) : Option Word := (s.ports.findSome? fun p => p.seen.find? (·.1 == agent)).map (·.2)

/-- The incarnation is greater than the agent's last accepted one. -/
def freshIncarn (s : State) (h : KmtHeader) : Bool :=
  match lastIncarn s h.agent with
  | some k => k.toNat < h.incarn.toNat
  | none => true

/-- A message refused: a refuse header returns, and the event is logged (R414). -/
def refuseMessage (s : State) (port : Nat) (h : KmtHeader) : State :=
  queueMessage (logEvent s 9 h.part.toNat 8 port 0 (h.tag.zeroExtend 64)) port ⟨3, h.spart.toNat, h.part.toNat, h.tag, []⟩

/-- A hello refused: the link carries nothing, and the refusal is logged and answered (R409, R411). -/
def refuseHello (s : State) (port : Nat) (h : KmtHeader) : State :=
  let s := modPort s port fun p => { p with opened := false, rx := [], tx := [] }
  sendAlone (logEvent s 8 0 8 port 0 (BitVec.ofNat 64 (h.agent.toNat + h.incarn.toNat * 2 ^ 32))) port ⟨3, h.spart.toNat, h.part.toNat, h.tag, []⟩

/-- A hello accepted: what the old incarnation held, on whatever port and whether that still is open, is dropped first; every stream starts anew (R409, R412). -/
def acceptHello (s : State) (port : Nat) (h : KmtHeader) : State :=
  let old := (List.range 17).filter fun n => n != port && (getPort s n).incarn.isSome && (getPort s n).agent == h.agent
  let s := old.foldl (fun s n => closePort (dropAgent s n) n) s
  let s := { s with ports := s.ports.map fun p => { p with seen := p.seen.filter (·.1 != h.agent) } }
  pump
    (modPort (dropAgent s port) port fun p =>
      { p with
        opened := true, agent := h.agent, incarn := some h.incarn, seen := (h.agent, h.incarn) :: p.seen, rx := [], tx := [], inbox := []
        txq := p.txq.filter (·.typ != 1) })
    port

/-- `KMT_HELLO` (R409, R411).  A header of another version is no hello, since the version counts before the type (R7): it is refused as a
message where the port is open. -/
def execKmtHello (port : Nat) (hdr : KmtHeader) (s : State) : Host.Outcome State Fault Refusal :=
  if !(getPort s port).up then .next s
  else if hdr.version != 1 || hdr.typ != 2 then .next (if (getPort s port).opened then refuseMessage s port hdr else s)
  else if helloOk hdr && freshIncarn s hdr then .next (acceptHello s port hdr)
  else .next (refuseHello s port hdr)

/-! ### Messages (R313, R414) -/

/-- The message's field rules (R411). -/
def messageOk (p : IoPort) (h : KmtHeader) (body : List Byte) : Bool :=
  h.version == 1 && h.typ == 0 && h.rsv == 0 && h.rsv2 == 0 && 1 ≤ h.len.toNat && h.len.toNat ≤ 2 ^ 20 && body.length == h.len.toNat &&
    p.incarn == some h.incarn && p.agent == h.agent

/-- Bytes that the unexpected store holds for a partition. -/
def heldBytes (p : Partition) : Nat := (p.held.map (·.bytes.length)).sum

/-- A message that matches no armed entry is held, or refused where the store is full. -/
def holdMessage (s : State) (port : Nat) (p : Partition) (h : KmtHeader) (body : List Byte) : State :=
  if p.held.length < 256 && heldBytes p + body.length ≤ 2 ^ 26 then
    modPart s p.id fun p => { p with held := p.held ++ [⟨port, h.tag, h.incarn, body⟩] }
  else refuseMessage s port h

/-- The armed entry of the lowest number that a message matches. -/
def matchEntry (p : Partition) (port : Nat) (h : KmtHeader) : Option Armed :=
  (p.armed.filter fun a => a.takes port h.tag h.len.toNat).foldl (fun best a =>
    match best with
    | none => some a
    | some b => if a.entry < b.entry then some a else some b) none

/-- The version, which is looked at before any other field, and the fields that every header has (R7, R411). -/
def headerFieldsOk (h : KmtHeader) : Bool := h.version == 1 && h.rsv == 0 && h.rsv2 == 0 && (h.typ == 0 || h.len == 0)

/-- A message is dealt with: `false` where an access it needs waits for a page.  What a coherence request asks comes as an event of its own,
and a refusal asks nothing of the K9 (log 59). -/
def deliverMessage (s : State) (port : Nat) (h : KmtHeader) (body : List Byte) : Bool × State :=
  if !headerFieldsOk h then (true, refuseMessage s port h)
  else if h.typ == 1 || h.typ == 3 then (true, s)
  else if !messageOk (getPort s port) h body then (true, refuseMessage s port h)
  else
    match findPart s h.part.toNat with
    | none => (true, refuseMessage s port h)
    | some p =>
      match matchEntry p port h with
      | none => (true, holdMessage s port p h body)
      | some a =>
        match serve s p.id (.write false) a.buf.toNat body.length 16 with
        | (.stall, s') => (false, s')
        | (.fail code, s') => (true, refuseMessage (logServed s' p.id 6 code a.entry) port h)
        | (.ok ps, s') =>
          let r := releaseMatch (modPart (servedWrite s' p.id ps body) p.id fun p => { p with armed := p.armed.filter (·.entry != a.entry) }) p.id
            a.entry a.desc
          if r.1 then r
          else (false, { s with agenda := r.2.agenda, dies := r.2.dies, remotePages := r.2.remotePages, handOvers := r.2.handOvers, ports := r.2.ports })

/-- `KMT_MESSAGE` (R414): the oldest message wholly received at a port, or one that arrives now, is dealt with; one that must wait for a
page stays first. -/
def execKmtMessage (port : Nat) (hdr : KmtHeader) (body : List Byte) (s : State) : Host.Outcome State Fault Refusal :=
  let p := getPort s port
  if !p.opened || !(p.inbox.isEmpty || p.inbox.head? == some (hdr, body)) then .next s
  else
    let r := deliverMessage s port hdr body
    .next (modPort r.2 port fun q => { q with inbox := if r.1 then p.inbox.drop 1 else if p.inbox.isEmpty then [(hdr, body)] else p.inbox })

/-! ### Segments (R412, R413) -/

/-- The receiving stream of a port for a pair of partitions. -/
def rxStream (p : IoPort) (spart dpart : Nat) : RxStream :=
  (p.rx.find? fun r => r.spart == spart && r.dpart == dpart).getD ⟨spart, dpart, 0, [], false, 0, 0, none⟩

/-- A receiving stream replaced. -/
def putRx (p : IoPort) (r : RxStream) : IoPort := { p with rx := r :: p.rx.filter fun x => !(x.spart == r.spart && x.dpart == r.dpart) }

/-- A data segment's header and payload are as R412 has them. -/
def segmentOk (port : Nat) (h : SegHeader) (payload : List Byte) : Bool :=
  h.kind == 0 && h.ackno == 0 && h.plen.toNat == payload.length && payload.length ≤ fullPayload port &&
    (h.last || payload.length == fullPayload port)

/-- The acknowledgment of a stream that runs from `spart` to `dpart`: the next number expected (R413). -/
def ackSegment (r : RxStream) : Segment :=
  ⟨{ segno := 0, plen := 0, first := false, last := false, kind := 1, dpart := BitVec.ofNat 3 r.spart, spart := BitVec.ofNat 3 r.dpart
     rsv := 0, ackno := r.next, rsv2 := 0 }, []⟩

/-- An acknowledgment is sent, and covers what has been accepted. -/
def sendAck (p : IoPort) (r : RxStream) : IoPort :=
  putRx { p with wire := p.wire ++ [ackSegment r] } { r with unacked := 0 }

/-- A hello travels in one segment, outside the numbering of the streams (R412); its version counts before its type (R7). -/
def helloIn (h : SegHeader) (payload : List Byte) : Bool :=
  h.first && h.last && payload.length == 32 && (kmtOf payload).version == 1 && (kmtOf payload).typ == 2

/-- A whole message comes into a port's inbox, and is dealt with next; it wakes the device (R423, R424). -/
def receiveWhole (s : State) (port : Nat) (bs : List Byte) : State :=
  let m := (kmtOf bs, bs.drop 32)
  let s := if s.power == .on then s else push s (.event .wake)
  push (modPort s port fun p => { p with inbox := p.inbox ++ [m] }) (.event (.kmtMessage port m.1 m.2))

/-- A segment of the expected number is accepted; on port 0 an acknowledgment follows every 32 of them. -/
def acceptSegment (s : State) (port : Nat) (r : RxStream) (h : SegHeader) (payload : List Byte) : State :=
  let bytes := if h.first then payload else r.partial_ ++ payload
  let r : RxStream := { r with
    next := r.next + 1, partial_ := if h.last then [] else bytes, inMessage := !h.last, unacked := r.unacked + 1
    since := if r.unacked == 0 then now s else r.since }
  let s := modPort s port fun p => if port == 0 && 32 ≤ r.unacked then sendAck p r else putRx p r
  if h.last then receiveWhole s port bytes else s

/-- A segment of another number is discarded; on port 0 that is acknowledged, at most once in 2^10 cycles. -/
def outOfOrder (s : State) (port : Nat) (r : RxStream) : State :=
  let due : Bool := match r.ackAt with
    | some t => t + 2 ^ 10 ≤ now s
    | none => true
  if port == 0 && due then modPort s port fun p => sendAck p { r with ackAt := some (now s) } else s

/-- A data segment that has come whole to a port. -/
def receiveData (s : State) (port : Nat) (h : SegHeader) (payload : List Byte) : State :=
  let p := getPort s port
  if !p.up || !segmentOk port h payload then s
  else if helloIn h payload then push s (.event (.kmtHello port (kmtOf payload)))
  else if !p.opened then s
  else
    let r := rxStream p h.spart.toNat h.dpart.toNat
    if h.segno != r.next then outOfOrder s port r
    else if h.first == r.inMessage then s
    else acceptSegment s port r h payload

/-- `SEGMENT_RECEIVE` (R413): a frame of port 0. -/
def execSegmentReceive (hdr : SegHeader) (payload : List Byte) (fcsGood : Bool) (s : State) : Host.Outcome State Fault Refusal :=
  .next (if fcsGood then receiveData s 0 hdr payload else s)

/-- `KIOP_FLIT_RECEIVE` (R412, R413): a flit of a Kiop link, which the link delivers once and in order. -/
def execKiopFlitReceive (port : Nat) (hdr : SegHeader) (payload : List Byte) (s : State) : Host.Outcome State Fault Refusal :=
  .next (if 1 ≤ port && port ≤ 16 then receiveData s port hdr payload else s)

/-- An acknowledgment's header is as R412 has it. -/
def ackOk (h : SegHeader) : Bool := h.kind == 1 && h.segno == 0 && h.plen == 0

/-- `SEGMENT_ACK` (R413): the stream that runs from the segment's dpart to its spart advances, and queued messages follow. -/
def execSegmentAck (hdr : SegHeader) (s : State) : Host.Outcome State Fault Refusal :=
  let p := getPort s 0
  let t := txStream p hdr.dpart.toNat hdr.spart.toNat
  let n := (hdr.ackno - (t.next - BitVec.ofNat 32 t.sent.length)).toNat
  if !p.opened || !ackOk hdr || n == 0 || t.sent.length < n then .next s
  else .next (pump (modPort s 0 fun p => putTx p { t with sent := t.sent.drop n, resends := 0, since := now s }) 0)

/-- `ACK_TIMER` (R413): an accepted segment that no acknowledgment covers is acknowledged, within 2^14 cycles. -/
def execAckTimer (spart dpart : Nat) (s : State) : Host.Outcome State Fault Refusal :=
  let r := rxStream (getPort s 0) spart dpart
  if !(getPort s 0).opened || r.unacked == 0 then .next s else .next (modPort s 0 fun p => sendAck p r)

/-- `SEGMENT_RESEND` (R413): every unacknowledged segment again after 2^20 cycles; after 16 such resends the agent has failed. -/
def execSegmentResend (spart dpart : Nat) (s : State) : Host.Outcome State Fault Refusal :=
  let p := getPort s 0
  let t := txStream p spart dpart
  if !p.opened || t.sent.isEmpty || now s < t.since + 2 ^ 20 then .next s
  else if 16 ≤ t.resends then .next (failAgent s 0)
  else
    .next (modPort s 0 fun p => putTx { p with wire := p.wire ++ t.sent } { t with resends := t.resends + 1, since := now s })

end Sys2Proof.Machine
end

