-- ==== Sys2Proof/Machine/Quarter.lean ====
section
/-!
DEFINITION. The events of a quarter and of a core's store queue: STORE_PERFORM, PACK_FAULT, HANDLER_WAKE, STARVATION_PRIORITY, SLOT_ROTATION,
HELD_PATH, ORPHANED_REJOIN_SET, BARRIER_TIMEOUT and GATEWAIT_REREAD (R34, R43, R44, R57, R63, R312, R345-R347, R363, R377-R381).
An event whose conditions do not hold changes nothing (log 5).
-/

namespace Sys2Proof.Machine

/-! ### Stores and faults -/

/-- `STORE_PERFORM` (R63, R128): entry `idx` of a core's store queue performs, unless an earlier entry holds it up or its page is away. -/
def execStorePerform (core idx : Nat) (s : State) : Host.Outcome State Fault Refusal :=
  let q := (getCore s core).storeQ
  match q[idx]? with
  | none => .next s
  | some e =>
    let mine (x : StoreEntry) : Bool := x == e || e.mates x
    let heldUp := (List.range q.length).any fun k =>
      ((q[k]?).map fun x => mine x && (q.take k).any fun y => !mine y && y.blocks x).getD false
    if heldUp then .next s
    else if storeReady s e then .next (performMates s core e)
    else .next (storeRequest s e)

/-- A pack that is not stopped, parked, saved or of a stopped partition: its watchdog and its quarter's checks act on it. -/
def packLive (s : State) (p : Pack) : Bool :=
  p.stop == .running && !p.parked && partRuns s p.part && !((p.herd.bind (findHerd s)).map (·.saving)).getD false

/-- The x bit of the instruction at a path's PC; 0 where it cannot be fetched. -/
def xAt (s : State) (p : Pack) (pc : Nat) : Bool × State :=
  match fetchWord s p.loc.core p.part p.level pc with
  | (.word w _ _, s') => (xBit w, s')
  | (.fault _, s') => (false, s')
  | (.stall, s') => (false, s')

/-- `PACK_FAULT` (R363): the pack of a path stops for a fault of the catalogue, codes 1 to 34 (R362).  A turn lets this happen only for the
fault that the path's next fetch gives; every other fault is raised by the instruction that meets it. -/
def execPackFault (at_ : PathAt) (f : FaultReq) (s : State) : Host.Outcome State Fault Refusal :=
  match findPack s at_.loc with
  | none => .next s
  | some p =>
    match p.paths[at_.path]? with
    | none => .next s
    | some q =>
      if !packLive s p || !q.ready || f.code == 0 || 34 < f.code then .next s
      else
        let x := xAt s p q.pc.toNat
        .next (raiseFault x.2 p at_.path x.1 f)

/-! ### Handler wakes (R345-R347) -/

/-- The eight bytes of a vector-table entry, or the fault that reading them meets (R347). -/
def readVector (s : State) (core part level addr : Nat) : Except (Nat × Nat) Nat × Bool × State :=
  match resolveBlock s core part level .read (pageParts addr 8 2) with
  | (.ok ps, s') =>
    if ps.any fun x => l2Poisoned s' (dieOf core) x.2.2 x.1 x.2.1 then (.error (15, addr), false, s')
    else (.ok (numLE (blockBytes s' core ps)), false, s')
  | (.fault code a, s') => (.error (code, a), false, s')
  | (.stall, s') => (.error (9, addr), true, s')

/-- The address of a cause's vector-table entry (R345). -/
def vectorEntry (s : State) (part : Nat) (c : Cause) : Nat :=
  let base := match findPart s part with
    | some p => if c.machine then p.mtvec.toNat else p.tvec.toNat
    | none => 0
  truncI (base + 16 * c.code) 64

/-- The handler starts at a PC: one path of lanes 0-63, its registers as they stand (R346). -/
def Pack.startWake (h : Pack) (c : Cause) (outer : Option Cause) (rest : List Cause) (pc : Quad) : Pack :=
  { h with
    level := if c.machine then 2 else 1
    wakes := rest
    wake := some ⟨c, outer⟩
    stop := .running
    waitSet := List.replicate 64 none
    paths := [{ pc, mask := Mask.full, slot := some 0, took := h.issued, tookAt := h.cycle, last := h.issued }] }

/-- `HANDLER_WAKE` (R346, R366): the idle handler, or one stopped by its own fault, takes the cause at the head of its queue.  An entry that
cannot be read is a fault of the handler at its level; an entry whose PC fails R160 stops the partition. -/
def execHandlerWake (core quarter : Nat) (s : State) : Host.Outcome State Fault Refusal :=
  match findPack s ⟨core, quarter, handlerSlot⟩ with
  | none => .next s
  | some h =>
    match h.wakes with
    | [] => .next s
    | c :: _ =>
      let rest := takenWakes s h.wakes
      let own := h.stop == .faulted && c.src == 0 && c.slot == handlerSlot
      if !partRuns s h.part || !(own || (h.stop == .running && h.wake.isNone)) then .next s
      else
        let outer := if own then h.wake.map (·.cause) else none
        let level := if c.machine then 2 else 1
        let entry := vectorEntry s h.part c
        match readVector s core h.part level entry with
        | (_, true, s') => .next s'
        | (.error e, false, s') =>
          let h' := { h.startWake c outer rest 0 with paths := [] }
          let s' := logConsumed s' h.part core e.1 15 (cachedPhys s' core h.part level e.2)
          .next (stopPack (setPack s' h') h' (BitVec.ofNat 64 entry) false ⟨e.1, Mask.full, BitVec.ofNat 64 e.2⟩ none)
        | (.ok pc, false, s') =>
          match checkTarget s' core h.part level pc with
          | (.stall, s'') => .next s''
          | (.fault code, s'') => .next (stopPartition s'' h.part (dieOf core) (core % 42) code 0)
          | (.ok, s'') => .next (setPack s'' (h.startWake c outer rest (BitVec.ofNat 64 pc)))

/-! ### Turns among packs and paths -/

/-- `STARVATION_PRIORITY` (R34, R361): a ready user pack that has been passed over for 64 cycles in a row goes ahead of the others.  A quarter's
cycle does this of itself (`Pack.noteReady`). -/
def execStarvationPriority (loc : PackLoc) (s : State) : Host.Outcome State Fault Refusal :=
  match findPack s loc with
  | none => .next s
  | some p =>
    if !p.isHandler && packReady s p && p.readyAt.isSome && 64 ≤ p.passed then .next (setPack s { p with starved := true }) else .next s

/-- `SLOT_ROTATION` (R43): a path that has had 64 issue cycles of its pack since it took its slot gives it to the oldest queued path.  A pack
does this of itself before it issues (`Pack.rotateDue`); a held path keeps its slot (R44, R63). -/
def execSlotRotation (at_ : PathAt) (s : State) : Host.Outcome State Fault Refusal :=
  match findPack s at_.loc with
  | none => .next s
  | some p =>
    match p.paths[at_.path]? with
    | none => .next s
    | some q => if packLive s p && !laneZeroOnly s p && rotates p q then .next (setPack s (p.yieldSlot at_.path)) else .next s

/-- `HELD_PATH` (R44).  A pack does this of itself before it issues (`Pack.holdDue`). -/
def execHeldPath (at_ : PathAt) (s : State) : Host.Outcome State Fault Refusal :=
  match findPack s at_.loc with
  | none => .next s
  | some p =>
    match p.paths[at_.path]? with
    | none => .next s
    | some q =>
      if packLive s p && !laneZeroOnly s p && overdue p q && !p.paths.any (·.held) then .next (setPack s (p.hold at_.path)) else .next s

/-! ### Waits that never end -/

/-- A path waits in `rswait`. -/
def Path.inSet (q : Path) : Bool :=
  match q.wait with
  | .set _ => true
  | .run | .bar _ _ _ | .barDone _ _ _ _ | .line _ _ | .again _ _ => false

/-- `ORPHANED_REJOIN_SET` (R57): every live lane waits in `rswait`. -/
def execOrphanedRejoinSet (loc : PackLoc) (s : State) : Host.Outcome State Fault Refusal :=
  match findPack s loc with
  | none => .next s
  | some p =>
    if !packLive s p || p.paths.isEmpty || !p.paths.all Path.inSet then .next s
    else
      match (List.range 32).find? fun k => p.waitingOn k &&& (p.rset k).member != 0#64 with
      | none => .next s
      | some k =>
        let m := p.waitingOn k
        match p.paths.findIdx? fun q => q.mask.has (Mask.lowest m) with
        | none => .next s
        | some i => .next (raiseFault s p i false ⟨25, m, BitVec.ofNat 64 k⟩)

/-- `bartimeout` as it acts (R342). -/
def barLimit (s : State) (part : Nat) : Nat := max 65536 (((findPart s part).map (·.bartimeout.toNat)).getD 0)

/-- The detail of code 34 (R379): of an empty line, the offset at which the line begins. -/
def waitDetail : Wait → Quad
  | .run | .set _ => 0#64
  | .bar k _ _ | .barDone k _ _ _ => BitVec.ofNat 64 (k * 256)
  | .line off _ => BitVec.ofNat 64 (1 + off / lineSize * lineSize % 2 ^ 32 * 65536)
  | .again kind slot => BitVec.ofNat 64 (kind + (if kind == 2 then slot * 256 else 0))

/-- A waiting instruction has x = 1: `gatewait` and the spatial ones (R152). -/
def waitX : Wait → Bool
  | .again kind _ => kind != 2
  | .run | .set _ | .bar _ _ _ | .barDone _ _ _ _ | .line _ _ => false

/-- A path waits on object `k` (R380). -/
def Path.onBar (k : Nat) (q : Path) : Bool :=
  match q.wait with
  | .bar k' _ _ | .barDone k' _ _ _ => k' == k
  | .run | .set _ | .line _ _ | .again _ _ => false

/-- One of the sixteen pack entries of the appendix (R380); a pack that is no longer there has exited. -/
def barPack (s : State) (h : Herd) (k num : Nat) : BarPack :=
  if h.packCount ≤ num then ⟨0, false, false, false, false⟩
  else
    match s.packs.find? fun p => p.herd == some h.id && p.num == num with
    | none => ⟨0, true, false, false, false⟩
    | some p =>
      let w := (sortByLow p.paths).find? (Path.onBar k)
      ⟨(w.map (·.pc)).getD 0, false, w.isSome, p.stop != .running, p.parked⟩

/-- The appendix of R380, captured at the stop (R381). -/
def barAppendix (s : State) (p : Pack) (k : Nat) : Option BarAppendix :=
  match p.herd.bind (findHerd s) with
  | none => none
  | some h =>
    (h.bars[k]?).map fun b => ⟨b.bytes, b.next, b.landings, (List.range 16).map (barPack s h k)⟩

/-- A path's wait has outlasted the watchdog (R378). -/
def expired (s : State) (p : Pack) (q : Path) : Bool := q.wait.counted && barLimit s p.part < q.count (now s)

/-- `BARRIER_TIMEOUT` (R378): of several expired waits of a pack, the one that began first is reported. -/
def execBarrierTimeout (at_ : PathAt) (s : State) : Host.Outcome State Fault Refusal :=
  match (findPack s at_.loc).map (wakeWaits s) with
  | none => .next s
  | some p =>
    match p.paths[at_.path]? with
    | none => .next s
    | some q =>
      if !packLive s p || !expired s p q || p.paths.any (fun r => expired s p r && r.wstart < q.wstart) then .next s
      else
        let app := match q.wait with
          | .bar k _ _ | .barDone k _ _ _ => barAppendix (setPack s { p with stop := .faulted }) p k
          | .run | .set _ | .line _ _ | .again _ _ => none
        .next (stopPack (setPack s p) p q.pc (waitX q.wait) ⟨34, q.mask, waitDetail q.wait⟩ app)

/-- `GATEWAIT_REREAD` (R312): the waiting `gatewait` issues again, and so reads its gate again. -/
def execGatewaitReread (at_ : PathAt) (s : State) : Host.Outcome State Fault Refusal :=
  match findPack s at_.loc with
  | none => .next s
  | some p =>
    match p.paths[at_.path]? with
    | none => .next s
    | some q => if packLive s p && q.wait == .again 3 0 then .next (setPack s (p.wakePath at_.path)) else .next s

end Sys2Proof.Machine
end

