-- ==== Sys2Proof/Machine/Shepherd.lean ====
section
/-!
DEFINITION. The Shepherd at work: where a herd fits and its placement (R21-R23, R31, R38, R334, R356, R358, R359), saving and resuming herds
(R30, R357, R373, R375), pre-emption (R26, R357), the end of a herd (R113), completion (R360) and termination (R382, R383).
-/

namespace Sys2Proof.Machine

/-! ### Room (R21-R24, R30, R31) -/

/-- What a herd asks of a core: its packs, and the region its control pack needs: the shape, the pack's place in the list, the queue
registers, and whether the pack takes the region's lowest quarter (R358). -/
structure Need where
  desc   : Desc
  index  : Nat
  packs  : Nat
  region : Option (Nat × Nat × Nat × Bool)
  deriving Repr

/-- A herd not yet started. -/
def freshNeed (d : Desc) (index : Nat) : Need := ⟨d, index, d.npack, if d.kind == 1 then some (d.shape, 0, 0, true) else none⟩

/-- A herd that awaits resumption: a saved residency needs a free region (R30). -/
def storedNeed (s : State) (d : Desc) (h : Herd) : Need :=
  let region := match h.residency.bind (findRes s) with
    | some r => some (r.mould.shape, (h.packs.findIdx? (·.control == some r.id)).getD 0, r.mould.qregs, false)
    | none => if h.reserves then some (d.shape, 0, 0, true) else none
  ⟨d, h.index, h.packs.length, region⟩

/-- The core can be taken: it is the partition's. -/
def Partition.ownsCore (p : Partition) (core : Nat) : Bool := 42 * p.die0 ≤ core && core < 42 * (p.die0 + p.dies)

/-- The cores of a partition (R349). -/
def Partition.cores (p : Partition) : List Nat := (List.range (42 * p.dies)).map (42 * p.die0 + ·)

/-- A quarter that admits packs (R23, R24, R26, R31): in the SIMT state, and named by no residency, stall or reservation. -/
def quarterOpen (s : State) (core quarter : Nat) : Bool :=
  (getQuarter s core quarter).state == .simt && !coveredBy s core quarter (fun r => r.holds || r.phase == .validate) &&
    !reservedBy s core quarter fun _ => true

/-- The resident herds of a core. -/
def coreHerds (s : State) (core : Nat) : List Herd := s.herds.filter fun h => h.place == .resident && h.core == core

/-- 4 KiB granules of a scratchpad. -/
def granules (n : Nat) : Nat := (n + 4095) / 4096

/-- Herds of a launch for which the core's scratchpad and OPM have room. -/
def storeRoom (s : State) (core : Nat) (d : Desc) : Nat :=
  let hs := coreHerds s core
  let spad := (176 - (hs.map fun h => granules h.spadSize).sum) / max 1 d.spad
  if d.opm == 0 then spad else min spad ((16 - (hs.map (·.opm.length)).sum) / d.opm)

/-- The free user slots of a quarter. -/
def freeSlots (s : State) (core quarter : Nat) : List Nat := (List.range 31).filter fun k => (findPack s ⟨core, quarter, k⟩).isNone

/-- Packs of a launch that a quarter takes now, with `extra` more registers kept free. -/
def quarterRoom (s : State) (core : Nat) (d : Desc) (extra quarter : Nat) : Nat :=
  if quarterOpen s core quarter && (!d.qen || quarter == d.aq) then
    min (freeSlots s core quarter).length ((freeRegs s core quarter - extra) / d.reserve)
  else 0

/-- No residency, stall, reservation or user pack is bound to a region's quarters (R30, R31). -/
def freeRegion (s : State) (core shape quarter : Nat) : Bool :=
  (regionQuarters shape quarter).all fun q =>
    quarterOpen s core q && !s.packs.any fun p => p.loc.core == core && p.loc.quarter == q && !p.isHandler

/-- A region whose control pack may be bound to a quarter. -/
def regionTakes (s : State) (core : Nat) (r : Nat × Nat × Nat × Bool) (quarter : Nat) : Bool :=
  freeRegion s core r.1 quarter && (!r.2.2.2 || (regionQuarters r.1 quarter).head? == some quarter)

/-- Room for the herd's packs with the control pack in a quarter. -/
def regionRoom (s : State) (core : Nat) (n : Need) (r : Nat × Nat × Nat × Bool) (quarter : Nat) : Bool :=
  let room (q : Nat) : Nat := quarterRoom s core n.desc (if (regionQuarters r.1 quarter).contains q then r.2.2.1 else 0) q
  regionTakes s core r quarter && 1 ≤ room quarter && n.packs ≤ ((List.range 4).map room).sum

/-- A herd fits on a core now (R23, R30, R31, R334). -/
def Need.fits (s : State) (n : Need) (core : Nat) : Bool :=
  1 ≤ storeRoom s core n.desc &&
    match n.region with
    | none => n.packs ≤ ((List.range 4).map (quarterRoom s core n.desc 0)).sum
    | some r => (List.range 4).any (regionRoom s core n r)

/-- How many such herds a core takes at once. -/
def Need.count (s : State) (n : Need) (core : Nat) : Nat :=
  min (storeRoom s core n.desc)
    (match n.region with
    | none => ((List.range 4).map (quarterRoom s core n.desc 0)).sum / max 1 n.packs
    | some r => ((regionStarts r.1).filter fun q => regionRoom s core n { r with snd := (r.2.1, r.2.2.1, true) } q).length)

/-- The affinity hint prefers a core (R358). -/
def Need.prefers (p : Partition) (n : Need) (core : Nat) : Bool :=
  match n.desc.akind with
  | 1 => dieOf core == n.desc.atarget
  | 2 => core == n.desc.atarget
  | 3 => dieOf core == p.die0 + n.index % max 1 p.dies
  | _ => false

/-- A place meets R23 and what R30, R31, R334 and R358 add. -/
def Need.takes (s : State) (p : Partition) (n : Need) (pl : Place) : Bool :=
  let qs := pl.packs.map (·.1)
  let fewer (q extra : Nat) : Bool := (qs.filter (· == q)).length ≤ quarterRoom s pl.core n.desc extra q
  p.ownsCore pl.core && pl.packs.length == n.packs && pl.packs.eraseDups.length == pl.packs.length &&
    (pl.packs.all fun x => x.1 < 4 && (freeSlots s pl.core x.1).contains x.2) && 1 ≤ storeRoom s pl.core n.desc &&
    (match n.region with
    | none => (List.range 4).all fun q => fewer q 0
    | some r =>
      let cq := qs.getD r.2.1 0
      regionTakes s pl.core r cq && (List.range 4).all fun q => fewer q (if (regionQuarters r.1 cq).contains q then r.2.2.1 else 0)) &&
    (n.prefers p pl.core || !(p.cores.any fun c => n.prefers p c && n.fits s c))

/-! ### Placing (R109, R359) -/

/-- Physical OPM slots of a core that no resident herd holds. -/
def freeOpm (s : State) (core : Nat) : List Nat :=
  (List.range 16).filter fun k => !(coreHerds s core).any fun h => h.opm.any (·.phys == k)

/-- A barrier object at admission (R107). -/
def Barrier.blank : Barrier := ⟨false, 0, 0, false, 0, 0, none, 0⟩

/-- The dirty bytes of a die's untracked copies go to their homes, and with `drop` the copies go: a herd that comes to another die
observes its own writes (R136, R404). -/
def writeBackCopies (s : State) (die : Nat) (drop : Bool) : State :=
  (s.scCopies.filter (·.die == die)).foldl (fun s c => scWriteBack s c.line die drop) s

/-- A core has taken packs into slots: its L1 is resized (R101), no release fence of a slot's earlier pack stands, and its lanes have
synchronised with what has gone before (R135, R136). -/
def settleCore (s : State) (core : Nat) (packs : List Pack) : State :=
  let s := if (getCore s core).fences.isEmpty then s
    else modCore s core fun c => { c with fences := c.fences.filter fun f => !(packs.any fun p => p.loc == f.1) }
  resizeL1 (acquireAll s core) core

/-- A fresh herd of a launch at a place: its storage zero, its packs at entry (R102, R107, R109, R359); the L1 of its core holds no data
older than the launch's release (R135). -/
def placeFresh (s : State) (p : Partition) (l : Launch) (pl : Place) (index : Nat) : State :=
  let d := l.desc
  let id := s.nextId
  let h : Herd :=
    { id, part := p.id, seq := l.seq, index, x := index % d.gridx, y := index / d.gridx % d.gridy, z := index / (d.gridx * d.gridy)
      core := pl.core, place := .resident, spadSize := 4096 * d.spad, spad := [], empty := [], fills := [], tags := [], bad := []
      bars := List.replicate d.bars Barrier.blank, opm := ((freeOpm s pl.core).take d.opm).map fun k => ⟨k, none, [], [], []⟩
      packCount := d.npack, admitted := now s, saving := false, packs := [], residency := none, reserves := d.kind == 1 }
  let packs := (List.range pl.packs.length).map fun k =>
    let at_ := pl.packs.getD k (0, 0)
    { Pack.admitted ⟨pl.core, at_.1, at_.2⟩ (some id) p.id k d.regs d.window d.rsets 0 d.entry with readyAt := none, passed := 0 }
  settleCore { s with nextId := id + 1, herds := s.herds ++ [h], packs := s.packs ++ packs } pl.core packs

/-- A pack restored in a slot: it runs from its precise points, its counts going on (R58, R373, R374). -/
def Pack.restored (p : Pack) (loc : PackLoc) (t : Nat) : Pack :=
  ({ p with loc, parked := false, stop := .running, record := none, readyAt := none, passed := 0, starved := false }).thaw t

/-- The path waits at an instruction that repeats (R364). -/
def Path.repeats (q : Path) : Bool :=
  match q.wait with
  | .again _ _ => true
  | .run | .set _ | .bar _ _ _ | .barDone _ _ _ _ | .line _ _ => false

/-- What the waits of a restored pack come to: an instruction that repeats is issued again, its count kept, and barrier waits that are over
end; these paths enter the queue together (R43, R44, R252, R262, R364, R375). -/
def restoreWaits (s : State) (p : Pack) : Pack :=
  let again := (List.range p.paths.length).foldl (fun r i =>
    match p.paths[i]? with
    | some q => if q.repeats then r.releasePath i (·.freeze (now s)) else r
    | none => r) p
  (releaseBarriers s again).settlePaths p.qnext

/-- A herd that awaited resumption is admitted at a place; a residency it holds is reinstalled there (R30, R292, R373).  Its lanes have executed
an `ar` fence at system scope: their strong writes from now on head release sequences (R119, R136). -/
def placeStored (s : State) (h : Herd) (pl : Place) : State :=
  let packs := (List.range h.packs.length).filterMap fun k =>
    (h.packs[k]?).map fun q => let at_ := pl.packs.getD k (0, 0); q.restored ⟨pl.core, at_.1, at_.2⟩ (now s)
  let free := freeOpm s pl.core
  let h' : Herd :=
    { h with
      place := .resident, core := pl.core, admitted := now s, saving := false, packs := []
      opm := List.zipWith (fun (t : OpmSlot) k => { t with phys := k, queue := [] }) h.opm free }
  let s := modHerd { s with packs := s.packs ++ packs } h.id fun _ => h'
  let s := packs.foldl (fun s q => setPack s (restoreWaits s q)) s
  let s := match h.residency, packs.find? (·.control.isSome) with
    | some rid, some q => reinstall s rid q.loc
    | _, _ => s
  packs.foldl (fun s q => addFence s q.loc 4 Mask.full) (settleCore (writeBackCopies s (dieOf pl.core) true) pl.core packs)

/-- The herds of a launch that come next (R356): those awaiting resumption before those not started; a co-resident launch's all at once
(R38), which have been saved all at once (`execHerdSave`). -/
def nextStored (s : State) (p : Partition) (l : Launch) : List Herd :=
  let hs := storedHerds s p.id l.seq
  match (hs.map (·.index)).min? with
  | none => []
  | some k => if l.desc.cores then hs else hs.filter (·.index == k)

/-- The launch's next herd, or a co-resident launch whole, fits somewhere. -/
def canPlaceNext (s : State) (p : Partition) (l : Launch) : Bool :=
  let needs := match nextStored s p l with
    | [] => [freshNeed l.desc l.nextHerd]
    | hs => hs.map (storedNeed s l.desc)
  let count := match nextStored s p l with
    | [] => if l.desc.cores then l.desc.herds - l.nextHerd else 1
    | hs => hs.length
  needs.all (fun n => p.cores.any (n.fits s)) &&
    match needs with
    | n :: _ => count ≤ 1 || count ≤ (p.cores.map (n.count s)).sum
    | [] => true

/-- The chosen launch of a partition. -/
def chosenLaunch (p : Partition) : Option Launch := p.chosen.bind fun q => p.launches.find? (·.seq == q)

/-- A launch may place herds now (R355, R356): it is chosen, or the chosen one fits nowhere and this one goes ahead of it; when backfill
has stopped, only to resume herds at no lower a priority. -/
def mayPlace (s : State) (p : Partition) (l : Launch) (resumes : Bool) : Bool :=
  if p.chosen == some l.seq then l.term.isNone
  else
    match chosenLaunch p with
    | none => false
    | some c =>
      (candidates s p).any (·.seq == l.seq) && !canPlaceNext s p c && (!p.noBackfill || (resumes && c.desc.prio ≤ l.desc.prio))

/-- A launch has placed herds: its aging starts again, and so does the chosen launch's wait (R355, R356). -/
def notePlaced (s : State) (part : Nat) (seq : Word) (fresh : Nat) : State :=
  settleLaunches (modPart s part fun p =>
    { p with
      noBackfill := p.noBackfill && p.chosen != some seq
      launches := updWhere (·.seq == seq) (fun l =>
        { l with
          nextHerd := l.nextHerd + fresh, aging := 0, agedAt := now s, ageHeld := l.ageHeld.map fun _ => 0
          chosen := l.chosen.map fun _ => now s }) p.launches }) part

/-- Places taken one after another, each checked as it is taken; `none` where one does not hold. -/
def takePlaces (p : Partition) (need : State → Nat → Need) (put : State → Nat → Place → State) : Nat → List Place → State → Option State
  | _, [], s => some s
  | k, pl :: pls, s => if (need s k).takes s p pl then takePlaces p need put (k + 1) pls (put s k pl) else none

/-- `HERD_PLACEMENT` (R356, R358, R359): the next herd of a launch, or the whole of a co-resident one, is placed. -/
def execHerdPlacement (part : Nat) (seq : Word) (places : List Place) (s : State) : Host.Outcome State Fault Refusal :=
  match findPart s part with
  | none => .next s
  | some p =>
    match p.launches.find? (·.seq == seq) with
    | none => .next s
    | some l =>
      let count := if l.desc.cores then l.desc.herds - l.nextHerd else 1
      if p.stopped || !(nextStored s p l).isEmpty || l.desc.herds ≤ l.nextHerd || places.length != count || !mayPlace s p l false then
        .next s
      else
        match takePlaces p (fun _ k => freshNeed l.desc (l.nextHerd + k)) (fun s k pl => placeFresh s p l pl (l.nextHerd + k)) 0 places s with
        | none => .next s
        | some s' => .next (notePlaced s' part seq count)

/-- `HERD_RESUMPTION` (R30, R356, R373): the herds awaiting resumption come back, a co-resident launch's all together. -/
def execHerdResumption (part : Nat) (seq : Word) (herds : List Nat) (places : List Place) (s : State) : Host.Outcome State Fault Refusal :=
  match findPart s part with
  | none => .next s
  | some p =>
    match p.launches.find? (·.seq == seq) with
    | none => .next s
    | some l =>
      let hs := nextStored s p l
      if p.stopped || hs.isEmpty || herds != hs.map (·.id) || places.length != hs.length || !mayPlace s p l true then .next s
      else
        let need (s : State) (k : Nat) : Need := match hs[k]? with | some h => storedNeed s l.desc h | none => freshNeed l.desc 0
        let put (s : State) (k : Nat) (pl : Place) : State := match hs[k]? with | some h => placeStored s h pl | none => s
        match takePlaces p need put 0 places s with
        | none => .next s
        | some s' => .next (notePlaced s' part seq 0)

/-! ### Gates and aging (R354-R356) -/

/-- An observation of a gate: every pending launch that names it with a threshold it has reached. -/
def Launch.observe (gate : Quad) (v : Nat) (l : Launch) : Launch :=
  if l.eligible.isSome then l
  else { l with gates := l.gates.map fun g => if g.1 == gate && g.2.1.toNat ≤ v then (g.1, g.2.1, true) else g }

/-- `GATE_OBSERVATION` (R354, R435): a sys-scope load of a watched gate. -/
def execGateObservation (part : Nat) (gate : Quad) (s : State) : Host.Outcome State Fault Refusal :=
  match findPart s part with
  | none => .next s
  | some p =>
    if p.stopped || !(watchedGates p).contains gate then .next s
    else
      match serve s part .read gate.toNat 8 8 with
      | (.stall, s') => .next s'
      | (.ok ps, s') =>
        let v := numLE (servedBytes s' ps)
        .next (settleLaunches (modPart s' part fun p => { p with launches := p.launches.map (Launch.observe gate v) }) part)
      | (.fail code, s') =>
        if p.gateLog.any fun g => g.1 == gate && now s < g.2 + 2 ^ 20 then .next s'
        else
          let who := (p.launches.find? fun l => l.pending && l.gates.any (·.1 == gate)).map (·.seq)
          let s' := modPart s' part fun p => { p with gateLog := (gate, now s) :: p.gateLog.filter (·.1 != gate) }
          .next (logServed s' part 1 code (who.getD 0).toNat)

/-- `AGING_LEVEL` (R355): one level for every 2^22 cycles of eligible waiting; a launch whose queue R357 blocks is not eligible.  A queue that
has no eligible launch of the old level left ends its turn there. -/
def execAgingLevel (part : Nat) (seq : Word) (s : State) : Host.Outcome State Fault Refusal :=
  match findPart s part with
  | none => .next s
  | some p =>
    let due (l : Launch) : Bool :=
      l.seq == seq && !l.pending && hasWork s p l && !queueBlocked s p l && l.agedAt + 2 ^ 22 ≤ now s
    .next (settleLaunches (modPart s part fun p =>
      { p with launches := updWhere due (fun l => { l with aging := l.aging + 1, agedAt := l.agedAt + 2 ^ 22 }) p.launches }) part)

/-- `BACKFILL_STOP` (R356): the chosen launch has waited unplaced for 2^24 cycles. -/
def execBackfillStop (part : Nat) (s : State) : Host.Outcome State Fault Refusal :=
  match (findPart s part).bind chosenLaunch with
  | none => .next s
  | some l =>
    match l.chosen with
    | some t => if t + 2 ^ 24 ≤ now s then .next (modPart s part fun p => { p with noBackfill := true }) else .next s
    | none => .next s

/-! ### Saving a herd (R30, R373, R376) -/

/-- The save of a herd is abandoned (R373): its packs go on, and a residency already cut is reinstalled at once where the control pack
runs, else when that pack resumes; a cut still under way ends as one without a save. -/
def abandonSave (s : State) (herd : Nat) : State :=
  let frozen := ((findHerd s herd).map (·.saving)).getD false
  let s := modHerd s herd fun h => { h with saving := false }
  let s := { s with packs := s.packs.map fun p =>
    if frozen && p.herd == some herd && p.stop == .running && !p.parked then (wakeBarriers s p).thaw (now s) else p }
  match herdRes s herd with
  | none => s
  | some r =>
    if r.phase == .saved then
      if ((findPack s r.ctl).map fun p => p.stop == .running && p.control == some r.id).getD false then reinstall s r.id r.ctl else s
    else modRes s r.id fun r => { r with saveHerd := false }

/-- The stores of a list of herds perform; `false` where one is not ready. -/
def drainHerds (s : State) : List Herd → Bool × State
  | [] => (true, s)
  | h :: hs =>
    let r := drainWhere s h.core fun e => e.herd == some h.id
    if r.1 then drainHerds r.2 hs else r

/-- A resident herd goes to the Shepherd's context store: its image there, its resources back (R373, R374). -/
def storeHerd (s : State) (h : Herd) : State :=
  let saved := (s.packs.filter (·.herd == some h.id)).map fun p => { p with parked := false }
  resizeL1 (modHerd { s with packs := s.packs.filter fun p => p.herd != some h.id } h.id fun h =>
    { h with place := .stored, saving := false, packs := saved, opm := h.opm.map fun t => { t with queue := [] } }) h.core

/-- `HERD_SAVE` (R373): the copies have landed and the stores performed; the image goes to the context store, the resources back.  The
herds of a co-resident launch are saved in one step (R38).  A herd that R373 does not save abandons the save of them all.  The stores have
reached their coherence points, remote homes too (R136). -/
def execHerdSave (herd : Nat) (s : State) : Host.Outcome State Fault Refusal :=
  match findHerd s herd with
  | none => .next s
  | some h =>
    let group := preemptGroup s h
    if !h.saving || h.place != .resident then .next s
    else if !group.all (savable s) then .next ((group.map (·.id)).foldl abandonSave s)
    else if !group.all (fun g => g.saving && !(getCore s g.core).copies.any (·.herd == some g.id)) then .next s
    else
      let r := drainHerds s group
      if !r.1 then .next r.2
      else if let some s' := askBack r.2 (r.2.scCopies.filter fun c => group.any fun g => c.die == dieOf g.core) then .next s'
      else
        let s := group.foldl (fun s g => writeBackCopies s (dieOf g.core) false) r.2
        if awaitsHome s 4 then .next s else .next (settleLaunches (group.foldl storeHerd s) h.part)

/-! ### Pre-emption (R26, R38, R357) -/

/-- The machine without some herds: what the core would hold once they are saved. -/
def without (s : State) (ids : List Nat) : State :=
  let gone := s.residencies.filter fun r => ids.contains r.herd && r.holds
  let s := gone.foldl (fun s r => setQuarters s r.ctl.core r.quarters .simt) s
  { s with
    herds := s.herds.filter fun h => !ids.contains h.id
    packs := s.packs.filter fun p => !((p.herd.map ids.contains).getD false)
    residencies := s.residencies.filter fun r => !ids.contains r.herd }

/-- A herd put before the older admissions. -/
def insertYoung (h : Herd) : List Herd → List Herd
  | [] => [h]
  | k :: ks => if k.admitted ≤ h.admitted then h :: k :: ks else k :: insertYoung h ks

/-- Herds with the youngest admission first. -/
def sortYoung : List Herd → List Herd
  | [] => []
  | h :: hs => insertYoung h (sortYoung hs)

/-- The priority of a herd's launch. -/
def herdPrio (s : State) (h : Herd) : Nat := ((launchOf s h).map (·.desc.prio)).getD 0

/-- Herds taken one group after another until they are enough: those taken, and whether they are. -/
def takeVictims (s : State) (ok : Herd → Bool) (enough : List Nat → Bool) : List Herd → List Nat → List Nat × Bool
  | [], gone => (gone, enough gone)
  | h :: hs, gone =>
    if enough gone then (gone, true)
    else
      let g := preemptGroup s h
      if gone.contains h.id || !g.all ok then takeVictims s ok enough hs gone
      else takeVictims s ok enough hs ((gone ++ g.map (·.id)).eraseDups)

/-- The resident herds that the Shepherd may pre-empt for a launch (R357, R373). -/
def preemptable (s : State) (p : Partition) (l : Launch) (h : Herd) : Bool :=
  h.part == p.id && h.place == .resident && herdPrio s h < l.desc.prio && h.admitted + 2 ^ 18 ≤ now s && savable s h && !beingSaved s h

/-- `PRIORITY_PREEMPTION` (R357): the youngest herds of lower priority that make room for the chosen launch's next herd are saved: of those
taken, the ones on a core where it then fits. -/
def execPriorityPreemption (part : Nat) (s : State) : Host.Outcome State Fault Refusal :=
  match findPart s part with
  | none => .next s
  | some p =>
    match chosenLaunch p with
    | none => .next s
    | some l =>
      let leaving := (s.herds.filter (beingSaved s)).map (·.id)
      let room (gone : List Nat) : Bool := canPlaceNext (without s gone) p l
      if p.stopped || room leaving then .next s
      else
        let r := takeVictims s (preemptable s p l) (fun gone => room (leaving ++ gone)) (sortYoung (s.herds.filter (preemptable s p l))) []
        if !r.2 then .next s
        else
          let need := match nextStored s p l with
            | [] => freshNeed l.desc l.nextHerd
            | h :: _ => storedNeed s l.desc h
          let core := p.cores.find? (need.fits (without s (leaving ++ r.1)))
          let on (id : Nat) : Bool := ((findHerd s id).map fun h => (preemptGroup s h).any fun g => some g.core == core).getD false
          .next ((if l.desc.cores then r.1 else r.1.filter on).foldl beginSave s)

/-- Herds of a core that hold packs in a region's quarters (R26). -/
def inRegion (s : State) (core : Nat) (quarters : List Nat) (h : Herd) : Bool :=
  h.place == .resident && h.core == core && s.packs.any fun p => p.herd == some h.id && quarters.contains p.loc.quarter

/-- `VALIDATE_STALL_PREEMPTION` (R26): a validate stall of 2^20 cycles takes whole herds of the region's quarters, youngest first, until it
clears; while it lasts, the attempt may be repeated at any time. -/
def execValidateStallPreemption (loc : PackLoc) (s : State) : Host.Outcome State Fault Refusal :=
  match (findPack s loc).bind fun p => p.control.bind (findRes s) with
  | none => .next s
  | some r =>
    if r.phase != .validate || r.ctl != loc || now s < r.since + 2 ^ 20 || regionFree s r then .next s
    else
      let prio := ((findHerd s r.herd).map (herdPrio s)).getD 0
      let leaving := (s.herds.filter (beingSaved s)).map (·.id)
      let ok (h : Herd) : Bool := h.id != r.herd && h.part == r.part && herdPrio s h ≤ prio && savable s h && !beingSaved s h
      let cands := sortYoung (s.herds.filter fun h => inRegion s loc.core r.quarters h && ok h)
      let taken := takeVictims s ok (fun gone => regionFree (without s (leaving ++ gone)) r) cands []
      .next (taken.1.foldl beginSave s)

/-! ### The end of a herd and of a launch (R113, R360) -/

/-- `HERD_END` (R113): the last pack has exited, the herd's stores have performed and its copies have drained; or, of a terminated launch,
what was left of a killed herd's stores has performed. -/
def execHerdEnd (herd : Nat) (s : State) : Host.Outcome State Fault Refusal :=
  match findHerd s herd with
  | none => .next s
  | some h =>
    let c := getCore s h.core
    if h.place != .resident || s.packs.any (·.herd == some herd) || c.copies.any (·.herd == some herd) ||
        c.storeQ.any (·.herd == some herd) then .next s
    else
      let claims := h.opm.any (·.holder.isSome)
      let s := resizeL1 { s with herds := s.herds.filter (·.id != herd) } h.core
      let own (l : Launch) : Bool := l.seq == h.seq && l.term.isNone
      .next (modPart s h.part fun p =>
        { p with launches := updWhere own (fun l => { l with ended := l.ended + 1, opmrel := l.opmrel || claims }) p.launches })

/-- The launch is complete: its grid is empty and it is eligible, every herd has ended, or it was terminated and nothing of it is left. -/
def launchOver (s : State) (p : Partition) (l : Launch) : Bool :=
  (l.term.isSome || (l.eligible.isSome && l.ended == l.desc.herds && !(l.desc.herds == 0 && queueBlocked s p l))) &&
    !s.herds.any fun h => h.part == p.id && h.seq == l.seq

/-- The completion record of a launch (R360). -/
def launchRecord (l : Launch) (clock : Quad) (msgdrop : Bool) : List Byte :=
  let t := l.term.getD ⟨0, 0, 0⟩
  let shown := t.status == 1 || t.status == 2
  recordBytes l.seq t.status (if shown then t.code else 0) l.opmrel msgdrop l.ended clock (if shown then t.fpc else 0)

/-! ### Partitions as formed (R344, R348, R415) -/

/-- The declarations that `hdlcfg` gives a handler pack (R344): a regs field out of range forms with 0x30. -/
def handlerDecl (cfg : Word) : Nat × Nat :=
  let a := bitsOf cfg.toNat 7 0
  (if 16 ≤ a && a ≤ 128 && a % 16 == 0 then a else 0x30, bitsOf cfg.toNat 9 8)

/-- A partition as formed: its CSRs at their reset values, nothing of its own left, its handler packs' declarations from `hdlcfg`, which
only a device reset resets (R344, R348). -/
def formedPart (s : State) (id die0 dies : Nat) (hdlcfg : Word) : Partition :=
  let d := handlerDecl hdlcfg
  { Partition.initial id die0 dies (secDebug s.aon.sec) Config.firmwareMtvec with hdlcfg, handlerRegs := d.1, handlerWin := d.2 }

/-- The handler packs of a partition (R344): one in slot 31 of each quarter of its cores. -/
def handlerPacks (p : Partition) : List Pack :=
  p.cores.flatMap fun core => (List.range 4).map fun q => Pack.handler core q p.id p.handlerRegs p.handlerWin

/-- A partition afresh, after its launches have completed (R344, R415): `hdlcfg`, which only a device reset resets, and the sequence numbers
stay.  Before firmware has run there are no handler packs, and no `mtvec`. -/
def freshPart (s : State) (p : Partition) : Partition :=
  let q := formedPart s p.id p.die0 p.dies p.hdlcfg
  { (if s.booted then q else { q with mtvec := 0 }) with lastSeq := p.lastSeq, wrapped := p.wrapped }

/-- A partition reset is over once no launch is left; the level that a boot under way was to give its debug setting goes with it (R415, R425). -/
def endReset (s : State) (part : Nat) : State :=
  match findPart s part with
  | none => s
  | some q =>
    if q.resetting && q.launches.isEmpty then
      let f := freshPart s q
      { modPart s part fun _ => f with
        packs := (s.packs.filter fun k => k.part != part) ++ if s.booted then handlerPacks f else []
        aon := { s.aon with keptDebug := s.aon.keptDebug.filter (·.1 != part) } }
    else s

/-! ### The end of a launch, and its termination (R360, R382, R383) -/

/-- Step 5: the number is complete, and its dependants may become eligible; a partition reset that waits for it goes on (R415). -/
def finishLaunch (s : State) (part : Nat) (seq : Word) : State :=
  let s := settleLaunches (modPart s part fun p =>
    { p with
      launches := p.launches.filter (·.seq != seq), messages := p.messages.filter (·.seq != seq)
      openSeqs := p.openSeqs.filter (· != seq), chosen := if p.chosen == some seq then none else p.chosen }) part
  endReset s part

/-- The completion of a launch comes to a stage. -/
def setStage (s : State) (part : Nat) (seq : Word) (stage : CompletionStage) : State :=
  modPart s part fun p => { p with messages := updWhere (·.seq == seq) (fun m => { m with stage, since := now s }) p.messages }

/-- The message is dropped: the record says so, and the launch completes. -/
def dropMessage (s : State) (part : Nat) (l : Launch) (clock : Quad) : State :=
  let r := writeRecord s part l.seq l.desc.crec (launchRecord l clock true)
  if r.1 then finishLaunch r.2 part l.seq else r.2

/-- Steps 4 and 5: the message, as `msgsend` at sys scope sends it, or why it is dropped; a full queue keeps it waiting. -/
def completionMessage (s : State) (part : Nat) (l : Launch) (m : PendingMessage) : State :=
  let d := l.desc
  if d.cmsg == 0 then finishLaunch s part l.seq
  else if awaitsHome s 4 then s
  else if !(getPort s d.cport).up then dropMessage s part l m.clock
  else if (getPort s d.cport).full then
    if m.stage == .queueFull then s else setStage s part l.seq .queueFull
  else
    match serve s part .read d.cmsg.toNat d.clen 16 with
    | (.stall, s') => s'
    | (.fail code, s') => dropMessage (logServed s' part 4 code l.seq.toNat) part l m.clock
    | (.ok ps, s') =>
      finishLaunch (queueMessage s' d.cport ⟨0, d.cpart, part, d.ctag, servedBytes s' ps⟩) part l.seq

/-- Step 3: the add to the completion gate; `false` while a page it needs is away. -/
def completionGate (s : State) (part : Nat) (l : Launch) : Bool × State :=
  let d := l.desc
  if d.cgate == 0 then (true, s)
  else
    match serve s part .rmw d.cgate.toNat 8 8 with
    | (.stall, s') => (false, s')
    | (.fail code, s') => (true, logServed s' part 3 code l.seq.toNat)
    | (.ok ps, s') =>
      let v := (numLE (servedBytes s' ps) + d.cinc.toNat) % 2 ^ 64
      let head (x : Nat × Nat × Tlb) : ReleaseHead :=
        ⟨placed x.1 (x.2.2.kind == 1), 8, s.tick, d.relsc, ⟨42 * ((findPart s part).map (·.die0)).getD 0, 0, 0⟩, none⟩
      (true, pushGate (addHeads (servedWrite s' part ps (bytesLE 8 v)) (ps.map head)) d.cgate)

/-- Steps 2 to 5, once the record is written: the release at relsc scope, which waits for the record's acknowledgment by a remote home,
the gate, and the message. -/
def completionGoesOn (s : State) (part : Nat) (l : Launch) (m : PendingMessage) : State :=
  if m.stage != .recorded then completionMessage s part l m
  else if awaitsHome s l.desc.relsc then s
  else
    let r := completionGate s part l
    if r.1 then completionMessage (setStage r.2 part l.seq .gated) part l { m with stage := .gated } else r.2

/-- The completion of a launch that is over (R360): the record, the release, the gate and the message, in order; each waits for what it
needs, and the next event goes on from there. -/
def completeLaunch (part : Nat) (seq : Word) (s : State) : State :=
  match findPart s part with
  | none => s
  | some p =>
    match p.launches.find? (·.seq == seq) with
    | none => s
    | some l =>
      if !launchOver s p l then s
      else
        match p.messages.find? (·.seq == seq) with
        | some m => completionGoesOn s part l m
        | none =>
          let r := writeRecord s part seq l.desc.crec (launchRecord l s.clock false)
          let m : PendingMessage := ⟨seq, s.clock, .recorded, now s⟩
          if r.1 then completionGoesOn (modPart r.2 part fun p => { p with messages := p.messages ++ [m] }) part l m else r.2

/-- `LAUNCH_COMPLETION` (R360). -/
def execLaunchCompletion (part : Nat) (seq : Word) (s : State) : Host.Outcome State Fault Refusal := .next (completeLaunch part seq s)

/-- `COMPLETION_MESSAGE_DROP` (R360): the transmit queue has stayed full for 2^20 cycles (`makeRoom` begins the count anew). -/
def execCompletionMessageDrop (part : Nat) (seq : Word) (s : State) : Host.Outcome State Fault Refusal :=
  match findPart s part with
  | none => .next s
  | some p =>
    match p.launches.find? (·.seq == seq), p.messages.find? (·.seq == seq) with
    | some l, some m =>
      if m.stage == .queueFull && (getPort s l.desc.cport).full && m.since + 2 ^ 20 ≤ now s then
        .next (dropMessage s part l m.clock)
      else .next s
    | _, _ => .next s

/-! ### Termination (R382, R383) -/

/-- A queued cause concerns the launch. -/
def Cause.of (seq : Word) (c : Cause) : Bool := c.seq == seq && c.slot != handlerSlot

/-- A queued store of a killed herd, in a slot number that no pack has: the slot it came from may be taken again before it performs. -/
def StoreEntry.orphan (h : Herd) (e : StoreEntry) : StoreEntry :=
  if e.herd == some h.id then { e with loc := { e.loc with slot := 32 * (h.id + 1) + e.loc.slot } } else e

/-- A resident herd is discarded: its residency ends, its packs go without faults, its copies are cancelled, its stores perform.  Where a
store must wait (R407, R408), the herd's resources stay until it has performed (R113). -/
def killHerd (s : State) (h : Herd) : State :=
  let s := match herdRes s h.id with
    | some r => endResidency s r
    | none => s
  let s := modCore s h.core fun c => { c with copies := c.copies.filter (·.herd != some h.id) }
  let s := { s with packs := s.packs.filter (·.herd != some h.id) }
  let r := drainWhere s h.core fun e => e.herd == some h.id
  if r.1 then resizeL1 { r.2 with herds := r.2.herds.filter (·.id != h.id) } h.core
  else
    modHerd (modCore r.2 h.core fun c => { c with storeQ := c.storeQ.map (StoreEntry.orphan h) }) h.id fun h => { h with saving := false }

/-- TERMINATION of a launch (R382): the first one decides; one whose completion has begun is left to complete. -/
def terminate (s : State) (part : Nat) (seq : Word) (t : Termination) : State :=
  match findPart s part with
  | none => s
  | some p =>
    match p.launches.find? (·.seq == seq) with
    | none => s
    | some l =>
      if l.term.isSome || p.messages.any (·.seq == seq) then s
      else
        let s := modPart s part fun p =>
          { p with
            launches := updWhere (·.seq == seq) (fun l => { l with term := some t }) p.launches
            chosen := if p.chosen == some seq then none else p.chosen }
        let mine := s.herds.filter fun h => h.part == part && h.seq == seq
        let s := mine.foldl (fun s h =>
          if h.place == .resident then killHerd s h
          else
            { s with
              herds := s.herds.filter (·.id != h.id)
              residencies := s.residencies.filter (·.herd != h.id) }) s
        settleLaunches { s with packs := s.packs.map fun q =>
          if q.isHandler && q.part == part then { q with wakes := keptWakes s (fun c => !c.of seq) q.wakes } else q } part

end Sys2Proof.Machine
end

