-- ==== Sys2Proof/Machine/System.lean ====
section
/-!
DEFINITION. Control and status registers and partitions (R342-R349), and the handler instructions that end wakes and stop and resume packs:
opcodes 0xE0-0xE2 and 0xE7-0xE9 (R365-R369, R372, R427).
-/

namespace Sys2Proof.Machine

/-! ### Partitions (R344, R348) -/

/-- Dies of one partition under a layout. -/
def layoutDies (layout : Nat) : Nat := 8 / 2 ^ (layout % 4)

/-- The value of `hdlcfg` for the partition that holds a die; the reset value where none does. -/
def hdlcfgOf (s : State) (die : Nat) : Word := ((partOfDie s die).map (·.hdlcfg)).getD 0x130#32

/-- Partitions formed under a layout, with their handler packs (R344, R348).  The pack that `keep` names, the one that orders the forming,
goes on with its wake. -/
def formPartitions (s : State) (layout : Nat) (keep : Option PackLoc) : State :=
  let n := layoutDies layout
  let parts := (List.range (8 / n)).map fun k => formedPart s k (n * k) n (hdlcfgOf s (n * k))
  let s' : State := { s with layout, parts }
  let fresh := (parts.flatMap handlerPacks).filter fun p => keep != some p.loc
  let kept := (s.packs.filter fun p => keep == some p.loc).map fun p =>
    { p with part := ((partOfDie s' (dieOf p.loc.core)).map (·.id)).getD p.part }
  { s' with packs := kept ++ fresh }

/-- Every dirty L2 line written back; every TLB and L1 invalidated (R348). -/
def flushCaches (s : State) : State :=
  let s := s.scCopies.foldl (fun s c => scWriteBack s c.line c.die false) s
  { s with
    near := s.near.map fun n => { n with state := match n.state with | .m => .e | .o => .s | .e => .e | .s => .s }
    cores := s.cores.map fun c => { c with l1 := [], tlb := [] }
    dies := s.dies.map fun d => { d with tlb := [], walkCache := [], held := [] } }

/-- A re-partition may take effect (R348). -/
def mayReform (s : State) : Bool :=
  s.packs.all Pack.isHandler && s.residencies.isEmpty && s.parts.all fun p => p.launches.isEmpty && p.armed.isEmpty

/-! ### CSRs (R342, R343) -/

/-- `hcause` (R365): the stop handle in [31:0], the sequence number above. -/
def Cause.hcause (c : Cause) : Nat :=
  c.code + c.src * 2 ^ 8 + c.quarter * 2 ^ 10 + c.slot * 2 ^ 12 + c.unit * 2 ^ 17 + c.seq.toNat * 2 ^ 32

/-- What a CSR reads (R342). -/
def csrRead (s : State) (p : Pack) (n : Nat) : Nat :=
  match findPart s p.part with
  | none => 0
  | some q =>
    match n with
    | 0x000 => p.level
    | 0x001 => Config.features.toNat
    | 0x002 => q.featpol.toNat
    | 0x003 => q.id
    | 0x004 => s.layout
    | 0x010 => q.tvec.toNat
    | 0x011 => q.mtvec.toNat
    | 0x012 => q.mroute.toNat
    | 0x013 => (p.wake.map (·.cause.hcause)).getD 0
    | 0x014 => q.hdlcfg.toNat
    | 0x020 => q.bartimeout.toNat
    | 0x030 => q.ptroot.toNat
    | 0x040 => 128 * q.die0 + 128 * q.dies * 2 ^ 16
    | 0x060 => q.dbglvl.toNat
    | _ => (q.memwin.getD (n - 0x050) 0).toNat

/-- The bits of a CSR that a write sets; the others are reserved (R342, R344, R348, R385). -/
def csrMask (n : Nat) : Nat :=
  match n with
  | 0x004 => 3
  | 0x014 => 0x3FF
  | 0x030 => 1 + (2 ^ 36 - 1) * 2 ^ 16
  | _ => 2 ^ 64 - 1

/-- A CSR written. -/
def csrWrite (s : State) (part n v : Nat) : State :=
  let v := Nat.land v (csrMask n)
  let q : Quad := BitVec.ofNat 64 v
  if n == 0x004 then { s with layout := v }
  else
    modPart s part fun p =>
      match n with
      | 0x002 => { p with featpol := q }
      | 0x010 => { p with tvec := q }
      | 0x011 => { p with mtvec := q }
      | 0x012 => { p with mroute := q }
      | 0x014 => { p with hdlcfg := BitVec.ofNat 32 v }
      | 0x020 => { p with bartimeout := q }
      | 0x030 => { p with ptroot := q }
      | _ => { p with memwin := p.memwin.set (n - 0x050) q }

/-- The CSR is 64 bits wide. -/
def csrWide (n : Nat) : Bool := ((csrInfo n).map (·.1 == 64)).getD true

/-- A CSR's value in a destination: a pair or a vector (R343). -/
def writeCsr (p : Pack) (d : Reg) (n : Nat) (m : Mask) (v : Nat) : Pack :=
  if csrWide n then p.writePair d.toNat m fun _ => BitVec.ofNat 64 v else p.writeReg d.toNat m fun _ => BitVec.ofNat 32 v

/-- A system instruction: nothing with E empty; a register error first (R343, R367, R428). -/
def sysOp (i : Instr) (h : Head) (s : State) (k : Ctx → Effect) : Host.Outcome State Fault Refusal :=
  run i h s fun c =>
    if c.exec == 0#64 then .done (setPack s (c.pack.retire i c))
    else
      match wholeFault i c none with
      | some f => .fault f s
      | none => k c

/-- `csrr` (R343). -/
def execCsrr (h : Head) (o : S) (s : State) : Host.Outcome State Fault Refusal :=
  sysOp (.csrr h o) h s fun c =>
    let n := o.imm.toNat
    .done (setPack s ((writeCsr c.pack o.d n c.exec (csrRead s c.pack n)).retire (.csrr h o) c))

/-- The source of a `csrw`, from the lowest executing lane. -/
def csrSource (c : Ctx) (o : S) : Nat := if csrWide o.imm.toNat then (c.q o.a c.low).toNat else (c.v o.a c.low).toNat

/-- A `csrw`: the new value from the old one and the source; the old one to d under `.rd`. -/
def csrwOp (i : Instr) (h : Head) (o : S) (s : State) (f : Nat → Nat → Nat) : Host.Outcome State Fault Refusal :=
  sysOp i h s fun c =>
    let n := o.imm.toNat
    let old := csrRead s c.pack n
    let p := if o.mod.toNat / 4 == 1 then writeCsr c.pack o.d n c.exec old else c.pack
    .done (setPack (csrWrite s c.pack.part n (f old (csrSource c o))) (p.retire i c))

/-- The bits of `a` that `b` does not have, in 64 bits. -/
def andNot (a b : Nat) : Nat := Nat.land a (Nat.xor (Nat.land b (2 ^ 64 - 1)) (2 ^ 64 - 1))

/-- `csrw` (R343). -/
def execCsrw (h : Head) (o : S) (s : State) : Host.Outcome State Fault Refusal := csrwOp (.csrw h o) h o s fun _ a => a

/-- `csrw.set` (R343). -/
def execCsrwSet (h : Head) (o : S) (s : State) : Host.Outcome State Fault Refusal := csrwOp (.csrwSet h o) h o s Nat.lor

/-- `csrw.clr` (R343). -/
def execCsrwClr (h : Head) (o : S) (s : State) : Host.Outcome State Fault Refusal := csrwOp (.csrwClr h o) h o s andNot

/-- A `csrw` of `partcfg` (R348): with apply = 1 the partitions are formed again under the layout, or the CSR-state fault is raised. -/
def execPartcfgApply (h : Head) (o : S) (s : State) : Host.Outcome State Fault Refusal :=
  sysOp (.partcfgApply h o) h s fun c =>
    let i : Instr := .partcfgApply h o
    let old := csrRead s c.pack 0x004
    let a := csrSource c o
    let new := match o.mod.toNat % 4 with
      | 0 => a
      | 1 => Nat.lor old a
      | _ => andNot old a
    let p := (if o.mod.toNat / 4 == 1 then writeCsr c.pack o.d 0x004 c.exec old else c.pack).retire i c
    if new / 4 % 2 == 0 then .done (setPack (csrWrite s p.part 0x004 new) p)
    else if !mayReform s then .fault ⟨31, c.exec, 0x004⟩ s
    else if let some s' := askBack s s.scCopies then stallAt s'
    else .done (formPartitions (flushCaches (setPack s p)) (new % 4) (some p.loc))

/-! ### Resuming packs (R252, R363, R368, R369) -/

/-- A resumed path's PC fails R160: its path and the fault.  What resumes a pack has waited for the pages it needs (`resumeWait`). -/
def resumeFault (s : State) (p : Pack) : List Path → Option (Path × Nat) × State
  | [] => (none, s)
  | q :: qs =>
    match checkTarget s p.loc.core p.part p.level q.pc.toNat with
    | (.fault code, s') => (some (q, code), s')
    | (.ok, s') => resumeFault s' p qs
    | (.stall, s') => resumeFault s' p qs

/-- The check of a resume PC waits for a walk or a page: the machine then (R160, R392). -/
def resumeWait (s : State) (p : Pack) : List Path → Option State
  | [] => none
  | q :: qs =>
    match checkTarget s p.loc.core p.part p.level q.pc.toNat with
    | (.stall, s') => some s'
    | (.fault _, _) => none
    | (.ok, s') => resumeWait s' p qs

/-- A stopped pack runs again: what completed meanwhile releases its paths, its counts run on, its record goes; a control pack whose
residency a cut has saved waits until it is reinstalled (R372).  A resume PC that fails R160 faults at the resumed path.  DESIGN CHOICE,
log 72: of several such paths the one of the lowest lane is reported, for R68's order of issue does not decide among them. -/
def resumePack (s : State) (p : Pack) : State :=
  let p := { p with stop := .running, record := none }
  let p := (wakeBarriers (setPack s p) p).fillSlots
  let p := if p.parked then p else p.thaw (now s)
  let s := setPack s p
  let s := match p.control.bind (findRes s) with
    | some r => if r.phase == .saved then reinstall s r.id p.loc else s
    | none => s
  match resumeFault s p (sortByLow p.paths) with
  | (none, s') => s'
  | (some (q, code), s') => stopPack s' p q.pc false ⟨code, q.mask, q.pc⟩ none

/-- The path that a record reports: at its PC, with its lanes. -/
def faultedPath (p : Pack) (r : TrapRecord) : Option Nat := p.paths.findIdx? fun q => q.pc == r.fpc && q.mask &&& r.fmask != 0#64

/-- The expired wait begins anew and counts from 0 (R368, R378). -/
def restartWait (p : Pack) (r : TrapRecord) (t : Nat) : Pack :=
  match faultedPath p r with
  | some i => p.modPath i fun q => { q with wbase := 0, wfrom := none, wstart := t }
  | none => p

/-- The expired wait is over at the next instruction: a predicate result is cleared, nothing is acquired (R368). -/
def skipWait (s : State) (p : Pack) (i : Nat) (q : Path) (x : Bool) : Pack :=
  match q.wait with
  | .bar _ _ pred | .barDone _ _ pred _ => p.releaseBarPath (activeMask s p q) i pred false
  | .run => p.modPath i fun q => { q with pc := q.pc + (if x then 16 else 8), wbase := 0, wfrom := none }
  | .set _ | .line _ _ | .again _ _ => p.releasePath i fun q => { q with pc := q.pc + (if x then 16 else 8), wbase := 0, wfrom := none }

/-- What the skipped wait left elsewhere: a claim's place in its queue, or the control pack's semaphore wait. -/
def dropWait (s : State) (p : Pack) (w : Wait) : State :=
  match w, p.herd with
  | .again 2 k, some h => modSlot s h k fun t => { t with queue := t.queue.filter (· != p.num) }
  | .again 4 _, _ =>
    match p.control with
    | some r => modRes s r fun r => { r with semWaits := r.semWaits.filter (·.2.2 != 512) }
    | none => s
  | _, _ => s

/-- The faulting instruction is stepped over (R368): its path's point advances; the lanes of an orphaned set go on after their `rswait`. -/
def skipFault (s : State) (p : Pack) (r : TrapRecord) : State × Pack :=
  match faultedPath p r with
  | none => (s, p)
  | some i =>
    match p.paths[i]? with
    | none => (s, p)
    | some q =>
      if r.code == 34 then (dropWait s p q.wait, skipWait s p i q r.x)
      else if r.code == 25 && q.inSet then (s, p.releaseLanes r.fmask)
      else (s, p.modPath i fun q => { q with pc := q.pc + (if r.x then 16 else 8), wait := .run, wbase := 0, wfrom := none })

/-- `eret.res` and `.skip` on a pack. -/
def resumeFaulted (s : State) (p : Pack) (skip : Bool) : State :=
  match p.record with
  | none => resumePack s p
  | some r =>
    if skip then (let x := skipFault s p r; resumePack x.1 x.2)
    else if r.code == 34 then resumePack s (restartWait p r (now s))
    else resumePack s p

/-- The pack as it resumes at its recorded points. -/
def resumedPack (s : State) (p : Pack) (skip : Bool) : Pack :=
  match p.record with
  | some r => if skip then (skipFault s p r).2 else p
  | none => p

/-- Some pack of a list would wait at a resume PC. -/
def resumesWait (s : State) (skip : Bool) (ps : List Pack) : Option State :=
  ps.findSome? fun p => resumeWait s p (sortByLow (resumedPack s p skip).paths)

/-! ### Units (R365, R367) -/

/-- A stop handle's fields. -/
def handleSrc (w : Nat) : Nat := w / 2 ^ 8 % 4
def handleQuarter (w : Nat) : Nat := w / 2 ^ 10 % 4
def handleSlot (w : Nat) : Nat := w / 2 ^ 12 % 32
def handleUnit (w : Nat) : Nat := w / 2 ^ 17 % 1024

/-- The user pack that a handle names on a core. -/
def handlePack (s : State) (core w : Nat) : Option Pack :=
  if handleSlot w == handlerSlot then none else findPack s ⟨core, handleQuarter w, handleSlot w⟩

/-- The copy that a handle names: an entry of the core's queue, issued by the pack of that quarter and slot. -/
def handleCopy (s : State) (core w : Nat) : Option Copy :=
  if handleSlot w == handlerSlot then none
  else (findCopy s core (handleUnit w)).filter fun c => c.loc.quarter == handleQuarter w && c.loc.slot == handleSlot w

/-- The residency and port that a handle names, by its control pack. -/
def handlePort (s : State) (core w : Nat) : Option (Residency × Port) :=
  match (handlePack s core w).bind fun p => p.control.bind (findRes s) with
  | none => none
  | some r => (r.port? (handleUnit w)).map fun p => (r, p)

/-- A suspended copy goes on from its first unlanded line. -/
def resumeCopy (s : State) (core : Nat) (c : Copy) : State :=
  modCore s core fun k => { k with copies := updWhere (·.tag == c.tag) (fun c => { c with suspended := none }) k.copies }

/-- A stopped port goes on with the access that faulted. -/
def resumePort (s : State) (r : Residency) (n : Nat) : State :=
  modRes s r.id fun r => { r.modPort n fun p => { p with stopped := none } with quiet := false }

/-! ### `eret` (R366, R368) -/

/-- The cause's unit still stands stopped for it: the pack with its record, the copy or the port in the very stop that it reports. -/
def causeStands (s : State) (core : Nat) (c : Cause) : Bool :=
  let w := c.hcause
  match c.src with
  | 0 => (handlePack s core w).any fun p => p.stop == .faulted && p.record.any fun r => r.code == c.code && r.seq == c.seq
  | 1 => (handleCopy s core w).any fun k => k.suspended.any (·.serial == c.serial)
  | _ => (handlePort s core w).any fun x => x.2.stopped.any (·.serial == c.serial)

/-- What `.term` of a cause reports (R368): status 2 for code 34, and the faulting PC of a pack. -/
def causeTermination (s : State) (core : Nat) (c : Cause) : Termination :=
  let fpc := if c.src == 0 then (((handlePack s core c.hcause).bind (·.record)).map (·.fpc)).getD 0 else 0
  ⟨if c.code == 34 then 2 else 1, c.code, fpc⟩

/-- The handler pack goes idle, its registers as they stand (R346). -/
def Pack.idle (p : Pack) : Pack := { p with wake := none, paths := [], stop := .running, record := none }

/-- The current wake of the pack at `loc` ends. -/
def endWake (s : State) (loc : PackLoc) : State :=
  match findPack s loc with
  | some p => setPack s p.idle
  | none => s

/-- A path of the interrupted supervisor wake, from the handler's own record; its wait began as long ago as its count says (R378). -/
def PathRec.restore (p : Pack) (t : Nat) (r : PathRec) : Path :=
  { pc := r.pc, mask := r.mask, wait := if r.state == 1 then .set r.num else .run, wbase := r.wcount, wstart := t - r.wcount, last := p.issued }

/-- The sets that the lanes of the interrupted wake wait on. -/
def waitsOf (rs : List PathRec) : Lanes (Option Nat) :=
  Lanes.tab fun l => (rs.find? fun r => r.state == 1 && r.mask.has l).map (·.num)

/-- Where those lanes resume: after their own `rswait`. -/
def resumesOf (p : Pack) (rs : List PathRec) : Lanes Quad :=
  Lanes.tab fun l => match rs.find? fun r => r.state == 1 && r.mask.has l with
    | some r => r.pc + 8
    | none => Lanes.get 0#64 p.resumePc l

/-- The handler pack as its interrupted supervisor wake goes on (R366, R368); `none` for a wake that had not begun. -/
def ownWake (p : Pack) (t : Nat) (outer : Cause) : Option Pack :=
  (p.record.filter fun r => !r.paths.isEmpty).map fun r =>
    ({ p with
        level := 1, wake := some ⟨outer, none⟩, exited := r.exited, paths := [], waitSet := waitsOf r.paths
        resumePc := resumesOf p r.paths } : Pack).addPaths (r.paths.map (PathRec.restore p t))

/-- `.res` and `.skip` of a machine wake for the handler's own fault act on its path as on a pack's, and the interrupted supervisor wake goes
on (R366, R368); one that had not begun is taken again. -/
def resumeOwn (s : State) (p : Pack) (outer : Cause) (skip : Bool) : State :=
  match ownWake p (now s) outer with
  | none => setPack s { p.idle with wakes := outer :: p.wakes }
  | some q => resumeFaulted s q skip

/-- The kinds of `eret`. -/
inductive EretKind where
  | res | skip | term | defer
  deriving DecidableEq, Repr

/-- What `.res`, `.skip` and `.defer` do to the unit of a cause. -/
def settleCause (s : State) (core : Nat) (c : Cause) (k : EretKind) : State :=
  let w := c.hcause
  match c.src with
  | 0 =>
    match handlePack s core w with
    | none => s
    | some p => if k == .defer then setPack s { p with stop := .deferred } else resumeFaulted s p (k == .skip)
  | 1 =>
    match handleCopy s core w with
    | none => s
    | some y =>
      match k with
      | .res | .term => resumeCopy s core y
      | .skip => cancelCopy s core y
      | .defer =>
        modCore s core fun x =>
          { x with copies := updWhere (·.tag == y.tag) (fun y => { y with suspended := y.suspended.map fun u => { u with deferred := true } }) x.copies }
  | _ =>
    match handlePort s core w with
    | none => s
    | some (r, p) =>
      if k == .defer then
        modRes s r.id fun r => r.modPort p.num fun p => { p with stopped := p.stopped.map fun u => { u with deferred := true } }
      else resumePort s r p.num

/-- The packs whose paths an `eret` resumes. -/
def eretResumes (s : State) (p : Pack) (w : Wake) (k : EretKind) : List Pack :=
  if k != .res && k != .skip then []
  else if w.cause.src == 0 && w.cause.slot == handlerSlot then ((w.outer.bind (ownWake p (now s))).map fun q => [q]).getD []
  else if w.cause.src == 0 && causeStands s p.loc.core w.cause then ((handlePack s p.loc.core w.cause.hcause).map fun q => [q]).getD []
  else []

/-- `eret` (R368): the handler's stores perform, and nothing older is left in the core's L1 or seen by its lanes, so that what it resumes
observes them (R138); the current wake ends, and its cause is acted on while its unit still stands stopped. -/
def eretOp (i : Instr) (h : Head) (s : State) (k : EretKind) : Host.Outcome State Fault Refusal :=
  run i h s fun c =>
    if c.exec == 0#64 then .done (setPack s (c.pack.retire i c))
    else
      let loc := c.pack.loc
      let d := drain s loc Mask.full
      if !d.1 then stallAt d.2 else
      let s := acquireAll d.2 loc.core
      match c.pack.wake.bind fun w => resumesWait s (k == .skip) (eretResumes s c.pack w k) with
      | some s' => stallAt s'
      | none =>
      match c.pack.wake with
      | none => .done (endWake s loc)
      | some w =>
        let f := w.cause
        if f.src == 0 && f.slot == handlerSlot then
          match w.outer with
          | none => .done (endWake s loc)
          | some outer =>
            match k with
            | .res => .done (resumeOwn s c.pack outer false)
            | .skip => .done (resumeOwn s c.pack outer true)
            | .term | .defer => .done (terminate (endWake s loc) c.pack.part outer.seq (causeTermination s loc.core outer))
        else
          let s' := endWake s loc
          if !causeStands s' loc.core f then .done s'
          else if k == .term then .done (terminate s' c.pack.part f.seq (causeTermination s' loc.core f))
          else .done (settleCause s' loc.core f k)

/-- `eret.res` (R368). -/
def execEretRes (h : Head) (o : S) (s : State) : Host.Outcome State Fault Refusal := eretOp (.eretRes h o) h s .res

/-- `eret.skip` (R368). -/
def execEretSkip (h : Head) (o : S) (s : State) : Host.Outcome State Fault Refusal := eretOp (.eretSkip h o) h s .skip

/-- `eret.term` (R368). -/
def execEretTerm (h : Head) (o : S) (s : State) : Host.Outcome State Fault Refusal := eretOp (.eretTerm h o) h s .term

/-- `eret.defer` (R368). -/
def execEretDefer (h : Head) (o : S) (s : State) : Host.Outcome State Fault Refusal := eretOp (.eretDefer h o) h s .defer

/-! ### Halting and resuming (R369) -/

/-- A handler instruction that returns a status in every lane of E (R367): `f` gives the status and the state. -/
def statusDone (i : Instr) (o : S) (s : State) (f : State → Ctx → Nat → Nat × State) (c : Ctx) : Effect :=
  let p := (c.pack.writeReg o.d.toNat c.exec fun _ => 0).retire i c
  let r := f (setPack s p) c (c.v o.b c.low).toNat
  match findPack r.2 p.loc with
  | some q => .done (setPack r.2 (q.writeReg o.d.toNat c.exec fun _ => BitVec.ofNat 32 r.1))
  | none => .done r.2

/-- A handler instruction that does so and nothing else. -/
def statusOp (i : Instr) (h : Head) (o : S) (s : State) (f : State → Ctx → Nat → Nat × State) : Host.Outcome State Fault Refusal :=
  sysOp i h s (statusDone i o s f)

/-- A running user pack: the instructions of R369 act on it. -/
def haltable (s : State) (p : Pack) : Bool := p.stop == .running && !((p.herd.bind (findHerd s)).map (·.saving)).getD false

/-- A pack stops as parking stops packs, with a record of code 0 and no cause (R369). -/
def haltPack (s : State) (p : Pack) : State :=
  let r := trapRecord s p 0 0 0 0 false none
  setPack s { p.freeze (now s) with stop := .halted, record := some r }

/-- The packs of a herd. -/
def herdPacks (s : State) (herd : Option Nat) : List Pack := s.packs.filter fun p => herd.isSome && p.herd == herd

/-- `packhalt` (R369). -/
def execPackhalt (h : Head) (o : S) (s : State) : Host.Outcome State Fault Refusal :=
  statusOp (.packhalt h o) h o s fun s c w =>
    match if handleSrc w == 0 then handlePack s c.pack.loc.core w else none with
    | none => (1, s)
    | some p => if haltable s p then (0, haltPack s p) else (2, s)

/-- `packhalt.herd` (R369): every running pack of the herd. -/
def execPackhaltHerd (h : Head) (o : S) (s : State) : Host.Outcome State Fault Refusal :=
  statusOp (.packhaltHerd h o) h o s fun s c w =>
    match if handleSrc w == 0 then handlePack s c.pack.loc.core w else none with
    | none => (1, s)
    | some p =>
      let ps := (herdPacks s p.herd).filter (haltable s)
      if ps.isEmpty then (2, s) else (0, ps.foldl haltPack s)

/-- `packhalt.kill` (R369): the pack's launch terminates with status 3. -/
def execPackhaltKill (h : Head) (o : S) (s : State) : Host.Outcome State Fault Refusal :=
  statusOp (.packhaltKill h o) h o s fun s c w =>
    match if handleSrc w == 0 then handlePack s c.pack.loc.core w else none with
    | none => (1, s)
    | some p => (0, terminate s p.part (herdIds s p).1 ⟨3, 0, 0⟩)

/-- The packs that a `packresume` of a pack resumes (R369): it, halted or with a deferred cause, and under `.herd` every halted pack of its
herd. -/
def resumable (s : State) (p : Pack) (herd : Bool) : List Pack :=
  (if p.stop == .deferred || (p.stop == .halted && !herd) then [p] else []) ++
    if herd then (herdPacks s p.herd).filter (·.stop == .halted) else []

/-- What `packresume` does with a handle (R369): the status and the machine. -/
def packresume (s : State) (core w : Nat) (herd : Bool) : Nat × State :=
    match handleSrc w with
    | 0 =>
      match handlePack s core w with
      | none => (1, s)
      | some p =>
        let ps := resumable s p herd
        if ps.isEmpty then (2, s) else (0, ps.foldl (fun s p => resumeFaulted s p false) s)
    | 1 =>
      match handleCopy s core w with
      | none => (1, s)
      | some k => if k.suspended.any (·.deferred) then (0, resumeCopy s core k) else (2, s)
    | 2 =>
      match handlePort s core w with
      | none => (1, s)
      | some (r, p) => if p.stopped.any (·.deferred) then (0, resumePort s r p.num) else (2, s)
    | _ => (1, s)

/-- `packresume` (R369); a resume PC whose check must wait holds it back (R160). -/
def execPackresume (h : Head) (o : S) (s : State) : Host.Outcome State Fault Refusal :=
  let i : Instr := .packresume h o
  let herd := o.mod.toNat % 2 == 1
  sysOp i h s fun c =>
    let w := (c.v o.b c.low).toNat
    let ps := if handleSrc w == 0 then ((handlePack s c.pack.loc.core w).map (resumable s · herd)).getD [] else []
    match resumesWait s false ps with
    | some s' => stallAt s'
    | none => statusDone i o s (fun s c w => packresume s c.pack.loc.core w herd) c

/-- `whistle` (R372): the cut of an active residency is ordered; once it is complete the herd is saved where its control pack runs. -/
def execWhistle (h : Head) (o : S) (s : State) : Host.Outcome State Fault Refusal :=
  statusOp (.whistle h o) h o s fun s c w =>
    match if handleSrc w == 0 then handlePack s c.pack.loc.core w else none with
    | none => (1, s)
    | some p =>
      match p.control.bind (findRes s) with
      | none => (1, s)
      | some r =>
        if r.phase != .active && r.phase != .draining then (1, s)
        else if (herdPacks s p.herd).any fun q => q.loc != p.loc && q.stop != .running then (2, s)
        else (0, modRes s r.id fun r => { r with cutWanted := true, saveHerd := true })

/-! ### Power leases (R427) -/

/-- `pwrls.rd` and `.set`: what they answer for a die of the partition, G and B before the instruction, or 0xFFFFFFFF where they
reject; a new budget may let the head of the die's queue be granted. -/
def leaseWord (s : State) (c : Ctx) (die : Nat) (set : Option Nat) : Nat × State :=
  let mine := ((findPart s c.pack.part).map fun p => p.die0 ≤ die && die < p.die0 + p.dies).getD false
  let tooLarge := match set with
    | some b => 65535 < b
    | none => false
  if !mine || tooLarge then (0xFFFFFFFF, s)
  else
    let word := ((getDie s die).granted * 2 ^ 16 + (getDie s die).budget) % 2 ^ 32
    match set with
    | some b => (word, push (modDie s die fun d => { d with budget := b }) (.event (.leaseGrant die)))
    | none => (word, s)

/-- `pwrls.rd` (R427). -/
def execPwrlsRd (h : Head) (o : S) (s : State) : Host.Outcome State Fault Refusal :=
  sysOp (.pwrlsRd h o) h s fun c =>
    let r := leaseWord s c (c.v o.a c.low).toNat none
    .done (setPack r.2 ((c.pack.writeReg o.d.toNat c.exec fun _ => BitVec.ofNat 32 r.1).retire (.pwrlsRd h o) c))

/-- `pwrls.set` (R427). -/
def execPwrlsSet (h : Head) (o : S) (s : State) : Host.Outcome State Fault Refusal :=
  sysOp (.pwrlsSet h o) h s fun c =>
    let r := leaseWord s c (c.v o.a c.low).toNat (some (c.v o.b c.low).toNat)
    .done (setPack r.2 ((c.pack.writeReg o.d.toNat c.exec fun _ => BitVec.ofNat 32 r.1).retire (.pwrlsSet h o) c))

end Sys2Proof.Machine
end

