-- ==== Sys2Proof/Machine/Collie.lean ====
section
/-!
DEFINITION. Resets, boot, the Collie's commands, power states, security states and storage errors (R415-R425, R428-R431).
-/

namespace Sys2Proof.Machine

/-! ### Resets (R415) -/

/-- What a device reset leaves: the always-on island, the contents of memory with their poison, and the model's own counters (log 44).  The
clock restarts, and with it the time since a unit's last correctable error was logged (R428).  A command of the Collie in progress is overridden
(R421). -/
def wiped (s : State) : State :=
  { State.reset with
    tick := s.tick, fresh := s.fresh, nextId := s.nextId, mem := s.mem, poison := s.poison.filter fun g => 8 * g < remoteBase, power := s.power
    aon := { s.aon with cmds := [], counted := s.aon.counted.map fun u => (u.1, u.2.1, 0) } }

/-- Agents see every link go down, so what they held exclusively is poisoned, and no grant that waits is made (R409, R415). -/
def dropAgents (s : State) : State :=
  (List.range 17).foldl dropAgent { s with handOvers := s.handOvers.map fun h => { h with grant := none } }

/-- A DEVICE RESET (R415): the incarnation rises, and boot follows. -/
def resetDevice (s : State) : State :=
  let s := wiped (dropAgents s)
  let aon : AlwaysOn := { s.aon with incarn := s.aon.incarn + 1, bootFailed := false, keptDebug := [] }
  { s with
    power := .on, aon, agenda := [.event .boot]
    parts := [Partition.initial 0 0 8 (secDebug aon.sec) 0#64] }

/-- A device reset as the Collie orders it, at any time (R415): while the device is off the islands it resets hold nothing, each debug level takes
the security state's value (R425), and boot follows when power comes on. -/
def orderReset (s : State) : State :=
  if s.power == .off then
    { s with
      aon := { s.aon with incarn := s.aon.incarn + 1, bootFailed := false, keptDebug := [], cmds := [] }
      parts := s.parts.map fun p => { p with dbglvl := secDebug s.aon.sec } }
  else resetDevice s

/-- `DEVICE_RESET` (R415). -/
def execDeviceReset (s : State) : Host.Outcome State Fault Refusal := .next (orderReset s)

/-- Debug levels kept for partitions take the place of theirs (R425). -/
def applyDebug (s : State) (kept : List (Nat × Word)) : State :=
  { s with parts := s.parts.map fun p => { p with dbglvl := ((kept.find? (·.1 == p.id)).map (·.2)).getD p.dbglvl } }

/-- Power comes on after off: memory has lost its contents and the log its entries, and a device reset follows (R415, R423, R430); the debug
levels kept while it was off apply (R425, log 21). -/
def powerUp (s : State) : State :=
  let kept := s.parts.map fun p => (p.id, p.dbglvl)
  let s := resetDevice { s with mem := [], poison := [], aon := { s.aon with log := [], logSeq := 0, lost := 0, counted := [] } }
  modAon (applyDebug s kept) fun a => { a with keptDebug := kept }

/-- `POWER_ON` (R415). -/
def execPowerOn (s : State) : Host.Outcome State Fault Refusal := .next (if s.power == .off then powerUp s else s)

/-- A launch is terminated with status 3, and its completion is performed where its accesses allow (R382, R415). -/
def endLaunch (part : Nat) (s : State) (seq : Word) : State :=
  completeLaunch part seq (terminate s part seq ⟨3, 0, 0⟩)

/-- A PARTITION RESET (R415): every launch terminates; the partition is fresh once their completions are over, and until then nothing else
of it goes on. -/
def resetPartition (s : State) (p : Partition) : State :=
  let s := modPart s p.id fun p =>
    { p with stopped := true, resetting := true, armed := [], held := [], slots := [], promotions := [], gateLog := [] }
  endReset ((p.launches.map (·.seq)).foldl (endLaunch p.id) s) p.id

/-- `PARTITION_RESET` (R415), which the Collie may order at any time. -/
def execPartitionReset (part : Nat) (s : State) : Host.Outcome State Fault Refusal :=
  match findPart s part with
  | some p => .next (resetPartition s p)
  | none => .next s

/-! ### Boot (R416-R418) -/

/-- `n` bytes of an image at an offset, as a number. -/
def imageNum (b : List Byte) (off n : Nat) : Nat := numLE ((b.drop off).take n)

/-- The header is as R417 has it; its reserved fields are not looked at (R7). -/
def headerOk (b : List Byte) : Bool :=
  let len := imageNum b 8 8
  imageNum b 0 4 == 0x49464B57 && imageNum b 4 2 == 1 && len % 128 == 0 && 128 ≤ len && len ≤ 2 ^ 26 && len ≤ b.length

/-- The digest of R416 step 2. -/
def bootDigest (b : List Byte) : List Byte := sha256 (b.take 32 ++ (b.drop 128).take (imageNum b 8 8 - 128))

/-- The checks of R416: 0, or the failure as R431 numbers it. -/
def imageCheck (minSvn : Nat) (b : List Byte) : Nat :=
  if !headerOk b then 1
  else if !ecdsaVerify Config.firmwareKey (numBE (bootDigest b)) (numBE ((b.drop 32).take 32)) (numBE ((b.drop 64).take 32)) then 2
  else if imageNum b 6 2 < minSvn then 3
  else 0

/-- Firmware starts: the layout of the Collie's configuration is formed, `mtvec` set, the fuses raised, and the entry written (R416, R418). -/
def startFirmware (s : State) : State :=
  let svn := imageNum s.aon.flash 6 2
  let aon : AlwaysOn := { s.aon with minSvn := max s.aon.minSvn svn, keptDebug := [] }
  let s' := formPartitions { s with booted := true, imageSvn := svn, imageDigest := bootDigest s.aon.flash, aon } s.aon.layout none
  logEvent (applyDebug s' s.aon.keptDebug) 13 0 8 0 0 (BitVec.ofNat 64 svn)

/-- `BOOT` (R416, R418). -/
def execBoot (s : State) : Host.Outcome State Fault Refusal :=
  if s.booted || s.aon.bootFailed || s.power != .on then .next s
  else
    match imageCheck s.aon.minSvn s.aon.flash with
    | 0 => .next (startFirmware s)
    | why => .next (modAon (logEvent s 12 0 8 0 0 (BitVec.ofNat 64 why)) fun a => { a with bootFailed := true })

/-- `SIGNED_IMAGE_FETCHED` (R418): after a failed boot the Collie writes the image to the flash and orders a device reset. -/
def execSignedImageFetched (image : List Byte) (s : State) : Host.Outcome State Fault Refusal :=
  .next (if s.aon.bootFailed then resetDevice (modAon s fun a => { a with flash := image }) else s)

/-! ### Power states (R422-R424) -/

/-- The device leaves idle or deep idle. -/
def awake (s : State) : State :=
  match s.power with
  | .idle | .deepIdle => { s with power := .on, quietSince := now s }
  | .on | .off => s

/-- No resident user pack, residency, eligible launch or work in the promotion engine (R423). -/
def deviceQuiet (s : State) : Bool :=
  s.packs.all Pack.isHandler && s.residencies.isEmpty && s.parts.all fun p => p.promotions.isEmpty && p.launches.all Launch.pending

/-- `IDLE_ENTRY` (R423): the conditions have held for 2^20 cycles. -/
def execIdleEntry (s : State) : Host.Outcome State Fault Refusal :=
  if s.power == .on && s.booted && deviceQuiet s && s.quietSince + 2 ^ 20 ≤ now s then .next { s with power := .idle } else .next s

/-- `WAKE` (R423). -/
def execWake (s : State) : Host.Outcome State Fault Refusal := .next (awake s)

/-- Deep idle: the L2 is written back and gated (R423). -/
def deepen (s : State) : State :=
  { s.scCopies.foldl (fun s c => scWriteBack s c.line c.die true) s with
    power := .deepIdle, near := [], cores := s.cores.map fun c => { c with l1 := [], early := [] } }

/-- Off: only the always-on island keeps what it holds, but for the error log (R430), and each partition its debug setting (R423, R425). -/
def turnOff (s : State) : State :=
  let s' := modAon (wiped (dropAgents s)) fun a => { a with log := [], logSeq := 0, lost := 0, counted := [] }
  { s' with power := .off, mem := [], poison := [], parts := s.parts.map fun p => { Partition.initial p.id p.die0 p.dies p.dbglvl 0 with hdlcfg := p.hdlcfg }
            layout := s.layout }

/-- `CRITICAL_TEMPERATURE` (R422): the Collie logs the island and orders a device reset. -/
def execCriticalTemperature (island : Nat) (s : State) : Host.Outcome State Fault Refusal :=
  if 28 ≤ island || s.power == .off then .next s else .next (resetDevice (logEvent s 14 0 8 0 0 (BitVec.ofNat 64 island)))

/-! ### The Collie's commands (R421) -/

/-- A command's answer. -/
def reply (s : State) (status : Nat) (data : List Byte) : State := modAon s fun a => { a with reply := some ⟨status, data⟩ }

/-- A command with status alone. -/
def answer (s : State) (status : Nat) : Host.Outcome State Fault Refusal := .next (reply s status [])

/-- Commands are served one at a time, in arrival order (R421): one that arrives while others wait does so behind them. -/
def inTurn (c : CollieCommand) (s : State) (k : State → Host.Outcome State Fault Refusal) : Host.Outcome State Fault Refusal :=
  if s.aon.cmds.isEmpty then k s else .next (modAon s fun a => { a with cmds := a.cmds ++ [c] })

/-- A command is served in its turn, in a session that a hello has opened; without one it is not allowed (R421, log 54). -/
def served (c : CollieCommand) (s : State) (k : State → Host.Outcome State Fault Refusal) : Host.Outcome State Fault Refusal :=
  inTurn c s fun s => if s.aon.session.isNone then answer (awake s) 2 else k s

/-- `HELLO`: opens a session, at the lower of the two highest versions; one that cannot meet 0x01 is refused. -/
def execHello (version : Byte) (s : State) : Host.Outcome State Fault Refusal :=
  inTurn (.hello version) s fun s => if version == 0 then answer (awake s) 2 else .next (reply (modAon (awake s) fun a => { a with session := some 1 }) 0 [1])

/-- `TELEMETRY`: temperatures and island power, then for each die its budget and granted sum, then the log's lost count (log 16). -/
def execTelemetry (s : State) : Host.Outcome State Fault Refusal :=
  served .telemetry s fun s =>
  let s := awake s
  let dies := (List.range 8).flatMap fun d => bytesLE 4 (getDie s d).budget ++ bytesLE 4 (getDie s d).granted
  .next (reply (draw s) 0 (Config.telemetry s.fresh ++ dies ++ bytesLE 4 s.aon.lost))

/-- An entry of the error log in memory order (R430). -/
def LogEntry.bytes (e : LogEntry) : List Byte :=
  bytesLE 32 (e.typ + e.part % 8 * 2 ^ 8 + e.die % 16 * 2 ^ 16 + e.unit % 4096 * 2 ^ 20 + e.seq.toNat * 2 ^ 32 + e.clock.toNat * 2 ^ 64 +
    e.addr.toNat * 2 ^ 128 + e.detail.toNat * 2 ^ 192)

/-- `LOGREAD`. -/
def execLogread (fromSeq : Word) (s : State) : Host.Outcome State Fault Refusal :=
  served (.logread fromSeq) s fun s => .next (reply (awake s) 0 ((s.aon.log.filter fun e => fromSeq.toNat ≤ e.seq.toNat).flatMap LogEntry.bytes))

/-- `FWLOAD`. -/
def execFwload (image : List Byte) (s : State) : Host.Outcome State Fault Refusal :=
  served (.fwload image) s fun s =>
  if imageCheck s.aon.minSvn image != 0 then answer (awake s) 2
  else answer (modAon (awake s) fun a => { a with flash := image }) 0

/-- `RESET` (R415), in every power state; it overrides every command in progress (R421).  Of a partition that the layout does not have it is not
allowed. -/
def execReset (target : ResetTarget) (s : State) : Host.Outcome State Fault Refusal :=
  let s' := modAon s fun a => { a with cmds := [] }
  match target, s.aon.session with
  | .device, some _ => answer (orderReset s') 0
  | .partition p, some _ =>
    match findPart s p with
    | some q => answer (resetPartition (awake s') q) 0
    | none => inTurn (.reset target) s fun s => answer (awake s) 2
  | _, none => inTurn (.reset target) s fun s => answer (awake s) 2

/-- `KILL`: a live launch terminates with status 3, which is logged. -/
def execKill (part : Nat) (seq : Word) (s : State) : Host.Outcome State Fault Refusal :=
  served (.kill part seq) s fun s =>
  let s := awake s
  if ((findPart s part).map fun p => p.launches.any fun l => l.seq == seq && l.term.isNone && !p.messages.any (·.seq == seq)).getD false then
    answer (terminate (logEvent s 16 part 8 0 0 (seq.zeroExtend 64)) part seq ⟨3, 0, 0⟩) 0
  else answer s 1

/-- `DEBUG`: the level is 0, 1 or 2, and full is never entered in production (R425); before a boot it is kept for it (log 21). -/
def execDebug (part : Nat) (level : Word) (s : State) : Host.Outcome State Fault Refusal :=
  served (.debug part level) s fun s =>
  if (findPart s part).isNone || 2 < level.toNat || (s.aon.sec == .production && level == 2) then answer (awake s) 2
  else
    let s := modPart (awake s) part fun p => { p with dbglvl := level }
    answer (if s.booted then s else modAon s fun a => { a with keptDebug := (part, level) :: a.keptDebug.filter (·.1 != part) }) 0

/-- `POWER` (R423): deep idle only from idle, off only from idle or deep idle, on from any state.  A page held outside, to which the L2 has bytes to
write back, is asked back first (R407). -/
def execPower (target : PowerState) (s : State) : Host.Outcome State Fault Refusal :=
  served (.power target) s fun s =>
  match target, s.power with
  | .on, .off => answer (powerUp s) 0
  | .on, _ => answer (awake s) 0
  | .deepIdle, .idle =>
    match askBack s s.scCopies with
    | some s' => .next (modAon s' fun a => { a with cmds := .power .deepIdle :: a.cmds })
    | none => answer (deepen s) 0
  | .off, .idle => answer (turnOff s) 0
  | .off, .deepIdle => answer (turnOff s) 0
  | _, _ => answer s 2

/-- A security state's code (R420). -/
def secCode : SecState → Nat
  | .provisioning => 0
  | .production => 1
  | .returned => 2

/-- The report of R420 without its signature, 192 bytes. -/
def reportBody (s : State) (nonce : List Byte) (key : Nat × Nat) : List Byte :=
  let dbg := ((List.range 8).map fun p => ((findPart s p).map (·.dbglvl.toNat % 4)).getD 0 * 2 ^ (2 * p)).sum
  bytesLE 16 (1 + secCode s.aon.sec * 2 ^ 8 + dbg * 2 ^ 16 + s.layout % 4 * 2 ^ 32 + s.aon.incarn.toNat * 2 ^ 64 + s.imageSvn % 65536 * 2 ^ 96) ++
    nonce ++ (s.imageDigest ++ List.replicate 32 0#8).take 32 ++ bytesLE 32 key.1 ++ bytesLE 32 key.2 ++ List.replicate 48 0#8

/-- `ATTEST` (R420). -/
def execAttest (nonce : List Byte) (s : State) : Host.Outcome State Fault Refusal :=
  served (.attest nonce) s fun s =>
  match s.aon.key with
  | none => answer (awake s) 3
  | some k =>
    if nonce.length != 32 then answer (awake s) 2
    else
      let body := reportBody s nonce (Config.identityKey k)
      let sig := Config.identitySign k (numBE (sha256 body))
      .next (reply (awake s) 0 (body ++ bytesLE 32 sig.1 ++ bytesLE 32 sig.2))

/-- The partitions whose debug level decides a `memrw` of a range: those with a window that meets it, or every one (log 45). -/
def rangeOwners (s : State) (addr len : Nat) : List Partition :=
  let mine := s.parts.filter fun p => (windows p).any fun w => addr < w.1 + w.2 && w.1 < addr + len
  if mine.isEmpty then s.parts else mine

/-- The pages of a range that are held outside in the way of an access, by an address of each (R407). -/
def rangeAway (s : State) (t : Tlb) (addr len : Nat) (writes : Bool) : List Nat :=
  ((List.range ((addr + len - 1) / pageSize + 1 - addr / pageSize)).map fun k => (addr / pageSize + k) * pageSize).filter fun pa =>
    !pageReady s t pa writes

/-- `MEMRW` (R421, R424, R425): physical memory, at debug level full, but not in production; the device wakes first.  While pages of the range are
held outside in the way, it asks for them and waits, first of the commands (R407, R408). -/
def execMemrw (addr len : Nat) (data : Option (List Byte)) (s : State) : Host.Outcome State Fault Refusal :=
  served (.memrw addr len data) s fun s =>
  let s := awake s
  if s.power == .off || s.aon.sec == .production || !(rangeOwners s addr len).all (fun p => p.dbglvl == 2) || len == 0 ||
      !installedFrame addr len || Config.isHbm addr != Config.isHbm (addr + len - 1) then answer s 2
  else if (data.map (·.length != len)).getD false then answer s 2
  else
    let t := identityTlb 0
    let away := rangeAway s t addr len data.isSome
    if !away.isEmpty then
      .next (away.foldl (fun s pa => requestPage s t pa data.isSome) (modAon s fun a => { a with cmds := .memrw addr len data :: a.cmds }))
    else
      let s := (List.range ((addr + len - 1) / pageSize + 1 - addr / pageSize)).foldl (fun s k => usePage s t ((addr / pageSize + k) * pageSize)) s
      match data with
      | none => .next (reply s 0 (memRead Config.blankByte s.mem addr len))
      | some bs => answer (homeLines s 0 t addr bs (len / lineSize + 2)) 0

/-- `GENKEY` (R419): once, in provisioning. -/
def execGenkey (s : State) : Host.Outcome State Fault Refusal :=
  served .genkey s fun s =>
  if s.aon.sec != .provisioning || s.aon.key.isSome then answer (awake s) 2
  else answer (modAon (awake s) fun a => { a with key := some a.keysMade, keysMade := a.keysMade + 1 }) 0

/-- Every partition's debug level set (R425). -/
def setDebug (s : State) (level : Word) : State :=
  { s with parts := s.parts.map fun p => { p with dbglvl := level }, aon := { s.aon with keptDebug := [] } }

/-- Every frame zeroed, whatever a cache held for it (R419); the constant banks of launches under way have been written (R112). -/
def zeroFrames (s : State) : State :=
  let away (line : Nat) : Bool := remoteBase ≤ line * lineSize
  { s with
    mem := [], poison := s.poison.filter fun g => remoteBase ≤ 8 * g, near := s.near.filter fun n => away n.line, scCopies := s.scCopies.filter fun c => away c.line
    heads := s.heads.filter fun h => remoteBase ≤ h.addr
    cores := s.cores.map fun c => { c with l1 := c.l1.filter fun l => away l.line, early := [] }
    parts := s.parts.map fun p => { p with launches := p.launches.map fun l =>
      if !l.begun || l.desc.cbank == 0#64 then l else { l with bankDirty := List.range 65536 } } }

/-- `SECSTATE` (R419, R425): provisioning to production once the identity key exists, production to return. -/
def execSecstate (target : SecState) (s : State) : Host.Outcome State Fault Refusal :=
  served (.secstate target) s fun s =>
  let s := awake s
  let enter (s : State) : State := logEvent (modAon s fun a => { a with sec := target }) 15 0 8 0 0 (BitVec.ofNat 64 (secCode target))
  match s.aon.sec, target with
  | .provisioning, .production => if s.aon.key.isSome then answer (enter (setDebug s 0)) 0 else answer s 2
  | .production, .returned => answer (enter (setDebug (modAon (zeroFrames s) fun a => { a with key := none }) 2)) 0
  | _, _ => answer s 2

/-- A command takes place. -/
def performCommand (c : CollieCommand) (s : State) : Host.Outcome State Fault Refusal :=
  match c with
  | .hello version => execHello version s
  | .telemetry => execTelemetry s
  | .logread fromSeq => execLogread fromSeq s
  | .fwload image => execFwload image s
  | .reset target => execReset target s
  | .kill part seq => execKill part seq s
  | .debug part level => execDebug part level s
  | .power target => execPower target s
  | .attest nonce => execAttest nonce s
  | .memrw addr len data => execMemrw addr len data s
  | .genkey => execGenkey s
  | .secstate target => execSecstate target s

/-- The first of the commands that wait is taken up again (R421): where it need wait no more, the next one follows. -/
def collieTurn (s : State) : Host.Outcome State Fault Refusal :=
  match s.aon.cmds with
  | [] => .next s
  | c :: rest =>
    match performCommand c (modAon s fun a => { a with cmds := [] }) with
    | .next s' =>
      let s'' := modAon s' fun a => { a with cmds := a.cmds ++ rest }
      .next (if s'.aon.cmds.isEmpty then nextCommand s'' else s'')
    | .fault f => .fault f
    | .refused r => .refused r

/-! ### Storage errors (R428-R431) -/

/-- The die and unit of a place, and its physical address or 0 (R430). -/
def placeOf (s : State) (place : StoragePlace) : Nat × Nat × Nat :=
  let core (c : Nat) : Nat × Nat × Nat := (dieOf c, c % 42, 0)
  let herd (h : Nat) : Nat × Nat × Nat := core (((findHerd s h).map (·.core)).getD 0)
  match place with
  | .dram pa => if Config.isHbm pa then (Config.hbmDie pa, (pa - Config.hbmBase) / 48000000000 % 2, pa) else (8, pa / lineSize % 24, pa)
  | .l2 pa => (homeDie (identityTlb 0) pa, homeSlice pa, pa)
  | .scratchpad h _ => herd h
  | .opm h _ _ => herd h
  | .vreg loc _ _ => core loc.core
  | .parity die unit => (die, unit, 0)

/-- The partition that a place belongs to: that of the herd whose scratchpad or OPM it is, or of the pack whose register; 0 for storage that
partitions share (R430). -/
def placePart (s : State) : StoragePlace → Nat
  | .scratchpad h _ => ((findHerd s h).map (·.part)).getD 0
  | .opm h _ _ => ((findHerd s h).map (·.part)).getD 0
  | .vreg loc _ _ => ((findPack s loc).map (·.part)).getD 0
  | .dram _ | .l2 _ | .parity _ _ => 0

/-- The unit that a place belongs to, for the count of its correctable errors. -/
def unitOf (s : State) (place : StoragePlace) : StoragePlace :=
  let u := placeOf s place
  match place with
  | .dram _ => .dram (u.1 * 4096 + u.2.1)
  | .l2 _ => .l2 (u.1 * 4096 + u.2.1)
  | .scratchpad _ _ => .scratchpad (u.1 * 42 + u.2.1) 0
  | .opm _ _ _ => .opm (u.1 * 42 + u.2.1) 0 0
  | .vreg loc _ _ => .vreg ⟨loc.core, 0, 0⟩ 0 0
  | .parity die unit => .parity die unit

/-- `CORRECTABLE_ERROR` (R428): counted; logged at most once per unit per 2^20 cycles, with the count since the unit's previous entry. -/
def execCorrectableError (place : StoragePlace) (s : State) : Host.Outcome State Fault Refusal :=
  let u := unitOf s place
  let old := s.aon.counted.find? (·.1 == u)
  let n := (old.map (·.2.1)).getD 0 + 1
  let due : Bool := match old with
    | some x => x.2.2 + 2 ^ 20 ≤ now s
    | none => true
  let keep (n at_ : Nat) (s : State) : State := modAon s fun a => { a with counted := (u, n, at_) :: a.counted.filter (·.1 != u) }
  let w := placeOf s place
  .next (if due then keep 0 (now s) (logEvent s 1 (placePart s place) w.1 w.2.1 (BitVec.ofNat 64 w.2.2) (BitVec.ofNat 64 n))
    else keep n ((old.map (·.2.2)).getD 0) s)

/-- Granules of global memory poisoned. -/
def addPoison (s : State) (gs : List Nat) : State := { s with poison := (s.poison.filter fun g => !gs.contains g) ++ gs }

/-- The granule of a place is poisoned (R428): 32 bytes of HBM and cave, 8 of global memory, 4 of scratchpad, 16 of OPM, a register lane. -/
def poisonPlace (s : State) : StoragePlace → State
  | .dram pa => addPoison s ((List.range 4).map fun k => pa / 32 * 4 + k)
  | .l2 pa => addPoison s [pa / 8]
  | .scratchpad h off => modHerd s h fun h => { h with bad := (off / 4) :: h.bad.filter (· != off / 4) }
  | .opm h slot off => modHerd s h fun h => { h with opm := h.opm.modify slot fun t => { t with bad := (off / 16) :: t.bad.filter (· != off / 16) } }
  | .vreg loc r l =>
    match findPack s loc with
    | some p => setPack s { p with bad := (r, l) :: p.bad.filter (· != (r, l)) }
    | none => s
  | .parity _ _ => s

/-- The storage kind, in the row order of R428. -/
def placeKind : StoragePlace → Nat
  | .dram _ => 1
  | .l2 _ => 2
  | .scratchpad _ _ => 3
  | .opm _ _ _ => 4
  | .vreg _ _ _ => 5
  | .parity _ _ => 6

/-- `UNCORRECTABLE_ERROR` (R428, R431). -/
def execUncorrectableError (place : StoragePlace) (s : State) : Host.Outcome State Fault Refusal :=
  let w := placeOf s place
  .next (logEvent (poisonPlace s place) 2 (placePart s place) w.1 w.2.1 (BitVec.ofNat 64 w.2.2) (BitVec.ofNat 64 (placeKind place)))

/-- What parity protects is fetched again from memory (R428): the partition's translations of a die are walked for anew, and its ports latch
their pages again. -/
def refetch (s : State) (part die : Nat) : State :=
  { s with
    cores := s.cores.map fun c => if dieOf c.id == die then { c with tlb := c.tlb.filter (·.part != part) } else c
    dies := updWhere (·.id == die)
      (fun d => { d with tlb := d.tlb.filter (·.part != part), walkCache := d.walkCache.filter (·.part != part) }) s.dies
    residencies := updWhere (fun r => r.part == part && dieOf r.ctl.core == die) (fun r => { r with ports := r.ports.map fun p =>
      { p with ranges := [], dropped := p.dropped ++ p.ranges.map fun e => (e.vpn, e.pages) } }) s.residencies }

/-- `PARITY_ERROR` (R428): the storage is fetched again from memory; a repeat stops the partition. -/
def execParityError (part die unit : Nat) (again : Bool) (s : State) : Host.Outcome State Fault Refusal :=
  .next (if again then stopPartition s part die unit Config.parityCode 0 else refetch (logEvent s 2 part die unit 0 6) part die)

end Sys2Proof.Machine
end

