-- ==== Sys2Proof/Machine/Images.lean ====
section
/-!
DEFINITION. Trap records and context images in memory (R364, R374, R380), and the instructions that write and read them: opcodes 0xE5 and
0xE6 (R370, R371).
-/

namespace Sys2Proof.Machine

/-- A flag as a number. -/
def bit (b : Bool) : Nat := if b then 1 else 0

/-- Bytes followed by zeros up to a multiple of 128 (R374). -/
def padLine (bs : List Byte) : List Byte := bs ++ List.replicate ((lineSize - bs.length % lineSize) % lineSize) 0#8

/-! ### Trap records (R364, R380) -/

/-- A path entry, 32 bytes. -/
def PathRec.bytes (q : PathRec) : List Byte :=
  bytesLE 32 (q.pc.toNat + q.mask.toNat * 2 ^ 64 + q.state * 2 ^ 128 + q.num * 2 ^ 130 + bit q.ph * 2 ^ 136 + q.wcount % 2 ^ 64 * 2 ^ 192)

/-- The header of a record, 64 bytes. -/
def TrapRecord.header (r : TrapRecord) : List Byte :=
  bytesLE 64
    (r.code + r.paths.length * 2 ^ 8 + r.pack * 2 ^ 16 + r.quarter * 2 ^ 20 + r.slot * 2 ^ 22 + bit r.x * 2 ^ 27 + r.seq.toNat * 2 ^ 32 +
      r.fpc.toNat * 2 ^ 64 + r.fmask.toNat * 2 ^ 128 + r.detail.toNat * 2 ^ 192 + r.exited.toNat * 2 ^ 256 + r.clock.toNat * 2 ^ 320 +
      r.herd * 2 ^ 384)

/-- A next count: the count and its valid bit. -/
def nextBytes (n : Option Nat) : List Byte :=
  bytesLE 4 (match n with
    | some k => k + 2 ^ 11
    | none => 0)

/-- A pack entry of the appendix. -/
def BarPack.bytes (b : BarPack) : List Byte :=
  bytesLE 16 (b.pc.toNat + bit b.exited * 2 ^ 64 + bit b.waiting * 2 ^ 65 + bit b.stopped * 2 ^ 66 + bit b.parked * 2 ^ 67)

/-- The appendix of R380. -/
def BarAppendix.bytes (a : BarAppendix) : List Byte :=
  a.object ++ nextBytes a.next ++ bytesLE 4 a.landings ++ List.replicate 8 0#8 ++ a.packs.flatMap BarPack.bytes

/-- A trap record in memory. -/
def TrapRecord.bytes (r : TrapRecord) : List Byte :=
  r.header ++ r.paths.flatMap PathRec.bytes ++ ((r.appendix.map BarAppendix.bytes).getD [])

/-- The record of a stopped copy or port: a header with no paths, its detail the faulting address (R370, log 30). -/
def unitRecord (s : State) (loc : PackLoc) (herd : Option Nat) (seq : Word) (u : UnitStop) : TrapRecord :=
  { code := u.code, pack := ((findPack s loc).map (·.num)).getD 0, quarter := loc.quarter, slot := loc.slot, x := false, seq
    fpc := 0, fmask := 0, detail := u.detail, exited := 0, clock := u.clock
    herd := ((herd.bind (findHerd s)).map (·.index)).getD 0, paths := [], appendix := none }

/-- The record that a handle names: a status where there is none (R367, R370). -/
def handleRecord (s : State) (core w : Nat) : Except Nat TrapRecord :=
  match handleSrc w with
  | 0 =>
    match handlePack s core w with
    | none => .error 1
    | some p =>
      match p.record with
      | some r => .ok r
      | none => .error 2
  | 1 =>
    match handleCopy s core w with
    | none => .error 1
    | some y =>
      match y.suspended with
      | some u => .ok (unitRecord s y.loc y.herd y.seq u)
      | none => .error 2
  | 2 =>
    match handlePort s core w with
    | none => .error 1
    | some (r, p) =>
      match p.stopped with
      | some u => .ok (unitRecord s r.ctl (some r.herd) (((findHerd s r.herd).map (·.seq)).getD 0) u)
      | none => .error 2
  | _ => .error 1

/-- `ctxsave` and `ctxload` end: the status, and for `ctxsave` the bytes written (R370, R371). -/
def ctxDone (i : Instr) (c : Ctx) (o : S) (pair : Bool) (s : State) (status bytes : Nat) : Effect :=
  let p := (findPack s c.pack.loc).getD c.pack
  let p := if pair then p.writePair o.d.toNat c.exec fun _ => BitVec.ofNat 64 (status + bytes * 2 ^ 32)
    else p.writeReg o.d.toNat c.exec fun _ => BitVec.ofNat 32 status
  .done (setPack s (p.retire i c))

/-- `ctxsave.rec` (R370).  DESIGN CHOICE, log 66: a handle that names no stopped unit answers its status before the buffer is looked at. -/
def execCtxsaveRec (h : Head) (o : S) (s : State) : Host.Outcome State Fault Refusal :=
  let i : Instr := .ctxsaveRec h o
  sysOp i h s fun c =>
    match handleRecord s c.pack.loc.core (c.v o.b c.low).toNat with
    | .error status => ctxDone i c o true s status 0
    | .ok r =>
      let bs := r.bytes
      blockOp c s (.write false) (c.q o.a c.low).toNat bs.length 128 fun ps s =>
        ctxDone i c o true (writeBlock s c.pack.part c.pack.loc.core ps bs) 0 bs.length

/-! ### Context images (R374) -/

/-- A lane's waiting entry: its resume PC, the set it waits on, and whether it waits. -/
def laneWait (p : Pack) (l : Nat) : List Byte :=
  let w := Lanes.get none p.waitSet l
  bytesLE 16 ((Lanes.get 0#64 p.resumePc l).toNat + w.getD 0 * 2 ^ 64 + bit w.isSome * 2 ^ 69)

/-- A set register in the layout of R46. -/
def RSet.bytes (r : RSet) : List Byte := bytesLE 32 (r.member.toNat + r.arrived.toNat * 2 ^ 64 + bit r.opened * 2 ^ 128)

/-- A pack's section. -/
def packSection (p : Pack) (t : Nat) : List Byte :=
  let paths := pathRecs p.paths t
  bytesLE 64
      (p.regCount + p.window * 2 ^ 8 + (p.setCount - 1) * 2 ^ 10 + p.loc.quarter * 2 ^ 15 + p.exited.toNat * 2 ^ 64 +
        paths.length * 2 ^ 128) ++
    ((List.range 7).flatMap fun k => bytesLE 8 (p.preds.getD k 0#64).toNat) ++ List.replicate 8 0#8 ++
    paths.flatMap PathRec.bytes ++
    ((List.range p.regCount).flatMap fun v => allLanes.flatMap fun l => bytesLE 4 (p.reg v l).toNat) ++
    (allLanes.flatMap fun l => bytesLE 4 (Lanes.get 0#32 p.sto l).toNat) ++
    ((List.range p.setCount).flatMap fun k => (p.rset k).bytes) ++
    allLanes.flatMap (laneWait p)

/-- A pack that has exited, with its herd's declarations (log 31). -/
def exitedPack (d : Desc) (part num : Nat) : Pack :=
  { Pack.admitted default none part num d.regs d.window d.rsets 0 0 with exited := Mask.full, paths := [] }

/-- The scratchpad section: S bytes, then a bit for each line, 1 for full. -/
def spadSection (h : Herd) : List Byte :=
  spadBytes h 0 h.spadSize ++
    (List.range (h.spadSize / 1024)).map fun k =>
      BitVec.ofNat 8 (((List.range 8).map fun j => if h.empty.contains (8 * k + j) then 0 else 2 ^ j).sum)

/-- The OPM section: the slots, then their holders. -/
def opmSection (h : Herd) : List Byte :=
  (h.opm.flatMap fun t => memRead 0#8 t.data 0 32768) ++
    h.opm.flatMap fun t => bytesLE 16 (match t.holder with
      | some p => p + 1
      | none => 0)

/-- The residency section: the private layout is the device's (log 13). -/
def resSection (n : Nat) : List Byte := bytesLE 8 (Config.residencyBytes n).length ++ Config.residencyBytes n

/-- Each section on its boundary, with the number of the byte at which it starts. -/
def placeSections : Nat → List (List Byte) → List (Nat × List Byte)
  | _, [] => []
  | at_, x :: xs => let y := padLine x; (at_, y) :: placeSections (at_ + y.length) xs

/-- The bytes of an image: its header, with the length and the digest, and its sections. -/
def imageBytes (h : Herd) (sections : List (List Byte)) : List Byte :=
  let body := (sections.map padLine).flatten
  let head (digest : Nat) : List Byte :=
    bytesLE 128
      (1 + h.packCount * 2 ^ 8 + bit h.residency.isSome * 2 ^ 16 + h.seq.toNat * 2 ^ 32 + h.index * 2 ^ 64 + h.spadSize * 2 ^ 128 +
        h.bars.length * 2 ^ 160 + h.opm.length * 2 ^ 166 + (128 + body.length) * 2 ^ 192 + digest * 2 ^ 256)
  head (numLE ((sha256 body).take 8)) ++ body

/-- The image's bytes that hold data of poisoned granules: offset and length (R429, log 32). -/
def imageBad (h : Herd) (packs : List Pack) (starts : List Nat) : List (Nat × Nat) :=
  let n := packs.length
  let spad := starts.getD n 0
  let opm := starts.getD (n + 2) 0
  ((List.range n).flatMap fun k =>
    match packs[k]? with
    | some p => p.bad.map fun b => (starts.getD k 0 + 128 + 32 * p.paths.length + 256 * b.1 + 4 * b.2, 4)
    | none => []) ++
  (h.bad.map fun g => (spad + 4 * g, 4)) ++
  (List.range h.opm.length).flatMap fun k => ((h.opm[k]?.map (·.bad)).getD []).map fun g => (opm + 32768 * k + 16 * g, 16)

/-- The physical byte at an offset of a block, as the caches know it. -/
def blockAt : List (Nat × Nat × Tlb) → Nat → Option Nat
  | [], _ => none
  | (pa, n, t) :: ps, off => if off < n then some (placed (pa + off) (t.kind == 1)) else blockAt ps (off - n)

/-- Granules of global memory poisoned by data written with its poison (R429). -/
def poisonBlock (s : State) (ps : List (Nat × Nat × Tlb)) (bad : List (Nat × Nat)) : State :=
  { s with poison := (s.poison ++ bad.flatMap fun (b : Nat × Nat) =>
      ((List.range ((b.2 + 7) / 8)).filterMap fun k => (blockAt ps (b.1 + 8 * k)).map (· / 8))).eraseDups }

/-! ### Saving a herd (R370) -/

/-- What `ctxsave.herd` requires: 2 or 3 where it fails (R370). -/
def saveStatus (s : State) (h : Herd) (me : PackLoc) : Nat :=
  if (herdPacks s (some h.id)).any (·.stop == .running) || herdCaused s h (some me) ||
      (herdRes s h.id).any (fun r => r.phase != .saved) then 2
  else if (getCore s h.core).copies.any fun y => y.herd == some h.id && y.suspended.isSome then 3
  else 0

/-- Every pack of a herd by number, those that have exited among them. -/
def allPacks (s : State) (h : Herd) : List Pack :=
  let d := ((launchOf s h).map (·.desc)).getD default
  (List.range h.packCount).map fun k => ((herdPacks s (some h.id)).find? (·.num == k)).getD (exitedPack d h.part k)

/-- The sections of a herd's image, in order. -/
def imageSections (s : State) (h : Herd) : List (List Byte) :=
  (allPacks s h).map (packSection · (now s)) ++ [spadSection h, h.bars.flatMap fun b => nextBytes b.next, opmSection h] ++
    (if h.residency.isSome then [resSection s.fresh] else [])

/-- The residency that an image being written holds is remembered under the image's number. -/
def rememberRes (s : State) (h : Herd) : State :=
  match h.residency.bind (findRes s) with
  | some r => { s with resImages := ⟨s.fresh, r, (((herdPacks s (some h.id)).find? (·.control == some r.id)).map (·.num)).getD 0⟩ :: s.resImages }
  | none => s

/-- The herd leaves its core; its packs are kept as its image names them. -/
def detach (s : State) (h : Herd) : State :=
  let mine := herdPacks s (some h.id)
  resizeL1 (modHerd { s with packs := s.packs.filter fun p => p.herd != some h.id } h.id fun h =>
    { h with place := .detached, saving := false, packs := mine.map fun p => { p with regs := [], bad := [], record := none } }) h.core

/-- `ctxsave.herd` (R370, R374): it waits for the herd's copies and stores, remote homes too (R136), writes the image, and the herd becomes
detached. -/
def execCtxsaveHerd (h : Head) (o : S) (s : State) : Host.Outcome State Fault Refusal :=
  let i : Instr := .ctxsaveHerd h o
  sysOp i h s fun c =>
    let w := (c.v o.b c.low).toNat
    match (if handleSrc w == 0 then handlePack s c.pack.loc.core w else none).bind fun p => p.herd.bind (findHerd s) with
    | none => ctxDone i c o true s 1 0
    | some g =>
      let status := saveStatus s g c.pack.loc
      if status != 0 then ctxDone i c o true s status 0
      else if (getCore s g.core).copies.any (·.herd == some g.id) then stallAt s
      else
        let d := drainHerds s [g]
        let away := askBack d.2 (d.2.scCopies.filter (·.die == dieOf g.core))
        let s := if d.1 then away.getD (writeBackCopies d.2 (dieOf g.core) false) else d.2
        if !d.1 || away.isSome || awaitsHome s 4 then stallAt s
        else
          let g := (findHerd s g.id).getD g
          let sections := imageSections s g
          let bs := imageBytes g sections
          let starts := (placeSections 128 sections).map (·.1)
          let bad := imageBad g (allPacks s g) starts
          blockOp c s (.write false) (c.q o.a c.low).toNat bs.length 128 fun ps s =>
            let s := poisonBlock (writeBlock s c.pack.part c.pack.loc.core ps bs) ps bad
            ctxDone i c o true (draw (detach (rememberRes s g) g)) 0 bs.length

/-! ### Loading an image (R371, R374) -/

/-- `n` bytes of a list at an offset, as a number. -/
def numAt (bs : List Byte) (off n : Nat) : Nat := numLE ((bs.drop off).take n)

/-- A flag in a byte list: bit `k` from an offset. -/
def flagAt (bs : List Byte) (off k : Nat) : Bool := numAt bs (off + k / 8) 1 / 2 ^ (k % 8) % 2 == 1

/-- The predicate that a barrier wait at a PC writes: its instruction names it; a word that cannot be read names none (log 33). -/
def waitPred (s : State) (part pc : Nat) : Nat :=
  match (findPart s part).bind fun p => frameOf s p pc with
  | none => 7
  | some f =>
    match decode (BitVec.ofNat 64 (readPhys8 s (f + pc % pageSize))) 0 with
    | .ok (.barsync _ o) => o.d.toNat
    | .ok (.barwait _ o) => o.d.toNat
    | .ok _ => 7
    | .error _ => 7

/-- A path from its entry: a wait for a line is met again by its instruction (R373, log 33); its wait began as long ago as its count says
(R378). -/
def pathAt (s : State) (part : Nat) (bs : List Byte) : Path :=
  let pc := numAt bs 0 8
  let n := numAt bs 16 8
  { pc := BitVec.ofNat 64 pc, mask := BitVec.ofNat 64 (numAt bs 8 8), wbase := numAt bs 24 8, wstart := now s - numAt bs 24 8
    wait := match n % 4 with
      | 1 => .set (n / 4 % 32)
      | 2 => .bar (n / 4 % 64) (n / 2 ^ 8 % 2 == 1) (waitPred s part pc)
      | _ => .run }

/-- A set register from its layout. -/
def rsetAt (bs : List Byte) : RSet := ⟨BitVec.ofNat 64 (numAt bs 0 8), BitVec.ofNat 64 (numAt bs 8 8), flagAt bs 16 0⟩

/-- Bytes in a pack's section with `n` paths. -/
def packLen (d : Desc) (n : Nat) : Nat := 128 + 32 * n + 256 * d.regs + 256 + 32 * d.rsets + 1024

/-- A pack from its section, if its declarations are the launch's.  DESIGN CHOICE, log 64: an image has neither slots nor a queue order, so
the paths take slots, and then places in the queue, in ascending order of their lowest lanes (R43). -/
def packOf (s : State) (h : Herd) (d : Desc) (num : Nat) (bs : List Byte) : Option Pack :=
  let n := numAt bs 16 1
  let regs := 128 + 32 * n
  let sto := regs + 256 * d.regs
  let sets := sto + 256
  let lanes := sets + 32 * d.rsets
  if numAt bs 0 1 != d.regs || numAt bs 1 1 % 4 != d.window || numAt bs 1 2 / 2 ^ 2 % 32 + 1 != d.rsets then none
  else
    let blank := Pack.admitted ⟨h.core, numAt bs 1 2 / 2 ^ 7 % 4, 0⟩ (some h.id) h.part num d.regs d.window d.rsets 0 0
    let waits (l : Nat) : Bool := flagAt bs (lanes + 16 * l) 69
    let p : Pack :=
      { blank with
        regs := (List.range d.regs).map fun v => Lanes.tab fun l => BitVec.ofNat 32 (numAt bs (regs + 256 * v + 4 * l) 4)
        preds := (List.range 7).map fun k => BitVec.ofNat 64 (numAt bs (64 + 8 * k) 8)
        sto := Lanes.tab fun l => BitVec.ofNat 32 (numAt bs (sto + 4 * l) 4)
        sets := (List.range 32).map fun k => if k < d.rsets then rsetAt (bs.drop (sets + 32 * k)) else RSet.free
        waitSet := Lanes.tab fun l => if waits l then some (numAt bs (lanes + 16 * l + 8) 1 % 32) else none
        resumePc := Lanes.tab fun l => BitVec.ofNat 64 (numAt bs (lanes + 16 * l) 8)
        exited := BitVec.ofNat 64 (numAt bs 8 8)
        paths := [] }
    some (p.addPaths ((List.range n).map fun k => pathAt s h.part (bs.drop (128 + 32 * k))))

/-- The packs of an image from its first section on: those that have not exited, and the offset after them. -/
def packsOf (s : State) (h : Herd) (d : Desc) (bs : List Byte) : Nat → Nat → Nat → Option (List Pack × Nat)
  | 0, _, off => some ([], off)
  | n + 1, num, off =>
    let len := packLen d (numAt bs (off + 16) 1)
    match packOf s h d num (bs.drop off) with
    | none => none
    | some p =>
      match packsOf s h d bs n (num + 1) (off + (len + 127) / 128 * 128) with
      | none => none
      | some (ps, e) => some (if p.exited == Mask.full then (ps, e) else (p :: ps, e))

/-- A barrier object from its bytes and its next count (R107, R374, R375). -/
def barrierAt (bs next : List Byte) : Barrier :=
  let n := numAt bs 0 16
  let bal := bitsOf n 55 32
  let m := numAt next 0 4
  ⟨flagAt bs 0 0, bitsOf n 11 1, bitsOf n 22 12, flagAt bs 0 23, if bal < 2 ^ 23 then bal else bal - 2 ^ 24, bitsOf n 95 64,
    if m / 2 ^ 11 % 2 == 1 then some (m % 2 ^ 11) else none, 0⟩

/-- The herd that an image restores, awaiting resumption, with the offset of its OPM section; `none` where its sections are not those of the
herd (log 34). -/
def herdOf (s : State) (h : Herd) (d : Desc) (bs : List Byte) : Option (Herd × Nat) :=
  let n := h.bars.length
  let m := h.opm.length
  if numAt bs 1 1 != h.packCount || numAt bs 16 4 != h.spadSize || numAt bs 20 1 % 64 != n ||
      numAt bs 20 2 / 2 ^ 6 % 32 != m then none
  else
    match packsOf s h d bs h.packCount 0 128 with
    | none => none
    | some (packs, spad) =>
      let next := spad + (h.spadSize + h.spadSize / 1024 + 127) / 128 * 128
      let opm := next + (4 * n + 127) / 128 * 128
      if bs.length < opm + (32784 * m + 127) / 128 * 128 then none
      else
        some (
          { h with
            place := .stored, packs, tags := [], bad := []
            spad := memWrite 0#8 [] (16 * n) ((bs.drop (spad + 16 * n)).take (h.spadSize - 16 * n))
            empty := (List.range (h.spadSize / lineSize)).filter fun k => !flagAt bs (spad + h.spadSize) k
            bars := (List.range n).map fun k => barrierAt (bs.drop (spad + 16 * k)) (bs.drop (next + 4 * k))
            opm := (List.range m).map fun k =>
              let holder := numAt bs (opm + 32768 * m + 16 * k) 1 % 32
              ⟨k, if holder == 0 then none else some (holder - 1), [], memWrite 0#8 [] 0 ((bs.drop (opm + 32768 * k)).take 32768), []⟩ }, opm)

/-- The offset at which the residency section of an image begins, after the OPM section. -/
def resStart (h : Herd) (opm : Nat) : Nat := opm + (32784 * h.opm.length + 127) / 128 * 128

/-- The residency that an image's section stands for, one that an image of the herd was written with (log 13). -/
def resOf (s : State) (h : Herd) (bs : List Byte) : Option ResImage :=
  (s.resImages.filter (·.res.herd == h.id)).find? fun x => (bs.take (resSection x.serial).length) == resSection x.serial

/-- The residency that a detached herd resumes with is the one its image holds, or none (R371, R374): the image may be an earlier one. -/
def withRes (s : State) (h : Herd) (x : Option ResImage) : State :=
  let id := x.map (·.res.id)
  let packs := h.packs.map fun (p : Pack) => { p with control := if (x.map (·.ctl)) == some p.num then id else none }
  { modHerd s h.id fun _ => { h with residency := id, packs } with
    residencies := (s.residencies.filter fun r => r.herd != h.id) ++ (x.map (·.res)).toList }

/-- An image's status and the machine after it (R371): the digest, then the detached herd it names, which resumes as the image has it. -/
def loadImage (s : State) (part : Nat) (bs : List Byte) : Nat × State :=
  if numAt bs 32 8 != numLE ((sha256 (bs.drop 128)).take 8) then (5, s)
  else
    match s.herds.find? fun h => h.part == part && h.place == .detached && h.seq.toNat == numAt bs 4 4 && h.index == numAt bs 8 6 with
    | none => (1, s)
    | some h =>
      match (launchOf s h).bind fun l => herdOf s h l.desc bs with
      | none => (5, s)
      | some (h', opm) =>
        let x := if flagAt bs 2 0 then resOf s h (bs.drop (resStart h opm)) else none
        if flagAt bs 2 0 && x.isNone then (5, s) else (0, settleLaunches (withRes s h' x) part)

/-- `ctxload` (R371). -/
def execCtxload (h : Head) (o : S) (s : State) : Host.Outcome State Fault Refusal :=
  let i : Instr := .ctxload h o
  sysOp i h s fun c =>
    let va := (c.q o.a c.low).toNat
    blockOp c s .read va 128 128 fun ps s =>
      let head := blockBytes s c.pack.loc.core ps
      let length := numAt head 24 8
      if numAt head 0 1 != 1 then ctxDone i c o false s 4 0
      else if length % 128 != 0 || length < 256 then ctxDone i c o false s 5 0
      else
        blockOp c s .read va length 128 fun ps s =>
          let r := loadImage s c.pack.part (blockBytes s c.pack.loc.core ps)
          ctxDone i c o false r.2 r.1 0

end Sys2Proof.Machine
end

