-- ==== Sys2Proof/Machine/Lanes.lean ====
section
/-!
DEFINITION. The cross-lane and row-statistics instructions, opcodes 0x40-0x46 (R89-R94, R228-R234).
-/

namespace Sys2Proof.Machine

/-! ### Shuffles and votes -/

/-- The segment width of `shfl` (R229). -/
def shflWidth (k : Nat) : Nat :=
  match k with
  | 0 => 64 | 1 => 2 | 2 => 4 | 3 => 8 | 4 => 16 | _ => 32

/-- The source lane of `shfl`, and whether it is valid, before the path's mask is looked at (R229). -/
def shflLane (mode wd l n : Nat) : Nat × Bool :=
  let q := l % wd
  let base := l - q
  match mode with
  | 0 => (base + n, n < wd)
  | 1 => (base + (q + n) % wd, n < wd)
  | 2 => (base + Nat.xor q n, n < wd)
  | _ => (base + wd - 1 - q, true)

/-- The source lane of `shfl` for a lane, and whether it takes part: the mask is the path's active mask, lane 0 alone for a control pack
during residency (R25, R228). -/
def shflSource (c : Ctx) (o : V) (l : Nat) : Nat × Bool :=
  let fn := o.fn.toNat
  let r := shflLane (fn % 4) (shflWidth (fn / 4 % 8)) l (c.v o.b l).toNat
  (r.1, r.2 && c.act.has r.1)

/-- The result of `shfl` (R229). -/
def shflPack (c : Ctx) (o : V) : Pack :=
  (c.pack.writeT (V.ty o) o.d c.exec fun l => c.tbits (V.ty o) o.a (if (shflSource c o l).2 then (shflSource c o l).1 else l)).writePred
    o.c.toNat c.exec fun l => (shflSource c o l).2

/-- The register error of a lane's source lane, which need not execute (R206, R228). -/
def shflFault (c : Ctx) (o : V) (l : Nat) : LaneFault :=
  if (shflSource c o l).2 then
    poisonFault c.pack (if V.ty o == 3 then [o.a.toNat, o.a.toNat + 1] else [o.a.toNat]) (shflSource c o l).1
  else none

/-- `shfl` (R229). -/
def execShfl (h : Head) (o : V) (s : State) : Host.Outcome State Fault Refusal :=
  run (.shfl h o) h s fun c =>
    match laneFaults (.shfl h o) c (shflFault c o) with
    | some r => .fault r s
    | none => .done (setPack s ((shflPack c o).retire (.shfl h o) c))

/-- `vote` (R230). -/
def execVote (h : Head) (o : V) (s : State) : Host.Outcome State Fault Refusal :=
  runPack (.vote h o) h s fun c =>
    let k := o.fn.toNat
    if k == 4 then
      let ballot : Quad := c.exec &&& Mask.ofPred (c.pack.pred o.a.toNat)
      c.pack.writePair o.d.toNat c.exec fun _ => ballot
    else c.pack.writePred o.d.toNat c.exec fun _ => voteOf k (c.exec.lanes.map (c.pack.pred o.a.toNat))

/-- `match` (R232). -/
def execLaneMatch (h : Head) (o : V) (s : State) : Host.Outcome State Fault Refusal :=
  runPack (.laneMatch h o) h s fun c =>
    let val (l : Nat) := c.tbits (V.ty o) o.a l
    if o.fn.toNat == 0 then
      c.pack.writePair o.d.toNat c.exec fun l => c.exec &&& Mask.ofPred fun m => val m == val l
    else
      let same := c.exec.lanes.all fun l => val l == val c.low
      (c.pack.writePair o.d.toNat c.exec fun _ => if same then c.exec else 0#64).writePred o.c.toNat c.exec fun _ => same

/-! ### Reductions and scans (R89, R90, R231) -/

/-- One application of a reduction's operation on bit patterns of a type (R231). -/
def redOp (o : V) (a b : Nat) : Nat :=
  let t := V.ty o
  if isFlt t then
    match o.fn.toNat % 8 with
    | 0 => V.round o ((fv (fmtOf t) a).add (V.dn o) (fv (fmtOf t) b))
    | 1 => fminmax (fmtOf t) false false a b
    | _ => fminmax (fmtOf t) true false a b
  else
    match o.fn.toNat % 8 with
    | 0 => tyPut (tyVal t a + tyVal t b) t (V.sat o)
    | 1 => tyPut (min (tyVal t a) (tyVal t b)) t false
    | 2 => tyPut (max (tyVal t a) (tyVal t b)) t false
    | 3 => Nat.land a b
    | 4 => Nat.lor a b
    | _ => Nat.xor a b

/-- The identity of an exclusive scan (R231). -/
def redIdentity (o : V) : Nat :=
  let t := V.ty o
  let w := tyW t
  if isFlt t then
    let f := fmtOf t
    match o.fn.toNat % 8 with
    | 0 => 0
    | 1 => f.inf
    | _ => f.signed true f.inf
  else
    match o.fn.toNat % 8 with
    | 1 => if tySigned t then 2 ^ (w - 1) - 1 else 2 ^ w - 1
    | 2 => if tySigned t then 2 ^ (w - 1) else 0
    | 3 => 2 ^ w - 1
    | _ => 0

/-- The bits of element `e` of a reduction's operand in lane `l`. -/
def redElem (c : Ctx) (o : V) (e l : Nat) : Nat :=
  if isFlt (V.ty o) then elOf (V.ty o) e (c.v o.a l) else c.tbits (V.ty o) o.a l

/-- The reduction over the executing lanes that satisfy `keep`, of element `e` (R89, R90). -/
def redTree (c : Ctx) (o : V) (e : Nat) (keep : Nat → Bool) : Option Nat :=
  treeReduce (redOp o) (allLanes.map fun l => if c.exec.has l && keep l then some (redElem c o e l) else none)

/-- A reduction's result written to lane after lane; without `.x2` a 16-bit result has d[31:16] = 0 (R231). -/
def writeRed (c : Ctx) (o : V) (f : Nat → Nat → Nat) : Pack :=
  if isFlt (V.ty o) then
    c.pack.writeReg o.d.toNat c.exec fun l => packEls (V.ty o) (o.fn.toNat / 8 % 2 == 1) fun e => f e l
  else c.pack.writeT (V.ty o) o.d c.exec fun l => f 0 l

/-- `redl` (R231). -/
def execRedl (h : Head) (o : V) (s : State) : Host.Outcome State Fault Refusal :=
  runPack (.redl h o) h s fun c =>
    let r0 := (redTree c o 0 fun _ => true).getD 0
    let r1 := (redTree c o 1 fun _ => true).getD 0
    writeRed c o fun e _ => if e == 0 then r0 else r1

/-- `scanl` (R231): fn[4] is `.excl`. -/
def execScanl (h : Head) (o : V) (s : State) : Host.Outcome State Fault Refusal :=
  runPack (.scanl h o) h s fun c =>
    let excl := o.fn.toNat / 16 % 2 == 1
    writeRed c o fun e l => (redTree c o e fun m => if excl then m < l else m ≤ l).getD (redIdentity o)

/-! ### Row statistics (R233, R234) -/

/-- A partial in a register field of lane `l`: a quad, or a pair under `.rms`. -/
def readPartial (c : Ctx) (rms : Bool) (r : Reg) (l : Nat) : Partial :=
  let w := c.words r (if rms then 2 else 4) l
  ⟨(w.getD 0 0).toNat, (w.getD 1 0).toNat, if rms then 0 else (w.getD 2 0).toNat⟩

/-- A partial written: the fourth register of a quad is 0 (R233). -/
def writePartial (p : Pack) (rms : Bool) (r : Reg) (m : Mask) (f : Nat → Partial) : Pack :=
  if rms then p.writePair r.toNat m fun l => BitVec.ofNat 32 (f l).mean ++ BitVec.ofNat 32 (f l).n
  else p.writeQuad r.toNat m fun l => [BitVec.ofNat 32 (f l).n, BitVec.ofNat 32 (f l).mean, BitVec.ofNat 32 (f l).m2, 0]

/-- `rstat` (R233). -/
def execRstat (h : Head) (o : V) (s : State) : Host.Outcome State Fault Refusal :=
  runPack (.rstat h o) h s fun c =>
    let fn := o.fn.toNat
    let rms := fn % 2 == 1
    let acc := fn / 2 % 2 == 1
    let mode := fn / 4 % 4
    let merge := if rms then rmsMerge else welfordMerge
    let add := if rms then rmsAdd else welfordAdd
    -- the value in a lane, exactly as FP32
    let val (l : Nat) : Nat := if V.ty o == 8 then (c.v o.a l).toNat else rne32 (c.fval (V.ty o) o.a 0 l)
    let single (l : Nat) : Partial := if rms then ⟨1, rne32 ((v32 (val l)).mul (v32 (val l))), 0⟩ else ⟨1, val l, 0⟩
    let leaf (l : Nat) : Partial := if mode == 2 then readPartial c rms o.a l else single l
    let tree := (treeReduce merge (allLanes.map fun l => if c.exec.has l then some (leaf l) else none)).getD ⟨0, 0, 0⟩
    writePartial c.pack rms o.d c.exec fun l =>
      if mode == 1 then (if acc then add (readPartial c rms o.c l) (val l) else single l)
      else (if acc then merge (readPartial c rms o.c l) tree else tree)

/-- `rstatf` (R234). -/
def execRstatf (h : Head) (o : V) (s : State) : Host.Outcome State Fault Refusal :=
  runPack (.rstatf h o) h s fun c =>
    let rms := o.fn.toNat == 1
    if rms then
      c.pack.writePair o.d.toNat c.exec fun l =>
        let r := rmsFinal (readPartial c true o.a l) (c.v o.b l).toNat
        BitVec.ofNat 32 r.2 ++ BitVec.ofNat 32 r.1
    else
      c.pack.writeQuad o.d.toNat c.exec fun l =>
        let r := rstatFinal (readPartial c false o.a l) (c.v o.b l).toNat
        [BitVec.ofNat 32 r.1, BitVec.ofNat 32 r.2.1, BitVec.ofNat 32 r.2.2, 0]

end Sys2Proof.Machine
end

