-- ==== Sys2Proof/Machine/Shootdown.lean ====
section
/-!
DEFINITION. Shootdown, adoption and the promotion engine: opcodes 0xE3 and 0xE4 (R395-R398, R405, R406), and the events PAGE_WALK, WALK_RETRY,
RELATCH_TOKEN and PROMOTION_REQUEST (R387, R392, R397, R399, R400).
-/

namespace Sys2Proof.Machine

/-! ### Covered pages (R395, R396) -/

/-- Two runs of virtual pages overlap; a range of no page covers nothing (R395). -/
def overlaps (v n v' n' : Nat) : Bool := n != 0 && v < v' + n' && v' < v + n

/-- A translation of the partition overlaps the covered range. -/
def Tlb.hit (part v n : Nat) (t : Tlb) : Bool := t.part == part && overlaps v n t.vpn t.pages

/-- A cached non-leaf entry of the partition overlaps the covered range. -/
def WalkEntry.hit (part v n : Nat) (e : WalkEntry) : Bool :=
  let span := if e.level == 2 then 2 ^ 26 else 8192
  e.part == part && overlaps v n (e.index * span) span

/-- A held walk has read an entry on the path of a covered page: they share the level-2 entry. -/
def HeldWalk.hit (part v n : Nat) (h : HeldWalk) : Bool := h.part == part && overlaps v n (h.vpn / 2 ^ 26 * 2 ^ 26) (2 ^ 26)

/-- A queued store translated a covered page for a pack of the partition. -/
def StoreEntry.hit (part v n : Nat) (e : StoreEntry) : Bool :=
  (e.vpn.map fun k => v ≤ k && k < v + n).getD false && e.part == part

/-- Step 4 of R396 on the cores of a list. -/
def drainCovered (part v n : Nat) : List Nat → State → Bool × State
  | [], s => (true, s)
  | core :: cores, s =>
    let r := drainWhere s core (StoreEntry.hit part v n)
    if r.1 then drainCovered part v n cores r.2 else r

/-- Steps 2 and 3 of R396: translations, walk caches and held walks, and the L1 instruction lines of the partition's cores, all of them
(log 40); what its lanes may still see of the old frames goes too. -/
def removeCovered (s : State) (p : Partition) (v n : Nat) : State :=
  { s with
    cores := s.cores.map fun c =>
      if p.ownsCore c.id then
        { c with tlb := c.tlb.filter fun t => !t.hit p.id v n, l1 := c.l1.filter fun l => !l.instr, early := [] }
      else c
    dies := s.dies.map fun d =>
      { d with
        tlb := d.tlb.filter fun t => !t.hit p.id v n
        walkCache := d.walkCache.filter fun e => !e.hit p.id v n
        held := d.held.filter fun h => !h.hit p.id v n } }

/-- Step 5: a re-latch token for every port whose range entries overlap the covered range. -/
def sendTokens (s : State) (part v n : Nat) : State :=
  let hit (p : Port) : Bool := p.ranges.any (Tlb.hit part v n)
  let events := (s.residencies.filter fun r => r.part == part && r.phase != .saved).flatMap fun r =>
    (r.ports.filter hit).map fun p => Turn.event (.relatchToken r.id p.num)
  { s with
    agenda := s.agenda ++ events
    residencies := updWhere (fun r => r.part == part && r.phase != .saved)
      (fun r => { r with ports := r.ports.map fun p => if hit p then { p with relatch := p.relatch ++ [(v, n)] } else p }) s.residencies }

/-- Some token of a partition has not emerged. -/
def tokensOut (s : State) (part : Nat) : Bool :=
  s.residencies.any fun r => r.part == part && r.ports.any fun (p : Port) => !p.relatch.isEmpty

/-- A translation maps one of the `n` virtual pages from `v` to a local page. -/
def Tlb.mapsIn (v n page : Nat) (t : Tlb) : Bool :=
  let k := t.vpn + (page - t.pa / pageSize)
  t.kind == 0 && t.pa / pageSize ≤ page && page < t.pa / pageSize + t.pages && v ≤ k && k < v + n

/-- Every translation that a partition's caches and ports hold (R391). -/
def cachedTlbs (s : State) (part : Nat) : List Tlb :=
  ((s.cores.flatMap (·.tlb)) ++ (s.dies.flatMap (·.tlb)) ++ s.residencies.flatMap fun r => r.ports.flatMap (·.ranges)).filter (·.part == part)

/-- The covered coherence pages that are granted outside: those that a translation of the covered range, cached or in the tables, maps (R396,
log 40). -/
def grantedPages (s : State) (p : Partition) (v n : Nat) : List Nat :=
  (s.pages.map (·.page)).filter fun g => (cachedTlbs s p.id).any (Tlb.mapsIn v n g) || partLeaf s p (Tlb.mapsIn v n g)

/-- Steps 2 to 5; `none` where a store of step 4 still waits for its page. -/
def beginShoot (s : State) (p : Partition) (v n : Nat) (sys : Bool) : Option Shoot × State :=
  let d := drainCovered p.id v n p.cores s
  if d.1 then (some ⟨true, if sys then grantedPages d.2 p v n else []⟩, sendTokens (removeCovered d.2 p v n) p.id v n) else (none, d.2)

/-- Step 6: pages still held outside are revoked or recalled. -/
def recallPages (s : State) (pages : List Nat) : State :=
  pages.foldl (fun s g =>
    if s.handOvers.any (·.page == g) || !s.pages.any (·.page == g) then s else revokePage s g (fun _ => false) none true) s

/-- A page of the list is held outside, or its hand-over is in progress. -/
def pagesAway (s : State) (pages : List Nat) : Bool := pages.any fun g => s.handOvers.any (·.page == g) || s.pages.any (·.page == g)

/-- How far a shootdown gets now: at its completion point, or what it still waits for. -/
def pollShoot (s : State) (part : Nat) (sh : Shoot) : Option Shoot × State :=
  if sh.tokens && tokensOut s part then (some sh, s)
  else if pagesAway s sh.pages then (some ⟨false, sh.pages⟩, recallPages s sh.pages)
  else (none, s)

/-! ### `tlbinv` (R395, R396) -/

/-- The address checks of `tlbinv` (R395). -/
def coverFault (va n : Nat) : LaneFault :=
  let last := va + (n - 1) * pageSize
  if va % pageSize != 0 then some (7, BitVec.ofNat 64 va)
  else if !canonical va then some (8, BitVec.ofNat 64 va)
  else if n != 0 && (2 ^ 64 ≤ last || !canonical last) then some (8, BitVec.ofNat 64 last)
  else none

/-- The path stays at its `tlbinv`, ahead of the pack's other paths, until the shootdown is over. -/
def stayShoot (s : State) (c : Ctx) (sh : Shoot) : Effect :=
  let p := (findPack s c.pack.loc).getD c.pack
  .done (setPack s ({ p with shoot := some sh }.modPath c.idx fun q => { q with held := true }))

/-- A `tlbinv` of a covered range: `n` pages from an address, or every page (R396). -/
def tlbinvOp (i : Instr) (h : Head) (o : S) (s : State) (all : Bool) (range : Ctx → Nat × Nat) : Host.Outcome State Fault Refusal :=
  sysOp i h s fun c =>
    let sys := o.mod.toNat / 4 % 2 == 1
    let r := range c
    match (if all then none else coverFault r.1 r.2), findPart s c.pack.part with
    | some f, _ => .fault ⟨f.1, c.exec, f.2⟩ s
    | none, none => .done (setPack s (c.pack.retire i c))
    | none, some p =>
      -- its completion is observed by the issuing lane, which acquires (R137)
      let finish (s : State) : Effect :=
        let s := dropEarly (l1Acquire s c.pack.loc.core) c.pack.loc.core fun e => e.loc == c.pack.loc && e.lane == c.low
        .done (setPack s ({ (findPack s c.pack.loc).getD c.pack with shoot := none }.retire i c))
      let poll (s : State) (sh : Shoot) : Effect :=
        match pollShoot s p.id sh with
        | (none, s') => finish s'
        | (some sh', s') => stayShoot s' c sh'
      match c.pack.shoot with
      | some sh => poll s sh
      | none =>
        let d := drain s c.pack.loc (1#64 <<< c.low)
        if !d.1 || (sys && awaitsHome d.2 4) then stallAt d.2
        else
          match beginShoot d.2 p (if all then 0 else vpnOf r.1) (if all then 2 ^ 39 else r.2) sys with
          | (none, s') => stallAt s'
          | (some sh, s') => poll s' sh

/-- `tlbinv.page`. -/
def execTlbinvPage (h : Head) (o : S) (s : State) : Host.Outcome State Fault Refusal :=
  tlbinvOp (.tlbinvPage h o) h o s false fun c => ((c.q o.a c.low).toNat, 1)

/-- `tlbinv.range`. -/
def execTlbinvRange (h : Head) (o : S) (s : State) : Host.Outcome State Fault Refusal :=
  tlbinvOp (.tlbinvRange h o) h o s false fun c => ((c.q o.a c.low).toNat, (c.v o.b c.low).toNat)

/-- `tlbinv.all`. -/
def execTlbinvAll (h : Head) (o : S) (s : State) : Host.Outcome State Fault Refusal :=
  tlbinvOp (.tlbinvAll h o) h o s true fun _ => (0, 0)

/-- `RELATCH_TOKEN` (R397): the token passes the port, whose accesses ahead of it have performed; the range entries that overlap go. -/
def execRelatchToken (res port : Nat) (s : State) : Host.Outcome State Fault Refusal :=
  match (findRes s res).bind fun r => (r.port? port).map fun p => (r, p) with
  | none => .next s
  | some (r, p) =>
    match p.relatch with
    | [] => .next s
    | t :: ts =>
      .next (modRes s res fun x => x.modPort port fun p =>
        { p with
          ranges := p.ranges.filter fun e => !e.hit r.part t.1 t.2
          dropped := p.dropped ++ (p.ranges.filter (Tlb.hit r.part t.1 t.2)).map fun e => (e.vpn, e.pages)
          relatch := ts })

/-! ### Walks (R387, R392) -/

/-- `PAGE_WALK` (R387, R391): a Retriever of the partition walks a page. -/
def execPageWalk (die part : Nat) (va : Quad) (s : State) : Host.Outcome State Fault Refusal :=
  match partOfDie s die with
  | none => .next s
  | some p => if p.id == part && !p.stopped && canonical va.toNat then .next (retrieve s die p va.toNat).2 else .next s

/-- `WALK_RETRY` (R392): a held walk reads its entry again. -/
def execWalkRetry (die idx : Nat) (s : State) : Host.Outcome State Fault Refusal :=
  match (getDie s die).held[idx]? with
  | none => .next s
  | some h =>
    match findPart s h.part with
    | none => .next s
    | some p => .next (retrieve (modDie s die fun d => { d with held := d.held.eraseIdx idx }) die p h.va.toNat).2

/-! ### Adoption (R405) -/

/-- A number put in its place. -/
def insertNat (n : Nat) : List Nat → List Nat
  | [] => [n]
  | m :: ms => if n ≤ m then n :: m :: ms else m :: insertNat n ms

/-- Numbers in ascending order. -/
def sortNat : List Nat → List Nat
  | [] => []
  | n :: ns => insertNat n (sortNat ns)

/-- The offsets of a copy's dirty bytes. -/
def ScCopy.dirty (c : ScCopy) : List Nat := (c.cells.filter (·.2.2)).map (·.1)

/-- The dies whose dirty bytes of a line overlap those of another. -/
def conflictMask (cs : List ScCopy) : Nat :=
  ((cs.filter fun c => cs.any fun x => x.die != c.die && c.dirty.any x.dirty.contains).map fun c => 2 ^ c.die).sum

/-- One line adopted: the copies in ascending die order, and the conflict record; whether there was one. -/
def adoptLine (part : Nat) (r : Bool × State) (line : Nat) : Bool × State :=
  let cs := r.2.scCopies.filter (·.line == line)
  let mask := conflictMask cs
  let s := (sortNat (cs.map (·.die))).foldl (fun s d => scWriteBack s line d true) r.2
  if mask == 0 then (r.1, s) else (true, logEvent s 6 part 8 0 (BitVec.ofNat 64 (line * lineSize)) (BitVec.ofNat 64 mask))

/-- Frames adopted, line by line in ascending address. -/
def adopt (s : State) (part pa count : Nat) : Bool × State :=
  let lo := pa / lineSize
  let lines := sortNat ((s.scCopies.map (·.line)).filter fun l => lo ≤ l && l < lo + 512 * count).eraseDups
  lines.foldl (adoptLine part) (false, s)

/-! ### `l2op` (R406) -/

/-- The status of an `l2op` in every lane of E. -/
def l2Done (i : Instr) (c : Ctx) (o : S) (s : State) (status : Nat) : Effect :=
  let p := (findPack s c.pack.loc).getD c.pack
  .done (setPack s ((p.writeReg o.d.toNat c.exec fun _ => BitVec.ofNat 32 status).retire i c))

/-- A promotion request as read (R399). -/
def promotionOf (addr level n : Nat) : Promotion :=
  { addr := BitVec.ofNat 64 addr, level, op := bitsOf n 1 0, nm := bitsOf n 6 2 + 1, sys := bitsOf n 7 7 == 1
    va := BitVec.ofNat 64 (bitsOf n 127 64), pa := BitVec.ofNat 64 (bitsOf n 191 128), gate := BitVec.ofNat 64 (bitsOf n 255 192)
    rsvOk := bitsOf n 63 8 == 0 && bitsOf n 511 288 == 0, entries := [], top := 0, shoot := none, moved := false }

/-- `l2op.prom`. -/
def execL2opProm (h : Head) (o : S) (s : State) : Host.Outcome State Fault Refusal :=
  let i : Instr := .l2opProm h o
  sysOp i h s fun c =>
    let va := (c.q o.a c.low).toNat
    blockOp c s .read va 64 64 fun ps s =>
      if 16 ≤ ((findPart s c.pack.part).map (·.promotions.length)).getD 16 then l2Done i c o s 1
      else
        let q := promotionOf va c.pack.level (numLE (blockBytes s c.pack.loc.core ps))
        l2Done i c o (push (modPart s c.pack.part fun p => { p with promotions := p.promotions ++ [q] }) (.event (.promotionRequest c.pack.part))) 0

/-- `l2op.adopt`. -/
def execL2opAdopt (h : Head) (o : S) (s : State) : Host.Outcome State Fault Refusal :=
  let i : Instr := .l2opAdopt h o
  sysOp i h s fun c =>
    let pa := (c.q o.a c.low).toNat
    let n := (c.v o.b c.low).toNat
    let inside := match findPart s c.pack.part with
      | some p => (List.range n).all fun k => insideWindows p (pa + k * pageSize) pageSize
      | none => false
    if pa % pageSize != 0 || n == 0 || 65536 < n || !inside then l2Done i c o s 2
    else
      match askBack s (s.scCopies.filter fun x => pa / lineSize ≤ x.line && x.line < pa / lineSize + 512 * n) with
      | some s' => stallAt s'
      | none =>
        let r := adopt s c.pack.part pa n
        l2Done i c o r.2 (if r.1 then 3 else 0)

/-! ### The promotion engine (R399, R400) -/

/-- Pages that a request covers. -/
def Promotion.pages (q : Promotion) : Nat :=
  match q.op with
  | 0 => q.nm
  | 1 => midPages
  | _ => bigPages

/-- The alignment of `va` and `pa`. -/
def Promotion.unit (q : Promotion) : Nat :=
  match q.op with
  | 0 => pageSize
  | 1 => midPages * pageSize
  | _ => bigPages * pageSize

/-- The level-1 entry above a page: its address. -/
def topEntry (s : State) (p : Partition) (vpn : Nat) : Option Nat :=
  if p.ptroot.toNat % 2 == 0 then none
  else
    match walkUpper s p 2 (bitsOf p.ptroot.toNat 51 16 * pageSize) (vpn / 2 ^ 26) vpn with
    | .ok t1 => some (t1 + 8 * (vpn / 8192 % 8192))
    | .error _ => none

/-- The table pages that the judging of a request reads: they are at the L2 or are asked for first (R392, R407). -/
def tablePages (s : State) (p : Partition) (q : Promotion) : List Nat :=
  let v := vpnOf q.va.toNat
  let t2 := bitsOf p.ptroot.toNat 51 16 * pageSize
  t2 :: [v, v + (q.pages - 1)].flatMap fun v =>
    let w2 := readPhys8 s (t2 + 8 * (v / 2 ^ 26))
    let w1 := readPhys8 s (pteAddr w2 + 8 * (v / 8192 % 8192))
    (if pteV w2 then [pteAddr w2] else []) ++ if pteV w2 && pteV w1 && !pteL w1 then [pteAddr w1] else []

/-- The valid level-0 leaf of a page: its address and its word. -/
def leafEntry (s : State) (p : Partition) (vpn : Nat) : Option (Nat × Nat) :=
  match topEntry s p vpn with
  | none => none
  | some a =>
    let w := readPhys8 s a
    if !pteV w || pteBad 1 w || pteL w then none
    else
      let e := pteAddr w + 8 * (vpn % 8192)
      let x := readPhys8 s e
      if pteV x && !pteBad 0 x then some (e, x) else none

/-- A word's fields but addr and C. -/
def sharedFields (w : Nat) : Nat := w - bitsOf w 51 16 * 2 ^ 16 - bitsOf w 6 6 * 2 ^ 6

/-- The source entries, if they are fit (R399). -/
def sourceEntries (s : State) (p : Partition) (q : Promotion) : Option (List (Nat × Nat)) :=
  let v := vpnOf q.va.toNat
  let es := (List.range q.pages).map fun k => leafEntry s p (v + k)
  let ws := es.filterMap id
  if !canonical q.va.toNat || q.va.toNat % q.unit != 0 || 2 ^ 39 < v + q.pages then none
  else if ws.length != q.pages || ws.any (fun e => pteM e.2) then none
  else if q.op != 0 && ws.any (fun e => sharedFields e.2 != sharedFields ((ws.head?.map (·.2)).getD 0)) then none
  else some ws

/-- The target is fit (R399): aligned, inside the windows, and the moved pages are local memory that stays within HBM or within the cave
(log 41). -/
def targetFit (p : Partition) (q : Promotion) (ws : List (Nat × Nat)) : Bool :=
  let pa := q.pa.toNat
  let last := pa + q.pages * pageSize - 1
  pa % q.unit == 0 && (List.range q.pages).all (fun k => insideWindows p (pa + k * pageSize) pageSize) &&
    ((Config.isHbm pa && Config.isHbm last) || (Config.isCave pa && Config.isCave last)) && ws.all fun e => pteKind e.2 == 0

/-- The status that a request meets before it begins: its source entries where it is fit. -/
def judge (s : State) (p : Partition) (q : Promotion) : Except Nat (List (Nat × Nat)) :=
  if !q.rsvOk || q.op == 3 || q.gate.toNat % 8 != 0 then .error 3
  else
    match sourceEntries s p q with
    | none => .error 1
    | some ws => if targetFit p q ws then .ok ws else .error 2

/-- The engine's own access to its request and gate, with the rights of the software that gave the request: a page, a failure or a wait. -/
def engineAccess (s : State) (p : Partition) (level : Nat) (acc : Acc) (va n : Nat) : Trans × Nat × State :=
  if level == 2 then
    let t := identityTlb p.id
    if !installedFrame va n then (.fault, 0, s)
    else if pageReady s t va acc.writes then (.ok t, va, usePage s t va)
    else (.stall, 0, requestPage s t va acc.writes)
  else if !canonical va then (.fault, 0, s)
  else
    match portTranslate s p.die0 p [] va with
    | (.fault, s') => (.fault, 0, s')
    | (.stall, s') => (.stall, 0, s')
    | (.ok t, s') =>
      if !permitted s' t false acc va then (.fault, 0, s')
      else if pageReady s' t (t.phys va) acc.writes then (.ok t, t.phys va, usePage s' t (t.phys va))
      else (.stall, 0, requestPage s' t (t.phys va) acc.writes)

/-- The request at the head is finished: its status and, where it was done, its gate; an access that fails is not made (log 42). -/
def finishPromotion (s : State) (p : Partition) (q : Promotion) (status : Nat) : State :=
  let a := engineAccess s p q.level (.write false) (q.addr.toNat + 32) 4
  let g := if status == 0 && q.gate != 0 then engineAccess a.2.2 p q.level .rmw q.gate.toNat 8 else (.fault, 0, a.2.2)
  if a.1 == .stall || g.1 == .stall then g.2.2
  else
    let s := match a.1 with
      | .ok t => homeWrite g.2.2 p.id 0 8 t a.2.1 (bytesLE 4 status)
      | .fault | .stall => g.2.2
    let s := match g.1 with
      | .ok t =>
        let s := homeWrite s p.id 0 8 t g.2.1 (bytesLE 8 ((numLE (homeBytes s t g.2.1 8) + 1) % 2 ^ 64))
        pushGate (addHeads s [⟨placed g.2.1 (t.kind == 1), 8, s.tick, 3, ⟨42 * p.die0, 0, 0⟩, none⟩]) q.gate
      | .fault | .stall => s
    let s := modPart s p.id fun p => { p with promotions := p.promotions.drop 1 }
    if 1 < p.promotions.length then push s (.event (.promotionRequest p.id)) else s

/-- An entry written at its home slice. -/
def writeEntry (s : State) (part e w : Nat) : State := homeWrite s part 0 8 (identityTlb part) e (bytesLE 8 w)

/-- A frame's contents moved to another (R138), which writes the constant banks there (R112): dirty bytes of untracked copies reach the old
frame first, poison goes with the data, and nothing old of the new frame stays in a cache. -/
def copyFrame (s : State) (src dst : Nat) : State :=
  let a := src / pageSize
  let b := dst / pageSize
  let s := (s.scCopies.filter fun c => c.line / 512 == a).foldl (fun s c => scWriteBack s c.line c.die false) s
  let old := (s.poison.filter fun g => g / 8192 == a).map fun g => g - a * 8192 + b * 8192
  let s := markBanks s false (b * pageSize) pageSize
  { s with
    mem := memWrite Config.blankByte s.mem (b * pageSize) (memRead Config.blankByte s.mem (a * pageSize) pageSize)
    poison := (s.poison.filter fun g => g / 8192 != b) ++ old
    heads := s.heads.filter fun h => h.addr / pageSize != b
    near := s.near.filter fun n => n.line / 512 != b
    scCopies := s.scCopies.filter fun c => c.line / 512 != b
    cores := s.cores.map fun c => { c with l1 := c.l1.filter fun l => l.line / 512 != b, early := [] } }

/-- The new entries of step 4 (R400). -/
def newEntries (s : State) (part : Nat) (q : Promotion) : State :=
  let word (w k : Nat) (c : Bool) : Nat :=
    sharedFields w + (q.pa.toNat / pageSize + k) * 2 ^ 16 + (if c then 2 ^ 6 else 0)
  match q.op with
  | 2 =>
    match q.entries with
    | e :: _ => writeEntry s part q.top (word e.2 0 false)
    | [] => s
  | op =>
    (List.range q.entries.length).foldl (fun s k =>
      match q.entries[k]? with
      | some e => writeEntry s part e.1 (word e.2 k (op == 1 || pteC e.2))
      | none => s) s

/-- The pages that the copy reads and writes, and those of the entries written, of which none may be held outside. -/
def Promotion.copyPages (q : Promotion) : List (Nat × Bool) :=
  (q.entries.map fun e => (pteAddr e.2, false)) ++ ((List.range q.pages).map fun k => (q.pa.toNat + k * pageSize, true)) ++
    if q.op == 2 then [(q.top, true)] else q.entries.map fun e => (e.1, true)

/-- A page of a list is held outside: the machine that asks for it. -/
def askPages (s : State) (ps : List (Nat × Bool)) : Option State :=
  (ps.find? fun x => !pageReady s (identityTlb 0) x.1 x.2).map fun x => requestPage s (identityTlb 0) x.1 x.2

/-- The non-leaf entry of the level-1 table that op 2 replaces leaves the walk caches, so that held walks go on at the new leaf (R400). -/
def dropTop (s : State) (part : Nat) (q : Promotion) : State :=
  if q.op != 2 then s
  else
    let i := vpnOf q.va.toNat / 8192
    { s with dies := s.dies.map fun d =>
        { d with walkCache := d.walkCache.filter fun e => !(e.part == part && e.level == 1 && e.index == i) } }

/-- The request at the head replaced. -/
def putPromotion (s : State) (part : Nat) (q : Promotion) : State := modPart s part fun p => { p with promotions := q :: p.promotions.drop 1 }

/-- Steps 3 to 5 (R400). -/
def completePromotion (s : State) (p : Partition) (q : Promotion) : State :=
  let sources := s.scCopies.filter fun c => q.entries.any fun e => c.line / 512 == pteAddr e.2 / pageSize
  match (askPages s q.copyPages).or (askBack s sources) with
  | some s' => s'
  | none =>
    let s := (List.range q.entries.length).foldl (fun s k =>
      match q.entries[k]? with
      | some e => copyFrame s (pteAddr e.2) (q.pa.toNat + k * pageSize)
      | none => s) s
    finishPromotion (putPromotion (dropTop (newEntries s p.id q) p.id q) p.id { q with moved := true }) p q 0

/-- Steps 1 and 2 (R400): M = 1 in every source entry, and the shootdown of the covered range begins. -/
def beginPromotion (s : State) (p : Partition) (q : Promotion) (ws : List (Nat × Nat)) : State :=
  let v := vpnOf q.va.toNat
  let d := drainCovered p.id v q.pages p.cores s
  match if d.1 then askPages d.2 (ws.map fun e => (e.1, true)) else some d.2 with
  | some s' => s'
  | none =>
    let s := ws.foldl (fun s e => writeEntry s p.id e.1 (e.2 + 2 ^ 14)) d.2
    match beginShoot s p v q.pages q.sys with
    | (none, s') => s'
    | (some sh, s') =>
      push (putPromotion s' p.id { q with shoot := some sh, entries := ws, top := (topEntry s p v).getD 0 }) (.event (.promotionRequest p.id))

/-- `PROMOTION_REQUEST` (R399, R400): the engine goes on with the request at the head of its queue; after step 4 only step 5 is left. -/
def execPromotionRequest (part : Nat) (s : State) : Host.Outcome State Fault Refusal :=
  match findPart s part with
  | none => .next s
  | some p =>
    match p.promotions with
    | [] => .next s
    | q :: _ =>
      if p.stopped then .next s
      else if q.moved then .next (finishPromotion s p q 0)
      else
        match q.shoot with
        | none =>
          match (tablePages s p q).find? fun t => !tableReady s t with
          | some t => .next (requestPage s (identityTlb part) t false)
          | none =>
            match judge s p q with
            | .error status => .next (finishPromotion s p q status)
            | .ok ws => .next (beginPromotion s p q ws)
        | some sh =>
          match pollShoot s part sh with
          | (some sh', s') => .next (putPromotion s' part { q with shoot := some sh' })
          | (none, s') => .next (completePromotion s' p q)

end Sys2Proof.Machine
end

