-- ==== Sys2Proof/Machine/Dispatch.lean ====
section
/-!
DEFINITION. `exec`: one arm for each row of the opcode table.
-/

namespace Sys2Proof.Machine

/-- What an instruction or an event does to the machine. -/
def exec (i : Instr) (s : State) : Host.Outcome State Fault Refusal :=
  match i with
  | .iadd h o => Sys2Proof.Machine.execIadd h o s
  | .isub h o => Sys2Proof.Machine.execIsub h o s
  | .imul h o => Sys2Proof.Machine.execImul h o s
  | .imad h o => Sys2Proof.Machine.execImad h o s
  | .imulw h o => Sys2Proof.Machine.execImulw h o s
  | .imin h o => Sys2Proof.Machine.execImin h o s
  | .imax h o => Sys2Proof.Machine.execImax h o s
  | .iabs h o => Sys2Proof.Machine.execIabs h o s
  | .iclamp h o => Sys2Proof.Machine.execIclamp h o s
  | .isad h o => Sys2Proof.Machine.execIsad h o s
  | .iaddc h o => Sys2Proof.Machine.execIaddc h o s
  | .lea h o => Sys2Proof.Machine.execLea h o s
  | .and h o => Sys2Proof.Machine.execAnd h o s
  | .or h o => Sys2Proof.Machine.execOr h o s
  | .xor h o => Sys2Proof.Machine.execXor h o s
  | .lop3 h o => Sys2Proof.Machine.execLop3 h o s
  | .shl h o => Sys2Proof.Machine.execShl h o s
  | .shr h o => Sys2Proof.Machine.execShr h o s
  | .sar h o => Sys2Proof.Machine.execSar h o s
  | .fshf h o => Sys2Proof.Machine.execFshf h o s
  | .bfx h o => Sys2Proof.Machine.execBfx h o s
  | .bfi h o => Sys2Proof.Machine.execBfi h o s
  | .popc h o => Sys2Proof.Machine.execPopc h o s
  | .clz h o => Sys2Proof.Machine.execClz h o s
  | .brev h o => Sys2Proof.Machine.execBrev h o s
  | .icmp h o => Sys2Proof.Machine.execIcmp h o s
  | .sel h o => Sys2Proof.Machine.execSel h o s
  | .idp4 h o => Sys2Proof.Machine.execIdp4 h o s
  | .idp2 h o => Sys2Proof.Machine.execIdp2 h o s
  | .fadd h o => Sys2Proof.Machine.execFadd h o s
  | .fsub h o => Sys2Proof.Machine.execFsub h o s
  | .fmul h o => Sys2Proof.Machine.execFmul h o s
  | .ffma h o => Sys2Proof.Machine.execFfma h o s
  | .fmin h o => Sys2Proof.Machine.execFmin h o s
  | .fmax h o => Sys2Proof.Machine.execFmax h o s
  | .fcmp h o => Sys2Proof.Machine.execFcmp h o s
  | .fclass h o => Sys2Proof.Machine.execFclass h o s
  | .frnd h o => Sys2Proof.Machine.execFrnd h o s
  | .fscale h o => Sys2Proof.Machine.execFscale h o s
  | .cvt h o => Sys2Proof.Machine.execCvt h o s
  | .cvts h o => Sys2Proof.Machine.execCvts h o s
  | .pack h o => Sys2Proof.Machine.execPack h o s
  | .hdp2 h o => Sys2Proof.Machine.execHdp2 h o s
  | .frcp h o => Sys2Proof.Machine.execFrcp h o s
  | .frsq h o => Sys2Proof.Machine.execFrsq h o s
  | .fsqrt h o => Sys2Proof.Machine.execFsqrt h o s
  | .fdiv h o => Sys2Proof.Machine.execFdiv h o s
  | .fexp2 h o => Sys2Proof.Machine.execFexp2 h o s
  | .flog2 h o => Sys2Proof.Machine.execFlog2 h o s
  | .fsin h o => Sys2Proof.Machine.execFsin h o s
  | .fcos h o => Sys2Proof.Machine.execFcos h o s
  | .ftanh h o => Sys2Proof.Machine.execFtanh h o s
  | .fsig h o => Sys2Proof.Machine.execFsig h o s
  | .ferf h o => Sys2Proof.Machine.execFerf h o s
  | .gelu h o => Sys2Proof.Machine.execGelu h o s
  | .sfn h o => Sys2Proof.Machine.execSfn h o s
  | .sfnld h o => Sys2Proof.Machine.execSfnld h o s
  | .sfnsw h o => Sys2Proof.Machine.execSfnsw h o s
  | .mxq h o => Sys2Proof.Machine.execMxq h o s
  | .mxdq h o => Sys2Proof.Machine.execMxdq h o s
  | .shfl h o => Sys2Proof.Machine.execShfl h o s
  | .vote h o => Sys2Proof.Machine.execVote h o s
  | .redl h o => Sys2Proof.Machine.execRedl h o s
  | .scanl h o => Sys2Proof.Machine.execScanl h o s
  | .laneMatch h o => Sys2Proof.Machine.execLaneMatch h o s
  | .rstat h o => Sys2Proof.Machine.execRstat h o s
  | .rstatf h o => Sys2Proof.Machine.execRstatf h o s
  | .mov h o => Sys2Proof.Machine.execMov h o s
  | .movi h o => Sys2Proof.Machine.execMovi h o s
  | .pops h o => Sys2Proof.Machine.execPops h o s
  | .p2v h o => Sys2Proof.Machine.execP2v h o s
  | .v2p h o => Sys2Proof.Machine.execV2p h o s
  | .srd h o => Sys2Proof.Machine.execSrd h o s
  | .swr h o => Sys2Proof.Machine.execSwr h o s
  | .ld h o => Sys2Proof.Machine.execLd h o s
  | .st h o => Sys2Proof.Machine.execSt h o s
  | .lds h o => Sys2Proof.Machine.execLds h o s
  | .sts h o => Sys2Proof.Machine.execSts h o s
  | .stse h o => Sys2Proof.Machine.execStse h o s
  | .ldc h o => Sys2Proof.Machine.execLdc h o s
  | .pref h o => Sys2Proof.Machine.execPref h o s
  | .cinvL1 h o => Sys2Proof.Machine.execCinvL1 h o s
  | .cinvL1all h o => Sys2Proof.Machine.execCinvL1all h o s
  | .cinvNear h o => Sys2Proof.Machine.execCinvNear h o s
  | .cwbHome h o => Sys2Proof.Machine.execCwbHome h o s
  | .cwbMem h o => Sys2Proof.Machine.execCwbMem h o s
  | .cwbInv h o => Sys2Proof.Machine.execCwbInv h o s
  | .atom h o => Sys2Proof.Machine.execAtom h o s
  | .atomcas h o => Sys2Proof.Machine.execAtomcas h o s
  | .red h o => Sys2Proof.Machine.execRed h o s
  | .atoms h o => Sys2Proof.Machine.execAtoms h o s
  | .atomscas h o => Sys2Proof.Machine.execAtomscas h o s
  | .fence h o => Sys2Proof.Machine.execFence h o s
  | .barinit h o => Sys2Proof.Machine.execBarinit h o s
  | .bararv h o => Sys2Proof.Machine.execBararv h o s
  | .barsync h o => Sys2Proof.Machine.execBarsync h o s
  | .barexp h o => Sys2Proof.Machine.execBarexp h o s
  | .barwait h o => Sys2Proof.Machine.execBarwait h o s
  | .barinv h o => Sys2Proof.Machine.execBarinv h o s
  | .tcopy h o => Sys2Proof.Machine.execTcopy h o s
  | .tstore h o => Sys2Proof.Machine.execTstore h o s
  | .tgather h o => Sys2Proof.Machine.execTgather h o s
  | .opmclm h o => Sys2Proof.Machine.execOpmclm h o s
  | .opmrel h o => Sys2Proof.Machine.execOpmrel h o s
  | .tcancel h o => Sys2Proof.Machine.execTcancel h o s
  | .bra h o => Sys2Proof.Machine.execBra h o s
  | .brx h o => Sys2Proof.Machine.execBrx h o s
  | .brvote h o => Sys2Proof.Machine.execBrvote h o s
  | .call h o => Sys2Proof.Machine.execCall h o s
  | .callx h o => Sys2Proof.Machine.execCallx h o s
  | .ret h o => Sys2Proof.Machine.execRet h o s
  | .exit h o => Sys2Proof.Machine.execExit h o s
  | .trap h o => Sys2Proof.Machine.execTrap h o s
  | .bkpt h o => Sys2Proof.Machine.execBkpt h o s
  | .nop h o => Sys2Proof.Machine.execNop h o s
  | .yield h o => Sys2Proof.Machine.execYield h o s
  | .rsopen h o => Sys2Proof.Machine.execRsopen h o s
  | .rsenter h o => Sys2Proof.Machine.execRsenter h o s
  | .rsquit h o => Sys2Proof.Machine.execRsquit h o s
  | .rsarv h o => Sys2Proof.Machine.execRsarv h o s
  | .rswait h o => Sys2Proof.Machine.execRswait h o s
  | .rsfree h o => Sys2Proof.Machine.execRsfree h o s
  | .rsget h o => Sys2Proof.Machine.execRsget h o s
  | .rsput h o => Sys2Proof.Machine.execRsput h o s
  | .spxenter h o => Sys2Proof.Machine.execSpxenter h o s
  | .spxleave h o => Sys2Proof.Machine.execSpxleave h o s
  | .spxstrm h o => Sys2Proof.Machine.execSpxstrm h o s
  | .spxsem h o => Sys2Proof.Machine.execSpxsem h o s
  | .spxsweep h o => Sys2Proof.Machine.execSpxsweep h o s
  | .spxbar h o => Sys2Proof.Machine.execSpxbar h o s
  | .spxput h o => Sys2Proof.Machine.execSpxput h o s
  | .spxget h o => Sys2Proof.Machine.execSpxget h o s
  | .spxstat h o => Sys2Proof.Machine.execSpxstat h o s
  | .launch h o => Sys2Proof.Machine.execLaunch h o s
  | .gateadd h o => Sys2Proof.Machine.execGateadd h o s
  | .gatewait h o => Sys2Proof.Machine.execGatewait h o s
  | .matcharm h o => Sys2Proof.Machine.execMatcharm h o s
  | .msgsend h o => Sys2Proof.Machine.execMsgsend h o s
  | .csrr h o => Sys2Proof.Machine.execCsrr h o s
  | .csrw h o => Sys2Proof.Machine.execCsrw h o s
  | .csrwSet h o => Sys2Proof.Machine.execCsrwSet h o s
  | .csrwClr h o => Sys2Proof.Machine.execCsrwClr h o s
  | .partcfgApply h o => Sys2Proof.Machine.execPartcfgApply h o s
  | .eretRes h o => Sys2Proof.Machine.execEretRes h o s
  | .eretSkip h o => Sys2Proof.Machine.execEretSkip h o s
  | .eretTerm h o => Sys2Proof.Machine.execEretTerm h o s
  | .eretDefer h o => Sys2Proof.Machine.execEretDefer h o s
  | .tlbinvPage h o => Sys2Proof.Machine.execTlbinvPage h o s
  | .tlbinvRange h o => Sys2Proof.Machine.execTlbinvRange h o s
  | .tlbinvAll h o => Sys2Proof.Machine.execTlbinvAll h o s
  | .l2opProm h o => Sys2Proof.Machine.execL2opProm h o s
  | .l2opAdopt h o => Sys2Proof.Machine.execL2opAdopt h o s
  | .ctxsaveRec h o => Sys2Proof.Machine.execCtxsaveRec h o s
  | .ctxsaveHerd h o => Sys2Proof.Machine.execCtxsaveHerd h o s
  | .ctxload h o => Sys2Proof.Machine.execCtxload h o s
  | .packhalt h o => Sys2Proof.Machine.execPackhalt h o s
  | .packhaltHerd h o => Sys2Proof.Machine.execPackhaltHerd h o s
  | .packhaltKill h o => Sys2Proof.Machine.execPackhaltKill h o s
  | .packresume h o => Sys2Proof.Machine.execPackresume h o s
  | .whistle h o => Sys2Proof.Machine.execWhistle h o s
  | .pwrlsRd h o => Sys2Proof.Machine.execPwrlsRd h o s
  | .pwrlsSet h o => Sys2Proof.Machine.execPwrlsSet h o s
  | .storePerform core idx => Sys2Proof.Machine.execStorePerform core idx s
  | .packFault p f => Sys2Proof.Machine.execPackFault p f s
  | .handlerWake core quarter => Sys2Proof.Machine.execHandlerWake core quarter s
  | .starvationPriority p => Sys2Proof.Machine.execStarvationPriority p s
  | .slotRotation p => Sys2Proof.Machine.execSlotRotation p s
  | .heldPath p => Sys2Proof.Machine.execHeldPath p s
  | .orphanedRejoinSet p => Sys2Proof.Machine.execOrphanedRejoinSet p s
  | .barrierTimeout p => Sys2Proof.Machine.execBarrierTimeout p s
  | .gatewaitReread p => Sys2Proof.Machine.execGatewaitReread p s
  | .copyLineLanding core entry line => Sys2Proof.Machine.execCopyLineLanding core entry line s
  | .copyFault core entry line => Sys2Proof.Machine.execCopyFault core entry line s
  | .copyRequest res cell => Sys2Proof.Machine.execCopyRequest res cell s
  | .herdPlacement part seq places => Sys2Proof.Machine.execHerdPlacement part seq places s
  | .herdResumption part seq herds places => Sys2Proof.Machine.execHerdResumption part seq herds places s
  | .gateObservation part gate => Sys2Proof.Machine.execGateObservation part gate s
  | .agingLevel part seq => Sys2Proof.Machine.execAgingLevel part seq s
  | .backfillStop part => Sys2Proof.Machine.execBackfillStop part s
  | .priorityPreemption part => Sys2Proof.Machine.execPriorityPreemption part s
  | .herdSave herd => Sys2Proof.Machine.execHerdSave herd s
  | .validateStallPreemption p => Sys2Proof.Machine.execValidateStallPreemption p s
  | .regionParking p => Sys2Proof.Machine.execRegionParking p s
  | .leaseGrant die => Sys2Proof.Machine.execLeaseGrant die s
  | .mouldInstall res => Sys2Proof.Machine.execMouldInstall res s
  | .residencyDrained res => Sys2Proof.Machine.execResidencyDrained res s
  | .whistleCut res => Sys2Proof.Machine.execWhistleCut res s
  | .cellWhistle res cell => Sys2Proof.Machine.execCellWhistle res cell s
  | .whistleCutComplete res => Sys2Proof.Machine.execWhistleCutComplete res s
  | .launchCompletion part seq => Sys2Proof.Machine.execLaunchCompletion part seq s
  | .completionMessageDrop part seq => Sys2Proof.Machine.execCompletionMessageDrop part seq s
  | .herdEnd herd => Sys2Proof.Machine.execHerdEnd herd s
  | .feederDelivery res feeder => Sys2Proof.Machine.execFeederDelivery res feeder s
  | .commandBegin res port => Sys2Proof.Machine.execCommandBegin res port s
  | .commandComplete res port => Sys2Proof.Machine.execCommandComplete res port s
  | .sweepGroupBegin res group => Sys2Proof.Machine.execSweepGroupBegin res group s
  | .portFault res port => Sys2Proof.Machine.execPortFault res port s
  | .quiescentPoint res => Sys2Proof.Machine.execQuiescentPoint res s
  | .pass res cell => Sys2Proof.Machine.execPass res cell s
  | .fork res cell => Sys2Proof.Machine.execFork res cell s
  | .merge res cell => Sys2Proof.Machine.execMerge res cell s
  | .filter res cell => Sys2Proof.Machine.execFilter res cell s
  | .cnt res cell => Sys2Proof.Machine.execCnt res cell s
  | .alu res cell => Sys2Proof.Machine.execAlu res cell s
  | .fmac res cell => Sys2Proof.Machine.execFmac res cell s
  | .sfu res cell => Sys2Proof.Machine.execSfu res cell s
  | .cvtCell res cell => Sys2Proof.Machine.execCvtCell res cell s
  | .rstatCell res cell => Sys2Proof.Machine.execRstatCell res cell s
  | .macs res cell => Sys2Proof.Machine.execMacs res cell s
  | .cmpx res cell => Sys2Proof.Machine.execCmpx res cell s
  | .agen res cell => Sys2Proof.Machine.execAgen res cell s
  | .mpld res cell => Sys2Proof.Machine.execMpld res cell s
  | .mpst res cell => Sys2Proof.Machine.execMpst res cell s
  | .spld res cell => Sys2Proof.Machine.execSpld res cell s
  | .spst res cell => Sys2Proof.Machine.execSpst res cell s
  | .gath res cell => Sys2Proof.Machine.execGath res cell s
  | .rqst res cell => Sys2Proof.Machine.execRqst res cell s
  | .tas res cell => Sys2Proof.Machine.execTas res cell s
  | .accd res cell => Sys2Proof.Machine.execAccd res cell s
  | .sems res cell => Sys2Proof.Machine.execSems res cell s
  | .pageWalk die part va => Sys2Proof.Machine.execPageWalk die part va s
  | .walkRetry die idx => Sys2Proof.Machine.execWalkRetry die idx s
  | .relatchToken res port => Sys2Proof.Machine.execRelatchToken res port s
  | .promotionRequest part => Sys2Proof.Machine.execPromotionRequest part s
  | .lineRequest die line store => Sys2Proof.Machine.execLineRequest die line store s
  | .nearCopyEviction die line => Sys2Proof.Machine.execNearCopyEviction die line s
  | .readGrantRequest port page => Sys2Proof.Machine.execReadGrantRequest port page s
  | .exclusiveGrantRequest port page => Sys2Proof.Machine.execExclusiveGrantRequest port page s
  | .revokeAcknowledgment port page dirty => Sys2Proof.Machine.execRevokeAcknowledgment port page dirty s
  | .agentFailed port => Sys2Proof.Machine.execAgentFailed port s
  | .linkDown port => Sys2Proof.Machine.execLinkDown port s
  | .kmtHello port hdr => Sys2Proof.Machine.execKmtHello port hdr s
  | .kmtMessage port hdr body => Sys2Proof.Machine.execKmtMessage port hdr body s
  | .segmentReceive hdr payload fcsGood => Sys2Proof.Machine.execSegmentReceive hdr payload fcsGood s
  | .segmentAck hdr => Sys2Proof.Machine.execSegmentAck hdr s
  | .ackTimer spart dpart => Sys2Proof.Machine.execAckTimer spart dpart s
  | .segmentResend spart dpart => Sys2Proof.Machine.execSegmentResend spart dpart s
  | .hello version => Sys2Proof.Machine.execHello version s
  | .telemetry => Sys2Proof.Machine.execTelemetry s
  | .logread fromSeq => Sys2Proof.Machine.execLogread fromSeq s
  | .fwload image => Sys2Proof.Machine.execFwload image s
  | .reset target => Sys2Proof.Machine.execReset target s
  | .kill part seq => Sys2Proof.Machine.execKill part seq s
  | .debug part level => Sys2Proof.Machine.execDebug part level s
  | .power target => Sys2Proof.Machine.execPower target s
  | .attest nonce => Sys2Proof.Machine.execAttest nonce s
  | .memrw addr len data => Sys2Proof.Machine.execMemrw addr len data s
  | .genkey => Sys2Proof.Machine.execGenkey s
  | .secstate target => Sys2Proof.Machine.execSecstate target s
  | .powerOn => Sys2Proof.Machine.execPowerOn s
  | .deviceReset => Sys2Proof.Machine.execDeviceReset s
  | .partitionReset part => Sys2Proof.Machine.execPartitionReset part s
  | .boot => Sys2Proof.Machine.execBoot s
  | .criticalTemperature island => Sys2Proof.Machine.execCriticalTemperature island s
  | .idleEntry => Sys2Proof.Machine.execIdleEntry s
  | .wake => Sys2Proof.Machine.execWake s
  | .correctableError place => Sys2Proof.Machine.execCorrectableError place s
  | .uncorrectableError place => Sys2Proof.Machine.execUncorrectableError place s
  | .parityError part die unit again => Sys2Proof.Machine.execParityError part die unit again s
  | .linkUp port => Sys2Proof.Machine.execLinkUp port s
  | .kiopFlitReceive port hdr payload => Sys2Proof.Machine.execKiopFlitReceive port hdr payload s
  | .remoteHomeAnswer page answer => Sys2Proof.Machine.execRemoteHomeAnswer page answer s
  | .remoteHomeRevoke page recalled => Sys2Proof.Machine.execRemoteHomeRevoke page recalled s
  | .signedImageFetched image => Sys2Proof.Machine.execSignedImageFetched image s

end Sys2Proof.Machine
end

