-- ==== Sys2Proof/Machine/Turns.lean ====
section
/-!
DEFINITION. What one turn of the machine does: a quarter issues an instruction of a path of one of its packs (R32-R34, R361), or an event
of the table happens; and the machine as a program placed from outside makes it run an instruction next.
-/

namespace Sys2Proof.Machine

/-- A quarter's turn begins: unparking is over (R24), and the paths whose wait has ended go on (R66). -/
def wakeQuarter (s : State) (core quarter : Nat) : State :=
  let q := getQuarter s core quarter
  let s := if q.state == .unparking then setQuarter s { q with state := .simt } else s
  { s with packs := s.packs.map fun p =>
      if p.loc.core == core && p.loc.quarter == quarter && p.stop == .running && !p.parked then wakeWaits s p else p }

/-- An instruction runs for a path: `cur` names the path while it does. -/
def runAt (i : Instr) (at_ : PathAt) (s : State) : Host.Outcome State Fault Refusal :=
  match exec i { s with cur := some at_ } with
  | .next s' => .next { s' with cur := none }
  | .fault f => .fault f
  | .refused r => .refused r

/-- A path issues (R142, R159): the fetch, then the instruction or the fetch's fault. -/
def issuePath (s : State) (p : Pack) (i : Nat) (q : Path) : Host.Outcome State Fault Refusal :=
  match fetchAt s p q.pc.toNat with
  | (.stall, s') => .next (heldUp s' p i q.pc.toNat)
  | (.fault code x, s') =>
    let s' := account s' p i
    .next (raiseFault s' ((findPack s' p.loc).getD p) i x ⟨code, activeMask s p q, q.pc⟩)
  | (.instr ins, s') => runAt ins ⟨p.loc, i⟩ (account s' p i)

/-- The state in which a quarter's cycle finds its packs (R24, R32, R66). -/
def openCycle (s : State) (core quarter choice : Nat) : State := beginCycle (wakeQuarter s core quarter) core quarter choice

/-- A quarter's turn (R32-R34, R43, R44, R361): the pack, the path, and the issue; a quarter with no ready path does nothing. -/
def issueTurn (s : State) (core quarter choice : Nat) : Host.Outcome State Fault Refusal :=
  if s.power != .on then .next s
  else
    let s := openCycle s core quarter choice
    match choosePack s core quarter with
    | none => .next (endCycle s core quarter none)
    | some p =>
      let s := endCycle s core quarter (some p)
      let p := prepare s ((findPack s p.loc).getD p)
      let s := setPack s p
      match choosePath s p (choice / 2 ^ 32) with
      | none => .next s
      | some i =>
        match p.paths[i]? with
        | none => .next s
        | some q => issuePath s p i q

/-- The fault is the one that the path's next fetch gives: every other fault of a pack is raised by the instruction that meets it. -/
def fetchFault (s : State) (at_ : PathAt) (f : FaultReq) : Bool :=
  match findPack s at_.loc with
  | none => false
  | some p =>
    match p.paths[at_.path]? with
    | none => false
    | some q =>
      match (fetchAt s p q.pc.toNat).1 with
      | .fault code _ => f == ⟨code, activeMask s p q, q.pc⟩
      | .instr _ | .stall => false

/-- The events of the always-on island, which act in every power state (R421, R423). -/
def alwaysOn : Instr → Bool
  | .hello _ | .telemetry | .logread _ | .fwload _ | .reset _ | .kill _ _ | .debug _ _ | .power _ | .attest _ | .memrw _ _ _ | .genkey
  | .secstate _ | .powerOn => true
  | _ => false

/-- The events that act in idle and deep idle too: those of the hub's and the SerDes' links, resets, errors and the wake (R423, R424). -/
def asleep (i : Instr) : Bool :=
  alwaysOn i ||
    match i with
    | .linkUp _ | .linkDown _ | .kmtHello _ _ | .segmentReceive _ _ _ | .kiopFlitReceive _ _ _ | .segmentAck _ | .ackTimer _ _
    | .segmentResend _ _ | .agentFailed _ | .revokeAcknowledgment _ _ _ | .deviceReset | .partitionReset _ | .criticalTemperature _
    | .wake | .correctableError _ | .uncorrectableError _ | .parityError _ _ _ _ => true
    | _ => false

/-- What the power state lets happen (R423). -/
def powered (s : State) (i : Instr) : Bool :=
  match s.power with
  | .on => true
  | .idle | .deepIdle => asleep i
  | .off => alwaysOn i

/-- An event may happen now.  An instruction row is no event: it runs only where a path issues it. -/
def mayHappen (s : State) (i : Instr) : Bool :=
  (parts i).isNone && powered s i &&
    match i with
    | .packFault at_ f => fetchFault s at_ f
    | _ => true

/-- An event happens, where it may. -/
def eventTurn (s : State) (i : Instr) : Host.Outcome State Fault Refusal := if mayHappen s i then exec i s else .next s

/-- A line of memory as it stands, with its release sequences, where an access of a lane would find it at the home: no outside agent holds its
page in the way, and no die an untracked copy. -/
def lineNow (s : State) (line : Nat) : Option (List Byte × List ReleaseHead) :=
  let remote : Bool := remoteBase ≤ line * lineSize
  let t : Tlb := { identityTlb 0 with kind := if remote then 1 else 0 }
  let a := if remote then line * lineSize - remoteBase else line * lineSize
  if !pageReady s t a false || s.scCopies.any (·.line == line) then none
  else some (homeBytes s t a lineSize, s.heads.filter (·.meets (line * lineSize) lineSize))

/-- A full line of a scratchpad as it stands, with no error in it (R105, R429). -/
def spadNow (h : Herd) (line : Nat) : Option (List Byte) :=
  let off := line * lineSize
  if h.spadSize < off + lineSize || h.empty.contains line || spadPoisoned h off lineSize then none else some (spadBytes h off lineSize)

/-- What a lane of a pack may go on seeing of a line: its herd where it is one of a scratchpad, its bytes and its release sequences. -/
def viewNow (s : State) (p : Pack) (spad : Bool) (line : Nat) : Option (Option Nat × List Byte × List ReleaseHead) :=
  if spad then
    (p.herd.bind (findHerd s)).bind fun h => (spadNow h line).map fun bs => (some h.id, bs, [])
  else (lineNow s line).map fun x => (none, x.1, x.2)

/-- A lane may go on seeing a line as it stands now (R64, R123, log 60): what it saw of the line before goes. -/
def capture (s : State) (loc : PackLoc) (lane : Nat) (spad : Bool) (line : Nat) : State :=
  match (findPack s loc).bind (viewNow s · spad line) with
  | none => s
  | some (herd, bytes, heads) =>
    let e : EarlyLine := { loc, lane, herd, line, tick := s.tick, bytes, heads, heard := [] }
    modCore s loc.core fun c => { c with early := e :: c.early.filter fun x => !(x.isAt loc herd line && x.lane == lane) }

/-- One turn. -/
def runTurn (s : State) : Turn → Host.Outcome State Fault Refusal
  | .issue core quarter choice => issueTurn s core quarter choice
  | .capture core quarter slot lane spad line => .next (capture s ⟨core, quarter, slot⟩ lane spad line)
  | .agent port pa len data => .next (agentAccess s port pa len data)
  | .collie => collieTurn s
  | .event i => eventTurn s i

/-- The next turn: the first one that is already fixed, else what the schedule says (log 3). -/
def nextTurn (s : State) : Turn := (s.agenda.head?).getD (Config.schedule s.tick)

/-- An access of the device that has asked for a page keeps its place ahead of grant requests for 65 536 cycles at most (DESIGN CHOICE, log 59):
those that have waited longer have their turn. -/
def takeOverdue (s : State) : State := if s.waiting.isEmpty then s else takeTurn s (s.waiting.filter fun w => w.since + 65536 ≤ now s)

/-- The step counter, the fixed turns and the clock move on (R196, log 4), and with it the time since which the device is quiet (R423); the
clock of a device that is off stands.  Waits on semaphores that began in the turn before are in order (R280), and grant requests that have
waited long enough for an access of the device have their turn (R408). -/
def advance (s : State) : State :=
  let clock := if s.power == .off then s.clock else s.clock + BitVec.ofNat 64 (Config.elapsed s.tick)
  takeOverdue { s with
    tick := s.tick + 1
    agenda := s.agenda.drop 1
    residencies := s.residencies.map Residency.noteWaits
    clock
    quietSince := if deviceQuiet s then s.quietSince else clock.toNat }

/-- Where a program placed from outside begins: physical address 0, in HBM (log 19). -/
def placeAt : Nat := 0

/-- A cause for a handler that a placed program runs in (log 19). -/
def placedCause : Cause :=
  { code := 32, src := 0, quarter := 0, slot := 0, unit := 0, seq := 0#32, detail := 0#64, machine := true, serial := 0 }

/-- The handler pack of core 0, quarter 0 in service at machine level, one path of all 64 lanes at the placed instruction (log 19). -/
def placedPack : Pack :=
  { Pack.admitted ⟨0, 0, handlerSlot⟩ none 0 0 128 1 32 2 (BitVec.ofNat 64 placeAt) with wake := some ⟨placedCause, none⟩ }

/-- The machine with bytes at the placed address and a machine-level pack about to issue them (R347, log 19). -/
def placeProgram (s : State) (bs : List Byte) : State :=
  { s with
    mem := memWrite Config.blankByte s.mem placeAt bs
    cores := s.cores.filter (·.id != 0)
    poison := s.poison.filter fun g => 2 ≤ g
    packs := placedPack :: s.packs.filter fun p => !(p.loc.core == 0 && p.loc.quarter == 0)
    quarters := s.quarters.filter fun q => !(q.core == 0 && q.quarter == 0)
    parts := updWhere (·.id == 0) (fun p => { p with stopped := false }) s.parts
    power := .on
    agenda := [.issue 0 0 0] }

end Sys2Proof.Machine
end

