-- ==== Sys2Proof/Machine/Step.lean ====
section
/-!
DEFINITION. The step of the machine: the next turn is taken.  And `withFetchWord`, which places an instruction so that the next step runs it.
-/

namespace Sys2Proof.Machine

/-- One step (log 3). -/
def step (s : State) : Host.Outcome State Fault Refusal := runTurn (advance s) (nextTurn s)

/-- The instruction of bits `w`, its bits above `nbits` zero, placed where the next step fetches (log 19). -/
def State.withFetchWord (s : State) (nbits w : Nat) : State := placeProgram s (bytesLE 16 (w % 2 ^ nbits))

end Sys2Proof.Machine
end

