-- ==== Sys2Proof/Safety.lean ====
section
/-!
DEFINITION. The terms in which the statements speak: an instruction that issues and meets no fault, the registers it may write, what a pack
and its path keep, and the conditions under which the machine's state is well formed.
-/

namespace Sys2Proof.Machine

/-! ### An instruction that issues -/

/-- The guard fields of an instruction row; an event row has none. -/
def headOf (i : Instr) : Head := ((parts i).map (·.2.1)).getD ⟨7#3, false⟩

/-- Row `i` issues in context `c`: the issuing path stands there, and the row passes the checks of R157-R159, R19 and R340. -/
structure Issues (i : Instr) (s : State) (c : Ctx) : Prop where
  ctx : issueCtx (headOf i) s = some c
  ok  : encodingFault i c.pack = none

/-- The instruction that reads a source register of lanes that do not execute (R228, R229). -/
def readsAcross (i : Instr) : Bool :=
  match i with
  | .shfl _ _ => true
  | _ => false

/-- No source register holds an uncorrectable error in a lane that executes, or for `shfl` in a lane of the path (R206, R428). -/
def Clean (i : Instr) (c : Ctx) : Prop :=
  ∀ r ∈ sourceRegs i, ∀ l < 64, c.exec.has l = true ∨ (readsAcross i = true ∧ c.act.has l = true) → (r, l) ∉ c.pack.bad

/-- The vector registers an instruction writes through its fields: those of its destination fields (R146). -/
def destRegs (i : Instr) : List Nat :=
  match i with
  | .cvt _ _ | .cvts _ _ => ((shape i).ops.take 1).flatMap Opnd.regs
  | _ => ((shape i).ops.filter (!·.src)).flatMap Opnd.regs

/-- The predicates an instruction writes (R146): its predicate destination fields, the carry-out of `iaddc` (R187) and the mask of `v2p`
(R194). -/
def destPreds (i : Instr) : List Nat :=
  match i with
  | .iaddc _ o => [o.fn.toNat % 8]
  | .v2p _ o => (List.range 7).filter fun k => o.fn.toNat / 2 ^ k % 2 == 1
  | _ => ((shape i).ops.filter (·.cls == .pdst)).map (·.reg.toNat)

/-- The instructions that act on their pack alone: arithmetic, conversion, cross-lane, move and special-register rows, and `nop`. -/
def registerOnly (i : Instr) : Bool :=
  match i with
  | .iadd _ _ | .isub _ _ | .imul _ _ | .imad _ _ | .imulw _ _ | .imin _ _ | .imax _ _ | .iabs _ _ | .iclamp _ _ | .isad _ _
  | .iaddc _ _ | .lea _ _ | .and _ _ | .or _ _ | .xor _ _ | .lop3 _ _ | .shl _ _ | .shr _ _ | .sar _ _ | .fshf _ _ | .bfx _ _
  | .bfi _ _ | .popc _ _ | .clz _ _ | .brev _ _ | .icmp _ _ | .sel _ _ | .idp4 _ _ | .idp2 _ _ | .fadd _ _ | .fsub _ _ | .fmul _ _
  | .ffma _ _ | .fmin _ _ | .fmax _ _ | .fcmp _ _ | .fclass _ _ | .frnd _ _ | .fscale _ _ | .cvt _ _ | .cvts _ _ | .pack _ _
  | .hdp2 _ _ | .frcp _ _ | .frsq _ _ | .fsqrt _ _ | .fdiv _ _ | .fexp2 _ _ | .flog2 _ _ | .fsin _ _ | .fcos _ _ | .ftanh _ _
  | .fsig _ _ | .ferf _ _ | .gelu _ _ | .sfn _ _ | .mxq _ _ | .mxdq _ _ | .shfl _ _ | .vote _ _ | .redl _ _ | .scanl _ _
  | .laneMatch _ _ | .rstat _ _ | .rstatf _ _ | .mov _ _ | .movi _ _ | .pops _ _ | .p2v _ _ | .v2p _ _ | .srd _ _ | .swr _ _
  | .nop _ _ => true
  | _ => false

/-- The rows that write a lane's stochastic state (R82, R194, R212). -/
def writesSto (i : Instr) : Bool :=
  match i with
  | .cvts _ _ => true
  | .swr _ o => o.fn.toNat == 0
  | _ => false

/-! ### What a pack keeps -/

/-- Path `c.idx` goes on at the next instruction, not waiting, with the mask it had; every other path keeps its PC, mask, wait and
watchdog count; and no slot changes hands unless the row carries the y bit (R45, R142). -/
structure Advanced (i : Instr) (c : Ctx) (p p' : Pack) : Prop where
  count : p'.paths.length = p.paths.length
  here  : (p'.paths[c.idx]?).map (fun q => (q.pc, q.mask, q.wait)) =
    (p.paths[c.idx]?).map (fun q => (nextPc i c, q.mask, .run))
  there : ∀ j, j ≠ c.idx → (p'.paths[j]?).map (fun q => (q.pc, q.mask, q.wait, q.wbase, q.wfrom)) =
    (p.paths[j]?).map (fun q => (q.pc, q.mask, q.wait, q.wbase, q.wfrom))
  slots : yieldBit i = false → p'.paths.map (·.slot) = p.paths.map (·.slot)

/-- Outside the registers `rs` and the predicates `ks`, and outside the lanes of `m`, every register and predicate of a pack reads as
before; and the pack keeps everything but its registers, predicates, stochastic states, recorded errors and paths. -/
structure KeepsRest (rs ks : List Nat) (m : Mask) (p p' : Pack) : Prop where
  regs  : ∀ r l, l < 64 → r ∉ rs ∨ m.has l = false → p'.reg r l = p.reg r l
  preds : ∀ k l, l < 64 → k ∉ ks ∨ m.has l = false → p'.pred k l = p.pred k l
  sto   : ∀ l, l < 64 → m.has l = false → Lanes.get 0#32 p'.sto l = Lanes.get 0#32 p.sto l
  errs  : ∀ r l, (r, l) ∈ p'.bad → (r, l) ∈ p.bad
  rest  : p' = { p with regs := p'.regs, preds := p'.preds, sto := p'.sto, bad := p'.bad, paths := p'.paths, qnext := p'.qnext }

/-- A pack holds the registers, predicates and sets that admission gave it (R18, R46, R146). -/
def Pack.shaped (p : Pack) : Bool := p.regs.length == p.regCount && p.preds.length == 7 && p.sets.length == 32

/-! ### Operands and results as the manual names them -/

/-- A register field of type `t` in lane `l` as a bit pattern: a vector register, or a pair for a 64-bit type (R183). -/
def Pack.bitsT (p : Pack) (t : Nat) (r : Reg) (l : Nat) : Nat := if wide t then (p.pair r.toNat l).toNat else (p.reg r.toNat l).toNat

/-- val(r, t) of R183. -/
def Pack.valT (p : Pack) (t : Nat) (r : Reg) (l : Nat) : Int :=
  match wide t, tySigned t with
  | true, true => (p.pair r.toNat l).toInt
  | true, false => (p.pair r.toNat l).toNat
  | false, true => (p.reg r.toNat l).toInt
  | false, false => (p.reg r.toNat l).toNat

/-- imm_val(t) of R184. -/
def immediateOf (o : I) : Int :=
  match o.lit, wide o.ty, tySigned o.ty with
  | none, _, true => o.imm.toInt
  | none, _, false => o.imm.toNat
  | some q, true, true => q.toInt
  | some q, true, false => q.toNat
  | some q, false, true => (q.extractLsb' 0 32).toInt
  | some q, false, false => (q.extractLsb' 0 32).toNat

/-- Operand b of a V/I word: a register, or the immediate. -/
def operandB (o : VI) (p : Pack) (l : Nat) : Int :=
  match o with
  | .v w => p.valT w.ty w.b l
  | .i w => immediateOf w

/-- The value that put(x, t, s) of R183 leaves, read back by type: saturated to the type's range, or wrapped to it. -/
def putVal (x : Int) (t : Nat) (s : Bool) : Int :=
  match s, tySigned t with
  | true, true => max (-(2 ^ (tyW t - 1))) (min x (2 ^ (tyW t - 1) - 1))
  | true, false => max 0 (min x (2 ^ tyW t - 1))
  | false, true => Int.bmod x (2 ^ tyW t)
  | false, false => x % 2 ^ tyW t

/-- Element `e` of a floating-point operand of type `t` in a lane, as a bit pattern (R205). -/
def Pack.elem (p : Pack) (t e : Nat) (r : Reg) (l : Nat) : Nat := elOf t e (p.reg r.toNat l)

/-- The value of that element (R73, R205). -/
def Pack.fval (p : Pack) (t e : Nat) (r : Reg) (l : Nat) : Val := fv (fmtOf t) (p.elem t e r l)

/-- A finite value as a rational number. -/
def ratOf : Val → Rat
  | .num n d => mkRat n d
  | .zero _ | .inf _ | .nan => 0

/-- The code that R79's table gives where a rounded value is too large, or the exact one infinite: the infinity (NaN in a format without
one) where the mode rounds away from zero and `.sat` is off, else the largest finite value. -/
def overflowCode (f : Fmt) (m : Mode) (sat neg : Bool) : Nat :=
  let sign := if neg then 2 ^ (f.width - 1) else 0
  let away : Bool := !sat && (m == .rne || m == (if neg then .dn else .up))
  if away && f.ieee then sign + f.inf else if away && f.nanTop then f.nan else sign + f.maxCode

/-- `y` is the code of a real number x ≠ 0 rounded by R78 and R79.  The number is given by its cuts, so that roots have one too: `low w` says
w ≤ x and `high w` says x ≤ w.  In range, nearest leaves x no farther from y than from any other value, and a tie at an even code; the
directed modes leave the extreme value on their side.  Beyond it, the nearest mode goes up from the midpoint to the next value on. -/
def Rounded (f : Fmt) (m : Mode) (sat : Bool) (low high : Rat → Prop) (y : Nat) : Prop :=
  let val (c : Nat) : Rat := ratOf (fv f c)
  let fin (c : Nat) : Prop := c < 2 ^ f.width ∧ (fv f c).isFinite = true
  let half := 2 ^ (f.width - 1)
  let big := val f.maxCode
  let top := big + (big - val (f.maxCode - 1)) / 2
  let down : Prop := low (val y) ∧ ∀ c, fin c → low (val c) → val c ≤ val y
  let up : Prop := high (val y) ∧ ∀ c, fin c → high (val c) → val y ≤ val c
  let past (neg : Bool) (within beyond : Prop) : Prop :=
    ((m = .rne → beyond ∧ (within → f.maxCode % 2 = 1)) → y = overflowCode f m sat neg) ∧
    (m = .rne → (¬beyond ∨ (within ∧ f.maxCode % 2 = 0)) → y = f.maxCode + if neg then half else 0)
  (low (-big) → high big → fin y ∧ (half ≤ y ↔ ¬low 0) ∧ match m with
    | .rne => ∀ c, fin c → (val y < val c → high ((val y + val c) / 2)) ∧ (val c < val y → low ((val y + val c) / 2)) ∧
        (c = y + 1 ∨ c + 1 = y → (c < half ↔ y < half) → low ((val y + val c) / 2) → high ((val y + val c) / 2) → y % 2 = 0)
    | .rtz => (low 0 → down) ∧ (high 0 → up)
    | .up => up
    | .dn => down) ∧
  (¬high big → past false (high top) (low top)) ∧ (¬low (-big) → past true (low (-top)) (high (-top)))

/-- `y` is the code of a rational number other than 0 rounded by R78 and R79. -/
def RoundedRat (f : Fmt) (m : Mode) (sat : Bool) (x : Rat) (y : Nat) : Prop := x ≠ 0 → Rounded f m sat (· ≤ x) (x ≤ ·) y

/-- `y` is a value of any kind rounded into a format: NaN, the zeros and the infinities as R78 says. -/
def RoundedVal (f : Fmt) (m : Mode) (sat : Bool) (x : Val) (y : Nat) : Prop :=
  match x with
  | .nan => y = f.nan
  | .zero neg => y = if neg then 2 ^ (f.width - 1) else 0
  | .inf neg => y = overflowCode f m sat neg
  | .num _ _ => RoundedRat f m sat (ratOf x) y

/-- The integer that a mode picks for a number (R78, R207). -/
def Picked (m : Mode) (x : Rat) (k : Int) : Prop :=
  let floor : Prop := (k : Rat) ≤ x ∧ x < k + 1
  let ceiling : Prop := x ≤ k ∧ (k : Rat) - 1 < x
  match m with
  | .rne => 2 * (k : Rat) - 1 ≤ 2 * x ∧ 2 * x ≤ 2 * k + 1 ∧ (2 * x = 2 * k + 1 ∨ 2 * x = 2 * k - 1 → k % 2 = 0)
  | .rtz => (0 ≤ x → floor) ∧ (x ≤ 0 → ceiling)
  | .up => ceiling
  | .dn => floor

/-- `y` is a value rounded stochastically by the 24 bits that a state leaves (R84): a finite value below the largest one goes up from the
code under it where `u < t`. -/
def RoundedSto (f : Fmt) (sat : Bool) (x : Val) (st : Word) (y : Nat) : Prop :=
  let val (c : Nat) : Rat := ratOf (fv f c)
  let a : Rat := if ratOf x < 0 then -ratOf x else ratOf x
  if x.isFinite = true ∧ a < val f.maxCode then
    ∃ c < f.maxCode, val c ≤ a ∧ a < val (c + 1) ∧
      y = (if x.neg? then 2 ^ (f.width - 1) else 0) +
        if ((st.toNat / 256 + 1 : Nat) : Rat) * (val (c + 1) - val c) ≤ (a - val c) * 2 ^ 24 then c + 1 else c
  else RoundedVal f .rne sat x y

/-- An infinity. -/
def Val.isInf (x : Val) : Bool := x == .inf true || x == .inf false

/-- A zero. -/
def Val.isZero (x : Val) : Bool := x == .zero true || x == .zero false

/-- 2 to an integer power. -/
def pow2 (q : Int) : Rat := if 0 ≤ q then 2 ^ q.toNat else 1 / 2 ^ (-q).toNat

/-- `y` is a + b rounded once (R76, R78, R207): NaN where an operand is one or infinities cancel, the overflow rule of R79 for an infinity, and
the sign of an exact zero. -/
def SumRounded (f : Fmt) (m : Mode) (sat : Bool) (a b : Val) (y : Nat) : Prop :=
  let zero (neg : Bool) : Nat := if neg then 2 ^ (f.width - 1) else 0
  match a, b with
  | .nan, _ => y = f.nan
  | _, .nan => y = f.nan
  | .inf p, .inf q => y = if p = q then overflowCode f m sat p else f.nan
  | .inf p, _ => y = overflowCode f m sat p
  | _, .inf p => y = overflowCode f m sat p
  | _, _ => RoundedRat f m sat (ratOf a + ratOf b) y ∧
      (ratOf a + ratOf b = 0 → y = zero (if a.isZero && b.isZero && a.neg? == b.neg? then a.neg? else decide (m = .dn)))

/-- `y` is a · b rounded once (R76, R78, R207). -/
def ProductRounded (f : Fmt) (m : Mode) (sat : Bool) (a b : Val) (y : Nat) : Prop :=
  let neg : Bool := a.neg? ^^ b.neg?
  let bad : Prop := a.isNan = true ∨ b.isNan = true ∨ (a.isInf && b.isZero || a.isZero && b.isInf) = true
  (bad → y = f.nan) ∧ (¬bad → a.isInf = true ∨ b.isInf = true → y = overflowCode f m sat neg) ∧
    (a.isFinite = true → b.isFinite = true → RoundedRat f m sat (ratOf a * ratOf b) y ∧
      (ratOf a * ratOf b = 0 → y = if neg then 2 ^ (f.width - 1) else 0))

/-- `y` is a · b + c rounded once (R76, R78, R207). -/
def FusedRounded (f : Fmt) (m : Mode) (sat : Bool) (a b c : Val) (y : Nat) : Prop :=
  let neg : Bool := a.neg? ^^ b.neg?
  let bad : Prop := a.isNan = true ∨ b.isNan = true ∨ c.isNan = true ∨ (a.isInf && b.isZero || a.isZero && b.isInf) = true
  let infinite : Prop := a.isInf = true ∨ b.isInf = true
  let x := ratOf a * ratOf b + ratOf c
  (bad → y = f.nan) ∧ (¬bad → infinite → y = if c = .inf !neg then f.nan else overflowCode f m sat neg) ∧
    (¬bad → ¬infinite → c.isInf = true → y = overflowCode f m sat c.neg?) ∧
    (a.isFinite = true → b.isFinite = true → c.isFinite = true → RoundedRat f m sat x y ∧
      (x = 0 → y = if (if (a.isZero || b.isZero) && c.isZero && neg == c.neg? then neg else decide (m = .dn)) then 2 ^ (f.width - 1) else 0))

/-- `w` is the smaller of two patterns, or with `isMax` the larger, by R208 without `.nan`: −0 is below +0, and a NaN gives way. -/
def LeastOf (f : Fmt) (isMax : Bool) (x y w : Nat) : Prop :=
  let beyond (a b : Val) : Bool := if isMax then b.lt a else a.lt b
  ((fv f x).isNan = true → w = if (fv f y).isNan then f.nan else y) ∧ ((fv f x).isNan = false → (fv f y).isNan = true → w = x) ∧
    ((fv f x).isNan = false → (fv f y).isNan = false → (w = x ∨ w = y) ∧ beyond (fv f x) (fv f w) = false ∧ beyond (fv f y) (fv f w) = false ∧
      ∀ z, fv f x = .zero z → fv f y = .zero !z → fv f w = .zero !isMax)

/-- The tree of R89 over the leaves that are present: neighbours combine by `op`, the lower lanes' first, and a lone child passes on as it is;
`y` is the root, or `none` with no leaf present. -/
def IsTree {α : Type} (op : α → α → α → Prop) (leaf : Nat → Option α) (y : Option α) : Prop :=
  ∃ node : Nat → Nat → Option α, (∀ l < 64, node 0 l = leaf l) ∧ node 6 0 = y ∧
    ∀ k < 6, ∀ i < 2 ^ (5 - k), match node k (2 * i), node k (2 * i + 1) with
      | some a, some b => ∃ c, node (k + 1) i = some c ∧ op a b c
      | some a, none => node (k + 1) i = some a
      | none, b => node (k + 1) i = b

/-! ### Row statistics (R91, R93, R94) -/

/-- The square of a value. -/
def Val.square : Val → Val
  | .num n d => .num (n * n) (d * d)
  | .zero _ => .zero false
  | .inf _ => .inf false
  | .nan => .nan

/-- `c` is the merge of two partials by R91. -/
def WelfordMerged (a b c : Partial) : Prop :=
  let ma := fv f32 a.mean
  let mb := fv f32 b.mean
  let sa := fv f32 a.m2
  let sb := fv f32 b.m2
  let n : Rat := ((a.n + b.n : Nat) : Rat)
  (b.n = 0 → c = a) ∧ (b.n ≠ 0 → a.n = 0 → c = b) ∧
    (b.n ≠ 0 → a.n ≠ 0 → c.n = min (a.n + b.n) (2 ^ 32 - 1) ∧
      (ma.isFinite = false ∨ mb.isFinite = false ∨ sa.isNan = true ∨ sb.isNan = true → c.mean = f32.nan ∧ c.m2 = f32.nan) ∧
      (ma.isFinite = true → mb.isFinite = true → sa.isNan = false → sb.isNan = false →
        ∃ dl u v lo hi w : Nat, SumRounded f32 .rne false mb ma.negate dl ∧
          (let x := fv f32 dl
           let mu := ratOf ma + ratOf x * (b.n : Rat) / n
           let m2 := ratOf sa + ratOf sb + ratOf x * ratOf x * (a.n : Rat) * (b.n : Rat) / n
           (x.isFinite = true → RoundedRat f32 .rne false mu u ∧ (mu = 0 → u = 0)) ∧
           (∀ neg, x = .inf neg → u = f32.inf + if neg then 2 ^ 31 else 0) ∧
           (x.isFinite = true → sa.isFinite = true → sb.isFinite = true → RoundedRat f32 .rne false m2 v ∧ (m2 = 0 → v = 0)) ∧
           (sa.isInf = true ∨ sb.isInf = true ∨ x.isInf = true →
             let up := sa = .inf false ∨ sb = .inf false ∨ x.isInf = true
             let down := sa = .inf true ∨ sb = .inf true
             (up → down → v = f32.nan) ∧ (up → ¬down → v = f32.inf) ∧ (¬up → down → v = f32.inf + 2 ^ 31))) ∧
          LeastOf f32 false a.mean b.mean lo ∧ LeastOf f32 true a.mean b.mean hi ∧ LeastOf f32 true u lo w ∧
          (v = f32.nan → c.mean = f32.nan ∧ c.m2 = f32.nan) ∧ (v ≠ f32.nan → LeastOf f32 false w hi c.mean ∧ c.m2 = v)))

/-- `c` is the merge of two partials by the `.rms` rule of R94, with ss in `mean`. -/
def RmsMerged (a b c : Partial) : Prop :=
  c.n = min (a.n + b.n) (2 ^ 32 - 1) ∧ SumRounded f32 .rne false (fv f32 a.mean) (fv f32 b.mean) c.mean ∧ c.m2 = 0

/-- `c` is the partial `a` with the value `x` added by `rms_add` of R94. -/
def RmsAdded (a : Partial) (x : Nat) (c : Partial) : Prop :=
  c.n = min (a.n + 1) (2 ^ 32 - 1) ∧ SumRounded f32 .rne false (fv f32 a.mean) (fv f32 x).square c.mean ∧ c.m2 = 0

/-- `y` is a value divided by a count, rounded into FP32. -/
def MeanRounded (x : Val) (n y : Nat) : Prop :=
  match x with
  | .num _ _ => RoundedRat f32 .rne false (ratOf x / (n : Rat)) y
  | v => RoundedVal f32 .rne false v y

/-- `y` is the square root of a value, rounded into FP32 (R207). -/
def RootRounded (x : Val) (y : Nat) : Prop :=
  match x with
  | .num _ _ => (ratOf x < 0 → y = f32.nan) ∧ (0 < ratOf x → Rounded f32 .rne false (fun w => w ≤ 0 ∨ w * w ≤ ratOf x) (fun w => 0 ≤ w ∧ ratOf x ≤ w * w) y)
  | .zero neg => y = if neg then 2 ^ 31 else 0
  | .inf neg => y = if neg then f32.nan else f32.inf
  | .nan => y = f32.nan

/-- `y` is 1 over the square root of a value, rounded into FP32 (R93): +∞ for ±0, NaN below 0. -/
def InverseRootRounded (x : Val) (y : Nat) : Prop :=
  match x with
  | .num _ _ => (ratOf x < 0 → y = f32.nan) ∧
      (0 < ratOf x → Rounded f32 .rne false (fun w => w ≤ 0 ∨ w * w * ratOf x ≤ 1) (fun w => 0 ≤ w ∧ 1 ≤ w * w * ratOf x) y)
  | .zero _ => y = f32.inf
  | .inf neg => y = if neg then f32.nan else 0
  | .nan => y = f32.nan

/-- `y` is what R93 delivers for a partial: mean, variance and rs, or by R94 the root and rs of the mean square. -/
def RowFinal (rms : Bool) (a : Partial) (eps : Nat) (y : Nat → Nat) : Prop :=
  -- a value over the count, +0 for an empty partial
  let mean (v y : Nat) : Prop := if a.n = 0 then y = 0 else MeanRounded (fv f32 v) a.n y
  (rms = true → ∃ ms t, mean a.mean ms ∧ RootRounded (fv f32 ms) (y 0) ∧ SumRounded f32 .rne false (fv f32 ms) (fv f32 eps) t ∧
    InverseRootRounded (fv f32 t) (y 1)) ∧
  (rms = false → y 0 = (if a.n = 0 then 0 else a.mean) ∧ mean a.m2 (y 1) ∧
    ∃ t, SumRounded f32 .rne false (fv f32 (y 1)) (fv f32 eps) t ∧ InverseRootRounded (fv f32 t) (y 2))

/-- The tokens `ts` are what an `rstat` cell with the configuration `cfg` emits at the end of a row (R323): `a` its partial, not empty, `row` its
buffered tokens. -/
def RowTokens (cfg : Nat) (a : Partial) (row ts : List Token) : Prop :=
  let rms : Bool := cfg % 2 == 1
  let code := cfg / 2 ^ 7 % 64
  let eps := if code = 0 then 0 else (code + 63) * 2 ^ 23
  ∃ y : Nat → Nat, RowFinal rms a eps y ∧ match cfg / 2 % 4 with
    | 0 => ts = [Token.data 3 (if rms then [a.n, a.mean] else [a.n, a.mean, a.m2]) 0]
    | 1 => ts = [Token.data 3 (if rms then [y 0, y 1] else [y 0, y 1, y 2]) 0]
    | _ => ∃ z : Nat → Nat → Nat, ts = (List.range row.length).map (fun k => Token.data 3 ((List.range 8).map (z k)) 0) ∧
        ∀ k < row.length, ∀ j < 8, let x := (elements 3 (row.getD k default)).getD j 0
          if rms then ProductRounded f32 .rne false (fv f32 x) (fv f32 (y 1)) (z k j)
          else ∃ u, SumRounded f32 .rne false (fv f32 x) (fv f32 (y 0)).negate u ∧ ProductRounded f32 .rne false (fv f32 u) (fv f32 (y 2)) (z k j)

/-! ### Cells (R87, R88, R278, R321, R322) -/

/-- Scale code and elements of a block quantised by R87. -/
def Quantised (f : Fmt) (emax : Int) (v : List Val) (scale : Nat) (q : Nat → Nat) : Prop :=
  let abs (x : Rat) : Rat := if x < 0 then -x else x
  ((∃ x ∈ v, x.isFinite = false) → scale = 255 ∧ ∀ k < v.length, q k = 0) ∧
    ((∀ x ∈ v, x.isFinite = true) → ∃ e : Int, -127 ≤ e ∧ e ≤ 127 ∧ (scale : Int) = e + 127 ∧ ((∀ x ∈ v, ratOf x = 0) → e = -127) ∧
      (-127 < e → ∃ x ∈ v, pow2 (e + emax) ≤ abs (ratOf x)) ∧ (e < 127 → ∀ x ∈ v, abs (ratOf x) < pow2 (e + emax + 1)) ∧
      ∀ k x, v[k]? = some x → RoundedRat f .rne true (ratOf x * pow2 (-e)) (q k) ∧
        (ratOf x = 0 → q k = if x.neg? then 2 ^ (f.width - 1) else 0))

/-- The format of an MX or float link type's elements (R267). -/
def linkFmt (t : Nat) : Fmt :=
  match t with
  | 4 => bf16 | 5 => f16 | 6 => e4m3 | 7 => e5m2 | 8 => e2m1 | 9 => e4m3 | 10 => e5m2 | _ => f32

/-- One accumulator goes through one step of R88: `ps` the pairs of elements, `e` the sum of the scale exponents, or `none` where a scale is 0xFF. -/
def MacStep (ps : List (Val × Val)) (e : Option Int) (acc acc' : Nat) : Prop :=
  let infinite (neg : Bool) : Prop := ∃ p ∈ ps, (p.1.isInf = true ∨ p.2.isInf = true) ∧ (p.1.neg? ^^ p.2.neg?) = neg
  let bad : Prop := e = none ∨ (infinite true ∧ infinite false) ∨
    ∃ p ∈ ps, p.1.isNan = true ∨ p.2.isNan = true ∨ (p.1.isInf && p.2.isZero || p.1.isZero && p.2.isInf) = true
  let sum : Rat := (ps.map fun p => ratOf p.1 * ratOf p.2).sum
  ∃ s : Val, SumRounded f32 .rne false (fv f32 acc) s acc' ∧ (bad → s = .nan) ∧ (¬bad → ∀ neg, infinite neg → s = .inf neg) ∧
    (¬bad → (∀ neg, ¬infinite neg) → ∀ x, e = some x → s.isFinite = true ∧ ratOf s = sum * pow2 x ∧
      (sum = 0 → s = .zero (ps.all fun p => (p.1.isZero || p.2.isZero) && (p.1.neg? ^^ p.2.neg?))))

/-- A bank of 8 × 8 accumulators after the panel of the tokens `as` and `bs` of type `t` (R88, R274). -/
def MacPanel (t : Nat) (old : List Word) (as bs : List Token) (new : List Word) : Prop :=
  let k := if t = 4 ∨ t = 5 then 1 else if t = 8 then 4 else 2
  let steps := if t = 8 then 8 else 16
  let val (x : Token) (n : Nat) : Val := fv (linkFmt t) ((elements t x).getD n 0)
  ∀ i < 8, ∀ j < 8,
    let a := as.getD i default
    let b := bs.getD j default
    let e : Option Int := if t < 8 then some 0 else if a.side = 255#8 ∨ b.side = 255#8 then none
      else some ((a.side.toNat : Int) + (b.side.toNat : Int) - 254)
    ∃ acc : Nat → Nat, acc 0 = (old.getD (8 * i + j) 0).toNat ∧ acc steps = (new.getD (8 * i + j) 0).toNat ∧
      ∀ s < steps, MacStep ((List.range k).map fun q => (val a (k * s + q), val b (k * s + q))) e (acc s) (acc (s + 1))

/-- An element of a `cvt` cell's output from one of its input (R322): `mode`, `sat` its config, `side` the input's scale code. -/
def CellConverted (st dt cfg side e y : Nat) : Prop :=
  let m := modeOf (cfg % 4)
  let sat : Bool := cfg / 4 % 2 == 1
  let num (t x : Nat) : Int := if t = 2 then (BitVec.ofNat 32 x).toInt else (BitVec.ofNat 8 x).toInt
  let isI (t : Nat) : Prop := t = 2 ∨ t = 11
  let isF (t : Nat) : Prop := (3 ≤ t ∧ t ≤ 7) ∨ t = 15
  let top (t : Nat) : Int := if t = 2 then 2 ^ 31 - 1 else 2 ^ 7 - 1
  (8 ≤ st → st ≤ 10 → match fv (linkFmt st) e with
    | .nan => y = f32.nan
    | .inf neg => y = if side = 255 then f32.nan else overflowCode f32 .rne false neg
    | .zero neg => y = if side = 255 then f32.nan else if neg then 2 ^ 31 else 0
    | .num _ _ => if side = 255 then y = f32.nan else RoundedRat f32 .rne false (ratOf (fv (linkFmt st) e) * pow2 ((side : Int) - 127)) y) ∧
  (st = 15 → dt = 3 → y = e) ∧
  (isF st → isF dt → ¬(st = 15 ∧ dt = 3) → RoundedVal (linkFmt dt) m sat (fv (linkFmt st) e) y) ∧
  (isF st → isI dt → match fv (linkFmt st) e with
    | .nan | .zero _ => num dt y = 0
    | .inf neg => num dt y = if neg then -top dt - 1 else top dt
    | .num a b => ∃ q, Picked m (mkRat a b) q ∧ num dt y = max (-top dt - 1) (min q (top dt))) ∧
  (isI st → isF dt → RoundedRat (linkFmt dt) m sat (num st e) y ∧ (num st e = 0 → y = 0)) ∧
  (st = 11 → dt = 2 → num 2 y = num 11 e) ∧
  (st = 2 → dt = 11 → if sat then num 11 y = max (-(2 ^ 7)) (min (num 2 e) (2 ^ 7 - 1)) else y = e % 2 ^ 8)

/-- An element of an `alu` cell's result (R190, R321). -/
def AluElement (op : Nat) (sat : Bool) (p q y : Nat) : Prop :=
  let int (x : Nat) : Int := (BitVec.ofNat 32 x).toInt
  let clamp (x : Int) : Int := max (-(2 ^ 31)) (min x (2 ^ 31 - 1))
  y < 2 ^ 32 ∧ match op with
    | 0 => if sat then int y = clamp (int p + int q) else y = (p + q) % 2 ^ 32
    | 1 => if sat then int y = clamp (int p - int q) else y = (p + (2 ^ 32 - q)) % 2 ^ 32
    | 2 => y = p * q % 2 ^ 32
    | 3 => int y = min (int p) (int q)
    | 4 => int y = max (int p) (int q)
    | 5 => y = p &&& q
    | 6 => y = p ||| q
    | 7 => y = p ^^^ q
    | 8 => y = p * 2 ^ q % 2 ^ 32
    | 9 => y = p / 2 ^ q
    | 10 => ∀ k < 32, y.testBit k = p.testBit (min (k + q) 31)
    | 11 => y = if p = q then 1 else 0
    | _ => y = if int p < int q then 1 else 0

/-- The pair `a` is before the pair `b` in the total order of R278. -/
def KvBefore (a b : Nat) : Prop :=
  let x := fv f32 (a % 2 ^ 32)
  let y := fv f32 (b % 2 ^ 32)
  let index (w : Nat) : Int := (BitVec.ofNat 32 (w / 2 ^ 32)).toInt
  let below (x y : Val) : Prop := (x.isNan = false ∧ y.isNan = true) ∨ x.lt y = true ∨ (x = .zero true ∧ y = .zero false)
  below x y ∨ (¬below y x ∧ index a < index b)

/-- `y` lies within `k` ulp of a number by R216: ulp is the spacing of the format there, subnormals included. -/
def WithinUlps (f : Fmt) (k : Nat) (x : Rat) (y : Nat) : Prop :=
  let val (c : Nat) : Rat := ratOf (fv f c)
  let a : Rat := if x < 0 then -x else x
  ∀ c < f.maxCode, val c ≤ a → a < val (c + 1) → (val y - x) * (val y - x) ≤ (k * (val (c + 1) - val c)) * (k * (val (c + 1) - val c))

/-- The value of a `w`-bit pattern of an integer type code 0 to 7 (R147). -/
def intOf (t w bits : Nat) : Int := if t < 4 then (BitVec.ofNat w bits).toInt else ((bits % 2 ^ w : Nat) : Int)

/-- From every context in which row `i` issues cleanly, it answers a next state that differs in its pack alone, whose executing lanes
satisfy `post`, a relation of the context, the pack left behind and the lane. -/
def Gives (i : Instr) (s : State) (post : Ctx → Pack → Nat → Prop) : Prop :=
  ∀ c, Issues i s c → Clean i c → c.pack.shaped = true →
    ∃ p', exec i s = .next (setPack s p') ∧ ∀ l < 64, c.exec.has l = true → post c p' l

/-- Row `i`, in context `c`, answers a next state in which its path has gone on and its pack keeps all but the row's destinations; `post`
says the rest, of the machine around the pack and of the pack. -/
def Retires (i : Instr) (s : State) (c : Ctx) (post : State → Pack → Prop) : Prop :=
  ∃ u p', exec i s = .next (setPack u p') ∧ KeepsRest (destRegs i) (destPreds i) c.exec c.pack p' ∧ p'.sto = c.pack.sto ∧
    Advanced i c c.pack p' ∧ post u p'

/-! ### Accesses -/

/-- The checks of R236 let every executing lane of a global access through: each address is aligned, and lane by lane, ascending, it
resolves to the physical addresses and translations of `as`; `s'` is the machine after the translations. -/
structure Reached (s : State) (c : Ctx) (acc : Acc) (size align : Nat) (addr : Nat → Nat) (as : List LaneAcc) (s' : State) : Prop where
  aligned : ∀ l < 64, c.exec.has l = true → addr l % align = 0
  found   : resolveLanes s c.pack acc size addr c.exec.lanes = (as.map fun a => (a.lane, Resolved.ok a.pa a.t), s')

/-- The bytes of an ordinary access lie in the K9's own memory, seen by every die alike: no kind-1 page, no software-coherent page. -/
def LaneAcc.plain (a : LaneAcc) : Prop := a.t.kind = 0 ∧ a.t.sc = false

/-- No byte that the accesses of a core read lies in a poisoned granule (R428, R429). -/
def Unpoisoned (s : State) (core : Nat) (as : List LaneAcc) (n : Nat) : Prop := ∀ a ∈ as, l2Poisoned s (dieOf core) a.t a.pa n = false

/-- `f` is the fault reported for an instruction whose executing lanes `m` meet what `cause` says, with the address or offset `detail`: the
lowest code, the lanes that meet it, and the lowest such lane's detail (R68, R69). -/
def Reports (m : Mask) (cause : Nat → Option Nat) (detail : Nat → Quad) (f : FaultReq) : Prop :=
  (∃ l < 64, m.has l = true ∧ cause l = some f.code ∧ f.detail = detail l ∧ ∀ k < l, m.has k = true → cause k ≠ some f.code) ∧
    (∀ l < 64, m.has l = true → ∀ code, cause l = some code → f.code ≤ code) ∧
    ∀ l < 64, (f.lanes.has l = true ↔ m.has l = true ∧ cause l = some f.code)

/-- The little-endian number in `n` bytes of memory (R4). -/
def memNum (s : State) (pa n : Nat) : Nat := numLE (memRead Config.blankByte s.mem pa n)

/-- What a load of access size `sz` (R149, R239) leaves in field `d` of lane `l` for the bytes that hold the number `v`. -/
def Pack.loaded (p : Pack) (sz : Nat) (d : Reg) (l v : Nat) : Prop :=
  match sz with
  | 3 => (p.pair d.toNat l).toNat = v
  | 4 => ∀ k < 4, (p.reg (d.toNat + k) l).toNat = v / 2 ^ (32 * k) % 2 ^ 32
  | 5 => (p.reg d.toNat l).toInt = (BitVec.ofNat 8 v).toInt
  | 6 => (p.reg d.toNat l).toInt = (BitVec.ofNat 16 v).toInt
  | _ => (p.reg d.toNat l).toNat = v

/-- The number in the register field that a store of `n` bytes takes its data from (R149, R240). -/
def Pack.stored (p : Pack) (n : Nat) (d : Reg) (l : Nat) : Nat :=
  (if n ≤ 4 then (p.reg d.toNat l).toNat
   else if n = 8 then (p.pair d.toNat l).toNat
   else (p.pair d.toNat l).toNat + 2 ^ 64 * (p.pair (d.toNat + 2) l).toNat) % 2 ^ (8 * n)

/-- No lane of a pack may still see a line as it was (R64, R119). -/
def SeesNow (s : State) (loc : PackLoc) : Prop := ∀ e ∈ (getCore s loc.core).early, e.loc ≠ loc

/-- A lane of a pack has no store queued. -/
def QueueFree (s : State) (loc : PackLoc) (l : Nat) : Prop := ∀ e ∈ (getCore s loc.core).storeQ, e.loc = loc → e.lane ≠ l

/-- The atomics of the executing lanes on memory, one lane after another: each lane's old value, and memory after them (R245). -/
def atomicSteps (w : Nat) (f : Nat → Nat → Option Nat) : List LaneAcc → List Host.Cell → List (Nat × Nat) × List Host.Cell
  | [], m => ([], m)
  | a :: as, m =>
    let old := numLE (memRead Config.blankByte m a.pa (w / 8))
    let m' := match f a.lane old with
      | some v => memWrite Config.blankByte m a.pa (bytesLE (w / 8) v)
      | none => m
    let r := atomicSteps w f as m'
    ((a.lane, old) :: r.1, r.2)

/-- The same on any store of bytes, at the address `at_ l` of each lane. -/
def atomicRun (w : Nat) (f : Nat → Nat → Option Nat) (at_ : Nat → Nat) : List Nat → (Nat → Byte) → List (Nat × Nat) × (Nat → Byte)
  | [], m => ([], m)
  | l :: ls, m =>
    let a := at_ l
    let old := numLE ((List.range (w / 8)).map fun k => m (a + k))
    let m' : Nat → Byte := match f l old with
      | some v => fun x => if a ≤ x ∧ x < a + w / 8 then (bytesLE (w / 8) v).getD (x - a) 0 else m x
      | none => m
    let r := atomicRun w f at_ ls m'
    ((l, old) :: r.1, r.2)

/-! ### Paths and sets -/

/-- The pack holds a running path at `pc` whose mask is `m` (R40). -/
def Pack.runsAt (p : Pack) (pc : Quad) (m : Mask) : Prop := ∃ q ∈ p.paths, q.pc = pc ∧ q.mask = m ∧ q.wait = .run

/-- A path goes through a change of its pack untouched, but for the slot it holds. -/
def Pack.keepsPath (p : Pack) (q : Path) : Prop := ∃ r ∈ p.paths, r.pc = q.pc ∧ r.mask = q.mask ∧ r.wait = q.wait

/-- A rejoin set after the completion check (R50). -/
def RSet.settled (r : RSet) : RSet := if r.opened = true ∧ (r.member = 0#64 ∨ r.arrived = r.member) then ⟨0#64, 0#64, false⟩ else r

/-- A rejoin set that the completion check completes (R50). -/
def RSet.completes (r : RSet) : Prop := r.opened = true ∧ r.member ≠ 0#64 ∧ r.arrived = r.member

/-- The executing lanes that name set `k` (R48). -/
def Ctx.naming (c : Ctx) (o : S) (k : Nat) : Mask := c.exec &&& Mask.ofPred fun l => c.name o l == k

/-- Row `i` stops the pack with the fault `f` of the issuing path, the machine otherwise as in `t` (R67, R363). -/
def Faults (i : Instr) (s : State) (c : Ctx) (t : State) (f : FaultReq) : Prop :=
  exec i s = .next (raiseFault t ((findPack t c.pack.loc).getD c.pack) c.idx (twoWords i) f)

/-! ### Barrier objects and operand memory -/

/-- Object `k` of a herd. -/
def barAt (s : State) (herd k : Nat) : Option Barrier := (findHerd s herd).bind fun h => h.bars[k]?

/-- Slot `k` of a herd's operand memory. -/
def slotAt (s : State) (herd k : Nat) : Option OpmSlot := (findHerd s herd).bind fun h => h.opm[k]?

/-- The completion check finds a phase at its end (R108). -/
def Barrier.ends (b : Barrier) : Prop := b.inv = false ∧ b.init ≠ 0 ∧ b.pending = 0 ∧ b.balance = 0

/-- Object `k` of a herd stands in `t` as `b` and the completion check leave it (R108, R250). -/
def barBecomes (t : State) (herd k : Nat) (b : Barrier) : Prop :=
  (b.ends → barAt t herd k = some { b with phase := !b.phase, pending := b.next.getD b.init, next := none }) ∧
    (¬b.ends → barAt t herd k = some b)

/-- Every path of another running pack of the herd that waits on object `k` in a phase of `phases` goes on in `t` at the next instruction,
with its predicate at `value` in its lanes (R252). -/
def waitersGo (s t : State) (issuer : PackLoc) (herd : Herd) (k : Nat) (phases : List Bool) (value : Bool) : Prop :=
  ∀ p ∈ s.packs, p.loc ≠ issuer → p.herd = some herd.id → p.stop = .running → laneZeroOnly s p = false → ∀ q ∈ p.paths, ∀ ph pr,
    q.wait = .bar k ph pr → ph ∈ phases → ∃ p' ∈ t.packs, p'.loc = p.loc ∧ p'.runsAt (q.pc + 8) q.mask ∧
      (pr < 7 → p.preds.length = 7 → ∀ l < 64, q.mask.has l = true → p'.pred pr l = value)

/-! ### Residencies -/

/-- The issuing pack controls residency `r`, whose region is in the spatial state (R295, R296), and no register of it holds an error. -/
structure InRegion (s : State) (c : Ctx) (r : Residency) : Prop where
  exec  : c.exec ≠ 0#64
  ctl   : c.pack.control = some r.id
  found : findRes s r.id = some r
  phase : r.phase = .active
  place : r.ctl = c.pack.loc
  sound : c.pack.bad = []

/-- Row `i` leaves the machine as it was but for its pack, which is at the next instruction, and its residency; `post` says what they are. -/
def RegionRow (i : Instr) (s : State) (c : Ctx) (r : Residency) (post : State → Residency → Pack → Prop) : Prop :=
  ∃ t r' p', exec i s = .next t ∧ findRes t r.id = some r' ∧ findPack t c.pack.loc = some p' ∧ t.mem = s.mem ∧ t.herds = s.herds ∧
    p'.runsAt (nextPc i c) c.path.mask ∧ post t r' p'

/-- Row `i` waits at its instruction: its path gives up its slot, and no register changes. -/
def RegionWaits (i : Instr) (s : State) (c : Ctx) (kind arg : Nat) : Prop :=
  ∃ t p', exec i s = .next t ∧ findPack t c.pack.loc = some p' ∧ p'.regs = c.pack.regs ∧ t.mem = s.mem ∧ t.herds = s.herds ∧
    (p'.paths[c.idx]?).map (fun q => (q.pc, q.mask, q.wait)) = some (c.path.pc, c.path.mask, .again kind arg)

/-- Cell `i` of residency `r`, which has number `res`, may fire on data: it is live, its consumers have room, nothing is buffered, and no
aligned mark heads its inputs (R265, R269). -/
structure MayFire (s : State) (res : Nat) (r : Residency) (i : Nat) : Prop where
  found    : findRes s res = some r
  live     : r.live i = true
  room     : r.canEmit i = true
  buffer   : (r.cell i).data.buffer = []
  unmarked : r.alignedMark i (r.inputs i) = none

/-- The tokens at the heads of the inputs `ks` of cell `i` are `xs`: data of types that the cell accepts. -/
def Residency.heads (r : Residency) (i : Nat) (ks : List Nat) (xs : List Token) : Prop :=
  ks.map (r.head? i) = xs.map some ∧ ∀ x ∈ ks.zip xs, x.2.kind = .data ∧ acceptsType (r.cell i).word x.1 x.2.ltype = true

/-- The residency with the heads of the inputs `ks` of cell `i` taken. -/
def Residency.takes (r : Residency) (i : Nat) (ks : List Nat) : Residency := ks.foldl (fun r k => r.take i k) r

/-- Cell `i` of residency `r`, which has number `res`, may fire on the mark `m`: it is live, its consumers have room, nothing is buffered, and the
mark heads every one of its inputs (R265, R269). -/
structure Marked (s : State) (res : Nat) (r : Residency) (i : Nat) (m : TokenKind) : Prop where
  aligned : m = .eos ∨ m = .sweep
  found   : findRes s res = some r
  live    : r.live i = true
  room    : r.canEmit i = true
  buffer  : (r.cell i).data.buffer = []
  some_   : r.inputs i ≠ []
  heads   : ∀ k ∈ r.inputs i, ∃ x, r.head? i k = some x ∧ x.kind = m

/-- The residency once cell `i` has taken the mark from the inputs `ks` and sent one on to each consumer; after EOS it fires no more (R269). -/
def Residency.passes (r : Residency) (i : Nat) (ks : List Nat) (m : TokenKind) : Residency :=
  let r := (r.takes i ks).emit i ⟨m, 0, 0, 0⟩
  if m = .eos then r.modCell i fun c => { c with eos := true } else r

/-- A firing of row `i` leaves its residency as `r'`, and nothing else of the machine changes. -/
def FiresTo (i : Instr) (s : State) (res : Nat) (r' : Residency) : Prop :=
  ∃ t, exec i s = .next t ∧ findRes t res = some r' ∧ t = { s with residencies := t.residencies, fresh := t.fresh }

/-! ### States as the machine makes them -/

/-- The lists of a state have the lengths the manual gives them: registers, predicates and sets of every pack, of a herd saved with its
registers too, the windows of every partition, the ports (R17, R48, R342, R410); and no die holds two untracked copies of a line (R404). -/
def State.shaped (s : State) : Prop :=
  (∀ p ∈ s.packs, p.shaped = true) ∧ (∀ h ∈ s.herds, h.place ≠ .detached → ∀ p ∈ h.packs, p.shaped = true) ∧
    (∀ p ∈ s.parts, p.memwin.length = 8) ∧ s.ports.length = 17 ∧ (s.scCopies.map fun c => (c.line, c.die)).Nodup

/-- The bytes of an instruction's words, each word in its byte order, the first at the lowest address (R4, R142). -/
def codeBytes (i : Instr) : List Byte := (encode i).flatMap fun w => bytesLE 8 w.toNat

end Sys2Proof.Machine
end

