-- ==== Sys2Proof/Certificates/Slice0/Obligations.lean ====
section
/-!
DEFINITION. The statements about the machine, each from the rules of the manual that its docstring names.
-/

open Sys2Proof Sys2Proof.Machine

/-! ### Rows that act on their pack alone -/

/-- FRAME AND COMPLETION of every row that acts on its pack alone (R142, R144, R146, R185, R206): issuing with clean sources, it answers a
next state in which nothing but its pack has changed; there, registers and predicates outside its destinations, and every lane outside the
executing ones, read as before; the path goes on at the next instruction; and a stochastic state changes only in `swr` and `cvts`.
Choices of the model that it rests on: log 8. -/
def Obligations.RegisterFrame : Prop :=
  ∀ (i : Instr) (s : State) (c : Ctx), registerOnly i = true → Issues i s c → Clean i c →
    ∃ p', exec i s = .next (setPack s p') ∧ KeepsRest (destRegs i) (destPreds i) c.exec c.pack p' ∧ Advanced i c c.pack p' ∧
      (writesSto i = false → p'.sto = c.pack.sto)

/-- R186, with the operands of R183 and the immediates of R184: each executing lane of d reads as put of the exact result.
The 64-bit product of `imulw` (R186), the carry chain of `iaddc` (R187) and the address of `lea` (R188). -/
def Obligations.IntegerArithmetic : Prop :=
  (∀ (h : Head) (s : State),
     (∀ o : VI,
       let gives (i : Instr) (x : Int → Int → Int) := Gives i s fun c p l =>
         p.valT (VI.ty o) (VI.d o) l = putVal (x (c.pack.valT (VI.ty o) (VI.a o) l) (operandB o c.pack l)) (VI.ty o) (VI.sat o)
       gives (.iadd h o) (· + ·) ∧ gives (.isub h o) (· - ·) ∧
       gives (.imul h o) (fun a b => if VI.variant o = 0 then a * b else a * b / 2 ^ tyW (VI.ty o)) ∧
       gives (.imin h o) min ∧ gives (.imax h o) max) ∧
     (∀ o : V,
       let gives (i : Instr) (x : Int → Int → Int → Int) := Gives i s fun c p l =>
         p.valT o.ty o.d l = putVal (x (c.pack.valT o.ty o.a l) (c.pack.valT o.ty o.b l) (c.pack.valT o.ty o.c l)) o.ty o.sat
       gives (.imad h o) (fun a b c => a * b + c) ∧ gives (.iabs h o) (fun a _ _ => (a.natAbs : Int)) ∧
       gives (.iclamp h o) (fun a b c => min (max a b) c) ∧ gives (.isad h o) (fun a b c => ((a - b).natAbs : Int) + c))) ∧
  (∀ (h : Head) (o : V) (s : State),
     Gives (.imulw h o) s (fun c p l =>
       (p.pair o.d.toNat l).toInt = Int.bmod (c.pack.valT o.ty o.a l * c.pack.valT o.ty o.b l) (2 ^ 64)) ∧
     Gives (.iaddc h o) s (fun c p l =>
       let ci : Int := (c.pack.pred o.c.toNat l).toNat
       let x := if o.fn.toNat < 8 then c.pack.valT o.ty o.a l + c.pack.valT o.ty o.b l + ci
         else c.pack.valT o.ty o.a l - c.pack.valT o.ty o.b l - ci
       p.valT o.ty o.d l = x % 2 ^ tyW o.ty ∧
       (o.fn.toNat % 8 < 7 → p.pred (o.fn.toNat % 8) l = if o.fn.toNat < 8 then decide (2 ^ tyW o.ty ≤ x) else decide (x < 0))) ∧
     Gives (.lea h o) s (fun c p l =>
       p.pair o.d.toNat l = c.pack.pair o.a.toNat l + BitVec.ofInt 64 (c.pack.valT o.ty o.b l * 2 ^ o.fn.toNat)))

/-- R190 bit by bit: the two-operand and three-operand logic, and the shifts, whose amounts are never taken modulo the width. -/
def Obligations.LogicAndShifts : Prop :=
  ∀ (h : Head) (s : State),
    (∀ o : VI,
      let bits (i : Instr) (f : Bool → Bool → Bool) := Gives i s fun c p l => ∀ k < tyW (VI.ty o),
        (p.bitsT (VI.ty o) (VI.d o) l).testBit k =
          f ((c.pack.bitsT (VI.ty o) (VI.a o) l).testBit k)
            (((operandB o c.pack l) % 2 ^ tyW (VI.ty o)).toNat.testBit k ^^ decide (VI.variant o = 1))
      bits (.and h o) and ∧ bits (.or h o) or ∧ bits (.xor h o) xor) ∧
    (∀ o : VI,
      let amount (c : Ctx) (l : Nat) : Nat := match o with
        | .v w => (c.pack.reg w.b.toNat l).toNat
        | .i w => match w.lit with
          | none => w.imm.toNat
          | some q => (q.extractLsb' 0 32).toNat
      Gives (.shl h o) s (fun c p l => ∀ k < tyW (VI.ty o), (p.bitsT (VI.ty o) (VI.d o) l).testBit k =
        (decide (amount c l ≤ k) && (c.pack.bitsT (VI.ty o) (VI.a o) l).testBit (k - amount c l))) ∧
      Gives (.shr h o) s (fun c p l => ∀ k < tyW (VI.ty o), (p.bitsT (VI.ty o) (VI.d o) l).testBit k =
        (c.pack.bitsT (VI.ty o) (VI.a o) l).testBit (k + amount c l)) ∧
      Gives (.sar h o) s (fun c p l => ∀ k < tyW (VI.ty o), (p.bitsT (VI.ty o) (VI.d o) l).testBit k =
        (c.pack.bitsT (VI.ty o) (VI.a o) l).testBit (min (k + amount c l) (tyW (VI.ty o) - 1)))) ∧
    (∀ o : V,
      Gives (.lop3 h o) s (fun c p l => ∀ k < tyW o.ty, (p.bitsT o.ty o.d l).testBit k =
        o.fn.toNat.testBit (((c.pack.bitsT o.ty o.a l).testBit k).toNat + 2 * ((c.pack.bitsT o.ty o.b l).testBit k).toNat +
          4 * ((c.pack.bitsT o.ty o.c l).testBit k).toNat)) ∧
      Gives (.fshf h o) s (fun c p l =>
        let y := c.pack.reg o.a.toNat l ++ c.pack.reg o.b.toNat l
        let n := min (c.pack.reg o.c.toNat l).toNat 32
        p.reg o.d.toNat l = if o.fn = 0#8 then (y >>> n).extractLsb' 0 32 else (y <<< n).extractLsb' 32 32))

/-- The bit-field rows of R191 and the counting rows of R190. -/
def Obligations.BitFields : Prop :=
  ∀ (h : Head) (o : V) (s : State),
    (let field (r : Reg) (c : Ctx) (l : Nat) : Nat × Nat := ((c.pack.reg r.toNat l).toNat % 256, (c.pack.reg r.toNat l).toNat / 256 % 256)
     Gives (.bfx h o) s (fun c p l => ∀ k < tyW o.ty, (p.bitsT o.ty o.d l).testBit k =
       let (pos, len) := field o.b c l
       let n := min len (tyW o.ty - pos)
       (decide (n ≠ 0) && (decide (k < n) || tySigned o.ty) && (c.pack.bitsT o.ty o.a l).testBit (pos + min k (n - 1)))) ∧
     Gives (.bfi h o) s (fun c p l => ∀ k < tyW o.ty, (p.bitsT o.ty o.d l).testBit k =
       let (pos, len) := field o.c c l
       if pos ≤ k ∧ k < pos + len then (c.pack.bitsT o.ty o.b l).testBit (k - pos) else (c.pack.bitsT o.ty o.a l).testBit k)) ∧
    Gives (.popc h o) s (fun c p l =>
      (p.reg o.d.toNat l).toNat = ((List.range (tyW o.ty)).filter fun k => (c.pack.bitsT o.ty o.a l).testBit k).length) ∧
    Gives (.clz h o) s (fun c p l =>
      let n := (p.reg o.d.toNat l).toNat
      n ≤ tyW o.ty ∧ (∀ k < n, (c.pack.bitsT o.ty o.a l).testBit (tyW o.ty - 1 - k) = false) ∧
      (n < tyW o.ty → (c.pack.bitsT o.ty o.a l).testBit (tyW o.ty - 1 - n) = true)) ∧
    Gives (.brev h o) s (fun c p l => ∀ k < tyW o.ty,
      (p.bitsT o.ty o.d l).testBit k = (c.pack.bitsT o.ty o.a l).testBit (tyW o.ty - 1 - k))

/-- R192 and R193: the compare's condition, combined with c as fn[4:3] says, and the selection by a predicate. -/
def Obligations.CompareAndSelect : Prop :=
  ∀ (h : Head) (s : State),
    (∀ o : VI, Gives (.icmp h o) s fun c p l =>
      let a := c.pack.valT (VI.ty o) (VI.a o) l
      let b := operandB o c.pack l
      let q : Bool := match VI.variant o % 8 with
        | 0 => a = b | 1 => a ≠ b | 2 => a < b | 3 => a ≤ b | 4 => a > b | _ => a ≥ b
      let r : Bool := match o with
        | .i _ => q
        | .v w => match w.fn.toNat / 8 with
          | 0 => q
          | 1 => q && c.pack.pred w.c.toNat l
          | 2 => q || c.pack.pred w.c.toNat l
          | _ => q ^^ c.pack.pred w.c.toNat l
      (VI.d o).toNat < 7 → p.pred (VI.d o).toNat l = r) ∧
    (∀ o : V, Gives (.sel h o) s fun c p l =>
      p.bitsT o.ty o.d l = if c.pack.pred o.c.toNat l then c.pack.bitsT o.ty o.a l else c.pack.bitsT o.ty o.b l)

/-- R189: the exact sum of the accumulator and the products of the elements, limited once by put.
R214: `hdp2` rounds the exact sum of an FP32 operand and two products into FP32 once; a NaN operand gives the canonical NaN. -/
def Obligations.DotProducts : Prop :=
  ∀ (h : Head) (o : V) (s : State),
    let element (e : Nat) (w : Word) (k : Nat) (signed : Bool) : Int :=
      if signed then (w.extractLsb' (e * k) e).toInt else (w.extractLsb' (e * k) e).toNat
    let dot (e : Nat) (c : Ctx) (l : Nat) : Int :=
      (c.pack.reg o.c.toNat l).toInt + ((List.range (32 / e)).map fun k =>
        element e (c.pack.reg o.a.toNat l) k (o.fn.getLsbD 0) * element e (c.pack.reg o.b.toNat l) k (o.fn.getLsbD 1)).sum
    Gives (.idp4 h o) s (fun c p l => (p.reg o.d.toNat l).toInt = putVal (dot 8 c l) 2 o.sat) ∧
    Gives (.idp2 h o) s (fun c p l => (p.reg o.d.toNat l).toInt = putVal (dot 16 c l) 2 o.sat) ∧
    Gives (.hdp2 h o) s (fun c p l =>
      let v (e : Nat) (r : Reg) : Val := c.pack.fval o.ty e r l
      let acc := c.pack.fval 8 0 o.c l
      let x := ratOf acc + ratOf (v 0 o.a) * ratOf (v 0 o.b) + ratOf (v 1 o.a) * ratOf (v 1 o.b)
      let y := (p.reg o.d.toNat l).toNat
      let vs := [acc, v 0 o.a, v 0 o.b, v 1 o.a, v 1 o.b]
      ((∀ u ∈ vs, u.isFinite = true) → RoundedRat f32 (modeOf o.rnd) o.sat x y) ∧ ((∃ u ∈ vs, u.isNan = true) → y = f32.nan))

/-- R78-R80 and R207, element by element: `fadd`, `fsub`, `fmul`, `ffma`, `fdiv`, `fsqrt` and `fscale` of finite operands round the exact
result once, by their mode, with R79 on overflow and `.sat`, subnormals included; zeros have the sign that R76 and R207 give; `frnd`
delivers the integer its mode picks; and without `.x2` a 16-bit result leaves d[31:16] = 0 (R205).  On special operands: NaN operands and invalid operations give the canonical NaN, an infinite
operand its limiting infinity and a division by zero an infinity by the signs, each with R79 in every mode and under `.sat`, a division by an
infinity a zero, and the difference of equal finite operands is +0, or -0 toward minus infinity. -/
def Obligations.FloatSpecialOperands : Prop :=
  ∀ (h : Head) (o : V) (s : State) (e : Nat), e = 0 ∨ (e = 1 ∧ o.fn.getLsbD 0 = true) →
    let f := fmtOf o.ty
    let post (bad : Val → Val → Val → Bool) : Ctx → Pack → Nat → Prop := fun c p l =>
      bad (c.pack.fval o.ty e o.a l) (c.pack.fval o.ty e o.b l) (c.pack.fval o.ty e o.c l) = true → p.elem o.ty e o.d l = f.nan
    let isInf (v : Val) : Bool := v == .inf true || v == .inf false
    let isZero (v : Val) : Bool := v == .zero true || v == .zero false
    let m := modeOf o.rnd
    let neg0 (b : Bool) : Nat := if b then 2 ^ (f.width - 1) else 0
    let exact (i : Instr) (ok : Val → Val → Val → Prop) (x : Rat → Rat → Rat → Rat) (zero : Val → Val → Nat → Prop) : Prop :=
      Gives i s fun c p l =>
        let a := c.pack.fval o.ty e o.a l
        let b := c.pack.fval o.ty e o.b l
        let k := c.pack.fval o.ty e o.c l
        let y := p.elem o.ty e o.d l
        ok a b k → RoundedRat f m o.sat (x (ratOf a) (ratOf b) (ratOf k)) y ∧ (x (ratOf a) (ratOf b) (ratOf k) = 0 → zero a b y)
    let two (a b _ : Val) : Prop := a.isFinite = true ∧ b.isFinite = true
    exact (.fadd h o) two (fun a b _ => a + b) (fun a b y => y = neg0 (if isZero a && a.neg? == b.neg? then a.neg? else decide (o.rnd = 3))) ∧
    exact (.fsub h o) two (fun a b _ => a - b) (fun a b y => y = neg0 (if isZero a && a.neg? != b.neg? then a.neg? else decide (o.rnd = 3))) ∧
    exact (.fmul h o) two (fun a b _ => a * b) (fun a b y => y = neg0 (a.neg? ^^ b.neg?)) ∧
    exact (.ffma h o) (fun a b k => two a b k ∧ k.isFinite = true) (fun a b k => a * b + k) (fun _ _ y => y = neg0 true ∨ y = neg0 false) ∧
    exact (.fdiv h o) (fun a b k => two a b k ∧ isZero b = false) (fun a b _ => a / b) (fun a b y => y = neg0 (a.neg? ^^ b.neg?)) ∧
    Gives (.fsqrt h o) s (fun c p l =>
      let x := ratOf (c.pack.fval o.ty e o.a l)
      (0 < x → Rounded f m o.sat (fun w => w ≤ 0 ∨ w * w ≤ x) (fun w => 0 ≤ w ∧ x ≤ w * w) (p.elem o.ty e o.d l)) ∧
      (∀ b, c.pack.fval o.ty e o.a l = .zero b → p.elem o.ty e o.d l = neg0 b)) ∧
    Gives (.fscale h o) s (fun c p l =>
      let n := (c.pack.reg o.b.toNat l).toInt
      match c.pack.fval o.ty e o.a l with
      | .num _ _ => RoundedRat f m o.sat (let x := ratOf (c.pack.fval o.ty e o.a l)
          if 0 ≤ n then x * 2 ^ n.toNat else x / 2 ^ (-n).toNat) (p.elem o.ty e o.d l)
      | .inf b => p.elem o.ty e o.d l = neg0 b + if o.sat then f.maxCode else f.inf
      | .zero b => p.elem o.ty e o.d l = neg0 b
      | .nan => p.elem o.ty e o.d l = f.nan) ∧
    Gives (.frnd h o) s (fun c p l =>
      match c.pack.fval o.ty e o.a l with
      | .num x d => ∃ k : Int, Picked m (mkRat x d) k ∧ ratOf (p.fval o.ty e o.d l) = k ∧ (p.fval o.ty e o.d l).isFinite = true ∧
          (k = 0 → p.elem o.ty e o.d l = neg0 (decide (x < 0)))
      | .inf b => p.elem o.ty e o.d l = neg0 b + f.inf
      | .zero b => p.elem o.ty e o.d l = neg0 b
      | .nan => p.elem o.ty e o.d l = f.nan) ∧
    (∀ a : Bool, Gives (.fadd h o) s fun c p l =>
      c.pack.fval o.ty e o.a l = .inf a → (c.pack.fval o.ty e o.b l).isFinite = true ∨ c.pack.fval o.ty e o.b l = .inf a →
        p.elem o.ty e o.d l = overflowCode f m o.sat a) ∧
    Gives (.fadd h o) s (post fun a b _ => a.isNan || b.isNan || (isInf a && isInf b && a != b)) ∧
    Gives (.fsub h o) s (post fun a b _ => a.isNan || b.isNan || (isInf a && a == b)) ∧
    Gives (.fmul h o) s (post fun a b _ => a.isNan || b.isNan || (isInf a && isZero b) || (isZero a && isInf b)) ∧
    Gives (.ffma h o) s (post fun a b c => a.isNan || b.isNan || c.isNan || (isInf a && isZero b) || (isZero a && isInf b)) ∧
    Gives (.fdiv h o) s (post fun a b _ => a.isNan || b.isNan || (isInf a && isInf b) || (isZero a && isZero b)) ∧
    Gives (.fsqrt h o) s (post fun a _ _ => a.isNan || a == .inf true || decide (ratOf a < 0)) ∧
    (let sumInf (a b : Val) : Option Bool := match a, b with
       | .nan, _ => none
       | _, .nan => none
       | .inf x, .inf y => if x = y then some x else none
       | .inf x, _ => some x
       | _, .inf y => some y
       | _, _ => none
     let prodInf (a b : Val) : Option Bool :=
       if a.isNan || b.isNan || isZero a || isZero b || (a.isFinite && b.isFinite) then none else some (a.neg? ^^ b.neg?)
     let flip (b : Val) : Val := match b with
       | .inf y => .inf !y
       | v => v
     let infinite (i : Instr) (sign : Val → Val → Val → Option Bool) : Prop := Gives i s fun c p l => ∀ neg,
       sign (c.pack.fval o.ty e o.a l) (c.pack.fval o.ty e o.b l) (c.pack.fval o.ty e o.c l) = some neg →
         p.elem o.ty e o.d l = overflowCode f m o.sat neg
     infinite (.fadd h o) (fun a b _ => sumInf a b) ∧ infinite (.fsub h o) (fun a b _ => sumInf a (flip b)) ∧
     infinite (.fmul h o) (fun a b _ => prodInf a b) ∧
     infinite (.ffma h o) (fun a b k => match prodInf a b with
       | some x => sumInf (.inf x) k
       | none => if a.isFinite && b.isFinite && isInf k then sumInf (.zero false) k else none) ∧
     infinite (.fdiv h o) (fun a b _ =>
       if (isInf a && b.isFinite) || (isZero b && a.isFinite && !isZero a) then some (a.neg? ^^ b.neg?) else none) ∧
     infinite (.fsqrt h o) (fun a _ _ => if a = .inf false then some false else none) ∧
     Gives (.ffma h o) s (post fun a b k => match prodInf a b with
       | some x => k == .inf !x
       | none => false) ∧
     Gives (.fdiv h o) s (fun c p l => (c.pack.fval o.ty e o.a l).isFinite = true → isInf (c.pack.fval o.ty e o.b l) = true →
       p.elem o.ty e o.d l = neg0 ((c.pack.fval o.ty e o.a l).neg? ^^ (c.pack.fval o.ty e o.b l).neg?))) ∧
    (∀ i ∈ [Instr.fadd h o, .fsub h o, .fmul h o, .ffma h o, .fdiv h o, .fsqrt h o, .fscale h o, .frnd h o], Gives i s fun _ p l =>
      o.fn.getLsbD 0 = false → o.ty ≠ 8 → (p.reg o.d.toNat l).toNat < 2 ^ 16) ∧
    Gives (.fsub h o) s (fun c p l =>
      c.pack.elem o.ty e o.a l = c.pack.elem o.ty e o.b l → (c.pack.fval o.ty e o.a l).isFinite = true →
        p.elem o.ty e o.d l = if o.rnd = 3 then 2 ^ (f.width - 1) else 0) ∧
    Gives (.fdiv h o) s (fun c p l => ∀ neg, c.pack.fval o.ty e o.b l = .zero neg → ratOf (c.pack.fval o.ty e o.a l) ≠ 0 → o.rnd = 0 →
      o.sat = false → p.fval o.ty e o.d l = .inf (decide (ratOf (c.pack.fval o.ty e o.a l) < 0) ^^ neg))

/-- R208: `fmin` and `fmax` of two NaNs, of one, and of none, where the result is one operand's pattern and no operand lies beyond it, with
-0 below +0.
R209 and R210: the conditions of `fcmp` on finite operands as rationals, on infinities and on NaN, combined with c as fn[4:3] says, and the
one class bit of `fclass`.  R205: without `.x2` a 16-bit result leaves d[31:16] = 0.
R215-R217, the special functions: their special operands; the exact points of `frcp`, `frsq`, `fexp2` and `flog2`; for a finite operand,
`frcp` and `frsq` (as its square) within their bound, each other function within its bound of the value that `specialExact` gives the function there,
and a result that is zero or has that value's sign.  The choice within a bound is free (log 8). -/
def Obligations.FloatComparisons : Prop :=
  (∀ (h : Head) (o : V) (s : State) (e : Nat), e = 0 ∨ (e = 1 ∧ o.fn.getLsbD 0 = true) →
     let f := fmtOf o.ty
     let post (less : Val → Val → Bool) (negWins : Bool) : Ctx → Pack → Nat → Prop := fun c p l =>
       let a := c.pack.elem o.ty e o.a l
       let b := c.pack.elem o.ty e o.b l
       let d := p.elem o.ty e o.d l
       ((fv f a).isNan = true → (fv f b).isNan = true → d = f.nan) ∧
       ((fv f a).isNan = true → (fv f b).isNan = false → d = if o.fn.getLsbD 1 then f.nan else b) ∧
       ((fv f a).isNan = false → (fv f b).isNan = true → d = if o.fn.getLsbD 1 then f.nan else a) ∧
       ((fv f a).isNan = false → (fv f b).isNan = false →
         (d = a ∨ d = b) ∧ less (fv f a) (fv f d) = false ∧ less (fv f b) (fv f d) = false ∧
         (∀ x, fv f a = .zero x → fv f b = .zero !x → fv f d = .zero negWins))
     Gives (.fmin h o) s (post (fun x y => x.lt y) true) ∧ Gives (.fmax h o) s (post (fun x y => y.lt x) false) ∧
     (∀ i ∈ [Instr.fmin h o, .fmax h o, .frcp h o, .frsq h o, .fexp2 h o, .flog2 h o, .fsin h o, .fcos h o, .ftanh h o, .fsig h o, .ferf h o,
         .gelu h o], Gives i s fun _ p l => o.fn.getLsbD 0 = false → o.ty ≠ 8 → (p.reg o.d.toNat l).toNat < 2 ^ 16)) ∧
  (∀ (h : Head) (o : V) (s : State),
     Gives (.fcmp h o) s (fun c p l =>
       let e := (o.fn.getLsbD 5).toNat
       let a := c.pack.fval o.ty e o.a l
       let b := c.pack.fval o.ty e o.b l
       let below (x y : Val) : Bool := if x.isFinite && y.isFinite then decide (ratOf x < ratOf y) else
         (x == .inf true && y != .inf true) || (y == .inf false && x != .inf false)
       let same (x y : Val) : Bool := if x.isFinite && y.isFinite then decide (ratOf x = ratOf y) else x == y
       let holds : Bool := if a.isNan || b.isNan then decide (o.fn.toNat % 8 = 1 ∨ o.fn.toNat % 8 = 7) else match o.fn.toNat % 8 with
         | 0 => same a b | 1 => !same a b | 2 => below a b | 3 => below a b || same a b
         | 4 => below b a | 5 => below b a || same a b | 6 => true | _ => false
       o.d.toNat < 7 → p.pred o.d.toNat l = match o.fn.toNat / 8 % 4 with
         | 0 => holds | 1 => holds && c.pack.pred o.c.toNat l | 2 => holds || c.pack.pred o.c.toNat l | _ => holds ^^ c.pack.pred o.c.toNat l) ∧
     Gives (.fclass h o) s (fun c p l =>
       let w := (c.pack.reg o.a.toNat l).toNat / 2 ^ (tyBits o.ty * o.fn.toNat) % 2 ^ tyBits o.ty
       ∃ k < 10, p.reg o.d.toNat l = 1#32 <<< k ∧
         (k = 0 ↔ fv (fmtOf o.ty) w = .inf true) ∧ (k = 7 ↔ fv (fmtOf o.ty) w = .inf false) ∧
         (k = 3 ↔ fv (fmtOf o.ty) w = .zero true) ∧ (k = 4 ↔ fv (fmtOf o.ty) w = .zero false) ∧
         (8 ≤ k ↔ (fv (fmtOf o.ty) w).isNan = true) ∧ (k = 1 ∨ k = 2 ↔ ratOf (fv (fmtOf o.ty) w) < 0))) ∧
  (∀ (h : Head) (o : V) (s : State) (e : Nat), e = 0 ∨ (e = 1 ∧ o.fn.getLsbD 0 = true) →
     let f := fmtOf o.ty
     let inf (neg : Bool) : Nat := f.inf + if neg then 2 ^ (f.width - 1) else 0
     let zero (neg : Bool) : Nat := if neg then 2 ^ (f.width - 1) else 0
     let is (x : Rat) : Nat → Prop := fun y => (fv f y).isFinite = true ∧ ratOf (fv f y) = x
     let nan : Nat → Prop := fun y => y = f.nan
     -- what the function gives −∞, −0, +0 and +∞
     let ends (i : Instr) (mi mz pz pi : Nat → Prop) : Prop := Gives i s fun c p l =>
       let y := p.elem o.ty e o.d l
       match c.pack.fval o.ty e o.a l with
       | .nan => y = f.nan
       | .inf neg => if neg then mi y else pi y
       | .zero neg => if neg then mz y else pz y
       | .num _ _ => True
     let at_ (i : Instr) (x y : Rat) : Prop := Gives i s fun c p l =>
       (c.pack.fval o.ty e o.a l).isFinite = true → ratOf (c.pack.fval o.ty e o.a l) = x → (∃ k, is y k) → is y (p.elem o.ty e o.d l)
     let pow (q : Int) : Rat := if 0 ≤ q then 2 ^ q.toNat else 1 / 2 ^ (-q).toNat
     let near (i : Instr) (fn : SpecialFn) (ulps : Nat) : Prop := Gives i s fun c p l =>
       let y := p.elem o.ty e o.d l
       ∀ n d, c.pack.fval o.ty e o.a l = .num n d → (fv f y).isFinite = true → (fn = .log2 → 0 < n) →
         let x : Rat := mkRat (specialExact fn n d).1 (specialExact fn n d).2
         x ≠ 0 → WithinUlps f ulps x y ∧ (ratOf (fv f y) = 0 ∨ (ratOf (fv f y) < 0 ↔ x < 0))
     let ulps := if o.ty = 8 then 2 else 1
     ends (.frcp h o) (· = zero true) (· = inf true) (· = inf false) (· = zero false) ∧
     ends (.frsq h o) nan (· = inf true) (· = inf false) (· = zero false) ∧
     ends (.fexp2 h o) (· = zero false) (is 1) (is 1) (· = inf false) ∧
     ends (.flog2 h o) nan (· = inf true) (· = inf true) (· = inf false) ∧
     ends (.fsin h o) nan (· = zero true) (· = zero false) nan ∧ ends (.fcos h o) nan (is 1) (is 1) nan ∧
     ends (.ftanh h o) (is (-1)) (· = zero true) (· = zero false) (is 1) ∧ ends (.ferf h o) (is (-1)) (· = zero true) (· = zero false) (is 1) ∧
     ends (.fsig h o) (· = zero false) (is (1 / 2)) (is (1 / 2)) (is 1) ∧ ends (.gelu h o) (· = zero true) (· = zero true) (· = zero false) (· = inf false) ∧
     (∀ q : Int, at_ (.frcp h o) (pow q) (pow (-q)) ∧ at_ (.frcp h o) (-pow q) (-pow (-q)) ∧ at_ (.frsq h o) (pow (2 * q)) (pow (-q)) ∧
       at_ (.fexp2 h o) q (pow q) ∧ at_ (.flog2 h o) (pow q) q) ∧
     (∀ i ∈ [Instr.frsq h o, .flog2 h o], Gives i s fun c p l => ratOf (c.pack.fval o.ty e o.a l) < 0 → p.elem o.ty e o.d l = f.nan) ∧
     Gives (.frcp h o) s (fun c p l =>
       let x := ratOf (c.pack.fval o.ty e o.a l)
       let y := p.elem o.ty e o.d l
       (c.pack.fval o.ty e o.a l).isFinite = true → x ≠ 0 →
         (o.ty ≠ 8 → RoundedRat f .rne false (1 / x) y) ∧ (o.ty = 8 → (fv f y).isFinite = true → WithinUlps f 1 (1 / x) y)) ∧
     Gives (.frsq h o) s (fun c p l =>
       let x := ratOf (c.pack.fval o.ty e o.a l)
       let y := p.elem o.ty e o.d l
       0 < x → (o.ty ≠ 8 → Rounded f .rne false (fun w => w ≤ 0 ∨ w * w * x ≤ 1) (fun w => 0 ≤ w ∧ 1 ≤ w * w * x) y) ∧
         (o.ty = 8 → ∀ k, ratOf (fv f k) * ratOf (fv f k) * x ≤ 1 → 1 ≤ ratOf (fv f (k + 1)) * ratOf (fv f (k + 1)) * x → k < f.maxCode →
           k ≤ y + 1 ∧ y ≤ k + 2)) ∧
     near (.fexp2 h o) .exp2 ulps ∧ near (.flog2 h o) .log2 ulps ∧ near (.fsin h o) .sin ulps ∧ near (.fcos h o) .cos ulps ∧
     near (.ftanh h o) .tanh ulps ∧ near (.fsig h o) .sig ulps ∧ near (.ferf h o) .erf ulps ∧
     (o.fn.toNat / 2 = 0 → near (.gelu h o) .geluErf (2 * ulps)) ∧ (o.fn.toNat / 2 = 1 → near (.gelu h o) .geluTanh (2 * ulps)) ∧
     (o.fn.toNat / 2 = 2 → near (.gelu h o) .geluSig (2 * ulps)))

/-- R81 and R211, `cvt`: between integers each converted element is the source's value cut to the destination's width, or clamped under
`.sat`; from float to float, and from an integer to float, it is the exact value rounded by the mode, with R79 on overflow; from float to
an integer it is the integer the mode picks, clamped, NaN giving 0; and the other elements of d keep their bits.  That `.sat` is accepted
from an integer to float is the model's choice (log 63).
R213: `pack` puts two such results next to each other.  R85, R87, R226 and R227: `mxq` gives the lanes of each half the scale code of the
half's largest magnitude and the elements rounded by it; `mxdq` the value of an element and its scale, rounded into FP32. -/
def Obligations.IntegerConversions : Prop :=
  (∀ (h : Head) (o : V) (s : State), Gives (.cvt h o) s fun c p l =>
    let st := o.fn.toNat % 16
    let dt := o.ty
    let ws := tyBits st
    let wd := tyBits dt
    let n := min (elemsOf st) (elemsOf dt)
    let from_ := o.fn.toNat / 16 % 4
    let to_ := o.fn.toNat / 64
    let elt (v w k : Nat) : Nat := v / 2 ^ (w * k) % 2 ^ w
    (st < 8 → dt < 8 → ∀ k < n,
      let x := intOf st ws (elt (c.pack.bitsT st o.a l) ws (from_ + k))
      let y := intOf dt wd (elt (p.bitsT dt o.d l) wd (to_ + k))
      y = if o.sat then (if dt < 4 then max (-(2 ^ (wd - 1))) (min x (2 ^ (wd - 1) - 1)) else max 0 (min x (2 ^ wd - 1)))
        else if dt < 4 then Int.bmod x (2 ^ wd) else x % 2 ^ wd) ∧
    (∀ k < n,
      let src := elt (c.pack.bitsT st o.a l) ws (from_ + k)
      let y := elt (p.bitsT dt o.d l) wd (to_ + k)
      let x := intOf st ws src
      let z := intOf dt wd y
      let lo : Int := if dt < 4 then -(2 ^ (wd - 1)) else 0
      let hi : Int := if dt < 4 then 2 ^ (wd - 1) - 1 else 2 ^ wd - 1
      (8 ≤ st → 8 ≤ dt → RoundedVal (fmtOf dt) (modeOf o.rnd) o.sat (fv (fmtOf st) src) y) ∧
      (st < 8 → 8 ≤ dt → RoundedRat (fmtOf dt) (modeOf o.rnd) o.sat x y ∧ (x = 0 → y = 0)) ∧
      (8 ≤ st → dt < 8 → match fv (fmtOf st) src with
        | .nan | .zero _ => z = 0
        | .inf neg => z = if neg then lo else hi
        | .num a b => ∃ q, Picked (modeOf o.rnd) (mkRat a b) q ∧ z = max lo (min q hi))) ∧
    (∀ k, k < to_ ∨ (to_ + n ≤ k ∧ k < elemsOf dt) → elt (p.bitsT dt o.d l) wd k = elt (c.pack.bitsT dt o.d l) wd k)) ∧
  (∀ (h : Head) (o : V) (s : State), Gives (.pack h o) s fun c p l =>
    let st := o.fn.toNat % 16
    let elt (r : Reg) (k : Nat) : Nat := (c.pack.reg r.toNat l).toNat / 2 ^ (16 * k) % 2 ^ tyBits st
    let u0 := elt o.a (o.fn.toNat / 32 % 2)
    let u1 := elt o.b (o.fn.toNat / 64 % 2)
    let d := (p.reg o.d.toNat l).toNat
    let hi := o.fn.toNat / 16 % 2
    let h16 := d / 2 ^ (16 * hi) % 2 ^ 16
    let into (x y : Nat) : Prop := RoundedVal (fmtOf o.ty) (modeOf o.rnd) o.sat (fv (fmtOf st) x) y
    (o.ty = st → d = u1 * 2 ^ 16 + u0) ∧
    (o.ty ≠ st → o.ty ≤ 10 → into u0 (d % 2 ^ 16) ∧ into u1 (d / 2 ^ 16)) ∧
    (11 ≤ o.ty → into u0 (h16 % 2 ^ 8) ∧ into u1 (h16 / 2 ^ 8) ∧
      d / 2 ^ (16 * (1 - hi)) % 2 ^ 16 = (c.pack.reg o.c.toNat l).toNat / 2 ^ (16 * (1 - hi)) % 2 ^ 16)) ∧
  (∀ (h : Head) (o : V) (s : State),
    let f : Fmt := match o.ty with
      | 13 => e2m1 | 14 => e4m3 | _ => e5m2
    let emax : Int := match o.ty with
      | 13 => 2 | 14 => 8 | _ => 15
    let pow (q : Int) : Rat := if 0 ≤ q then 2 ^ q.toNat else 1 / 2 ^ (-q).toNat
    let abs (x : Rat) : Rat := if x < 0 then -x else x
    Gives (.mxq h o) s (fun c p l =>
      let v (m : Nat) : Val := if c.exec.has m then c.pack.fval 8 0 o.a m else .zero false
      let mates := (List.range 32).map (l / 32 * 32 + ·)
      let d := (p.reg o.d.toNat l).toNat
      ((∃ m ∈ mates, (v m).isFinite = false) → d = 0xFF00) ∧
      ((∀ m ∈ mates, (v m).isFinite = true) → ∃ e : Int, -127 ≤ e ∧ e ≤ 127 ∧ (d / 256 : Nat) = e + 127 ∧
        ((∀ m ∈ mates, ratOf (v m) = 0) → e = -127) ∧
        (-127 < e → ∃ m ∈ mates, pow (e + emax) ≤ abs (ratOf (v m))) ∧
        (e < 127 → ∀ m ∈ mates, abs (ratOf (v m)) < pow (e + emax + 1)) ∧
        RoundedRat f .rne true (ratOf (v l) * pow (-e)) (d % 256) ∧ (ratOf (v l) = 0 → d % 256 = if (v l).neg? then 2 ^ (f.width - 1) else 0))) ∧
    Gives (.mxdq h o) s (fun c p l =>
      let a := (c.pack.reg o.a.toNat l).toNat
      let q := fv f (a % if o.ty = 13 then 16 else 256)
      let k := a / 256 % 256
      let y := (p.reg o.d.toNat l).toNat
      (k = 255 → y = f32.nan) ∧
      (k ≠ 255 → match q with
        | .nan => y = f32.nan
        | .inf neg => y = overflowCode f32 .rne false neg
        | .zero neg => y = if neg then 2 ^ 31 else 0
        | .num _ _ => RoundedRat f32 .rne false (ratOf q * pow ((k : Int) - 127)) y)))

/-- R82-R84, R194, R195 and R212: `cvts` advances the stochastic state of an executing lane once for each element and rounds the element by
the new state, the other elements of d as they were; `swr` writes the state and `swr.rd` reads it. -/
def Obligations.StochasticState : Prop :=
  ∀ (h : Head) (o : V) (s : State),
    let next (w : Word) : Word := w * 0x2C9B7F3D#32 + 0x6D2B79F5#32
    Gives (.cvts h o) s (fun c p l =>
      let st := o.fn.toNat % 16
      let n := min (elemsOf st) (elemsOf o.ty)
      let start := Lanes.get 0#32 c.pack.sto l
      let elt (p : Pack) (t : Nat) (r : Reg) (k : Nat) : Nat := (p.reg r.toNat l).toNat / 2 ^ (tyBits t * k) % 2 ^ tyBits t
      Lanes.get 0#32 p.sto l = Nat.repeat next n start ∧
      (∀ k < n, RoundedSto (fmtOf o.ty) o.sat (fv (fmtOf st) (elt c.pack st o.a (o.fn.toNat / 16 % 4 + k))) (Nat.repeat next (k + 1) start)
        (elt p o.ty o.d (o.fn.toNat / 64 + k))) ∧
      ∀ k, k < o.fn.toNat / 64 ∨ (o.fn.toNat / 64 + n ≤ k ∧ k < elemsOf o.ty) → elt p o.ty o.d k = elt c.pack o.ty o.d k) ∧
    Gives (.swr h o) s (fun c p l =>
      if o.fn = 0#8 then Lanes.get 0#32 p.sto l = c.pack.reg o.a.toNat l else p.reg o.d.toNat l = Lanes.get 0#32 c.pack.sto l)

/-- R229, R230 and R232: the shuffles with their validity, the votes over the executing lanes, and the matches among them.
R89, R90 and R231: `redl` gives the root of the tree over the executing lanes, each application as its operation and type have it, wrapped,
saturated or rounded, and `scanl` that over the lanes up to the lane, or below it under `.excl`, with its identity where none is left; so the
wrapping integer sum is the sum of the lanes.  Without `.x2` a 16-bit result leaves d[31:16] = 0.
R91-R94, R233 and R234: `rstat` merges the partials of the executing lanes in the tree of R89, or gives each its own under `.lane`, and
merges or adds the partial in c under `.acc`; `rstatf` finalises a partial. -/
def Obligations.CrossLane : Prop :=
  (∀ (h : Head) (o : V) (s : State),
     Gives (.shfl h o) s (fun c p l =>
       let n := (c.pack.reg o.b.toNat l).toNat
       let wd := match o.fn.toNat / 4 % 8 with
         | 0 => 64 | 1 => 2 | 2 => 4 | 3 => 8 | 4 => 16 | _ => 32
       let q := l % wd
       let m := match o.fn.toNat % 4 with
         | 0 => l - q + n | 1 => l - q + (q + n) % wd | 2 => l - q + (q ^^^ n) | _ => l - q + wd - 1 - q
       let valid := (n < wd ∨ o.fn.toNat % 4 = 3) ∧ c.act.has m = true
       (valid → p.bitsT o.ty o.d l = c.pack.bitsT o.ty o.a m) ∧ (¬valid → p.bitsT o.ty o.d l = c.pack.bitsT o.ty o.a l) ∧
       (o.c.toNat < 7 → (p.pred o.c.toNat l = true ↔ valid))) ∧
     Gives (.vote h o) s (fun c p l =>
       let holds (m : Nat) : Prop := c.exec.has m = true ∧ c.pack.pred o.a.toNat m = true
       let fails (m : Nat) : Prop := c.exec.has m = true ∧ c.pack.pred o.a.toNat m = false
       (o.fn = 4#8 → ∀ m < 64, ((p.pair o.d.toNat l).getLsbD m = true ↔ holds m)) ∧
       (o.fn ≠ 4#8 → o.d.toNat < 7 → (p.pred o.d.toNat l = true ↔ match o.fn.toNat with
         | 0 => ∃ m < 64, holds m
         | 1 => ¬∃ m < 64, fails m
         | 2 => ¬∃ m < 64, holds m
         | _ => (¬∃ m < 64, fails m) ∨ ¬∃ m < 64, holds m))) ∧
     Gives (.laneMatch h o) s (fun c p l =>
       let same (m m' : Nat) : Prop := c.pack.bitsT o.ty o.a m = c.pack.bitsT o.ty o.a m'
       (o.fn = 0#8 → ∀ m < 64, ((p.pair o.d.toNat l).getLsbD m = true ↔ c.exec.has m = true ∧ same m l)) ∧
       (o.fn = 1#8 →
         let all := ∀ m < 64, c.exec.has m = true → same m l
         (all → p.pair o.d.toNat l = c.exec) ∧ (¬all → p.pair o.d.toNat l = 0#64) ∧
         (o.c.toNat < 7 → (p.pred o.c.toNat l = true ↔ all))))) ∧
  (∀ (h : Head) (o : V) (s : State), o.fn.toNat % 8 = 0 → o.sat = false → isInt o.ty = true →
     let sum (c : Ctx) (keep : Nat → Bool) : Nat :=
       (((List.range 64).filter fun m => c.exec.has m && keep m).map fun m => c.pack.bitsT o.ty o.a m).sum
     Gives (.redl h o) s (fun c p l => p.bitsT o.ty o.d l = sum c (fun _ => true) % 2 ^ tyW o.ty) ∧
     Gives (.scanl h o) s (fun c p l =>
       p.bitsT o.ty o.d l = sum c (fun m => if o.fn.getLsbD 4 then decide (m < l) else decide (m ≤ l)) % 2 ^ tyW o.ty)) ∧
  (∀ (h : Head) (o : V) (s : State) (e : Nat), e = 0 ∨ (e = 1 ∧ o.fn.getLsbD 3 = true) →
     let flt : Bool := decide (8 ≤ o.ty)
     let f := fmtOf o.ty
     let w := tyW o.ty
     let op := o.fn.toNat % 8
     let applies (a b y : Nat) : Prop :=
       if flt then
         match op with
         | 0 => SumRounded f (modeOf o.rnd) o.sat (fv f a) (fv f b) y
         | 1 => LeastOf f false a b y
         | _ => LeastOf f true a b y
       else y < 2 ^ w ∧ match op with
         | 0 => intOf o.ty w y = putVal (intOf o.ty w a + intOf o.ty w b) o.ty o.sat
         | 1 => intOf o.ty w y = min (intOf o.ty w a) (intOf o.ty w b)
         | 2 => intOf o.ty w y = max (intOf o.ty w a) (intOf o.ty w b)
         | 3 => y = a &&& b
         | 4 => y = a ||| b
         | _ => y = a ^^^ b
     let identity : Nat :=
       if flt then (match op with
         | 0 => 0
         | 1 => f.inf
         | _ => f.inf + 2 ^ (f.width - 1))
       else match op with
         | 1 => if o.ty < 4 then 2 ^ (w - 1) - 1 else 2 ^ w - 1
         | 2 => if o.ty < 4 then 2 ^ (w - 1) else 0
         | 3 => 2 ^ w - 1
         | _ => 0
     let value (p : Pack) (r : Reg) (l : Nat) : Nat := if flt then p.elem o.ty e r l else p.bitsT o.ty r l
     let leaves (c : Ctx) (keep : Nat → Bool) (m : Nat) : Option Nat := if c.exec.has m && keep m then some (value c.pack o.a m) else none
     Gives (.redl h o) s (fun c p l => IsTree applies (leaves c fun _ => true) (some (value p o.d l))) ∧
     Gives (.scanl h o) s (fun c p l =>
       let keep (m : Nat) : Bool := if o.fn.getLsbD 4 then decide (m < l) else decide (m ≤ l)
       let some_ : Prop := ∃ m < 64, c.exec.has m = true ∧ keep m = true
       (some_ → IsTree applies (leaves c keep) (some (value p o.d l))) ∧ (¬some_ → value p o.d l = identity)) ∧
     ∀ i ∈ [Instr.redl h o, .scanl h o], Gives i s fun _ p l => o.ty = 9 ∨ o.ty = 10 → o.fn.getLsbD 3 = false → (p.reg o.d.toNat l).toNat < 2 ^ 16) ∧
  (∀ (h : Head) (o : V) (s : State),
     let word (p : Pack) (r : Reg) (k l : Nat) : Nat := (p.reg (r.toNat + k) l).toNat
     let part (rms : Bool) (p : Pack) (r : Reg) (l : Nat) : Partial := ⟨word p r 0 l, word p r 1 l, if rms then 0 else word p r 2 l⟩
     Gives (.rstat h o) s (fun c p l =>
       let rms := o.fn.getLsbD 0
       let merged : Partial → Partial → Partial → Prop := if rms then RmsMerged else WelfordMerged
       let result := part rms p o.d l
       let old := part rms c.pack o.c l
       (rms = false → word p o.d 3 l = 0) ∧
       ∃ (x : Nat → Nat) (one : Nat → Partial) (tree : Partial),
         (∀ m, if o.ty = 8 then x m = word c.pack o.a 0 m else RoundedVal f32 .rne false (c.pack.fval o.ty 0 o.a m) (x m)) ∧
         (∀ m, (one m).n = 1 ∧ (one m).m2 = 0 ∧ if rms then RoundedVal f32 .rne false (fv f32 (x m)).square (one m).mean else (one m).mean = x m) ∧
         IsTree merged (fun m => if c.exec.has m then some (if o.fn.toNat / 4 = 2 then part rms c.pack o.a m else one m) else none) (some tree) ∧
         match o.fn.toNat / 4, o.fn.getLsbD 1 with
         | 1, false => result = one l
         | 1, true => if rms then RmsAdded old (x l) result else WelfordMerged old ⟨1, x l, 0⟩ result
         | _, false => result = tree
         | _, true => merged old tree result) ∧
     Gives (.rstatf h o) s (fun c p l =>
       RowFinal (o.fn.getLsbD 0) (part (o.fn.getLsbD 0) c.pack o.a l) (word c.pack o.b 0 l) (fun k => word p o.d k l) ∧
         (o.fn.getLsbD 0 = false → word p o.d 3 l = 0)))

/-- R47, R155, R194 and R195: moves keep bits, predicates pack into a register and out of it, and `srd` reads the special registers; in a
handler pack the numbers of pack and herd read 0 (R436). -/
def Obligations.MovesAndSpecialRegisters : Prop :=
  ∀ (h : Head) (s : State),
    (∀ o : V,
      Gives (.mov h o) s (fun c p l => ∀ k < 2 ^ o.fn.toNat, p.reg (o.d.toNat + k) l = c.pack.reg (o.a.toNat + k) l) ∧
      Gives (.pops h o) s (fun c p l => o.d.toNat < 7 →
        let a := c.pack.pred o.a.toNat l
        let b := c.pack.pred o.b.toNat l
        p.pred o.d.toNat l = match o.fn.toNat with
          | 0 => a && b | 1 => a || b | 2 => a ^^ b | 3 => a && !b | _ => a || !b) ∧
      Gives (.p2v h o) s (fun c p l => ∀ k < 32, (p.reg o.d.toNat l).getLsbD k = (decide (k < 8) && c.pack.pred k l)) ∧
      Gives (.v2p h o) s (fun c p l => ∀ k < 7,
        p.pred k l = if o.fn.getLsbD k then (c.pack.reg o.a.toNat l).getLsbD k else c.pack.pred k l)) ∧
    (∀ o : I, Gives (.movi h o) s fun _ p l => p.valT o.ty o.d l = putVal (immediateOf o) o.ty false) ∧
    (∀ o : S, Gives (.srd h o) s fun c p l =>
      let herd := c.pack.herd.bind (findHerd s)
      let desc := (herd.bind (herdLaunch s)).map (·.desc)
      let word := (p.reg o.d.toNat l).toNat
      match o.imm.toNat with
      | 0 => word = l
      | 1 => word = if c.pack.isHandler then 0 else c.pack.num % 2 ^ 32
      | 2 => word = (herd.map (·.x)).getD 0 % 2 ^ 32
      | 3 => word = (herd.map (·.y)).getD 0 % 2 ^ 32
      | 4 => word = (herd.map (·.z)).getD 0 % 2 ^ 32
      | 5 => word = (desc.map (·.gridx)).getD 0 % 2 ^ 32
      | 6 => word = (desc.map (·.gridy)).getD 0 % 2 ^ 32
      | 7 => word = (desc.map (·.gridz)).getD 0 % 2 ^ 32
      | 8 => word = c.pack.loc.core % 2 ^ 32
      | 9 => word = c.pack.loc.core / 42 % 2 ^ 32
      | 10 => p.pair o.d.toNat l = s.clock
      | 11 => p.pair o.d.toNat l = c.act
      | _ => ∀ k < 32, (p.reg o.d.toNat l).getLsbD k = (decide (k < c.pack.setCount) && !(c.pack.rset k).opened))

/-! ### Memory -/

/-- R96, R347, R387, R388: what the checks of one access answer, in their order: canonical form, installed memory at machine level, and
below it a cached translation with its permission: R, W, X or both R and W by what the access does, U for a user pack, and for a store to a
patch page X and the bit of its slot, and a fetch there only below the slot map (R388, R390).
R67-R69, R236: what an access instruction reports where its executing lanes do not all pass: `ld`, `st` and the global atomics 7, 8 to 10
as the checks answer, or 15 for a poisoned byte that is read; the scratchpad stores and atomics 7, 11, 13, 14 and 15; with the lowest code,
its lanes, and the lowest lane's address.  R243: a cache operation needs a page that is mapped, with any permission.
Choices of the model that it rests on: logs 2, 22 and 59. -/
def Obligations.AccessChecks : Prop :=
  (∀ (s : State) (core part level size va : Nat) (acc : Acc),
    (canonical va = false → resolve s core part level acc va size = (.fault 8, s)) ∧
    (canonical va = true → level = 2 →
      (installedFrame va size = true → pageReady s (identityTlb part) va acc.writes = true →
        (∀ w ∈ s.waiting, w.page ≠ va / 65536) → ∃ t, resolve s core part level acc va size = (.ok va t, s) ∧ t.kind = 0 ∧ t.sc = false) ∧
      (installedFrame va size = false → resolve s core part level acc va size = (.fault 9, s))) ∧
    (∀ p t, canonical va = true → level < 2 → findPart s part = some p →
      (p.ptroot.getLsbD 0 = false → resolve s core part level acc va size = (.fault 9, s)) ∧
      (p.ptroot.getLsbD 0 = true → (getCore s core).tlb.find? (·.covers p.id (vpnOf va)) = some t →
        (permitted s t (level == 0) acc va = false → resolve s core part level acc va size = (.fault 10, s)) ∧
        (permitted s t (level == 0) acc va = true → pageReady s t (t.phys va) acc.writes = true →
          resolve s core part level acc va size = (.ok (t.phys va) t, usePage s t (t.phys va)) ∧
          (t.kind = 1 ∨ (∀ w ∈ s.waiting, w.page ≠ t.phys va / 65536) → usePage s t (t.phys va) = s)))) ∧
    (∀ (t : Tlb) (user : Bool), (t.patch = true → acc.writes = true → pageReady s t (t.phys va) true = true) →
      let byte (a : Nat) : Byte := memGet Config.blankByte (if t.kind = 1 then s.remote else s.mem) a
      let word := t.phys va % 65536 / 8
      let slot : Prop := word < 8064 ∧ (byte (t.phys va / 65536 * 65536 + 0xFC00 + word / 8)).getLsbD (word % 8) = true
      (permitted s t user acc va = true ↔ t.inside = true ∧ (user = true → t.u = true ∨ acc = .mapped) ∧ match acc with
        | .read => t.r = true
        | .rmw => t.r = true ∧ t.w = true
        | .fetch => t.x = true ∧ (t.patch = true → va % 65536 < 0xFC00)
        | .mapped => True
        | .write b64 => (t.patch = false → t.w = true) ∧ (t.patch = true → b64 = true ∧ t.x = true ∧ slot)))) ∧
  (∀ (s : State) (c : Ctx) (f : FaultReq),
    let free (t : State) : Prop := ∀ l < 64, c.exec.has l = true → QueueFree t c.pack.loc l
    -- a consumed error is also logged (R431)
    let takes (i : Instr) (t : State) : Prop := ∃ u, Faults i s c u f ∧ u = { t with aon := u.aon } ∧ (f.code ≠ 15 → u = t)
    let refuses (i : Instr) (acc : Acc) (n : Nat) (addr : Nat → Nat) (bad : State → Nat → Tlb → Bool) : Prop :=
      ∀ r s', Issues i s c → Clean i c → resolveLanes s c.pack acc n addr (c.exec.lanes.filter fun l => addr l % n == 0) = (r, s') →
        (∀ x ∈ r, x.2 ≠ .stall) → free s' →
        Reports c.exec (fun l => if addr l % n ≠ 0 then some 7 else match r.find? (·.1 == l) with
          | some (_, .fault code) => some code
          | some (_, .ok pa t) => if bad s' pa t then some 15 else none
          | _ => none) (fun l => BitVec.ofNat 64 (addr l)) f →
        takes i s'
    let refusesSpad (i : Instr) (n : Nat) (off : Nat → Int) (empty reads : Bool) : Prop :=
      Issues i s c → Clean i c → free s →
        Reports c.exec (fun l =>
          if off l % (n : Int) ≠ 0 then some 7
          else match c.herd s with
            | none => some 11
            | some hd =>
              if off l < 0 ∨ (hd.spadSize : Int) < off l + n then some 11
              else if off l < 16 * hd.bars.length then some 13
              else if empty = true ∧ touchesEmpty hd (off l).toNat n = true then some 14
              else if reads = true ∧ spadPoisoned hd (off l).toNat n = true then some 15
              else none) (fun l => BitVec.ofInt 64 (off l)) f →
        takes i s
    (∀ (h : Head) (o : M),
      refuses (.ld h o) .read (szBytes o.sz.toNat) (c.addrM o)
        (fun t pa x => l2Poisoned t (dieOf c.pack.loc.core) x pa (szBytes o.sz.toNat)) ∧
      refuses (.st h o) (.write (o.sz.toNat == 3)) (szBytes o.sz.toNat) (c.addrM o) (fun _ _ _ => false) ∧
      refusesSpad (.sts h o) (szBytes o.sz.toNat) (c.offM o) true false ∧ refusesSpad (.stse h o) (szBytes o.sz.toNat) (c.offM o) false false) ∧
    (∀ (h : Head) (o : MA),
      let n := atomWidth o.sz.toNat / 8
      (∀ i ∈ [Instr.atom h o, .red h o, .atomcas h o],
        refuses i .rmw n (c.addrMA o) fun t pa x => poisoned t x pa n) ∧
      ∀ i ∈ [Instr.atoms h o, .atomscas h o], refusesSpad i n (c.offMA o) true true))

/-- R100, R128, R236, R239: `ld` of accesses that pass their checks completes; it leaves memory, scratchpads and everything but caches as it
was; a lane with no queued store, which may not see its line as it was, and whose access is ordered, bypasses the L1 or finds no stale line
there, receives the bytes of memory; and an acquire at herd scope or wider leaves no global data line in the L1.
Choices of the model that it rests on: logs 10, 23, 27 and 60. -/
def Obligations.GlobalLoads : Prop :=
  ∀ (h : Head) (o : M) (s : State) (c : Ctx) (as : List LaneAcc) (s' : State),
    let n := szBytes o.sz.toNat
    let core := c.pack.loc.core
    Issues (.ld h o) s c → Clean (.ld h o) c → Reached s c .read n n (c.addrM o) as s' → Unpoisoned s' core as n →
    Retires (.ld h o) s c fun u p' =>
      u = { s' with cores := u.cores, near := u.near, scCopies := u.scCopies, fresh := u.fresh } ∧
      (c.pack.shaped = true → (∀ a ∈ as, a.plain) → SeesNow s' c.pack.loc →
        (o.ord ≠ 0 ∨ o.cop = 1 ∨ ∀ a ∈ as, ∀ x ∈ (getCore s' core).l1, x.instr = false → x.line = a.pa / 128 →
          x.bytes = memRead Config.blankByte s'.mem (x.line * 128) 128) →
        ∀ a ∈ as, QueueFree s' c.pack.loc a.lane → p'.loaded o.sz.toNat o.d a.lane (memNum s' a.pa n)) ∧
      (acquires o.ord.toNat o.sc.toNat = true → c.exec ≠ 0#64 → ∀ x ∈ (getCore u core).l1, x.instr = true)

/-- R63, R118, R236, R240: `st` of accesses that pass their checks retires: for each executing lane one entry, or one for each half of 16
bytes, goes to the tail of the core's store queue, with the physical address its address resolved to and the bytes of its data registers;
memory and all else stay as they were.
Choices of the model that it rests on: logs 2 and 23. -/
def Obligations.GlobalStores : Prop :=
  ∀ (h : Head) (o : M) (s : State) (c : Ctx) (as : List LaneAcc) (s' : State),
    let n := szBytes o.sz.toNat
    let core := c.pack.loc.core
    Issues (.st h o) s c → Clean (.st h o) c → Reached s c (.write (o.sz.toNat == 3)) n n (c.addrM o) as s' →
    Retires (.st h o) s c fun u p' =>
      u = { s' with cores := u.cores } ∧ (∀ k, k ≠ core → getCore u k = getCore s' k) ∧ p'.regs = c.pack.regs ∧
      ∃ es : List (List StoreEntry), getCore u core = { getCore s' core with storeQ := (getCore s' core).storeQ ++ es.flatten } ∧
        es.length = as.length ∧
        ∀ (j : Nat) (a : LaneAcc) (xs : List StoreEntry), as[j]? = some a → es[j]? = some xs →
          (∀ e ∈ xs, (e.loc, e.lane, e.strong, e.release, e.scope) = (c.pack.loc, a.lane, o.ord.toNat != 0, o.ord.toNat == 3, o.sc.toNat)) ∧
          ∃ bs, bs.length = n ∧ numLE bs = c.pack.stored n o.d a.lane ∧
            xs.map (·.op) = (if n ≤ 8 then [(0, bs)] else [(0, bs.take 8), (8, bs.drop 8)]).map fun x =>
              .global (a.pa + x.1) x.2 a.t.sc (if a.t.kind = 1 then some a.t.route else none) a.t.patch

/-- R63, R99, R237, R240, R402: a queued global store that nothing ahead of it holds up performs, and with it, in lane order, the other
lanes of its instruction at its bytes: every byte they cover reads as the last of them stored it, every other byte of memory reads as
before, and the entries leave the queue.
R104, R107, R240, R241: a queued scratchpad store performs: the bytes it covers read as stored and every other byte of the scratchpad as
before, outside barrier storage; and the lines it touches become full or empty as the entry says.
Choices of the model that it rests on: logs 6 and 23. -/
def Obligations.StoresPerform : Prop :=
  (∀ (s : State) (core idx : Nat) (e : StoreEntry) (pa : Nat) (bs : List Byte),
     let q := (getCore s core).storeQ
     let group (x : StoreEntry) : Bool := x == e || (e.loc == x.loc && e.issue == x.issue && e.op.meets x.op)
     let stored (x : StoreEntry) : Nat × List Byte := match x.op with
       | .global a y _ _ _ => (a, y)
       | _ => (0, [])
     q[idx]? = some e → (∀ k x, q[k]? = some x → group x = true → ∀ y ∈ q.take k, group y = true ∨ y.blocks x = false) →
     e.op = .global pa bs false none false → (∀ x ∈ q, group x = true → ∃ a y, x.op = .global a y false none false) →
     storeReady s e = true → memWf Config.blankByte s.mem = true →
     ∃ t, exec (.storePerform core idx) s = .next t ∧ (getCore t core).storeQ = q.filter (fun x => !group x) ∧
       t.mem = (q.filter group).foldl (fun m x => memWrite Config.blankByte m (stored x).1 (stored x).2) s.mem ∧
       (q.filter group = [e] → ∀ a, memGet Config.blankByte t.mem a =
         if pa ≤ a ∧ a < pa + bs.length then bs.getD (a - pa) 0 else memGet Config.blankByte s.mem a) ∧
       t.herds = s.herds ∧ t.packs = s.packs ∧ t.remote = s.remote ∧
       (q.filter group = [e] → ∀ n ∈ t.near, n.line = pa / 128 → n.die = core / 42 ∧ n.state = .m)) ∧
  (∀ (s : State) (core idx : Nat) (e : StoreEntry) (id : Nat) (hd : Herd) (off : Nat) (bs : List Byte) (effect : LineEffect),
     (getCore s core).storeQ[idx]? = some e → (∀ x ∈ (getCore s core).storeQ.take idx, x.blocks e = false) →
     (∀ k x, k ≠ idx → (getCore s core).storeQ[k]? = some x → x ≠ e ∧ ¬(e.loc = x.loc ∧ e.issue = x.issue ∧ e.op.meets x.op = true)) →
     e.op = .spad off bs effect → e.herd = some id → findHerd s id = some hd → storeReady s e = true → memWf 0#8 hd.spad = true →
     16 * hd.bars.length ≤ off →
     ∃ t hd', exec (.storePerform core idx) s = .next t ∧ findHerd t id = some hd' ∧ t.mem = s.mem ∧ t.packs = s.packs ∧
       (∀ a, spadByte hd' a = if off ≤ a ∧ a < off + bs.length then bs.getD (a - off) 0 else spadByte hd a) ∧
       (∀ k, k ∈ hd'.empty ↔ match effect with
         | .keep => k ∈ hd.empty
         | .setFull => k ∈ hd.empty ∧ k ∉ linesOf off bs.length
         | .setEmpty => k ∈ hd.empty ∨ k ∈ linesOf off bs.length))

/-- R66, R105, R236, R239: `lds` inside the scratchpad completes where every line it touches is full, with the scratchpad's bytes unless a
lane may still see a line as it was; where one is empty, the path waits at the instruction with no register changed, for the line that the
lowest lane meets.  Where a lane's offset is unaligned or out of range, it faults with code 7 or 11, and where a full line's byte is
poisoned, with 15.
R112, R236: `ldc` inside the 64 KiB of the launch's constant bank completes, memory as it was, each lane with the bytes of memory where
its bank has not been written and no L1 line is stale; where a lane's offset is unaligned, or outside the bank, its bank page is not
translated or permits no read, or a byte read is poisoned, it faults with code 7, 12, 9, 10 or 15.
Choices of the model that it rests on: logs 9, 10, 36, 60 and 72. -/
def Obligations.ScratchpadAndConstantLoads : Prop :=
  (∀ (h : Head) (o : M) (s : State) (c : Ctx) (hd : Herd),
     let n := szBytes o.sz.toNat
     let off := c.offM o
     let outside (l : Nat) : Option Nat :=
       if off l % (n : Int) ≠ 0 then some 7 else if off l < 0 ∨ (hd.spadSize : Int) < off l + n then some 11 else none
     let poisoned_ (l : Nat) : Bool := spadPoisoned hd (off l).toNat n
     Issues (.lds h o) s c → Clean (.lds h o) c → c.herd s = some hd → stseLanes s c n off = 0#64 →
     ((∀ l < 64, c.exec.has l = true → outside l = none) →
       ((∀ l < 64, c.exec.has l = true → touchesEmpty hd (off l).toNat n = false ∧ poisoned_ l = false) →
         Retires (.lds h o) s c fun u p' =>
           u = { s with cores := u.cores, fresh := u.fresh } ∧
           (c.pack.shaped = true → SeesNow s c.pack.loc → ∀ l < 64, c.exec.has l = true → QueueFree s c.pack.loc l →
             p'.loaded o.sz.toNat o.d l (numLE (spadBytes hd (c.offM o l).toNat n)))) ∧
       (∀ l < 64, c.exec.has l = true → touchesEmpty hd (off l).toNat n = true →
         (∀ k < l, c.exec.has k = true → touchesEmpty hd (off k).toNat n = false) →
         ∃ p' fills, exec (.lds h o) s = .next (setPack s p') ∧ p'.regs = c.pack.regs ∧
           (p'.paths[c.idx]?).map (fun q => (q.pc, q.mask, q.wait, q.slot)) = some (c.path.pc, c.path.mask, .line (off l).toNat fills, none))) ∧
     (∀ f, Reports c.exec outside (fun l => BitVec.ofInt 64 (off l)) f → Faults (.lds h o) s c s f) ∧
     (∀ f, (∀ l < 64, c.exec.has l = true → outside l = none ∧ touchesEmpty hd (off l).toNat n = false ∧ QueueFree s c.pack.loc l) →
       Reports c.exec (fun l => if poisoned_ l then some 15 else none) (fun l => BitVec.ofInt 64 (off l)) f →
       ∃ u, Faults (.lds h o) s c u f ∧ u = { s with aon := u.aon })) ∧
  (∀ (h : Head) (o : M) (s : State) (c : Ctx) (hd : Herd) (b : Launch) (as : List LaneAcc) (s' : State),
     let n := szBytes o.sz.toNat
     let addr (l : Nat) : Nat := ((b.desc.cbank.toNat + c.offM o l) % 2 ^ 64).toNat
     let outside (l : Nat) : Option Nat :=
       if c.offM o l % (n : Int) ≠ 0 then some 7 else if c.offM o l < 0 ∨ b.desc.cbank = 0 ∨ 65536 < c.offM o l + n then some 12 else none
     Issues (.ldc h o) s c → Clean (.ldc h o) c → c.herd s = some hd → herdLaunch s hd = some b →
     ((∀ l < 64, c.exec.has l = true → outside l = none) →
       resolveLanes s c.pack .read n addr c.exec.lanes = (as.map fun a => (a.lane, Resolved.ok a.pa a.t), s') →
       Unpoisoned s' c.pack.loc.core as n →
       Retires (.ldc h o) s c fun u p' =>
         u = { s' with cores := u.cores, near := u.near, scCopies := u.scCopies, fresh := u.fresh } ∧
         (c.pack.shaped = true → b.bankDirty = [] → (∀ a ∈ as, a.plain ∧ QueueFree s' c.pack.loc a.lane) → SeesNow s' c.pack.loc →
           (∀ a ∈ as, ∀ x ∈ (getCore s' c.pack.loc.core).l1, x.instr = false → x.line = a.pa / 128 →
             x.bytes = memRead Config.blankByte s'.mem (x.line * 128) 128) →
           ∀ a ∈ as, p'.loaded o.sz.toNat o.d a.lane (memNum s' a.pa n))) ∧
     (∀ (f : FaultReq) (r : List (Nat × Resolved)) (s' : State), resolveLanes s c.pack .read n addr (c.exec.lanes.filter fun l => (outside l).isNone) = (r, s') → (∀ x ∈ r, x.2 ≠ .stall) →
       (∀ l < 64, c.exec.has l = true → QueueFree s' c.pack.loc l) →
       let meets (l : Nat) : Option Nat := match outside l, r.find? (·.1 == l) with
         | some code, _ => some code
         | none, some (_, .fault code) => some code
         | none, some (_, .ok pa t) => if l2Poisoned s' (dieOf c.pack.loc.core) t pa n then some 15 else none
         | _, _ => none
       Reports c.exec meets (fun l => if [some 8, some 9, some 10].contains (meets l) then BitVec.ofNat 64 (addr l)
         else BitVec.ofInt 64 (c.offM o l)) f →
       ∃ u, Faults (.ldc h o) s c u f ∧ u = { s' with aon := u.aon } ∧ (f.code ≠ 15 → u = s')))

/-- R104, R118, R240, R241: `sts` and `stse` inside the scratchpad retire: the store of each executing lane is queued with the bytes of its
data registers and the line effect of the instruction, 16 bytes of `sts` in two halves; the scratchpad is not yet changed.
Choices of the model that it rests on: log 23. -/
def Obligations.ScratchpadStores : Prop :=
  ∀ (h : Head) (o : M) (s : State) (c : Ctx),
    let n := szBytes o.sz.toNat
    let core := c.pack.loc.core
    let queues (i : Instr) (effect : LineEffect) : Prop := Retires i s c fun u p' =>
      u = { s with cores := u.cores } ∧ p'.regs = c.pack.regs ∧
      ∃ es : List (List StoreEntry), getCore u core = { getCore s core with storeQ := (getCore s core).storeQ ++ es.flatten } ∧
        es.length = c.exec.lanes.length ∧
        ∀ (j l : Nat) (xs : List StoreEntry), c.exec.lanes[j]? = some l → es[j]? = some xs →
          (∀ e ∈ xs, (e.loc, e.lane, e.herd) = (c.pack.loc, l, c.pack.herd)) ∧
          ∃ bs, bs.length = n ∧ numLE bs = c.pack.stored n o.d l ∧
            xs.map (·.op) = (if n ≤ 8 ∨ effect ≠ .keep then [(0, bs)] else [(0, bs.take 8), (8, bs.drop 8)]).map fun x =>
              .spad ((c.offM o l).toNat + x.1) x.2 effect
    (Issues (.sts h o) s c → Clean (.sts h o) c → stseLanes s c n (c.offM o) = 0#64 →
      (∀ l < 64, c.exec.has l = true → spadFault (c.herd s) (c.offM o l) n true true (fun _ _ => false) = none) → queues (.sts h o) .keep) ∧
    (Issues (.stse h o) s c → Clean (.stse h o) c →
      (∀ l < 64, c.exec.has l = true → spadFault (c.herd s) (c.offM o l) n true false (fun _ _ => false) = none) →
      queues (.stse h o) (if o.b = 1 then .setFull else .setEmpty))

/-- R244 and R245 on ordinary memory: the executing lanes' atomics happen lane by lane; each lane of `atom` and `atomcas` receives the old
value, memory holds what the operation makes of it (a compare that fails writes nothing), and every other byte is as it was.
R245 on the scratchpad: `atoms` and `atomscas` do the same to its bytes, lane by lane, without passing through the store queue.
R244: the new value of each operation of the table, from the old value and the operand, compared as the access type, and in FP32.
Choices of the model that it rests on: logs 2 and 23. -/
def Obligations.Atomics : Prop :=
  (∀ (h : Head) (o : MA) (s : State) (c : Ctx) (as : List LaneAcc) (s' : State),
     let w := atomWidth o.sz.toNat
     let ready (i : Instr) : Prop :=
       Issues i s c ∧ Clean i c ∧ Reached s c .rmw (w / 8) (w / 8) (c.addrMA o) as s' ∧ Unpoisoned s' c.pack.loc.core as (w / 8) ∧ (∀ a ∈ as, a.plain) ∧
       (∀ l < 64, c.exec.has l = true → QueueFree s' c.pack.loc l) ∧ (∀ r ∈ s'.remotePages, r.ackDue = 0)
     let does (i : Instr) (f : Nat → Nat → Option Nat) : Prop := Retires i s c fun u p' =>
       u.mem = (atomicSteps w f as s'.mem).2 ∧ u.herds = s'.herds ∧ u.packs = s'.packs ∧
       (∀ x, (∀ a ∈ as, ¬(a.pa ≤ x ∧ x < a.pa + w / 8)) → memWf Config.blankByte s'.mem = true →
         memGet Config.blankByte u.mem x = memGet Config.blankByte s'.mem x) ∧
       (destRegs i ≠ [] → c.pack.shaped = true → ∀ x ∈ (atomicSteps w f as s'.mem).1,
         (if w = 64 then (p'.pair o.d.toNat x.1).toNat else (p'.reg o.d.toNat x.1).toNat) = x.2)
     let op (l old : Nat) : Option Nat :=
       some (atomValue o.aop.toNat o.sz.toNat old (if w = 64 then (c.pack.pair o.b.toNat l).toNat else (c.pack.reg o.b.toNat l).toNat))
     let swap (l old : Nat) : Option Nat :=
       let cmp := if w = 64 then (c.pack.pair o.b.toNat l).toNat else (c.pack.reg o.b.toNat l).toNat
       let new := if w = 64 then (c.pack.pair (o.b.toNat + 2) l).toNat else (c.pack.reg (o.b.toNat + 1) l).toNat
       if old = cmp then some new else none
     (ready (.atom h o) → does (.atom h o) op) ∧ (ready (.red h o) → does (.red h o) op) ∧
     (ready (.atomcas h o) → does (.atomcas h o) swap)) ∧
  (∀ (h : Head) (o : MA) (s : State) (c : Ctx) (hd : Herd),
     let w := atomWidth o.sz.toNat
     let off (l : Nat) : Nat := (c.offMA o l).toNat
     let ready (i : Instr) : Prop :=
       Issues i s c ∧ Clean i c ∧ c.exec ≠ 0#64 ∧ c.herd s = some hd ∧ findHerd s hd.id = some hd ∧ memWf 0#8 hd.spad = true ∧
       (∀ l < 64, c.exec.has l = true → spadFault (some hd) (c.offMA o l) (w / 8) true true (fun h a => spadPoisoned h a (w / 8)) = none ∧
         QueueFree s c.pack.loc l) ∧ (∀ r ∈ s.remotePages, r.ackDue = 0)
     let does (i : Instr) (f : Nat → Nat → Option Nat) : Prop := Retires i s c fun u p' =>
       let r := atomicRun w f off c.exec.lanes (spadByte hd)
       (∃ hd', findHerd u hd.id = some hd' ∧ ∀ a, spadByte hd' a = r.2 a) ∧
       u = { s with herds := u.herds, cores := u.cores } ∧
       (c.pack.shaped = true → ∀ x ∈ r.1, (if w = 64 then (p'.pair o.d.toNat x.1).toNat else (p'.reg o.d.toNat x.1).toNat) = x.2)
     let cmp (l : Nat) := if w = 64 then (c.pack.pair o.b.toNat l).toNat else (c.pack.reg o.b.toNat l).toNat
     let new (l : Nat) := if w = 64 then (c.pack.pair (o.b.toNat + 2) l).toNat else (c.pack.reg (o.b.toNat + 1) l).toNat
     (ready (.atoms h o) → does (.atoms h o) fun l old => some (atomValue o.aop.toNat o.sz.toNat old (cmp l))) ∧
     (ready (.atomscas h o) → does (.atomscas h o) fun l old => if old = cmp l then some (new l) else none)) ∧
  (∀ sz old b : Nat, sz = 2 ∨ sz = 3 ∨ sz = 7 ∨ sz = 8 →
     let w := if sz = 3 ∨ sz = 8 then 64 else 32
     let val (x : Nat) : Int := if sz = 7 ∨ sz = 8 then (BitVec.ofNat w x).toInt else (x % 2 ^ w : Nat)
     let new (aop : Nat) : Nat := atomValue aop sz old b
     old < 2 ^ w → b < 2 ^ w →
       new 0 = (old + b) % 2 ^ w ∧ val (new 1) = min (val old) (val b) ∧ val (new 2) = max (val old) (val b) ∧
       (∀ k, (new 3).testBit k = (old.testBit k && b.testBit k) ∧ (new 4).testBit k = (old.testBit k || b.testBit k) ∧
         (new 5).testBit k = (old.testBit k ^^ b.testBit k)) ∧
       new 6 = b ∧ val (new 7) = (if val old < val b then val old + 1 else val old) ∧
       val (new 8) = (if val b < val old then val old - 1 else val old) ∧ ∀ aop ≤ 8, new aop < 2 ^ w) ∧
  (∀ old b : Nat, old < 2 ^ 32 → b < 2 ^ 32 →
     let new (aop : Nat) : Nat := atomValue aop 9 old b
     let x := fv f32 old
     let y := fv f32 b
     (x.isFinite = true → y.isFinite = true → RoundedRat f32 .rne false (ratOf x + ratOf y) (new 0)) ∧
     (x.isNan = true ∨ y.isNan = true → new 0 = f32.nan) ∧ new 6 = b ∧
     (∀ aop, aop = 1 ∨ aop = 2 → (x.isNan = true → new aop = if y.isNan then f32.nan else b) ∧ (x.isNan = false → y.isNan = true → new aop = old) ∧
       (x.isNan = false → y.isNan = false → (new aop = old ∨ new aop = b) ∧
         (aop = 1 → x.lt (fv f32 (new aop)) = false ∧ y.lt (fv f32 (new aop)) = false) ∧
         (aop = 2 → (fv f32 (new aop)).lt x = false ∧ (fv f32 (new aop)).lt y = false))))

/-- R100, R128, R242, R243 and R247: the cache operations and fences complete and change no byte of memory and no register: `cinv.l1` and
`cinv.l1all` take lines from the L1, `cwb` queues write-backs behind the lane's stores, `cinv.near` leaves neither the die nor the core's L1
a copy of its lines, an acquiring fence clears the L1 of global data, and a releasing one is queued behind the stores of its lanes, or for
all of them while a remote home owes an acknowledgment.
Choices of the model that it rests on: logs 23 and 35. -/
def Obligations.CachesAndFences : Prop :=
  ∀ (h : Head) (o : M) (s : State) (c : Ctx),
    let core := c.pack.loc.core
    let idle (u s' : State) : Prop := u.mem = s'.mem ∧ u.herds = s'.herds ∧ u.parts = s'.parts ∧ u.packs = s'.packs
    (Issues (.pref h o) s c → ∃ s', s' = (resolveLanes s c.pack .read 1 (c.addrM o) c.exec.lanes).2 ∧
      Retires (.pref h o) s c fun u _ => idle u s') ∧
    (Issues (.cinvL1all h o) s c → Retires (.cinvL1all h o) s c fun u _ =>
      idle u s ∧ (c.exec ≠ 0#64 → ∀ x ∈ (getCore u core).l1, x.instr = true)) ∧
    (∀ as s', Reached s c .mapped 1 1 (c.addrM o) as s' →
      (Issues (.cinvL1 h o) s c → Clean (.cinvL1 h o) c → Retires (.cinvL1 h o) s c fun u _ =>
        idle u s' ∧ ∀ a ∈ as, ∀ x ∈ (getCore u core).l1, x.line = a.t.line a.pa → x.instr = true) ∧
      (∀ i ∈ [Instr.cwbHome h o, .cwbMem h o, .cwbInv h o], Issues i s c → Clean i c → Retires i s c fun u _ =>
        idle u s' ∧ (getCore u core).storeQ.map (·.op) = (getCore s' core).storeQ.map (·.op) ++
          as.map (fun a => .writeBack (a.t.line a.pa * 128) (i == .cwbInv h o))) ∧
      (Issues (.cinvNear h o) s c → Clean (.cinvNear h o) c → (∀ l < 64, c.exec.has l = true → QueueFree s' c.pack.loc l) →
        (∀ a ∈ as, a.t.copied (dieOf core) a.pa = true ∨ scFind s' (a.t.line a.pa) (dieOf core) = none) →
        Retires (.cinvNear h o) s c fun u _ => idle u s' ∧ ∀ a ∈ as,
          (∀ x ∈ (getCore u core).l1, x.line = a.t.line a.pa → x.instr = true) ∧ scFind u (a.t.line a.pa) (dieOf core) = none ∧
          (a.t.copied (dieOf core) a.pa = false → ∀ n ∈ u.near, n.line = a.t.line a.pa → n.die ≠ dieOf core))) ∧
    (Issues (.fence h o) s c → (∀ l < 64, c.exec.has l = true → QueueFree s c.pack.loc l) → (∀ r ∈ s.remotePages, r.ackDue = 0) →
      Retires (.fence h o) s c fun u _ =>
        idle u s ∧ (getCore u core).storeQ = (getCore s core).storeQ ∧
        (o.ord ≠ 3 → o.sc ≠ 0 → c.exec ≠ 0#64 → ∀ x ∈ (getCore u core).l1, x.instr = true)) ∧
    (Issues (.fence h o) s c → o.ord = 3 ∨ o.ord = 4 → Retires (.fence h o) s c fun u _ =>
      idle u s ∧ ∀ l < 64, c.exec.has l = true →
        (∃ e ∈ (getCore s core).storeQ, e.loc = c.pack.loc ∧ e.lane = l) ∨ (o.sc = 4 ∧ ∃ r ∈ s.remotePages, r.ackDue ≠ 0) →
        ∃ f ∈ (getCore u core).storeQ, f.loc = c.pack.loc ∧ f.lane = l ∧ f.op = .releaseFence ∧ f.release = true)

/-! ### Control transfer -/

/-- R41, R160, R198: a transfer whose targets all pass the checks sends the executing lanes to their targets, the lanes of one target as one
path, and the path's other lanes, if any, on to the next instruction; the other paths are untouched, and only `call` and `callx` write
registers: the return address, to v10:v11 in each executing lane.  A vote that fails transfers nothing.  Where the targets of some lanes
fail a check, nothing has changed, and the lowest code is raised for the lanes that meet it, with the lowest one's target (R68).  The checks
of a target in their order: canonical form (code 8), alignment (3), a page that cannot be fetched from, which lets the transfer retire, a word
with x = 1 before the target (6), and one at it, where the target is not 16-byte aligned (3). -/
def Obligations.ControlTransfers : Prop :=
  ∀ (h : Head) (o : B) (s : State) (c : Ctx) (s' : State),
    let relative : Quad := c.path.pc + (o.off.signExtend 64) * 8#64
    let goes (i : Instr) (link : Bool) (target : Nat → Quad) : Prop :=
      let ts := (c.exec.lanes.map fun l => (target l).toNat).eraseDups
      Issues i s c → Clean i c → laneZeroOnly s c.pack = false →
      (checkTargets s c.pack.loc.core c.pack.part c.pack.level ts = (ts.map fun t => (t, .ok), s') →
        ∃ p', exec i s = .next (setPack s' p') ∧
          KeepsRest (if link then [10, 11] else []) [] c.exec c.pack p' ∧ p'.sto = c.pack.sto ∧
          (link = true → c.pack.shaped = true → 12 ≤ c.pack.regCount → ∀ l < 64, c.exec.has l = true → p'.pair 10 l = nextPc i c) ∧
          (∀ l < 64, c.exec.has l = true → p'.runsAt (target l) (Mask.ofPred fun m => c.exec.has m && target m == target l)) ∧
          (c.path.mask &&& ~~~c.exec ≠ 0#64 → p'.runsAt (nextPc i c) (c.path.mask &&& ~~~c.exec)) ∧
          (∀ j q, j ≠ c.idx → c.pack.paths[j]? = some q → p'.keepsPath q)) ∧
      (∀ code t, c.exec ≠ 0#64 → (∀ l < 64, c.exec.has l = true → target l = target c.low) →
        checkTarget s c.pack.loc.core c.pack.part c.pack.level (target c.low).toNat = (.fault code, t) →
        Faults i s c t ⟨code, c.exec, target c.low⟩) ∧
      (∀ rs f, checkTargets s c.pack.loc.core c.pack.part c.pack.level ts = (rs, s') → (∀ x ∈ rs, x.2 ≠ .stall) →
        Reports c.exec (fun l => match rs.find? (·.1 == (target l).toNat) with
          | some (_, .fault code) => some code
          | _ => none) target f →
        Faults i s c s' f)
    goes (.bra h o) false (fun _ => relative) ∧ goes (.call h o) true (fun _ => relative) ∧
    goes (.brx h o) false (fun l => c.pack.pair o.a.toNat l) ∧ goes (.callx h o) true (fun l => c.pack.pair o.a.toNat l) ∧
    goes (.ret h o) false (fun l => c.pack.pair 10 l) ∧
    (let votes := c.exec.lanes.map (c.pack.pred o.a.toNat)
     let passed : Bool := match o.k.toNat with
       | 0 => votes.any id
       | 1 => votes.all id
       | 2 => !votes.any id
       | _ => votes.all id || !votes.any id
     (c.exec ≠ 0#64 → passed = true → goes (.brvote h o) false (fun _ => relative)) ∧
     (c.exec = 0#64 ∨ passed = false → Issues (.brvote h o) s c → Retires (.brvote h o) s c fun u p' => u = s ∧ p'.regs = c.pack.regs)) ∧
    (∀ core part level va, (canonical va = false → checkTarget s core part level va = (.fault 8, s)) ∧
      (canonical va = true → va % 8 ≠ 0 → checkTarget s core part level va = (.fault 3, s)) ∧
      (canonical va = true → va % 8 = 0 →
        (∀ code u, resolve s core part level .fetch va 8 = (.fault code, u) → checkTarget s core part level va = (.ok, u)) ∧
        (∀ pa t u, resolve s core part level .fetch va 8 = (.ok pa t, u) →
          let here := l1Read u core t pa 8 true false
          (va % 16 = 0 → checkTarget s core part level va = (.ok, here.2)) ∧
          (∀ pb t' v, va % 16 = 8 → resolve here.2 core part level .fetch (va - 8) 8 = (.ok pb t', v) →
            let before := l1Read v core t' pb 8 true false
            let long (bs : List Byte) : Prop := (numLE bs).testBit 55 = true
            (checkTarget s core part level va).2 = before.2 ∧
            (long before.1 → (checkTarget s core part level va).1 = .fault 6) ∧
            (¬long before.1 → long here.1 → (checkTarget s core part level va).1 = .fault 3) ∧
            (¬long before.1 → ¬long here.1 → (checkTarget s core part level va).1 = .ok)))))

/-- R45, R199, R200: `exit` takes its lanes out of their path and of every set, and ends a pack whose last lanes exit, once their stores have
performed; `trap` and, above debug level none, `bkpt` raise their fault for the executing lanes with their number as detail; with no lane
executing, or at debug level none, nothing is raised; and `yield` hands the slot to the oldest queued path.
Choices of the model that it rests on: log 17. -/
def Obligations.ExitTrapYield : Prop :=
  ∀ (h : Head) (o : B) (s : State) (c : Ctx),
    let quiet (i : Instr) : Prop := Retires i s c fun u p' => u = s ∧ p'.regs = c.pack.regs
    (Issues (.exit h o) s c →
      (c.exec = 0#64 → quiet (.exit h o)) ∧
      (c.exec ≠ 0#64 → c.pack.isHandler = false → c.pack.control.isSome = true → Faults (.exit h o) s c s ⟨26, c.exec, 0#64⟩) ∧
      (c.exec ≠ 0#64 → c.pack.isHandler = false → c.pack.control = none → c.pack.exited ||| c.exec ≠ 0xFFFFFFFFFFFFFFFF#64 →
        (∀ l < 64, QueueFree s c.pack.loc l) →
        ∃ u p', exec (.exit h o) s = .next (setPack u p') ∧ u = { s with cores := u.cores } ∧ p'.exited = c.pack.exited ||| c.exec ∧ p'.regs = c.pack.regs ∧
          p'.preds = c.pack.preds ∧ (∀ k < 32, (p'.rset k).member &&& c.exec = 0#64) ∧
          (c.path.mask &&& ~~~c.exec ≠ 0#64 → p'.runsAt (nextPc (.exit h o) c) (c.path.mask &&& ~~~c.exec)) ∧
          (∀ j q, j ≠ c.idx → c.pack.paths[j]? = some q → q.wait = .run → p'.keepsPath q)) ∧
      (c.exec ≠ 0#64 → c.pack.isHandler = false → c.pack.control = none → c.pack.exited ||| c.exec = 0xFFFFFFFFFFFFFFFF#64 →
        (∀ l < 64, QueueFree s c.pack.loc l) →
        exec (.exit h o) s = .next { s with packs := s.packs.filter fun p => decide (p.loc ≠ c.pack.loc) })) ∧
    (Issues (.trap h o) s c → (c.exec = 0#64 → quiet (.trap h o)) ∧
      (c.exec ≠ 0#64 → Faults (.trap h o) s c s ⟨32, c.exec, o.off.zeroExtend 64⟩)) ∧
    (∀ part, Issues (.bkpt h o) s c → findPart s c.pack.part = some part →
      (c.exec = 0#64 ∨ part.dbglvl = 0 → quiet (.bkpt h o)) ∧
      (c.exec ≠ 0#64 → part.dbglvl ≠ 0 → Faults (.bkpt h o) s c s ⟨33, c.exec, o.off.zeroExtend 64⟩)) ∧
    (Issues (.yield h o) s c →
      ∃ p', exec (.yield h o) s = .next (setPack s p') ∧ KeepsRest [] [] c.exec c.pack p' ∧ p'.sto = c.pack.sto ∧
        (p'.paths[c.idx]?).map (fun q => (q.pc, q.mask, q.wait)) = some (nextPc (.yield h o) c, c.path.mask, .run) ∧
        (∀ j k q, c.path.slot = some k → k < 4 → (∀ i x, i ≠ c.idx → c.pack.paths[i]? = some x → x.slot ≠ some k) → (∀ x ∈ c.pack.paths, x.qseq < c.pack.qnext) → j ≠ c.idx → c.pack.paths[j]? = some q →
          q.wait = .run → q.slot = none →
          (∀ x ∈ c.pack.paths, x.wait = .run → x.slot = none → q.qseq ≤ x.qseq) →
          (∀ i x, i < j → i ≠ c.idx → c.pack.paths[i]? = some x → x.wait = .run → x.slot = none → q.qseq < x.qseq) →
          ∃ r, p'.paths[j]? = some r ∧ r.pc = q.pc ∧ r.slot.isSome = true))

/-- R46-R52, R129, R201-R204: the rejoin-set rows, in one step for all executing lanes and every set they name; what a completion releases;
and before it, the stores of the lanes whose arrival counts perform.  Under R25 the held lanes keep their membership and arrival (R204).
The faults: overflow (code 23), misuse (24) of `rsarv`, `rswait` and `rsput`, orphaned (25) of `rsfree`, each with the lanes that meet the
lowest code, and the spatial-mode fault (26) of `rswait` in a control pack.
That the counted lanes' stores perform in the same turn is the model's choice (log 23), as are that `rsfree` makes no check for completion
and that a completion by lane 0 of a control pack takes lane 0 alone out of the set (log 71); and a register error, which no clause meets,
comes before the other faults of its lane (log 57). -/
def Obligations.RejoinSets : Prop :=
  ∀ (h : Head) (o : S) (s : State) (c : Ctx),
    let ready (i : Instr) : Prop :=
      Issues i s c ∧ Clean i c ∧ c.pack.shaped = true ∧ c.pack.setCount ≤ 32 ∧ (∀ l < 64, c.exec.has l = true → c.name o l < c.pack.setCount)
    let member (k : Nat) : Mask := (c.pack.rset k).member
    let arrived (k : Nat) : Mask := (c.pack.rset k).arrived
    let waits (k l : Nat) : Bool := Lanes.get none c.pack.waitSet l == some k
    let mine (k : Nat) : Prop := ∀ l < 64, (c.naming o k).has l = true → (member k).has l = true ∧ (arrived k).has l = false
    let still : Prop := ∀ l < 64, QueueFree s c.pack.loc l
    let makes (i : Instr) (new : Nat → RSet) (post : Pack → Prop) : Prop :=
      ∃ u p', exec i s = .next (setPack u p') ∧ u = { s with cores := u.cores } ∧ (∀ k, (getCore u k).storeQ = (getCore s k).storeQ) ∧
        (∀ k < 32, p'.rset k = if c.naming o k = 0#64 then c.pack.rset k else new k) ∧ p'.preds = c.pack.preds ∧
        p'.sto = c.pack.sto ∧ p'.exited = c.pack.exited ∧ post p'
    let goesOn (i : Instr) (p' : Pack) : Prop := p'.regs = c.pack.regs ∧ p'.runsAt (nextPc i c) c.path.mask
    let releases (k : Nat) (p' : Pack) : Prop := ∀ l < 64, waits k l = true →
      p'.runsAt (Lanes.get 0#64 c.pack.resumePc l)
        (Mask.ofPred fun m => waits k m && Lanes.get 0#64 c.pack.resumePc m == Lanes.get 0#64 c.pack.resumePc l)
    (∀ k, Issues (.rsopen h o) s c → c.pack.shaped = true → c.exec ≠ 0#64 → k < c.pack.setCount → c.pack.setCount ≤ 32 →
      (c.pack.rset k).opened = false → (∀ j < k, (c.pack.rset j).opened = true) →
      ∃ p', exec (.rsopen h o) s = .next (setPack s p') ∧ p'.rset k = ⟨c.exec, 0#64, true⟩ ∧ (∀ j, j ≠ k → p'.rset j = c.pack.rset j) ∧
        (∀ l < 64, c.exec.has l = true → (p'.reg o.d.toNat l).toNat = k) ∧ p'.runsAt (nextPc (.rsopen h o) c) c.path.mask) ∧
    (Issues (.rsopen h o) s c → c.exec ≠ 0#64 → (∀ j < c.pack.setCount, (c.pack.rset j).opened = true) →
      Faults (.rsopen h o) s c s ⟨23, c.exec, BitVec.ofNat 64 c.pack.setCount⟩) ∧
    (ready (.rsenter h o) → makes (.rsenter h o)
      (fun k => if (c.pack.rset k).opened then ⟨member k ||| c.naming o k, arrived k, true⟩ else ⟨c.naming o k, 0#64, true⟩)
      (goesOn (.rsenter h o))) ∧
    let holds : Prop := laneZeroOnly s c.pack = true ∧ c.pack.control.isSome = true
    (ready (.rsquit h o) → still → ¬holds →
      let new (k : Nat) : RSet := ⟨member k &&& ~~~c.naming o k, arrived k &&& ~~~c.naming o k, (c.pack.rset k).opened⟩
      makes (.rsquit h o) (fun k => (new k).settled) fun p' => goesOn (.rsquit h o) p' ∧
        ∀ k < 32, c.naming o k ≠ 0#64 → (new k).completes → releases k p') ∧
    (ready (.rsquit h o) → still → holds →
      let new (k : Nat) : RSet := ⟨member k &&& ~~~1#64, arrived k &&& ~~~1#64, (c.pack.rset k).opened⟩
      makes (.rsquit h o) (fun k => if (new k).member = 0#64 then ⟨0#64, 0#64, false⟩ else new k) (goesOn (.rsquit h o))) ∧
    (ready (.rsarv h o) → (∀ k, mine k) → still → holds →
      let new (k : Nat) : RSet := ⟨member k, arrived k ||| 1#64, (c.pack.rset k).opened⟩
      let left (k : Nat) : RSet := ⟨member k &&& ~~~1#64, arrived k &&& ~~~1#64, (c.pack.rset k).opened⟩
      makes (.rsarv h o) (fun k => if (new k).arrived ≠ member k then new k else if (left k).member = 0#64 then ⟨0#64, 0#64, false⟩ else left k)
        (goesOn (.rsarv h o))) ∧
    (ready (.rsarv h o) → (∀ k, mine k) → still → ¬holds →
      let new (k : Nat) : RSet := ⟨member k, arrived k ||| c.naming o k, (c.pack.rset k).opened⟩
      makes (.rsarv h o) (fun k => (new k).settled) fun p' => goesOn (.rsarv h o) p' ∧
        ∀ k < 32, c.naming o k ≠ 0#64 → (new k).completes → releases k p') ∧
    (∀ i ∈ [Instr.rsquit h o, .rsarv h o, .rswait h o], ready i → (∀ k, mine k) → c.exec ≠ 0#64 → c.pack.control = none →
      (∀ e ∈ (getCore s c.pack.loc.core).storeQ, e.release = false ∧ ∃ off bs, e.op = .spad off bs .keep) →
      let new (k : Nat) : RSet := if i = .rsquit h o then ⟨member k &&& ~~~c.naming o k, arrived k &&& ~~~c.naming o k, (c.pack.rset k).opened⟩
        else ⟨member k, arrived k ||| c.naming o k, (c.pack.rset k).opened⟩
      ∃ u, exec i s = .next u ∧ ∀ e ∈ (getCore u c.pack.loc.core).storeQ, e.loc = c.pack.loc →
        ∀ k < 32, c.naming o k ≠ 0#64 → (new k).completes → (new k).arrived.has e.lane = false) ∧
    (ready (.rswait h o) → (∀ k, mine k) → still → c.exec ≠ 0#64 → c.pack.control = none → laneZeroOnly s c.pack = false →
      let new (k : Nat) : RSet := ⟨member k, arrived k ||| c.naming o k, (c.pack.rset k).opened⟩
      let next := nextPc (.rswait h o) c
      let resume (l : Nat) : Quad := if c.exec.has l then next else Lanes.get 0#64 c.pack.resumePc l
      let waitsNow (k l : Nat) : Bool := if c.exec.has l then c.name o l == k else waits k l
      makes (.rswait h o) (fun k => (new k).settled) fun p' =>
        p'.regs = c.pack.regs ∧
        (c.path.mask &&& ~~~c.exec ≠ 0#64 → p'.runsAt next (c.path.mask &&& ~~~c.exec)) ∧
        ∀ k < 32, c.naming o k ≠ 0#64 →
          ((new k).completes → ∀ l < 64, waitsNow k l = true →
            p'.runsAt (resume l) (Mask.ofPred fun m => waitsNow k m && resume m == resume l)) ∧
          (¬(new k).completes → (new k).opened = true →
            (∃ q ∈ p'.paths, q.pc = c.path.pc ∧ q.mask = c.naming o k ∧ q.wait = .set k) ∧
            ∀ l < 64, (c.naming o k).has l = true →
              Lanes.get none p'.waitSet l = some k ∧ Lanes.get 0#64 p'.resumePc l = next)) ∧
    (ready (.rsfree h o) → (∀ k l, l < 64 → waits k l = true → c.naming o k ≠ 0#64 → (member k).has l = false) →
      makes (.rsfree h o) (fun k => if laneZeroOnly s c.pack = true ∧ member k &&& ~~~1#64 ≠ 0#64
        then ⟨member k &&& ~~~1#64, arrived k &&& ~~~1#64, (c.pack.rset k).opened⟩ else ⟨0#64, 0#64, false⟩) (goesOn (.rsfree h o))) ∧
    (ready (.rsput h o) →
      let low (k : Nat) : Nat := Mask.lowest (c.naming o k)
      let act : Mask := ~~~c.pack.exited &&& if laneZeroOnly s c.pack then 1#64 else 0xFFFFFFFFFFFFFFFF#64
      let m (k : Nat) : Mask := c.pack.pair o.b.toNat (low k) &&& act
      let a (k : Nat) : Mask := c.pack.pair o.d.toNat (low k) &&& act
      (∀ k, c.naming o k ≠ 0#64 → (c.pack.rset k).opened = false ∧ a k &&& ~~~m k = 0#64) →
      makes (.rsput h o) (fun k => RSet.settled ⟨m k, a k, m k != 0#64⟩) (goesOn (.rsput h o))) ∧
    (ready (.rsget h o) →
      ∃ p', exec (.rsget h o) s = .next (setPack s p') ∧ p'.sets = c.pack.sets ∧ p'.runsAt (nextPc (.rsget h o) c) c.path.mask ∧
        ∀ l < 64, c.exec.has l = true →
          match o.mod.toNat with
          | 0 => p'.pair o.d.toNat l = member (c.name o l)
          | 1 => p'.pair o.d.toNat l = arrived (c.name o l)
          | 2 => p'.pair o.d.toNat l = Mask.ofPred (waits (c.name o l))
          | _ => (p'.reg o.d.toNat l).toNat = (c.pack.rset (c.name o l)).opened.toNat) ∧
    (∀ i ∈ [Instr.rsenter h o, .rsquit h o, .rsarv h o, .rsfree h o, .rsget h o, .rsput h o], ∀ l < 64,
      Issues i s c → Clean i c → c.exec.lanes = [l] → c.pack.setCount ≤ c.name o l →
      Faults i s c s ⟨23, c.exec, BitVec.ofNat 64 (c.name o l)⟩) ∧
    (let reports (i : Instr) (cause : Nat → Option Nat) : Prop := Issues i s c → Clean i c → ∀ f,
       Reports c.exec (fun l => if c.pack.setCount ≤ c.name o l then some 23 else cause l) (fun l => BitVec.ofNat 64 (c.name o l)) f → Faults i s c s f
     let notMine (l : Nat) : Option Nat :=
       if (member (c.name o l)).has l = true ∧ (arrived (c.name o l)).has l = false then none else some 24
     let put (l : Nat) : Option Nat :=
       let k := c.name o l
       let act : Mask := ~~~c.pack.exited &&& if laneZeroOnly s c.pack then 1#64 else 0xFFFFFFFFFFFFFFFF#64
       let m : Mask := c.pack.pair o.b.toNat (Mask.lowest (c.naming o k)) &&& act
       let a : Mask := c.pack.pair o.d.toNat (Mask.lowest (c.naming o k)) &&& act
       if (c.pack.rset k).opened = true ∨ a &&& ~~~m ≠ 0#64 then some 24 else none
     let orphaned (l : Nat) : Option Nat :=
       let k := c.name o l
       if (c.pack.rset k).opened = true ∧ Mask.ofPred (waits k) &&& member k ≠ 0#64 then some 25 else none
     (∀ i ∈ [Instr.rsenter h o, .rsquit h o, .rsget h o], reports i fun _ => none) ∧ reports (.rsarv h o) notMine ∧
     (c.pack.control = none → reports (.rswait h o) notMine) ∧ reports (.rsput h o) put ∧ reports (.rsfree h o) orphaned ∧
     (Issues (.rswait h o) s c → Clean (.rswait h o) c → c.exec ≠ 0#64 → c.pack.control.isSome = true →
       Faults (.rswait h o) s c s ⟨26, c.exec, 0#64⟩))

/-! ### Barriers and claims -/

/-- R107, R108, R248-R251 and R253, for an object that all executing lanes name: what `barinit`, `bararv`, `barexp` and `barinv` make of it,
the completion check, and the waiters that a completion or an invalidation releases.  An object the herd does not have, one not initialised,
an arrival below zero, an announcement past the balance's range, and a `barinit` with waiters or outstanding landings fault.  `bararv.ph`
writes the phase of an invalid object too, which is the model's choice.
Choices of the model that it rests on: log 73. -/
def Obligations.BarrierObjects : Prop :=
  ∀ (h : Head) (o : S) (s : State) (c : Ctx) (hd : Herd) (k : Nat) (b : Barrier),
    let m := c.exec.lanes.length
    let bytes : Nat := if o.mod.toNat % 2 = 1 then (c.pack.reg o.b.toNat c.low).toNat else o.imm.toNat
    let tx : Bool := o.mod.toNat / 2 % 2 == 1
    let ready (i : Instr) : Prop :=
      Issues i s c ∧ Clean i c ∧ c.exec ≠ 0#64 ∧ (∀ l < 64, c.exec.has l = true → c.name o l = k) ∧ k < 32 ∧ c.herd s = some hd ∧
      hd.bars[k]? = some b
    let free : Prop := ∀ l < 64, c.exec.has l = true → QueueFree s c.pack.loc l
    let updates (i : Instr) (b' : Barrier) (post : State → Pack → Prop) : Prop :=
      ∃ t p', exec i s = .next t ∧ barBecomes t hd.id k b' ∧ t.mem = s.mem ∧ findPack t c.pack.loc = some p' ∧
        p'.runsAt (nextPc i c) c.path.mask ∧ post t p'
    let released (t : State) : Prop := hd.saving = false → waitersGo s t c.pack.loc hd k [b.phase] true
    let none_ (_ : State) (p' : Pack) : Prop := p'.regs = c.pack.regs
    (ready (.barinit h o) → 1 ≤ o.imm.toNat → o.imm.toNat ≤ 2047 → b.landings = 0 → anyWaiter s hd.id k = false →
      updates (.barinit h o) ⟨b.phase, o.imm.toNat, o.imm.toNat, false, 0, 0, none, 0⟩ none_) ∧
    (ready (.barinit h o) → 1 ≤ o.imm.toNat → o.imm.toNat ≤ 2047 → b.landings ≠ 0 ∨ anyWaiter s hd.id k = true →
      Faults (.barinit h o) s c s ⟨22, c.exec, BitVec.ofNat 64 k⟩) ∧
    (ready (.barinit h o) → o.imm.toNat = 0 ∨ 2047 < o.imm.toNat → Faults (.barinit h o) s c s ⟨20, c.exec, BitVec.ofNat 64 k⟩) ∧
    (ready (.bararv h o) → free → b.init ≠ 0 → b.inv = false → m ≤ b.pending →
      updates (.bararv h o) { b with pending := b.pending - m } fun t p' =>
        (o.mod.toNat % 2 = 1 → c.pack.shaped = true → ∀ l < 64, c.exec.has l = true → (p'.reg o.d.toNat l).toNat = b.phase.toNat) ∧
        (b.pending = m → b.balance = 0 → released t)) ∧
    (ready (.barexp h o) → free → b.init ≠ 0 → b.inv = false → tx = true ∨ m ≤ b.pending → bytes < 2 ^ 23 → b.balance + bytes < 2 ^ 23 →
      -(2 ^ 23) ≤ b.balance →
      updates (.barexp h o) { b with pending := if tx then b.pending else b.pending - m, balance := b.balance + bytes } fun t p' =>
        p'.regs = c.pack.regs ∧ ((if tx then b.pending else b.pending - m) = 0 → b.balance + bytes = 0 → released t)) ∧
    (∀ i ∈ [Instr.bararv h o, .barexp h o], ready i → free → b.init ≠ 0 → b.inv = true →
      ∃ t p', exec i s = .next t ∧ t.herds = s.herds ∧ t.mem = s.mem ∧ findPack t c.pack.loc = some p' ∧
        p'.runsAt (nextPc i c) c.path.mask) ∧
    (ready (.bararv h o) → free → b.init ≠ 0 → b.inv = true → o.mod.toNat % 2 = 1 → c.pack.shaped = true →
      ∃ t p', exec (.bararv h o) s = .next t ∧ findPack t c.pack.loc = some p' ∧
        ∀ l < 64, c.exec.has l = true → (p'.reg o.d.toNat l).toNat = b.phase.toNat) ∧
    (∀ i ∈ [Instr.bararv h o, .barexp h o, .barinv h o], ready i → b.init = 0 → Faults i s c s ⟨20, c.exec, BitVec.ofNat 64 k⟩) ∧
    (ready (.bararv h o) → b.init ≠ 0 → b.inv = false → b.pending < m → Faults (.bararv h o) s c s ⟨20, c.exec, BitVec.ofNat 64 k⟩) ∧
    (ready (.barexp h o) → b.init ≠ 0 → b.inv = false → tx = true ∨ m ≤ b.pending → 2 ^ 23 ≤ bytes ∨ 2 ^ 23 ≤ b.balance + bytes →
      Faults (.barexp h o) s c s ⟨21, c.exec, BitVec.ofNat 64 k⟩) ∧
    (ready (.barinv h o) → b.init ≠ 0 →
      updates (.barinv h o) { b with inv := true } fun t p' =>
        p'.regs = c.pack.regs ∧ (b.inv = false → hd.saving = false → waitersGo s t c.pack.loc hd k [false, true] false)) ∧
    (∀ i ∈ [Instr.barinit h o, .bararv h o, .barexp h o, .barinv h o], Issues i s c → Clean i c → c.herd s = some hd → c.exec ≠ 0#64 →
      (∀ l < 64, c.exec.has l = true → c.name o l = k) → hd.bars.length ≤ k → Faults i s c s ⟨20, c.exec, BitVec.ofNat 64 k⟩)

/-- R251 and R252, for a path of all lanes but those guarded off, in a quarter that is not spatial: a `barsync` that completes its phase, and
a `barwait` for a phase that is over, go on with their predicate set; at an invalid object they go on with it cleared; else the executing
lanes leave to wait on the object and its phase at the instruction, and the others go on.  Lanes that name different objects fault, and so
does a `barsync` with a count above 2047, at an invalid object too, which is the model's choice.
Choices of the model that it rests on: logs 37 and 73. -/
def Obligations.BarrierWaits : Prop :=
  ∀ (h : Head) (o : S) (s : State) (c : Ctx) (hd : Herd) (k : Nat) (b : Barrier),
    let m := c.exec.lanes.length
    let ready (i : Instr) : Prop :=
      Issues i s c ∧ Clean i c ∧ c.exec ≠ 0#64 ∧ (∀ l < 64, c.exec.has l = true → c.name o l = k) ∧ k < 32 ∧ c.herd s = some hd ∧
      hd.bars[k]? = some b ∧ b.init ≠ 0 ∧ laneZeroOnly s c.pack = false
    let passes (i : Instr) (t : State) (value : Bool) : Prop :=
      exec i s = .next t ∧ ∃ p', findPack t c.pack.loc = some p' ∧ p'.runsAt (nextPc i c) c.path.mask ∧ p'.regs = c.pack.regs ∧
        (c.pack.shaped = true → o.d.toNat < 7 → ∀ l < 64, c.exec.has l = true → p'.pred o.d.toNat l = value)
    let waits (i : Instr) (t : State) (ph : Bool) : Prop :=
      exec i s = .next t ∧ ∃ p', findPack t c.pack.loc = some p' ∧ p'.regs = c.pack.regs ∧ p'.preds = c.pack.preds ∧
        (∃ q ∈ p'.paths, q.pc = c.path.pc ∧ q.mask = c.exec ∧ q.wait = .bar k ph o.d.toNat ∧ q.count (now t) = 0) ∧
        (c.path.mask &&& ~~~c.exec ≠ 0#64 → p'.runsAt (nextPc i c) (c.path.mask &&& ~~~c.exec))
    let next : Option Nat := if o.imm.toNat = 0 then b.next else some o.imm.toNat
    (ready (.barsync h o) → (∀ l < 64, c.exec.has l = true → QueueFree s c.pack.loc l) → o.imm.toNat ≤ 2047 →
      (b.inv = false → m ≤ b.pending →
        (b.pending = m ∧ b.balance = 0 → ∃ t, passes (.barsync h o) t true ∧
          barAt t hd.id k = some { b with phase := !b.phase, pending := next.getD b.init, next := none } ∧
          (hd.saving = false → waitersGo s t c.pack.loc hd k [b.phase] true)) ∧
        (b.pending ≠ m ∨ b.balance ≠ 0 → ∃ t, waits (.barsync h o) t b.phase ∧
          barAt t hd.id k = some { b with pending := b.pending - m, next := next })) ∧
      (b.inv = true → ∃ t, passes (.barsync h o) t false ∧ barAt t hd.id k = some b) ∧
      (b.inv = false → b.pending < m → Faults (.barsync h o) s c s ⟨20, c.exec, BitVec.ofNat 64 k⟩)) ∧
    (ready (.barsync h o) → 2047 < o.imm.toNat → Faults (.barsync h o) s c s ⟨20, c.exec, BitVec.ofNat 64 k⟩) ∧
    (ready (.barwait h o) →
      let q : Bool := (c.pack.reg o.b.toNat c.low).toNat % 2 == 1
      (b.phase ≠ q → ∃ t, passes (.barwait h o) t true ∧ barAt t hd.id k = some b) ∧
      (b.phase = q → b.inv = true → ∃ t, passes (.barwait h o) t false ∧ barAt t hd.id k = some b) ∧
      (b.phase = q → b.inv = false → ∃ t, waits (.barwait h o) t q ∧ barAt t hd.id k = some b)) ∧
    (∀ i ∈ [Instr.barsync h o, .barwait h o], Issues i s c → Clean i c → c.exec ≠ 0#64 →
      (∃ l < 64, c.exec.has l = true ∧ c.name o l ≠ c.name o c.low) →
      Faults i s c s ⟨20, c.exec, BitVec.ofNat 64 (c.name o c.low)⟩)

/-- R109, R110 and R262, for a slot that all executing lanes name: a claim takes a free slot and goes on, or joins the slot's queue and waits
at the instruction; a release hands the slot to the head of its queue, whose path goes on, or frees it; and a claim of a slot held or queued
for, a release of one not held, and a slot number out of range fault.
Choices of the model that it rests on: log 72. -/
def Obligations.OperandMemoryClaims : Prop :=
  ∀ (h : Head) (o : S) (s : State) (c : Ctx) (hd : Herd) (k : Nat) (e : OpmSlot),
    let ready (i : Instr) : Prop :=
      Issues i s c ∧ Clean i c ∧ c.exec ≠ 0#64 ∧ (∀ l < 64, c.exec.has l = true → c.name o l = k) ∧ c.herd s = some hd ∧
      hd.opm[k]? = some e
    let slot (t : State) : Option (Nat × Option Nat × List Nat × List Host.Cell) :=
      (slotAt t hd.id k).map fun e => (e.phys, e.holder, e.queue, e.data)
    (ready (.opmclm h o) → e.holder = none → e.queue = [] → ∃ t p', exec (.opmclm h o) s = .next t ∧
      slot t = some (e.phys, some c.pack.num, [], e.data) ∧ findPack t c.pack.loc = some p' ∧ p'.regs = c.pack.regs ∧
      p'.runsAt (nextPc (.opmclm h o) c) c.path.mask) ∧
    (ready (.opmclm h o) → e.holder ≠ none ∨ e.queue ≠ [] → e.holder ≠ some c.pack.num → c.pack.num ∉ e.queue →
      ∃ t p', exec (.opmclm h o) s = .next t ∧ slot t = some (e.phys, e.holder, e.queue ++ [c.pack.num], e.data) ∧
        findPack t c.pack.loc = some p' ∧ p'.regs = c.pack.regs ∧
        (p'.paths[c.idx]?).map (fun q => (q.pc, q.mask, q.wait)) = some (c.path.pc, c.path.mask, .again 2 k)) ∧
    (ready (.opmclm h o) → e.holder = some c.pack.num ∨ c.pack.num ∈ e.queue →
      Faults (.opmclm h o) s c s ⟨17, c.exec, BitVec.ofNat 64 k⟩) ∧
    (ready (.opmrel h o) → e.holder = some c.pack.num → ∃ t p', exec (.opmrel h o) s = .next t ∧
      slot t = some (e.phys, e.queue.head?, e.queue.tail, e.data) ∧ findPack t c.pack.loc = some p' ∧ p'.regs = c.pack.regs ∧
      p'.runsAt (nextPc (.opmrel h o) c) c.path.mask ∧
      ∀ p ∈ s.packs, p.loc ≠ c.pack.loc → p.herd = some hd.id → some p.num = e.queue.head? → ∀ q ∈ p.paths, q.wait = .again 2 k →
        (∀ x ∈ p.paths, x.wait = .again 2 k → x = q) → ∃ p' ∈ t.packs, p'.loc = p.loc ∧ p'.runsAt (q.pc + 8) q.mask) ∧
    (ready (.opmrel h o) → e.holder ≠ some c.pack.num → Faults (.opmrel h o) s c s ⟨17, c.exec, BitVec.ofNat 64 k⟩) ∧
    (∀ i ∈ [Instr.opmclm h o, .opmrel h o], Issues i s c → Clean i c → c.exec ≠ 0#64 → c.herd s = some hd → hd.opm.length ≤ k →
      (∀ l < 64, c.exec.has l = true → c.name o l = k) → Faults i s c s ⟨16, c.exec, BitVec.ofNat 64 k⟩)

/-! ### Tile copies -/

/-- R254-R259 and R261: a copy whose checks pass enters the tail of its core's copy queue, with the fields of its record and of the lowest
executing lane; the lines of a scratchpad destination become empty, the named barrier counts one outstanding landing, and memory is as
before; a check that fails faults with the executing lanes.  The checks are those of R255 with R111 and the sparse forms of R257 and R258, in
the order of log 36.  A row index of `tgather` at T or above faults (code 19) with its lanes, unless a check of a lower code fails.
`tcancel` takes its herd's copies, all or those of one barrier, out of the queue and delivers their number.  With no lane executing, all do
nothing.
Choices of the model that it rests on: logs 36, 37 and 73. -/
def Obligations.CopyInstructions : Prop :=
  ∀ (h : Head) (o : S) (s : State) (c : Ctx) (hd : Herd),
    let core := c.pack.loc.core
    let word (k : Nat) : Nat := (c.pack.reg (o.b.toNat + k) c.low).toNat
    let r : CopyRec := ⟨word 0, word 1 % 65536, word 1 / 65536, word 2, word 3⟩
    let bar : Option Nat := if o.mod.toNat / 2 % 2 = 1 then none else some o.idx.toNat
    let opm : Bool := o.mod.toNat % 2 == 1
    let sparse := o.mod.toNat / 4 % 4
    let mdata : Quad := if sparse = 0 then 0#64 else c.pack.pair o.d.toNat c.low
    let base := (c.pack.pair o.a.toNat c.low).toNat
    let rows : List Nat := c.exec.lanes.map fun l => (c.pack.reg o.d.toNat l).toNat
    let copies (i : Instr) (q : CopyReq) (n stride : Nat) : Prop :=
      Issues i s c → Clean i c →
      (c.exec = 0#64 → Retires i s c fun u p' => u = s ∧ p'.regs = c.pack.regs) ∧
      (c.exec ≠ 0#64 → c.herd s = some hd → (∀ l < 64, c.exec.has l = true → QueueFree s c.pack.loc l) →
        (∀ e ∈ (getCore s core).storeQ, e.herd ≠ some hd.id) → (checkCopy (some hd) q = none → (∀ x ∈ rows, ∀ m, q.kind = .gather m → x < r.lstride) → (getCore s core).copies.length < 64 →
          0 < n → 128 ≤ r.rowb →
          ∃ t p' cp, exec i s = .next t ∧ findPack t c.pack.loc = some p' ∧ p'.regs = c.pack.regs ∧ p'.runsAt (nextPc i c) c.path.mask ∧
            t.mem = s.mem ∧ (getCore t core).copies = (getCore s core).copies ++ [cp] ∧ cp.kind = q.kind ∧ cp.gbase.toNat = base ∧
            cp.rowb = r.rowb ∧ cp.rows = n ∧ cp.gstride = r.gstride ∧ cp.lstride = stride ∧ cp.bar = q.bar ∧ cp.herd = some hd.id ∧
            cp.done = [] ∧ cp.suspended = none ∧ cp.opm = (if q.opm then some (r.lbase / 65536 % 16) else none) ∧
            cp.lbase = (if q.opm then r.lbase % 65536 else r.lbase) ∧ cp.lines ≠ [] ∧
            (∃ hd', findHerd t hd.id = some hd' ∧ hd'.spad = hd.spad ∧
              (q.opm = false → q.kind.isStore = false → ∀ x ∈ cp.lines, x.loc / 128 ∈ hd'.empty) ∧
              (q.opm = true ∨ q.kind.isStore = true → hd'.empty = hd.empty) ∧
              (∀ k b, q.bar = some k → hd.bars[k]? = some b → hd'.bars[k]? = some { b with landings := b.landings + 1 }))) ∧
        (∀ f, (∀ m, q.kind ≠ .gather m) → checkCopy (some hd) q = some f → Faults i s c s ⟨f.1, c.exec, f.2⟩) ∧
        (∀ m, q.kind = .gather m →
          let beyond (l : Nat) : Option Nat := if r.lstride ≤ (c.pack.reg o.d.toNat l).toNat then some 19 else none
          (∀ f, checkCopy (some hd) q = some f → f.1 < 19 ∨ (∀ l < 64, c.exec.has l = true → beyond l = none) → Faults i s c s ⟨f.1, c.exec, f.2⟩) ∧
          (∀ g, (∀ f, checkCopy (some hd) q = some f → 19 < f.1) →
            Reports c.exec beyond (fun l => (c.pack.reg o.d.toNat l).zeroExtend 64) g → Faults i s c s g)))
    copies (.tcopy h o) ⟨.load sparse mdata, opm, bar, base, r⟩ r.rows r.lstride ∧
    copies (.tstore h o) ⟨.store sparse mdata, false, bar, base, r⟩ r.rows r.lstride ∧
    copies (.tgather h o) ⟨.gather rows, opm, bar, base, r⟩ c.exec.lanes.length r.rowb ∧
    (∀ q : CopyReq,
      let (gather, store, sp, md, local_, table) : Bool × Bool × Nat × Nat × Nat × Nat := match q.kind with
        | .load sp m => (false, false, sp, m.toNat, q.r.rows, q.r.rows)
        | .store sp m => (false, true, sp, m.toNat, q.r.rows, q.r.rows)
        | .gather xs => (true, false, 0, 0, xs.length, q.r.lstride)
      let ext (n b stride : Nat) : Nat := if n = 0 ∨ b = 0 then 0 else (n - 1) * stride + b
      let off := if q.opm then q.r.lbase % 65536 else q.r.lbase
      let stride := if gather then q.r.rowb else q.r.lstride
      let extent := ext local_ q.r.rowb stride
      let grow := if sp = 0 then q.r.rowb else q.r.rowb / 2
      let gext := ext table grow q.r.gstride
      let d (x : Nat) : Quad := BitVec.ofNat 64 x
      let checks : List (Prop × Nat × Quad) :=
        [(off % 128 ≠ 0 ∨ q.r.rowb % 128 ≠ 0 ∨ stride % 128 ≠ 0, 7, d off),
         (q.opm = true ∧ 32768 < off + extent, 16, d (q.r.lbase / 65536 % 16)),
         (q.opm = false ∧ hd.spadSize < off + extent, 11, d off),
         (q.opm = false ∧ extent ≠ 0 ∧ off < 16 * hd.bars.length, 13, d off),
         (q.gbase % 16 ≠ 0 ∨ q.r.gstride % 16 ≠ 0 ∨ grow % 16 ≠ 0, 7, d q.gbase),
         (canonical q.gbase = false, 8, d q.gbase),
         (gext ≠ 0 ∧ (2 ^ 64 ≤ q.gbase + gext - 1 ∨ canonical (q.gbase + gext - 1) = false), 8, d (q.gbase + gext - 1)),
         (q.opm = true ∧ (hd.opm.length ≤ q.r.lbase / 65536 % 16 ∨ 2 ^ 20 ≤ q.r.lbase), 16, d (q.r.lbase / 65536)),
         (gather = false ∧ 1 < q.r.rows ∧ (q.r.lstride < q.r.rowb ∨ (store = true ∧ q.r.gstride < grow)), 18, 0#64),
         (sp ≠ 0 ∧ (q.r.rowb % (128 * sp) ≠ 0 ∨ md % 16 ≠ 0), 18, 0#64)] ++
        (match q.bar with
          | none => []
          | some k => [((∀ b, hd.bars[k]? = some b → b.init = 0), 20, d k)])
      ((∀ e ∈ checks, ¬e.1) → checkCopy (some hd) q = none) ∧
      ∀ (j : Nat) (e : Prop × Nat × Quad), checks[j]? = some e → e.1 → (∀ k e', k < j → checks[k]? = some e' → ¬e'.1) →
        checkCopy (some hd) q = some e.2) ∧
    (∀ q : CopyReq, q.opm = false →
      (q.r.lbase % 128 ≠ 0 ∨ q.r.rowb % 128 ≠ 0 → checkLocal (some hd) q = some (7, BitVec.ofNat 64 q.r.lbase)) ∧
      (q.r.lbase % 128 = 0 → q.r.rowb % 128 = 0 → q.r.lstride % 128 = 0 → (∀ m, q.kind ≠ .gather m) → 0 < q.r.rowb → 0 < q.r.rows →
        hd.spadSize < q.r.lbase + (q.r.rows - 1) * q.r.lstride + q.r.rowb →
        checkLocal (some hd) q = some (11, BitVec.ofNat 64 q.r.lbase))) ∧
    (Issues (.tcancel h o) s c → Clean (.tcancel h o) c → c.herd s = some hd → c.exec ≠ 0#64 → c.pack.shaped = true →
      let all : Bool := o.mod.toNat % 2 == 1
      let hit (x : Copy) : Bool := x.herd == some hd.id && (all || x.bar == some o.idx.toNat)
      let old := (getCore s core).copies
      (all = true ∨ o.idx.toNat < hd.bars.length) → (old.map (·.tag)).Nodup →
      ∃ t p', exec (.tcancel h o) s = .next t ∧ findPack t c.pack.loc = some p' ∧ t.mem = s.mem ∧
        p'.runsAt (nextPc (.tcancel h o) c) c.path.mask ∧ (getCore t core).copies = old.filter (fun x => !hit x) ∧
        ∀ l < 64, c.exec.has l = true → (p'.reg o.d.toNat l).toNat = (old.filter hit).length % 2 ^ 32)

/-- R104, R108, R256, R258 and R260: a line of a copy in lands whole: the scratchpad holds the source's bytes, the line is full, and the
barrier counts 128 bytes; a line of a copy out, its source full, writes memory; and a line whose page faults suspends the copy and queues
its cause at the handler of the issuing pack's quarter, no pack stopping.
Choices of the model that it rests on: logs 36, 53 and 67. -/
def Obligations.CopyLandings : Prop :=
  ∀ (s s' : State) (core entry line : Nat) (cp : Copy) (x : CopyLine) (id : Nat) (hd : Herd),
    findCopy s core entry = some cp → cp.suspended = none → line ∉ cp.done → cp.lines[line]? = some x → cp.herd = some id →
    (∀ (pa : Nat) (t : Tlb) (m : Quad),
      cp.kind = .load 0 m → cp.opm = none → t.kind = 0 → t.sc = false →
      copyResolve s core cp .read ((cp.gbase.toNat + x.row * cp.gstride) % 2 ^ 64 + x.col) 128 = (.ok [(pa, 128, t)], s') →
      findHerd s' id = some hd → memWf 0#8 hd.spad = true → 16 * hd.bars.length ≤ x.loc → x.loc % 128 = 0 →
      (∀ y ∈ hd.tags, y.1 = x.loc / 128 → y.2 = cp.tag) →
      ∃ u hd', exec (.copyLineLanding core entry line) s = .next u ∧ findHerd u id = some hd' ∧ u.mem = s'.mem ∧
        (∀ a, 16 * hd.bars.length ≤ a →
          spadByte hd' a = if x.loc ≤ a ∧ a < x.loc + 128 then memGet Config.blankByte s'.mem (pa + (a - x.loc)) else spadByte hd a) ∧
        x.loc / 128 ∉ hd'.empty ∧ (∀ e ∈ (getCore u core).copies, e.tag = cp.tag → line ∈ e.done) ∧
        (∀ k b, cp.bar = some k → hd.bars[k]? = some b → b.inv = false → -(2 ^ 23) + 128 ≤ b.balance → b.balance < 2 ^ 23 →
          barBecomes u id k { b with
            balance := b.balance - 128
            landings := if cp.done.length + 1 = cp.lines.length then b.landings - 1 else b.landings })) ∧
    (∀ (pa : Nat) (t : Tlb) (m : Quad),
      cp.kind = .store 0 m → t.kind = 0 → t.sc = false → findHerd s id = some hd → touchesEmpty hd (x.loc + x.col) x.len = false →
      copyResolve s core cp (.write false) x.ga x.len = (.ok [(pa, x.len, t)], s') → memWf Config.blankByte s'.mem = true →
      ∃ u, exec (.copyLineLanding core entry line) s = .next u ∧
        (∀ a, memGet Config.blankByte u.mem a =
          if pa ≤ a ∧ a < pa + x.len then spadByte hd (x.loc + x.col + (a - pa)) else memGet Config.blankByte s'.mem a) ∧
        ∀ e ∈ (getCore u core).copies, e.tag = cp.tag → line ∈ e.done) ∧
    (∀ (m : Quad) (code a : Nat),
      cp.kind = .load 0 m →
      copyResolve s core cp .read ((cp.gbase.toNat + x.row * cp.gstride) % 2 ^ 64 + x.col) 128 = (.fault code a, s') →
      ∃ u n, exec (.copyFault core entry line) s = .next u ∧
        (∀ e ∈ (getCore u core).copies, e.tag = cp.tag → e.suspended = some ⟨code, BitVec.ofNat 64 a, s'.clock, false, n⟩) ∧
        (∀ p ∈ u.packs, ∃ q ∈ s'.packs, q.loc = p.loc ∧ q.stop = p.stop ∧ q.paths = p.paths) ∧
        (∀ hp, findPack s' ⟨core, cp.loc.quarter, 31⟩ = some hp →
          (findPack u ⟨core, cp.loc.quarter, 31⟩).map (·.wakes.map fun w => (w.code, w.src, w.slot, w.unit, w.seq, w.detail, w.serial)) =
            some (hp.wakes.map (fun w => (w.code, w.src, w.slot, w.unit, w.seq, w.detail, w.serial)) ++
              [(code, 1, cp.loc.slot, entry, cp.seq, BitVec.ofNat 64 a, n)])))

/-! ### Residencies -/

/-- R285, R288, R295-R300, R305-R308: what the control pack's rows do to their residency: entering, leaving, the semaphore row, the divider,
the token rows and the status; outside a region in the spatial state they raise the spatial-mode fault.
Choices of the model that it rests on: logs 37, 47, 58 and 72. -/
def Obligations.SpatialControl : Prop :=
  ∀ (h : Head) (o : X) (s : State) (c : Ctx) (r : Residency),
    let cellNo := o.low.toNat % 256
    let free : Prop := QueueFree s c.pack.loc 0
    (∀ (hid : Nat) (hd : Header) (digest covered : List Byte) (words : List Quad) (s' : State),
      Issues (.spxenter h o) s c → Clean (.spxenter h o) c → c.exec.has 0 = true → c.pack.herd = some hid → c.pack.control = none →
      c.pack.paths.length = 1 → (∀ q ∈ s.packs, q.herd = some hid → q.control = none) → (c.pack.pair o.a.toNat 0).toNat % 16 = 0 → free →
      readImage s c.pack (c.pack.pair o.a.toNat 0).toNat = .ok hd digest covered words s' →
      validateFault s' c.pack hd digest covered words = none → s'.nextId = s.nextId → s'.packs = s.packs →
      ∃ t x p', exec (.spxenter h o) s = .next t ∧ t.residencies = s'.residencies ++ [x] ∧ t.mem = s'.mem ∧ x.phase = .validate ∧
        x.herd = hid ∧ x.ctl = c.pack.loc ∧ x.mould = ⟨hd.shape, hd.qregs, hd.lease, hd.semmax, hd.ncells, words⟩ ∧ x.sems = [] ∧
        findPack t c.pack.loc = some p' ∧ p'.control = some x.id ∧ p'.regs = c.pack.regs ∧ p'.paths = c.pack.paths) ∧
    (Issues (.spxenter h o) s c → Clean (.spxenter h o) c → c.exec ≠ 0#64 →
      c.pack.herd = none ∨ c.pack.control.isSome = true ∨ c.exec.has 0 = false ∨ c.pack.paths.length ≠ 1 →
      Faults (.spxenter h o) s c s ⟨26, c.exec, 0#64⟩) ∧
    (Issues (.spxleave h o) s c → InRegion s c r →
      ∃ t r', exec (.spxleave h o) s = .next t ∧ findRes t r.id = some r' ∧ t.packs = s.packs ∧ t.mem = s.mem ∧ r'.phase = .draining ∧
        (∀ p ∈ r'.ports, p.ended = true) ∧ r'.ports.map (·.queue) = r.ports.map (·.queue) ∧ r'.sems = r.sems) ∧
    (Issues (.spxsem h o) s c → InRegion s c r → free →
      let value (k : Nat) : Nat := if k = o.wsem.toNat then r.sem k - o.wthr.toNat else r.sem k
      let after (k : Nat) : Nat := if k = o.ssem.toNat then min (value k + o.sinc.toNat) (2 ^ 32 - 1) else value k
      ((o.wthr = 0 ∨ o.wthr.toNat ≤ r.sem o.wsem.toNat ∧
          ∀ w ∈ r.semWaits.takeWhile (· != (o.wsem.toNat, o.wthr.toNat, 512)), w.1 = o.wsem.toNat → r.sem o.wsem.toNat < w.2.1) → (∀ k, r.sem k < 2 ^ 32) →
        RegionRow (.spxsem h o) s c r fun t r' p' =>
          (∀ k, r'.sem k = after k) ∧ (∀ x ∈ (getCore t c.pack.loc.core).l1, x.instr = true) ∧
          (o.op.toNat % 2 = 0 → p'.regs = c.pack.regs) ∧
          (o.op.toNat % 2 = 1 → c.pack.shaped = true → ∀ l < 64, c.exec.has l = true →
            (p'.reg o.d.toNat l).toNat = after cellNo)) ∧
      (0 < o.wthr.toNat → r.sem o.wsem.toNat < o.wthr.toNat → RegionWaits (.spxsem h o) s c 4 0)) ∧
    (Issues (.spxbar h o) s c → InRegion s c r → r.bars = [] → r.ports.all (fun p => p.queue.all fun k => k.kind == .command) = true →
      ((∀ p ∈ r.ports, p.queue = []) → RegionRow (.spxbar h o) s c r fun _ r' p' =>
        p'.regs = c.pack.regs ∧ r'.ports = r.ports ∧
        ∀ k, r'.sem k = if k = o.ssem.toNat then min (r.sem k + o.sinc.toNat) (2 ^ 32 - 1) else r.sem k) ∧
      ((∃ p ∈ r.ports, p.queue ≠ []) → RegionRow (.spxbar h o) s c r fun _ r' p' =>
        p'.regs = c.pack.regs ∧ r'.sems = r.sems ∧ ∃ e : Command, e.kind = .divider r.serial ∧
          r'.ports.map (·.queue) = r.ports.map (·.queue ++ [e]))) ∧
    (Issues (.spxput h o) s c → InRegion s c r → cwPut (r.cell cellNo).word = true → (r.cell cellNo).putEos = false →
      cellNo < r.cells.length →
      let x : Token := match o.op.toNat % 4 with
        | 0 => ⟨.data, cwLtype (r.cell cellNo).word, BitVec.ofNat 256 (wordsNat (c.words o.a 4 c.low ++ c.words o.b 4 c.low)),
            BitVec.ofNat 8 (o.low.toNat / 256)⟩
        | 1 => ⟨.eos, 0, 0, 0⟩
        | _ => ⟨.sweep, 0, 0, 0⟩
      (x.kind = .data → unusedZero x.ltype x = true) →
      (r.room cellNo 0 = true → RegionRow (.spxput h o) s c r fun _ r' p' =>
        p'.regs = c.pack.regs ∧ ((r.cell cellNo).chans.length = 4 → (r'.cell cellNo).chan 0 = (r.cell cellNo).chan 0 ++ [x])) ∧
      (r.room cellNo 0 = false → RegionWaits (.spxput h o) s c 5 (2 * cellNo + 1))) ∧
    (Issues (.spxget h o) s c → InRegion s c r → cwGet (r.cell cellNo).word = true → cellNo < r.cells.length →
      let delivered (x : Token) (p' : Pack) : Prop := c.pack.shaped = true → ∀ l < 64, c.exec.has l = true →
        (o.op.toNat % 2 = 0 → ¬(o.d.toNat ≤ o.a.toNat ∧ o.a.toNat < o.d.toNat + 4) →
          ∀ k < 4, (p'.reg (o.d.toNat + k) l).toNat = x.payload.toNat / 2 ^ (32 * k) % 2 ^ 32) ∧
        (p'.reg o.a.toNat l).toNat = x.side.toNat + 256 * (match x.kind with | .data => 0 | .eos => 1 | .sweep => 2 | .whistle => 3)
      (∀ x, (r.cell cellNo).eos = false → r.head? cellNo 0 = some x → RegionRow (.spxget h o) s c r fun _ r' p' =>
        delivered x p' ∧ (r'.cell cellNo).chan 0 = ((r.cell cellNo).chan 0).tail ∧ (r'.cell cellNo).eos = decide (x.kind = .eos)) ∧
      ((r.cell cellNo).eos = true → RegionRow (.spxget h o) s c r fun _ _ p' => delivered ⟨.eos, 0, 0, 0⟩ p') ∧
      ((r.cell cellNo).eos = false → r.head? cellNo 0 = none → RegionWaits (.spxget h o) s c 5 (2 * cellNo))) ∧
    (Issues (.spxstat h o) s c → InRegion s c r → c.pack.shaped = true → RegionRow (.spxstat h o) s c r fun _ r' p' =>
      r'.semovf = (r.semovf && o.op.toNat / 2 % 2 == 0) ∧ r'.sems = r.sems ∧
      ∀ l < 64, c.exec.has l = true →
        (o.op.toNat % 2 = 1 → (p'.reg o.d.toNat l).toNat = r.sem cellNo % 2 ^ 32) ∧
        (o.op.toNat % 2 = 0 →
          let v := (p'.pair o.d.toNat l).toNat
          let stopped := (r.ports.filter (·.stopped.isSome)).length
          v.testBit 0 = decide (0 < stopped) ∧ v.testBit 2 = r.semovf ∧
          v.testBit 3 = (r.cells.all fun k => cwCop k.word == 0 || !cwSink k.word || k.eos) ∧
          v / 2 ^ 8 % 2 ^ 8 = stopped % 256 ∧ v / 2 ^ 32 = (r.ports.map (·.entries)).sum % 2 ^ 32)) ∧
    (∀ i ∈ [Instr.spxleave h o, .spxstrm h o, .spxsem h o, .spxsweep h o, .spxbar h o, .spxput h o, .spxget h o, .spxstat h o],
      Issues i s c → c.exec ≠ 0#64 → c.pack.control = none → Faults i s c s ⟨26, c.exec, 0#64⟩)

/-- R279-R281, R301-R304: a stream command or a sweep entry that passes its checks goes to the tail of its ports' queues; a command begins when
its wait is met, which takes the threshold from the semaphore, and signals when it completes; a sweep group, once every one of its entries is
at the head of its queue and its marks have room, emits them in one step and signals.
Choices of the model that it rests on: log 47. -/
def Obligations.StreamCommands : Prop :=
  ∀ (h : Head) (o : X) (s : State) (c : Ctx) (r : Residency) (res n : Nat) (p : Port) (k : Command),
    let port := strmPort o
    let word (k : Nat) : Nat := (c.pack.reg (o.b.toNat + k) c.low).toNat
    -- a wait that is met: no wait that began before it could be met instead (R280)
    let freeSem (sem thr port : Nat) : Prop := thr = 0 ∨ thr ≤ r.sem sem ∧
      ∀ w ∈ r.semWaits.takeWhile (· != (sem, thr, port)), w.1 = sem → r.sem sem < w.2.1
    (Issues (.spxstrm h o) s c → InRegion s c r → QueueFree s c.pack.loc 0 → r.port? port = some p → p.ended = false → p.entries < 16 →
      let cop := cwCop (r.portWord port)
      let cmd := strmCommand c o r
      cop ≠ 0x13 → (cop = 0x0D → cmd.total % 4 = 0) → (256 ≤ port ∨ isMx cmd.ltype = true ∨ o.d = 0) →
      strmRanges (c.herd s) cop cmd = none →
      (RegionRow (.spxstrm h o) s c r fun _ r' p' => p'.regs = c.pack.regs ∧
        (r'.port? port).map (fun q => (q.queue, q.ended)) = some (p.queue ++ [cmd], o.low.toNat / 512 % 2 == 1) ∧
        ∀ j, j ≠ port → r'.port? j = r.port? j) ∧
      cmd.kind = .command ∧ cmd.n0 = word 0 % 2 ^ 16 + 1 ∧ cmd.n1 = word 0 / 2 ^ 16 + 1 ∧ cmd.n2 = word 1 % 2 ^ 16 + 1 ∧
      cmd.wsem = o.wsem.toNat ∧ cmd.wthr = o.wthr.toNat ∧ cmd.ssem = o.ssem.toNat ∧ cmd.sinc = o.sinc.toNat ∧ cmd.begun = false ∧
      cmd.pos = 0 ∧ (cop = 0x0E ∨ cop = 0x0F → cmd.base = c.pack.pair o.a.toNat c.low ∧
        cmd.s1 = (BitVec.ofNat 32 (word 2)).toInt ∧ cmd.s2 = (BitVec.ofNat 32 (word 3)).toInt) ∧
      ∀ i0 i1 i2, i0 < cmd.n0 → i1 < cmd.n1 → i2 < cmd.n2 →
        (cmd.addr (i0 + cmd.n0 * (i1 + cmd.n1 * i2)) : Int) =
          (cmd.base.toNat + i0 * footprint cmd.ltype + i1 * cmd.s1 + i2 * cmd.s2) % 2 ^ 64) ∧
    (Issues (.spxstrm h o) s c → InRegion s c r → r.port? port = none →
      Faults (.spxstrm h o) s c s ⟨29, c.exec, o.low.zeroExtend 64⟩) ∧
    (∀ ns : List Nat, Issues (.spxsweep h o) s c → InRegion s c r →
      ns = (if o.op.toNat % 2 = 1 then ((List.range 64).filter fun f => (c.pack.pair o.a.toNat c.low).getLsbD f).map (256 + ·) else [port]) →
      ns ≠ [] → (∀ j ∈ ns, sweepable r j = true ∧ ∀ q, r.port? j = some q → q.ended = false ∧ q.entries < 16) →
      RegionRow (.spxsweep h o) s c r fun _ r' p' => p'.regs = c.pack.regs ∧
        (∃ g, r'.groups = r.groups ++ [g] ∧ g.ports = ns ∧ g.wsem = o.wsem.toNat ∧ g.wthr = o.wthr.toNat ∧ g.ssem = o.ssem.toNat ∧
          g.sinc = o.sinc.toNat ∧
          ∀ j ∈ ns, ∃ e : Command, e.kind = .sweep g.id ∧ (r'.port? j).map (·.queue) = (r.port? j).map (·.queue ++ [e])) ∧
        ∀ j, j ∉ ns → r'.port? j = r.port? j) ∧
    (findRes s res = some r → r.port? n = some p → r.beginnable p = some k →
      (freeSem k.wsem k.wthr n → ∃ t r' p', exec (.commandBegin res n) s = .next t ∧ findRes t res = some r' ∧
        r'.port? n = some p' ∧ p'.queue = p.queue.takeWhile Command.issued ++ { k with begun := true } :: p.ahead.tail ∧
        p'.ranges.length ≤ 8 ∧ p'.dropped = [] ∧ t.mem = s.mem ∧
        ∀ j, r'.sem j = if j = k.wsem then r.sem j - k.wthr else r.sem j) ∧
      (0 < k.wthr → r.sem k.wsem < k.wthr → ∃ t r', exec (.commandBegin res n) s = .next t ∧ findRes t res = some r' ∧
        r'.ports = r.ports ∧ r'.sems = r.sems ∧ (k.wsem, k.wthr, n) ∈ r'.semWaits)) ∧
    (findRes s res = some r → r.firing = true → r.port? n = some p → p.queue = k :: p.queue.tail → k.kind = .command → k.begun = true →
      k.total ≤ k.pos → r.bars = [] → ∃ t r' p', exec (.commandComplete res n) s = .next t ∧ findRes t res = some r' ∧
        r'.port? n = some p' ∧ p'.queue = p.queue.tail ∧ t.mem = s.mem ∧
        ∀ j, r'.sem j = if j = k.ssem then min (r.sem j + k.sinc) (2 ^ 32 - 1) else r.sem j) ∧
    (∀ g : SweepGroup, findRes s res = some r → r.groups.find? (·.id == n) = some g → r.sweepReady g = true →
      let met : Prop := g.begun = true ∨ freeSem g.wsem g.wthr (g.ports.headD 0)
      let left (j : Nat) : Nat := if g.begun = false ∧ j = g.wsem then r.sem j - g.wthr else r.sem j
      let waits (sem : Nat → Nat) (post : Residency → Prop) : Prop := ∃ t r', exec (.sweepGroupBegin res n) s = .next t ∧ findRes t res = some r' ∧
        t.mem = s.mem ∧ r'.ports = r.ports ∧ r'.cells = r.cells ∧ (∀ j, r'.sem j = sem j) ∧ post r'
      (g.begun = false → 0 < g.wthr → r.sem g.wsem < g.wthr →
        waits r.sem fun r' => r'.groups = r.groups ∧ (g.wsem, g.wthr, g.ports.headD 0) ∈ r'.semWaits) ∧
      (met → (∃ j ∈ g.ports, r.portRoom j = false) → waits left fun r' => ∀ x ∈ r'.groups, x.id = n → x.begun = true) ∧
      (met → (∀ j ∈ g.ports, r.portRoom j = true) → r.bars = [] → g.ports.Nodup → ∃ t r', exec (.sweepGroupBegin res n) s = .next t ∧ findRes t res = some r' ∧ t.mem = s.mem ∧
        (∀ j ∈ g.ports, (r'.port? j).map (·.queue) = (r.port? j).map (·.queue.filter fun x => x.kind != .sweep n)) ∧ (∀ x ∈ r'.groups, x.id ≠ n) ∧
        (∀ j, j ∈ g.ports → 256 ≤ j → ∀ i k, r.feederTarget (j - 256) = some (i, k) → i < r.cells.length → k < (r.cell i).chans.length →
          (∀ j' ∈ g.ports, j' ≠ j → 256 ≤ j' ∧ r.feederTarget (j' - 256) ≠ some (i, k)) →
          (r'.cell i).chan k = (r.cell i).chan k ++ [⟨.sweep, 0, 0, 0⟩]) ∧
        ∀ j, r'.sem j = if j = g.ssem then min (left j + g.sinc) (2 ^ 32 - 1) else left j))

/-- R265, R269, R273-R276, R278 and R316-R326, the operators that touch no memory: what a data firing of each takes, computes and sends to its
consumers; the folds of `alu` and `fmac`, the groups of `cvt`, the rows of `rstat`, the panels of `macs` and the beats of `accd`; and what each
does on an aligned sweep or EOS: the partial fold, group or row that goes first, the action, and the mark sent on, after EOS no further firing.
Choices of the model that it rests on: logs 11 and 68. -/
def Obligations.CellOperators : Prop :=
  ∀ (s : State) (res i : Nat) (r : Residency) (x a b : Token) (mk : TokenKind),
    let w := (r.cell i).word
    let cfg := cwCfg w
    let d := (r.cell i).data
    let has (cop : Nat) : Prop := MayFire s res r i ∧ cwCop w = cop
    let marked (cop : Nat) : Prop := Marked s res r i mk ∧ cwCop w = cop ∧ d.counts.length = 4
    let able (cop : Nat) : Prop := findRes s res = some r ∧ r.live i = true ∧ r.canEmit i = true ∧ cwCop w = cop
    let el (t : Nat) (x : Token) (k : Nat) : Nat := (elements t x).getD k 0
    let recount (q n : Nat) (d : CellData) : CellData := { d with counts := d.counts.set q n }
    let onward : Residency := (r.modData i (recount 0 0)).passes i (r.inputs i) mk
    let mode := modeOf (cfg % 4)
    let sat : Bool := cfg / 4 % 2 == 1
    -- routing: pass, fork, merge, filter, cnt
    (has 0x01 → cwGet w = false → r.heads i [0] [x] → FiresTo (.pass res i) s res ((r.takes i [0]).emit i x)) ∧
    (findRes s res = some r → r.live i = true → cwCop w = 0x01 → cwGet w = true → r.phase = .draining → r.head? i 0 = some x → x.kind ≠ .whistle →
      FiresTo (.pass res i) s res ((r.takes i [0]).modCell i fun c => { c with eos := x.kind == .eos })) ∧
    (has 0x02 → r.heads i [0] [x] → FiresTo (.fork res i) s res ((r.takes i [0]).emit i x)) ∧
    (∀ k, has 0x03 → k ∈ r.inputs i → r.head? i k = some x → (∀ j ∈ r.inputs i, (r.head? i j).map (·.kind) = some .data) →
      (cfg % 4 = 0 ∧ (r.inputs i).find? (fun j => decide ((d.words.headD 0).toNat ≤ j)) = some k ∨
        cfg % 4 = 1 ∧ (∀ j ∈ r.inputs i, ∀ y, j ≠ k → r.head? i j = some y → tagLess y x = false ∧ (j < k → tagLess x y = true)) ∨
        cfg % 4 = 2 ∧ r.inputs i = [k]) →
      FiresTo (.merge res i) s res (((r.takes i [k]).modData i fun d => { d with words := [BitVec.ofNat 32 (k + 1)] }).emit i x)) ∧
    (able 0x03 → r.inputs i ≠ [] → (∀ k ∈ r.inputs i, (r.head? i k).map (·.kind) = some .eos) →
      FiresTo (.merge res i) s res (r.passes i (r.inputs i) .eos)) ∧
    (let staying := (r.inputs i).filter fun k => (r.head? i k).map (·.kind) ≠ some .eos
     able 0x03 → staying ≠ [] → (∀ k ∈ staying, (r.head? i k).map (·.kind) = some .sweep) →
      FiresTo (.merge res i) s res (r.passes i staying .sweep)) ∧
    (has 0x04 → r.heads i [0, 1] [a, b] →
      FiresTo (.filter res i) s res
        (if (b.payload.toNat % 2 ^ 32 = 0) ↔ cfg % 2 = 1 then (r.takes i [0, 1]).emit i a else r.takes i [0, 1])) ∧
    (has 0x05 → d.counts.length = 4 → d.count 0 < 2 ^ 16 → d.count 1 < 2 ^ 16 →
      r.inputs i = [] ∧ d.count 2 ≠ 1 ∨ (r.inputs i = [0] ∧ r.heads i [0] [x]) →
      let full0 : Prop := cfg % 2 ^ 16 ≤ d.count 0
      let full1 : Prop := cfg / 2 ^ 16 ≤ d.count 1
      ∃ d', FiresTo (.cnt res i) s res
          (((r.takes i (r.inputs i)).modData i fun _ => d').emit i ⟨.data, 1, BitVec.ofNat 256 (d.count 1 * 2 ^ 16 + d.count 0), 0⟩) ∧
        d'.count 0 = (if full0 then 0 else d.count 0 + 1) ∧
        d'.count 1 = (if full0 then if full1 then 0 else d.count 1 + 1 else d.count 1) ∧
        (r.inputs i = [] → (d'.count 2 = 1 ↔ full0 ∧ full1))) ∧
    (has 0x05 → r.inputs i = [] → d.count 2 = 1 → FiresTo (.cnt res i) s res (r.passes i [] .eos)) ∧
    (marked 0x05 → FiresTo (.cnt res i) s res
      ((r.modData i fun d => if mk = .sweep then recount 1 0 (recount 0 0 d) else d).passes i (r.inputs i) mk)) ∧
    -- arithmetic: alu, fmac, sfu
    (has 0x06 → cfg / 32 % 2 = 0 → r.heads i [0, 1] [a, b] →
      ∃ y : Token, y.kind = .data ∧ y.ltype = 2 ∧ y.side = 0 ∧ FiresTo (.alu res i) s res ((r.takes i [0, 1]).emit i y) ∧
        ∀ k < 8, AluElement (cfg % 16) (cfg / 16 % 2 == 1) (el 2 a k) (el 2 b k) (el 2 y k)) ∧
    (has 0x07 → cfg / 8 % 4 ≠ 3 → ∀ c : Token, (let ks := if cfg / 8 % 4 = 0 then [0, 1, 2] else [0, 1]
      r.heads i ks (if cfg / 8 % 4 = 0 then [a, b, c] else [a, b]) →
      ∃ es : List Nat, es.length = 8 ∧ FiresTo (.fmac res i) s res ((r.takes i ks).emit i (Token.data 3 es 0)) ∧
        ∀ k < 8, let v (y : Token) : Val := fv f32 (el 3 y k)
          match cfg / 8 % 4 with
          | 0 => FusedRounded f32 mode sat (v a) (v b) (v c) (es.getD k 0)
          | 1 => ProductRounded f32 mode sat (v a) (v b) (es.getD k 0)
          | _ => SumRounded f32 mode sat (v a) (v b) (es.getD k 0))) ∧
    (∀ f ∈ [(Instr.alu res i, 0x06, 2, cfg / 64 % 2 ^ 16 + 1), (Instr.fmac res i, 0x07, 3, cfg / 32 % 2 ^ 16 + 1)],
      (if f.2.1 = 0x06 then cfg / 32 % 2 = 1 else cfg / 8 % 4 = 3) →
      (has f.2.1 → d.counts.length = 4 → r.heads i [0] [x] → ∃ (d' : CellData) (acc : List Nat), acc.length = 8 ∧
        (∀ k < 8, let old := (d.words.getD k 0).toNat
          let new := el f.2.2.1 x k
          if d.words = [] then acc.getD k 0 = new
          else if f.2.1 = 0x06 then AluElement (cfg % 16) (cfg / 16 % 2 == 1) old new (acc.getD k 0)
          else SumRounded f32 mode sat (fv f32 old) (fv f32 new) (acc.getD k 0)) ∧
        if d.count 0 + 1 < f.2.2.2 then
          FiresTo f.1 s res ((r.takes i [0]).modData i fun _ => d') ∧ d'.words = acc.map (BitVec.ofNat 32) ∧ d'.count 0 = d.count 0 + 1
        else FiresTo f.1 s res (((r.takes i [0]).modData i fun _ => d').emit i (Token.data f.2.2.1 acc 0)) ∧ d'.words = [] ∧ d'.count 0 = 0) ∧
      (marked f.2.1 → FiresTo f.1 s res (if d.words = [] then onward
        else (r.modData i fun d => recount 0 0 { d with words := [] }).emit i (Token.data f.2.2.1 (d.words.map (·.toNat)) 0)))) ∧
    (has 0x08 → r.heads i [0] [x] →
      ∃ es : List Nat, es.length = linkCount x.ltype ∧ FiresTo (.sfu res i) s res ((r.takes i [0]).emit i (Token.data x.ltype es 0)) ∧
        ∀ k < linkCount x.ltype,
          (cfg % 16 = 4 → es.getD k 0 =
            roundTo (fmtOf (linkTy x.ltype)) .rne false (fv (fmtOf (linkTy x.ltype)) (el x.ltype x k)).sqrt) ∧
          (cfg % 16 ≠ 4 → cfg % 16 ≠ 13 → es.getD k 0 = specialFn (sfuFn (cfg % 16)) (linkTy x.ltype) (el x.ltype x k)) ∧
          (cfg % 16 = 13 → es.getD k 0 = loadedFn (heldRecord s r (cfg / 16 % 16)) (linkTy x.ltype) (el x.ltype x k))) ∧
    -- conversion: `block` says which token a group of converted elements of type `st` makes
    (let dt := cwLtype w
     let eo := linkCount dt
     let block (st : Nat) (es : List Nat) (tok : Token) : Prop :=
       if isMx dt then ∃ (scale : Nat) (q : Nat → Nat), Quantised (linkFmt dt) (if dt = 8 then 2 else if dt = 9 then 8 else 15)
           (es.map (fv (linkFmt st))) scale q ∧ tok = Token.data dt ((List.range 32).map q) scale
       else tok = Token.data dt es 0
     let st := x.ltype
     let ei := linkCount st
     (has 0x09 → r.heads i [0] [x] → cellCvtOk st dt cfg = true → d.counts.length = 4 → ei ∣ d.words.length → d.words.length < eo →
       ∃ es : List Nat, es.length = ei ∧
         (∀ k < ei, if isMx dt then es.getD k 0 = el st x k else CellConverted st dt cfg x.side.toNat (el st x k) (es.getD k 0)) ∧
         (ei ≤ eo → let g := d.words.map (·.toNat) ++ es
           if g.length < eo then
             FiresTo (.cvtCell res i) s res ((r.takes i [0]).modData i fun d => recount 2 st { d with words := g.map (BitVec.ofNat 32) })
           else ∃ tok, block st g tok ∧ FiresTo (.cvtCell res i) s res (((r.takes i [0]).modData i fun d => { d with words := [] }).emit i tok)) ∧
         (eo < ei → let k := d.count 1
           ∃ tok, block st ((es.drop (k * eo)).take eo) tok ∧ FiresTo (.cvtCell res i) s res
             (if (k + 1) * eo < ei then (r.modData i (recount 1 (k + 1))).emit i tok
              else ((r.takes i [0]).modData i (recount 1 0)).emit i tok))) ∧
     (marked 0x09 → d.words = [] → FiresTo (.cvtCell res i) s res (r.passes i (r.inputs i) mk)) ∧
     (marked 0x09 → d.words ≠ [] → d.words.length < eo → (isMx dt = true → d.count 2 ∈ [3, 4, 5, 15]) → ∃ tok,
       block (d.count 2) (d.words.map (·.toNat) ++ List.replicate (eo - d.words.length) 0) tok ∧
         FiresTo (.cvtCell res i) s res ((r.modData i fun d => { d with words := [] }).emit i tok))) ∧
    -- row statistics
    (let rms : Bool := cfg % 2 == 1
     let start : Partial := ⟨(d.words.getD 0 0).toNat, (d.words.getD 1 0).toNat, (d.words.getD 2 0).toNat⟩
     let ends (r' : Residency) (p : Partial) (row : List Token) : Prop := ∃ ts : List Token, RowTokens cfg p row ts ∧
       ∃ d', FiresTo (.rstatCell res i) s res ((r'.modData i fun _ => d').emit i (ts.headD default)) ∧
         d'.buffer = ts.drop 1 ∧ d'.words = [] ∧ d'.panelA = [] ∧ d'.count 0 = 0
     (∀ y ys, able 0x0A → d.buffer = y :: ys → FiresTo (.rstatCell res i) s res ((r.modData i fun d => { d with buffer := ys }).emit i y)) ∧
     (has 0x0A → r.heads i [0] [x] → d.counts.length = 4 → cfg / 2 % 4 < 3 →
       let n := linkCount x.ltype
       ∃ (v : Nat → Nat) (f : Nat → Partial), f 0 = start ∧
         (∀ k < n, (if x.ltype = 3 ∨ x.ltype = 15 then v k = el x.ltype x k
             else RoundedVal f32 .rne false (fv (linkFmt x.ltype) (el x.ltype x k)) (v k)) ∧
           if rms then RmsAdded (f k) (v k) (f (k + 1)) else WelfordMerged (f k) ⟨1, v k, 0⟩ (f (k + 1))) ∧
         let row := if cfg / 2 % 4 = 2 then d.panelA ++ (List.range (n / 8)).map fun k => Token.data 3 ((List.range 8).map fun j => v (8 * k + j)) 0 else []
         if d.count 0 + 1 < cfg / 8 % 16 + 1 then ∃ d', FiresTo (.rstatCell res i) s res ((r.takes i [0]).modData i fun _ => d') ∧
           d'.words = [(f n).n, (f n).mean, (f n).m2].map (BitVec.ofNat 32) ∧ d'.panelA = row ∧ d'.count 0 = d.count 0 + 1
         else ends (r.takes i [0]) (f n) row) ∧
     (marked 0x0A → start.n = 0 → FiresTo (.rstatCell res i) s res onward) ∧
     (marked 0x0A → start.n ≠ 0 → (cfg / 2 % 4 = 2 → d.panelA ≠ []) → cfg / 2 % 4 < 3 → ends r start d.panelA)) ∧
    -- the MAC rectangle
    (let t := cwLtype w
     let flushed (d' : CellData) : Prop :=
       let pad (l : List Token) : List Token := l ++ List.replicate (8 - l.length) ⟨.data, t, 0, if isMx t then 127 else 0⟩
       let old := if d.active1 then d.bank1 else d.bank0
       let new := if d.active1 then d'.bank1 else d'.bank0
       d'.panelA = [] ∧ d'.panelB = [] ∧ (if d.active1 then d'.bank0 = d.bank0 else d'.bank1 = d.bank1) ∧
         if d.panelA = [] then new = old else new.length = 64 ∧ MacPanel t old (pad d.panelA) (pad d.panelB) new
     (has 0x0B → r.heads i [0, 1] [a, b] → a.ltype = t → b.ltype = t → d.panelA.length ≤ 7 → ∃ d' : CellData,
        FiresTo (.macs res i) s res ((((r.takes i [0, 1]).modData i fun _ => d').emitTo i 0 a).emitTo i 1 b) ∧
        d'.active1 = d.active1 ∧ d'.draining = d.draining ∧
        (d.panelA.length < 7 → d'.panelA = d.panelA ++ [a] ∧ d'.panelB = d.panelB ++ [b] ∧ d'.bank0 = d.bank0 ∧ d'.bank1 = d.bank1) ∧
        (d.panelA.length = 7 → d.panelB.length = 7 → d'.panelA = [] ∧ d'.panelB = [] ∧
          (let new := if d.active1 then d'.bank1 else d'.bank0
           new.length = 64 ∧ MacPanel t (if d.active1 then d.bank1 else d.bank0) (d.panelA ++ [a]) (d.panelB ++ [b]) new) ∧
          (if d.active1 then d'.bank0 else d'.bank1) = if d.active1 then d.bank0 else d.bank1)) ∧
     (marked 0x0B → 4 ≤ t → t ≤ 10 → d.panelA.length ≤ 7 → d.panelB.length = d.panelA.length →
        (mk = .eos ∨ d.draining = false → ∃ d' : CellData, FiresTo (.macs res i) s res ((r.modData i fun _ => d').passes i (r.inputs i) mk) ∧ flushed d' ∧
          d'.active1 = (d.active1 ^^ decide (mk = .sweep)) ∧ d'.draining = (d.draining || decide (mk = .sweep))) ∧
        (mk = .sweep → d.draining = true → exec (.macs res i) s = .next s)) ∧
     (∀ m, has 0x15 → (servedMacs r i)[d.count 0]? = some m → (r.cell m).data.draining = true → d.count 1 < 8 → m ≠ i →
       let out := r.emit i (Token.data 15
         ((((if (r.cell m).data.active1 then (r.cell m).data.bank0 else (r.cell m).data.bank1).drop (8 * d.count 1)).take 8).map (·.toNat)) (d.count 1))
       FiresTo (.accd res i) s res (if d.count 1 < 7 then out.modData i (recount 1 (d.count 1 + 1))
         else (out.modData i fun d => recount 0 (d.count 0 + 1) (recount 1 0 d)).modData m fun d =>
           let zero := List.replicate 64 0#32
           { d with draining := false, bank0 := if d.active1 then zero else d.bank0, bank1 := if d.active1 then d.bank1 else zero })) ∧
     (has 0x15 → servedMacs r i ≠ [] → d.count 0 = (servedMacs r i).length →
       FiresTo (.accd res i) s res ((r.modData i (recount 0 0)).emit i ⟨.sweep, 0, 0, 0⟩)) ∧
     (has 0x15 → d.count 0 = 0 → (∀ m ∈ servedMacs r i, (r.cell m).eos = true ∧ (r.cell m).data.draining = false) →
       FiresTo (.accd res i) s res (r.passes i [] .eos))) ∧
    -- sorting and semaphores
    ((∀ p q, kvLess p q = true ↔ KvBefore p q) ∧
     (has 0x0C → cfg / 2 % 2 = 0 → r.heads i [0, 1] [a, b] →
       let less (k : Nat) : List Nat := if kvLess (el 12 b k) (el 12 a k) then [el 12 b k, el 12 a k] else [el 12 a k, el 12 b k]
       let lo := Token.data 12 ((List.range 4).map fun k => (less k).headD 0) 0
       let hi := Token.data 12 ((List.range 4).map fun k => (less k).getD 1 0) 0
       FiresTo (.cmpx res i) s res
         (((r.takes i [0, 1]).emitTo i 0 (if cfg % 2 = 1 then hi else lo)).emitTo i 1 (if cfg % 2 = 1 then lo else hi))) ∧
     (has 0x0C → cfg / 2 % 2 = 1 → r.heads i [0] [x] → ∃ l : List Nat, l.Perm (elements 12 x) ∧
       l.Pairwise (fun p q => if cfg % 2 = 1 then ¬KvBefore p q else ¬KvBefore q p) ∧
       FiresTo (.cmpx res i) s res ((r.takes i [0]).emit i (Token.data 12 l 0)))) ∧
    (has 0x16 → r.heads i [0] [x] →
      let v := x.payload.toNat % 2 ^ 32
      (cfg / 256 % 2 = 0 → ∃ r' : Residency, FiresTo (.sems res i) s res ((r'.takes i [0]).emit i x) ∧ r' = { r with sems := r'.sems, semovf := r'.semovf } ∧
        ∀ k, r'.sem k = if k = cfg % 256 then min (r.sem k + v) (2 ^ 32 - 1) else r.sem k) ∧
      (cfg / 256 % 2 = 1 → v = 0 ∨ v ≤ r.sem (cfg % 256) ∧
          (∀ w ∈ r.semWaits.takeWhile (· != (cfg % 256, v, i)), w.1 = cfg % 256 → r.sem (cfg % 256) < w.2.1) →
        ∃ r' : Residency, FiresTo (.sems res i) s res ((r'.takes i [0]).emit i x) ∧ r' = { r with sems := r'.sems, semWaits := r'.semWaits } ∧
          ∀ k, r'.sem k = if k = cfg % 256 then r.sem k - v else r.sem k)) ∧
    -- a mark that needs no action
    ∀ f ∈ [(0x01, Instr.pass res i), (0x02, .fork res i), (0x04, .filter res i), (0x06, .alu res i), (0x07, .fmac res i), (0x08, .sfu res i),
        (0x0C, .cmpx res i), (0x16, .sems res i)],
      marked f.1 → (f.1 = 0x01 → cwGet w = false) → (f.1 = 0x06 → cfg / 32 % 2 = 0) → (f.1 = 0x07 → cfg / 8 % 4 ≠ 3) →
        FiresTo f.2 s res (r.passes i (r.inputs i) mk)

/-- R268, R277, R289, R301, R302 and R325: one firing of each cell that makes accesses, and of a feeder, under the command that its port is
carrying out; a byte that a copy has yet to land in the operand memory is its old or its new one (R110); the request of a `rqst` cell at the tile copy engine; the fault of a port, which stops it and queues its cause; and the
quiescent point.
Choices of the model that it rests on: logs 11, 38, 47 and 61. -/
def Obligations.PortCells : Prop :=
  ∀ (s s' : State) (res i : Nat) (r : Residency) (p : Port) (k : Command) (x y : Token),
    let n := footprint k.ltype
    let at_ := k.addr k.pos
    let ready (cop : Nat) : Prop := MayFire s res r i ∧ cwCop (r.cell i).word = cop
    let carries (cop : Nat) : Prop := ready cop ∧ r.port? i = some p ∧ p.current = some k ∧ p.dropped = []
    let goesOn (r : Residency) (steps : Nat) : Residency := r.modPort i (·.advance steps)
    let leaves (e : Instr) (u : State) (r' : Residency) : Prop := ∃ t, exec e s = .next t ∧ findRes t res = some r' ∧
      t.mem = u.mem ∧ t.herds = u.herds ∧ t.packs = u.packs ∧ t.remote = u.remote
    let plain (t : Tlb) : Prop := t.kind = 0 ∧ t.sc = false
    let data (v : Nat) : Token := ⟨.data, k.ltype, BitVec.ofNat 256 v, 0⟩
    (carries 0x0D → ∃ es : List Nat, es = [k.addr k.pos, k.addr (k.pos + 1), k.addr (k.pos + 2), k.addr (k.pos + 3)] ∧
      leaves (.agen res i) s (goesOn (r.emit i (Token.data 13 es 0)) 4)) ∧
    (∀ pa t, carries 0x0E → isMx k.ltype = false → portAccess s r p .read true at_ n n = .ok pa t s' → plain t →
      s'.residencies = s.residencies →
      leaves (.mpld res i) s' (goesOn (r.emit i (data (memNum s' pa n))) 1)) ∧
    (∀ hd, carries 0x10 → isMx k.ltype = false → findHerd s r.herd = some hd → touchesEmpty hd at_ n = false →
      spadPoisoned hd at_ n = false → leaves (.spld res i) s (goesOn (r.emit i (data (numLE (spadBytes hd at_ n)))) 1)) ∧
    (∀ hd, carries 0x10 → findHerd s r.herd = some hd → touchesEmpty hd at_ n = true → leaves (.spld res i) s r) ∧
    (∀ pa t, carries 0x0F → isMx k.ltype = false → r.heads i [0] [x] → portAccess s r p (.write false) false at_ n n = .ok pa t s' →
      plain t → s'.residencies = s.residencies → memWf Config.blankByte s'.mem = true →
      ∃ u, exec (.mpst res i) s = .next u ∧ findRes u res = some (goesOn (r.takes i [0]) 1) ∧
        ∀ a, memGet Config.blankByte u.mem a =
          if pa ≤ a ∧ a < pa + n then BitVec.ofNat 8 (x.payload.toNat / 2 ^ (8 * (a - pa))) else memGet Config.blankByte s'.mem a) ∧
    (∀ hd, carries 0x11 → isMx k.ltype = false → r.heads i [0] [x] → findHerd s r.herd = some hd → touchesEmpty hd at_ n = false →
      memWf 0#8 hd.spad = true → 16 * hd.bars.length ≤ at_ →
      ∃ u hd', exec (.spst res i) s = .next u ∧ findRes u res = some (goesOn (r.takes i [0]) 1) ∧ findHerd u r.herd = some hd' ∧
        u.mem = s.mem ∧ hd'.empty = hd.empty ∧
        ∀ a, spadByte hd' a = if at_ ≤ a ∧ a < at_ + n then BitVec.ofNat 8 (x.payload.toNat / 2 ^ (8 * (a - at_))) else spadByte hd a) ∧
    (∀ pa t, carries 0x12 → isMx k.ltype = false → r.heads i [0] [x] → (r.cell i).data.count 0 < 4 → (r.cell i).data.counts.length = 4 →
      let q := (r.cell i).data.count 0
      portAccess s r p .read true ((elements 13 x).getD q 0) n n = .ok pa t s' → plain t → s'.residencies = s.residencies →
      let r' := (r.emit i (data (memNum s' pa n))).modData i fun d => d.setCount 0 ((q + 1) % 4)
      leaves (.gath res i) s' (if q = 3 then goesOn (r'.takes i [0]) 1 else r')) ∧
    (ready 0x13 → r.heads i [0] [x] →
      leaves (.rqst res i) s ((r.takes i [0]).modData i fun d => { d with buffer := [x] })) ∧
    (∀ (pas : List (Nat × Tlb)) (old : List Nat), carries 0x14 → r.heads i [0, 1] [x, y] →
      tasPlaces s r p (elements 13 x) = .ok (pas, s') → pas.length = 4 → (∀ e ∈ pas, plain e.2) → s'.residencies = s.residencies →
      let cfg := cwCfg (r.cell i).word
      let steps := atomicSteps 32 (fun j o => some (atomValue (cfg % 16) (tasSz cfg) o ((elements 2 y).getD j 0)))
        ((List.range 4).map fun j => ⟨j, ((pas[j]?).map (·.1)).getD 0, identityTlb 0⟩) s'.mem
      old = steps.1.map (·.2) →
      ∃ u, exec (.tas res i) s = .next u ∧ u.mem = steps.2 ∧ findRes u res = some (goesOn
        (if cfg / 64 % 2 = 1 then (r.takes i [0, 1]).emit i (Token.data (cwLtype (r.cell i).word) old 0) else r.takes i [0, 1]) 1)) ∧
    (∀ f j q (slot : OpmSlot) hd, findRes s res = some r → r.firing = true → r.phase ≠ .cutting → r.port? (256 + f) = some p → p.eos = false →
      p.current = some k → r.feederTarget f = some (j, q) → r.room j q = true → isMx k.ltype = false → findHerd s r.herd = some hd →
      hd.opm[at_ / 65536]? = some slot → slot.bad = [] →
      let coming : Prop := ∃ cp ∈ (getCore s r.ctl.core).copies, cp.herd = some r.herd ∧ cp.opm = some (at_ / 65536)
      ∃ bs : List Byte, bs.length = n ∧ leaves (.feederDelivery res f) s ((r.deliver j q (data (numLE bs))).modPort (256 + f) (·.advance 1)) ∧
        ∀ b < n, bs[b]? = some (memGet 0#8 slot.data (at_ % 65536 + b)) ∨
          coming ∧ (comingByte s r (at_ / 65536) (at_ % 65536 + b)).isSome = true ∧ bs[b]? = comingByte s r (at_ / 65536) (at_ % 65536 + b)) ∧
    (findRes s res = some r → r.firing = true → cwCop (r.cell i).word = 0x13 → r.port? i = some p → p.stopped = none →
      (r.cell i).data.buffer = [x] →
      (∀ f, reqFault s r x = some f → ∃ t r', exec (.copyRequest res i) s = .next t ∧ findRes t res = some r' ∧
        (r'.port? i).map (fun q => q.stopped.map fun u => (u.code, u.detail)) = some (some (f.1, f.2)) ∧
        ∀ q ∈ t.packs, ∃ q' ∈ s.packs, q'.loc = q.loc ∧ q'.stop = q.stop) ∧
      (reqFault s r x = none → (getCore s r.ctl.core).copies.length < 64 → 0 < (reqCopy x).r.rows → 128 ≤ (reqCopy x).r.rowb →
        (∀ e ∈ (getCore s r.ctl.core).storeQ, e.herd ≠ some r.herd) →
        ∃ t cp, exec (.copyRequest res i) s = .next t ∧
          findRes t res = some (r.modData i fun d => { d with buffer := [] }) ∧
          (getCore t r.ctl.core).copies = (getCore s r.ctl.core).copies ++ [cp] ∧ cp.gbase.toNat = x.payload.toNat % 2 ^ 64 ∧
          cp.rowb = (reqCopy x).r.rowb ∧ cp.rows = (reqCopy x).r.rows ∧ cp.herd = some r.herd ∧ cp.done = [])) ∧
    (∀ code detail, findRes s res = some r → r.port? i = some p → p.stopped = none → tryPort s r i = .fault code detail s' →
      findRes s' res = some r → code ≠ 15 →
      ∃ t r' n, exec (.portFault res i) s = .next t ∧ findRes t res = some r' ∧ t.mem = s'.mem ∧
        (r'.port? i).map (·.stopped) = some (some ⟨code, BitVec.ofNat 64 detail, s'.clock, false, n⟩) ∧ r'.cells = r.cells ∧
        ∀ hp, findPack s' ⟨r.ctl.core, r.ctl.quarter, 31⟩ = some hp →
          (findPack t ⟨r.ctl.core, r.ctl.quarter, 31⟩).map (·.wakes.map fun w => (w.code, w.src, w.slot, w.unit, w.detail, w.serial)) =
            some (hp.wakes.map (fun w => (w.code, w.src, w.slot, w.unit, w.detail, w.serial)) ++
              [(code, 2, r.ctl.slot, i, BitVec.ofNat 64 detail, n)])) ∧
    (findRes s res = some r → r.firing = true → (∃ q ∈ r.ports, q.stopped.isSome = true) → r.quiescent s = true →
      leaves (.quiescentPoint res) s { r with quiet := true })

/-! ### The function store and tasks -/

/-- R219-R223: each element of `sfn` is the result of the record in the slot of the active bank for the operand in FP32, rounded to nearest,
or the canonical NaN where the slot is empty, and without `.x2` a 16-bit result leaves d[31:16] = 0 (R205); `sfnld` writes a valid record, the 128 bytes of one page part, to its slot of the shadow bank, every other slot
and all else unchanged, and faults on an address not canonical, an address not aligned, or a record not valid; `sfnsw` flips the active
bank and leaves the slots; with no lane executing neither does anything. -/
def Obligations.FunctionStore : Prop :=
  ∀ (h : Head) (o : V) (s s' : State) (c : Ctx) (p : Partition),
    let va := (c.pack.pair o.a.toNat c.low).toNat
    let quiet (i : Instr) : Prop := Retires i s c fun u p' => u = s ∧ p'.regs = c.pack.regs
    (Gives (.sfn h o) s fun c p' l => ∀ e q, e = 0 ∨ (e = 1 ∧ o.fn.getLsbD 4 = true) → findPart s c.pack.part = some q →
      let x := c.pack.fval o.ty e o.a l
      let y := p'.elem o.ty e o.d l
      match slotRecord q q.bank (o.fn.toNat % 16) with
      | none => y = (fmtOf o.ty).nan
      | some r => ∀ w < 2 ^ 32, fv f32 w = x → x.isNan = false → RoundedVal (fmtOf o.ty) .rne false (fv f32 (runRecord r w)) y) ∧
    (Gives (.sfn h o) s fun _ p' l => o.fn.getLsbD 4 = false → o.ty ≠ 8 → (p'.reg o.d.toNat l).toNat < 2 ^ 16) ∧
    (∀ pa t, Issues (.sfnld h o) s c → Clean (.sfnld h o) c → c.exec ≠ 0#64 → QueueFree s c.pack.loc c.low → canonical va = true →
      checkBlock s c.pack.loc.core c.pack.part c.pack.level .read va 128 128 = (.ok [(pa, 128, t)], s') → t.kind = 0 → t.sc = false →
      let bytes := memRead Config.blankByte s'.mem pa 128
      firstBadStep bytes = none → findPart s' c.pack.part = some p → bankHeld s' p.id (1 - p.bank) = false →
      Retires (.sfnld h o) s c fun u p' => p'.regs = c.pack.regs ∧ u.mem = s'.mem ∧ u.herds = s'.herds ∧ u.packs = s'.packs ∧
        ∃ q, findPart u p.id = some q ∧ q.bank = p.bank ∧
          ∀ bank slot, slotRecord q bank slot =
            if bank = 1 - p.bank ∧ slot = o.fn.toNat % 16 then some bytes else slotRecord p bank slot) ∧
    (Issues (.sfnld h o) s c → Clean (.sfnld h o) c → c.exec ≠ 0#64 →
      (canonical va = false → Faults (.sfnld h o) s c s ⟨8, c.exec, BitVec.ofNat 64 va⟩) ∧
      (QueueFree s c.pack.loc c.low → canonical va = true → va % 128 ≠ 0 →
        Faults (.sfnld h o) s c s ⟨7, c.exec, BitVec.ofNat 64 va⟩) ∧
      (∀ pa t off, QueueFree s c.pack.loc c.low → canonical va = true →
        checkBlock s c.pack.loc.core c.pack.part c.pack.level .read va 128 128 = (.ok [(pa, 128, t)], s') → t.kind = 0 → t.sc = false →
        firstBadStep (memRead Config.blankByte s'.mem pa 128) = some off →
        Faults (.sfnld h o) s c s' ⟨30, c.exec, BitVec.ofNat 64 off⟩)) ∧
    (Issues (.sfnsw h o) s c → c.exec ≠ 0#64 → findPart s c.pack.part = some p →
      Retires (.sfnsw h o) s c fun u p' => p'.regs = c.pack.regs ∧ u = { s with parts := u.parts } ∧
        ∃ q, findPart u p.id = some q ∧ q.bank = 1 - p.bank ∧ q.slots = p.slots) ∧
    (∀ i ∈ [Instr.sfnld h o, .sfnsw h o], Issues i s c → c.exec = 0#64 → quiet i)

/-- R309-R314 and R350-R352, on ordinary memory of one page part: `launch` delivers code 0 with the next number and queues the launch, or the
code of the descriptor's fault and queues nothing; `gateadd` adds and delivers the old value; `gatewait` delivers a value at or above the
threshold, or waits; `matcharm` arms an entry or says why not; `msgsend` sends its message or says why not.
Choices of the model that it rests on: logs 15, 26 and 72. -/
def Obligations.LaunchAndTask : Prop :=
  ∀ (h : Head) (o : X) (s s' : State) (c : Ctx) (p : Partition) (pa : Nat) (t : Tlb),
    let a := (c.pack.pair o.a.toNat c.low).toNat
    let b := (c.pack.pair o.b.toNat c.low).toNat
    let core := c.pack.loc.core
    let ready (i : Instr) : Prop := Issues i s c ∧ Clean i c ∧ c.exec ≠ 0#64 ∧ c.pack.shaped = true ∧ t.kind = 0 ∧ t.sc = false ∧
      ∀ l < 64, c.exec.has l = true → QueueFree s c.pack.loc l
    let block (acc : Acc) (len align : Nat) : Prop :=
      checkBlock s core c.pack.part c.pack.level acc a len align = (.ok [(pa, len, t)], s')
    let gives (i : Instr) (post : State → Pack → Prop) : Prop := ∃ u p', exec i s = .next u ∧ findPack u c.pack.loc = some p' ∧
      p'.runsAt (nextPc i c) c.path.mask ∧ post u p'
    let pairIs (p' : Pack) (v : Nat) : Prop := ∀ l < 64, c.exec.has l = true → (p'.pair o.d.toNat l).toNat = v
    let wordIs (p' : Pack) (v : Nat) : Prop := ∀ l < 64, c.exec.has l = true → (p'.reg o.d.toNat l).toNat = v
    let known : Prop := findPack s' c.pack.loc = some c.pack ∧ findPart s' c.pack.part = some p
    let remoteQuiet : Prop := ∀ r ∈ s.remotePages, r.ackDue = 0
    (ready (.launch h o) → block .read 128 128 → known →
      let n := memNum s' pa 128
      let seq : Word := if p.lastSeq = 0xFFFFFFFF#32 then 1#32 else p.lastSeq + 1#32
      let queue := o.low.toNat % 32
      (descCode p n = none → n / 2 ^ 320 % 8 = 0 → n / 2 ^ 384 % 2 ^ 64 = 0 → (watchedGates p).length ≤ 512 * p.dies →
        (p.launches.filter (·.queue == queue)).length < 256 →
        gives (.launch h o) fun u p' => pairIs p' (seq.toNat * 2 ^ 32) ∧ u.mem = s'.mem ∧
          ∃ q, findPart u p.id = some q ∧ q.lastSeq = seq ∧ q.launches.length = p.launches.length + 1 ∧
            ∃ l ∈ q.launches, l.seq = seq ∧ l.queue = queue ∧ l.desc = descOf n ∧ l.gates = [] ∧ l.nextHerd = 0 ∧ l.ended = 0 ∧
              l.term = none) ∧
      (∀ code, descCode p n = some code → gives (.launch h o) fun u p' => pairIs p' code ∧ u.mem = s'.mem ∧ u.parts = s'.parts)) ∧
    (ready (.gateadd h o) → remoteQuiet → a % 8 = 0 → resolve s core c.pack.part c.pack.level .rmw a 8 = (.ok pa t, s') →
      findPack s' c.pack.loc = some c.pack → poisoned s' t pa 8 = false → memWf Config.blankByte s'.mem = true →
      let old := memNum s' pa 8
      gives (.gateadd h o) fun u p' => pairIs p' old ∧
        ∀ x, memGet Config.blankByte u.mem x =
          if pa ≤ x ∧ x < pa + 8 then BitVec.ofNat 8 ((old + b) % 2 ^ 64 / 2 ^ (8 * (x - pa))) else memGet Config.blankByte s'.mem x) ∧
    (ready (.gatewait h o) → block .read 8 8 → findPack s' c.pack.loc = some c.pack → QueueFree s' c.pack.loc c.low →
      SeesNow s' c.pack.loc →
      (b ≤ memNum s' pa 8 → gives (.gatewait h o) fun u p' => pairIs p' (memNum s' pa 8) ∧ u.mem = s'.mem) ∧
      (memNum s' pa 8 < b → ∃ u p', exec (.gatewait h o) s = .next u ∧ findPack u c.pack.loc = some p' ∧ p'.regs = c.pack.regs ∧
        u.mem = s'.mem ∧ (p'.paths[c.idx]?).map (fun q => (q.pc, q.mask, q.wait)) = some (c.path.pc, c.path.mask, .again 3 0))) ∧
    (ready (.matcharm h o) → block .read 32 32 → known →
      let n := memNum s' pa 32
      let entry := o.low.toNat % 1024
      let owns : Prop := 128 * p.die0 ≤ entry ∧ entry < 128 * (p.die0 + p.dies)
      let e : Armed := ⟨entry, BitVec.ofNat 64 n, BitVec.ofNat 64 (n / 2 ^ 64), BitVec.ofNat 32 (n / 2 ^ 128), n / 2 ^ 160 % 2 ^ 32,
        n / 2 ^ 192 % 2 ^ 8⟩
      (¬owns → gives (.matcharm h o) fun u p' => wordIs p' 1 ∧ u.parts = s'.parts) ∧
      (owns → (∃ x ∈ p.armed, x.entry = entry) → gives (.matcharm h o) fun u p' => wordIs p' 2 ∧ u.parts = s'.parts) ∧
      (owns → (∀ x ∈ p.armed, x.entry ≠ entry) → armOk n = false → gives (.matcharm h o) fun u p' => wordIs p' 3 ∧ u.parts = s'.parts) ∧
      (owns → (∀ x ∈ p.armed, x.entry ≠ entry) → armOk n = true → (∀ m ∈ p.held, e.takes m.port m.tag m.bytes.length = false) →
        gives (.matcharm h o) fun u p' => wordIs p' 0 ∧ u.mem = s'.mem ∧ (findPart u p.id).map (·.armed) = some (p.armed ++ [e]))) ∧
    (ready (.msgsend h o) → remoteQuiet →
      let port := o.low.toNat % 32
      let len := b % 2 ^ 32
      let queued := ((getPort s port).txq.filter (·.typ == 0)).length
      let judged (v : Nat) : Prop := gives (.msgsend h o) fun u p' => wordIs p' v ∧ u.ports = s.ports ∧ u.mem = s.mem
      (len = 0 ∨ 2 ^ 20 < len → judged 2) ∧
      (0 < len → len ≤ 2 ^ 20 → (getPort s port).up = false → judged 1) ∧
      (0 < len → len ≤ 2 ^ 20 → (getPort s port).up = true → Config.txDepth ≤ queued → judged 3) ∧
      (0 < len → len ≤ 2 ^ 20 → (getPort s port).up = true → queued < Config.txDepth → block .read len 16 →
        findPack s' c.pack.loc = some c.pack →
        ∃ m : TxMessage, m.typ = 0 ∧ m.part = o.low.toNat / 32 % 8 ∧ m.spart = c.pack.part ∧ m.tag.toNat = b / 2 ^ 32 % 2 ^ 32 ∧
          m.bytes = memRead Config.blankByte s'.mem pa len ∧
          gives (.msgsend h o) fun u p' => wordIs p' 0 ∧ u.ports = (queueMessage s' port m).ports ∧ u.mem = s'.mem))

/-! ### Control and status registers, and handler instructions -/

/-- R342-R344, R348, R365, R385: `csrr` delivers a CSR, the level, partition, match entries and wake cause among them; `csrw` changes the bits that are not reserved of the one it names, and no other CSR,
delivering the old value under `.rd`; a `csrw` of `partcfg` with apply = 1 forms the partitions again, with `featpol`, `tvec`, `mtvec`, `mroute`,
`bartimeout`, `ptroot`, `dbglvl` and the windows at their formation values, where no user pack, launch, armed entry or residency is left, and
faults where one is.  The formation value of `mtvec` is the firmware's (log 12), that of `dbglvl` is R425's for the security state.
Choices of the model that it rests on: logs 12, 14, 49 and 59. -/
def Obligations.ControlRegisters : Prop :=
  ∀ (h : Head) (o : S) (s : State) (c : Ctx) (q : Partition), c.pack.shaped = true → findPart s c.pack.part = some q → q.memwin.length = 8 →
    let n := o.imm.toNat
    let src : Nat := if csrWide n then (c.pack.pair o.a.toNat c.low).toNat else (c.pack.reg o.a.toNat c.low).toNat
    let delivered (p' : Pack) : Prop := ∀ l < 64, c.exec.has l = true →
      if csrWide n then p'.pair o.d.toNat l = BitVec.ofNat 64 (csrRead s c.pack n) else p'.reg o.d.toNat l = BitVec.ofNat 32 (csrRead s c.pack n)
    let ready (i : Instr) : Prop := Issues i s c ∧ Clean i c ∧ c.exec ≠ 0#64
    let rw (k : Nat) : Bool := match n with
      | 0x014 => decide (k < 10)
      | 0x030 => decide (k = 0 ∨ 16 ≤ k ∧ k < 52)
      | _ => decide (k < 64)
    let writes (i : Instr) (f : Bool → Bool → Bool) : Prop := ready i → Retires i s c fun u p' =>
      (o.mod.toNat / 4 = 1 → delivered p') ∧ u = { s with parts := u.parts } ∧ (∀ id, id ≠ c.pack.part → findPart u id = findPart s id) ∧
      (∀ k, (csrRead u c.pack n).testBit k = (rw k && f ((csrRead s c.pack n).testBit k) (src.testBit k))) ∧
      (∀ m, m ≠ n → (csrInfo m).isSome = true → csrRead u c.pack m = csrRead s c.pack m)
    (ready (.csrr h o) → Retires (.csrr h o) s c fun u p' => u = s ∧ delivered p') ∧
    writes (.csrw h o) (fun _ a => a) ∧ writes (.csrwSet h o) or ∧ writes (.csrwClr h o) (fun x a => x && !a) ∧
    (∀ i ∈ [Instr.csrr h o, .csrw h o, .csrwSet h o, .csrwClr h o, .partcfgApply h o], Issues i s c → c.exec = 0#64 →
      Retires i s c fun u p' => u = s ∧ p'.regs = c.pack.regs) ∧
    (ready (.partcfgApply h o) →
      let bit (k : Nat) : Bool := match o.mod.toNat % 4 with
        | 0 => src.testBit k
        | 1 => s.layout.testBit k || src.testBit k
        | _ => s.layout.testBit k && !src.testBit k
      let layout := (bit 0).toNat + 2 * (bit 1).toNat
      let size := 8 / 2 ^ layout
      let empty : Prop := (∀ p ∈ s.packs, p.herd = none) ∧ s.residencies = [] ∧ ∀ p ∈ s.parts, p.launches = [] ∧ p.armed = []
      (bit 2 = false → Retires (.partcfgApply h o) s c fun u p' =>
        (o.mod.toNat / 4 = 1 → delivered p') ∧ u = { s with layout := layout }) ∧
      (bit 2 = true → ¬empty → Faults (.partcfgApply h o) s c s ⟨31, c.exec, 0x004#64⟩) ∧
      (bit 2 = true → empty → (∀ x ∈ s.scCopies, backReady s x = true) → ∃ t p', exec (.partcfgApply h o) s = .next t ∧ findPack t c.pack.loc = some p' ∧
        p'.runsAt (nextPc (.partcfgApply h o) c) c.path.mask ∧ (o.mod.toNat / 4 = 1 → delivered p') ∧
        t.layout = layout ∧ (s.scCopies = [] → t.mem = s.mem) ∧
        t.parts.map (fun p => (p.id, p.die0, p.dies)) = (List.range (8 / size)).map (fun k => (k, size * k, size)) ∧
        (∀ p ∈ t.parts, p.featpol = BitVec.allOnes 64 ∧ p.tvec = 0#64 ∧ p.mtvec = Config.firmwareMtvec ∧ p.mroute = 0#64 ∧
          p.bartimeout = 0x100000000#64 ∧ p.ptroot = 0#64 ∧ p.memwin = List.replicate 8 0#64 ∧ p.slots = [] ∧ p.launches = [] ∧
          p.dbglvl.toNat = (if s.aon.sec = .production then 0 else 2)) ∧
        (∀ core < 336, ∀ quarter < 4, ∃ p, findPack t ⟨core, quarter, 31⟩ = some p ∧ p.herd = none ∧ p.part = core / 42 / size) ∧
        (∀ k ∈ t.cores, k.l1 = [] ∧ k.tlb = []) ∧ (∀ d ∈ t.dies, d.tlb = [] ∧ d.walkCache = []) ∧
        ∀ x ∈ t.near, x.state ≠ .m ∧ x.state ≠ .o)) ∧
    csrRead s c.pack 0x000 = c.pack.level ∧ csrRead s c.pack 0x003 = q.id ∧ csrRead s c.pack 0x004 = s.layout ∧
    csrRead s c.pack 0x060 = q.dbglvl.toNat ∧
    (q.die0 < 8 → q.dies ≤ 8 → bitsOf (csrRead s c.pack 0x040) 9 0 = 128 * q.die0 ∧ bitsOf (csrRead s c.pack 0x040) 26 16 = 128 * q.dies) ∧
    (∀ w, c.pack.wake = some w → w.cause.code < 2 ^ 8 → w.cause.src < 4 → w.cause.quarter < 4 → w.cause.slot < 32 → w.cause.unit < 2 ^ 10 →
      let x := csrRead s c.pack 0x013
      bitsOf x 7 0 = w.cause.code ∧ bitsOf x 9 8 = w.cause.src ∧ bitsOf x 11 10 = w.cause.quarter ∧ bitsOf x 16 12 = w.cause.slot ∧
        bitsOf x 26 17 = w.cause.unit ∧ bitsOf x 31 27 = 0 ∧ bitsOf x 63 32 = w.cause.seq.toNat)

/-- R427: both rows deliver the units granted and the budget of a die of the issuing partition, and `pwrls.set` sets the budget, after which
the head of the die's queue is looked at again; a die outside the partition or a budget above 65535 is refused. -/
def Obligations.PowerLeases : Prop :=
  ∀ (h : Head) (o : S) (s : State) (c : Ctx) (q : Partition), c.pack.shaped = true → findPart s c.pack.part = some q →
    let die := (c.pack.reg o.a.toNat c.low).toNat
    let budget := (c.pack.reg o.b.toNat c.low).toNat
    let mine : Prop := q.die0 ≤ die ∧ die < q.die0 + q.dies
    let ready (i : Instr) : Prop := Issues i s c ∧ Clean i c ∧ c.exec ≠ 0#64
    let is (p' : Pack) (v : Nat) : Prop := ∀ l < 64, c.exec.has l = true → p'.reg o.d.toNat l = BitVec.ofNat 32 v
    let word := (getDie s die).granted * 2 ^ 16 + (getDie s die).budget
    (ready (.pwrlsRd h o) → Retires (.pwrlsRd h o) s c fun u p' =>
      u = s ∧ (mine → is p' word) ∧ (¬mine → is p' 0xFFFFFFFF)) ∧
    (ready (.pwrlsSet h o) → (¬mine ∨ 65535 < budget) → Retires (.pwrlsSet h o) s c fun u p' => u = s ∧ is p' 0xFFFFFFFF) ∧
    (ready (.pwrlsSet h o) → mine → budget ≤ 65535 → (∃ d ∈ s.dies, d.id = die) → Retires (.pwrlsSet h o) s c fun u p' =>
      is p' word ∧ u = { s with dies := u.dies, agenda := s.agenda ++ [.event (.leaseGrant die)] } ∧
      ∀ k, getDie u k = if k = die then { getDie s die with budget := budget } else getDie s k) ∧
    (∀ i ∈ [Instr.pwrlsRd h o, .pwrlsSet h o], Issues i s c → c.exec = 0#64 → Retires i s c fun u p' => u = s ∧ p'.regs = c.pack.regs)

/-- R138, R366, R368: with the handler's stores performed (`s₁`), so that what it resumes observes them, `eret` ends the wake, its handler
idle with its registers as they stand, and acts on a cause whose unit still stands stopped for it: a pack's paths go on at their points, or one instruction on, or with the expired wait begun again or given up; a copy goes on, is
cancelled or stays; a port goes on or stays; or the launch ends with the status, the code and the faulting PC.  That the handler's stores
perform within the same turn is the model's choice (log 23), and so is that no lane of the core sees an older line afterwards, in its L1 or
out of it (log 60): R138 orders only what a `dev`-scope release orders.
Choices of the model that it rests on: logs 23, 38, 50, 60 and 72. -/
def Obligations.ExceptionReturn : Prop :=
  ∀ (h : Head) (o : S) (s : State) (c : Ctx) (w : Wake), c.exec ≠ 0#64 → c.pack.wake = some w →
    c.pack.herd = none →
    let f := w.cause
    let core := c.pack.loc.core
    let s₁ := acquireAll (drain s c.pack.loc Mask.full).2 core
    let s₀ := setPack s₁ { c.pack with wake := none, paths := [], stop := .running, record := none }
    (drain s c.pack.loc Mask.full).1 = true → s₁.packs = s.packs →
    let inRange : Prop := f.code < 2 ^ 8 ∧ f.src < 4 ∧ f.quarter < 4 ∧ f.slot < 31 ∧ f.unit < 2 ^ 10
    let stands (p : Pack) (r : TrapRecord) : Prop := inRange ∧ f.src = 0 ∧ p.loc ≠ c.pack.loc ∧ findPack s₁ ⟨core, f.quarter, f.slot⟩ = some p ∧
      p.stop = .faulted ∧ p.record = some r ∧ r.code = f.code ∧ r.seq = f.seq ∧ p.control = none
    let runs (i : Instr) (u : State) (p : Pack) (post : Pack → Prop) : Prop :=
      ∃ p₁ : Pack, p₁.loc = p.loc ∧ p₁.stop = .running ∧ p₁.record = none ∧ p₁.regs = p.regs ∧ p₁.sets = p.sets ∧ post p₁ ∧
        ∀ s', resumeFault (setPack u p₁) p₁ (sortByLow p₁.paths) = (none, s') → exec i s = .next s' ∧ findPack s' p.loc = some p₁ ∧
          s'.mem = s₁.mem ∧ s'.herds = s₁.herds
    -- the check of no resume PC must wait for a walk or a page
    let goesOn (skip : Bool) (i : Instr) (p : Pack) (post : Pack → Prop) : Prop := resumesWait s₁ skip [p] = none → runs i s₀ p post
    let fixed (p : Pack) (q : Path) : Prop := match q.wait with
      | .run | .set _ | .line _ _ | .again _ _ => True
      | .bar k ph _ => ∀ g b, p.herd = some g → barAt s₁ g k = some b → b.inv = false ∧ b.phase = ph
      | .barDone _ _ _ _ => False
    let hit (p : Pack) (r : TrapRecord) (j : Nat) (q : Path) : Prop := p.paths[j]? = some q ∧ q.pc = r.fpc ∧ q.mask &&& r.fmask ≠ 0#64 ∧
      ∀ k x, k < j → p.paths[k]? = some x → ¬(x.pc = r.fpc ∧ x.mask &&& r.fmask ≠ 0#64)
    let ends (i : Instr) (seq : Word) (t : Termination) : Prop :=
      ∃ u, exec i s = .next u ∧ (∃ x, findPack u c.pack.loc = some x ∧ x.wake = none ∧ x.paths = [] ∧ x.regs = c.pack.regs) ∧
        ∀ part l, findPart s₁ c.pack.part = some part → (∀ m ∈ part.messages, m.seq ≠ seq) → part.launches.find? (·.seq == seq) = some l →
          l.term = none → (∃ part', findPart u part.id = some part' ∧ ∃ l' ∈ part'.launches, l'.seq = seq ∧ l'.term = some t) ∧
          (∀ x ∈ u.herds, x.part = part.id → x.seq = seq → ∀ q ∈ u.packs, q.herd ≠ some x.id) ∧
          ((∀ k ∈ s₁.cores, k.storeQ = []) → ∀ x ∈ u.herds, ¬(x.part = part.id ∧ x.seq = seq))
    (∀ p r, stands p r →
      (Issues (.eretRes h o) s c → r.code ≠ 34 → (∀ q ∈ p.paths, fixed p q) → goesOn false (.eretRes h o) p fun p₁ =>
        p₁.paths.map (fun q => (q.pc, q.mask, q.wait)) = p.paths.map (fun q => (q.pc, q.mask, q.wait))) ∧
      (Issues (.eretRes h o) s c → r.code = 34 → (∀ x ∈ p.paths, fixed p x) → ∀ j q, hit p r j q → goesOn false (.eretRes h o) p fun p₁ =>
          (p₁.paths[j]?).map (fun q => (q.pc, q.mask, q.wait, q.count (now s₁))) = some (q.pc, q.mask, q.wait, 0)) ∧
      (Issues (.eretSkip h o) s c → (∀ x ∈ p.paths, fixed p x) → r.code ≠ 34 → ∀ j q, hit p r j q → q.wait = .run → goesOn true (.eretSkip h o) p fun p₁ =>
        p₁.paths.map (fun q => (q.pc, q.mask, q.wait)) = (p.paths.map (fun q => (q.pc, q.mask, q.wait))).modify j fun x =>
          (x.1 + (if r.x then 16#64 else 8#64), x.2)) ∧
      (Issues (.eretSkip h o) s c → (∀ x ∈ p.paths, fixed p x) → r.code = 25 → ∀ j q k, hit p r j q → q.wait = .set k → goesOn true (.eretSkip h o) p fun p₁ =>
        ∀ l < 64, r.fmask.has l = true → p₁.runsAt (Lanes.get 0#64 p.resumePc l)
          (Mask.ofPred fun m => r.fmask.has m && Lanes.get 0#64 p.resumePc m == Lanes.get 0#64 p.resumePc l)) ∧
      (Issues (.eretTerm h o) s c → ends (.eretTerm h o) f.seq ⟨if f.code = 34 then 2 else 1, f.code, r.fpc⟩) ∧
      (Issues (.eretDefer h o) s c → exec (.eretDefer h o) s = .next (setPack s₀ { p with stop := .deferred }))) ∧
    (∀ p r j q k ph pr, stands p r → r.code = 34 → hit p r j q → q.wait = .bar k ph pr →
      (∀ i x, i ≠ j → p.paths[i]? = some x → fixed p x) → p.preds.length = 7 → laneZeroOnly s₁ p = false → Issues (.eretSkip h o) s c → goesOn true (.eretSkip h o) p fun p₁ =>
        (p₁.paths[j]?).map (fun q => (q.pc, q.mask, q.wait)) = some (q.pc + 8, q.mask, .run) ∧
          (pr < 7 → ∀ l < 64, p₁.pred pr l = (p.pred pr l && !q.mask.has l))) ∧
    (∀ y x, inRange → f.src = 1 → findCopy s₁ core f.unit = some y → y.loc.quarter = f.quarter → y.loc.slot = f.slot → y.suspended = some x → x.serial = f.serial →
      let copies (i : Instr) (z : Option UnitStop) : Prop := Issues i s c → exec i s = .next (modCore s₀ core fun k =>
        { k with copies := updWhere (·.tag == y.tag) (fun y => { y with suspended := z }) k.copies })
      copies (.eretRes h o) none ∧ ((∀ z ∈ (getCore s₁ core).copies, z.tag = y.tag → z = y) → copies (.eretDefer h o) (some { x with deferred := true })) ∧
      (Issues (.eretSkip h o) s c → exec (.eretSkip h o) s = .next (cancelCopy s₀ core y)) ∧
      (Issues (.eretTerm h o) s c → ends (.eretTerm h o) f.seq ⟨if f.code = 34 then 2 else 1, f.code, 0#64⟩)) ∧
    (∀ p r n x, inRange → f.src = 2 → findPack s₁ ⟨core, f.quarter, f.slot⟩ = some p → p.loc ≠ c.pack.loc → p.control = some r.id →
      findRes s₁ r.id = some r → r.port? f.unit = some n → n.stopped = some x → x.serial = f.serial →
      (∀ i ∈ [Instr.eretRes h o, .eretSkip h o], Issues i s c → exec i s = .next (modRes s₀ r.id fun r =>
        { r with ports := updWhere (·.num == n.num) (fun k => { k with stopped := none }) r.ports, quiet := false })) ∧
      (Issues (.eretTerm h o) s c → ends (.eretTerm h o) f.seq ⟨if f.code = 34 then 2 else 1, f.code, 0#64⟩)) ∧
    (inRange → f.src = 0 → (∀ p, findPack s₁ ⟨core, f.quarter, f.slot⟩ = some p → p.loc ≠ c.pack.loc ∧ p.stop ≠ .faulted) →
      ∀ i ∈ [Instr.eretRes h o, .eretSkip h o, .eretTerm h o, .eretDefer h o], Issues i s c → exec i s = .next s₀) ∧
    (∀ outer r, f.src = 0 → f.slot = 31 → w.outer = some outer → c.pack.record = some r → r.paths ≠ [] → c.pack.control = none →
      (∀ e ∈ r.paths, e.state = 0) → (∀ q, ownWake c.pack (now s₁) outer = some q → resumesWait s₁ false [q] = none) →
      Issues (.eretRes h o) s c → runs (.eretRes h o) s₁ c.pack fun p₁ =>
        p₁.level = 1 ∧ p₁.wake = some ⟨outer, none⟩ ∧ ∀ e ∈ r.paths, p₁.runsAt e.pc e.mask)

/-- R369, R372: `packhalt` stops a running pack, or the running packs of its herd, with a record of code 0 and no cause; `packhalt.kill`
ends the pack's launch with status 3; `packresume` starts a halted pack, the halted packs of a herd and the named pack with a deferred cause, or a unit whose cause was deferred;
`whistle` orders the cut of an active residency.  Each gives a status: 0 done, 1 no such unit, 2 not in the state required.  With no
lane executing, these rows and `eret` do nothing.
Choices of the model that it rests on: log 47. -/
def Obligations.PackStatus : Prop :=
  ∀ (h : Head) (o : S) (s : State) (c : Ctx),
    let w := (c.pack.reg o.b.toNat c.low).toNat
    let core := c.pack.loc.core
    let at_ : PackLoc := ⟨core, w / 2 ^ 10 % 4, w / 2 ^ 12 % 32⟩
    let unit := w / 2 ^ 17 % 2 ^ 10
    let ready (i : Instr) : Prop := Issues i s c ∧ Clean i c ∧ c.exec ≠ 0#64 ∧ c.pack.shaped = true
    let gives (i : Instr) (v : Nat) (post : State → Prop) : Prop := ready i →
      ∃ u p', exec i s = .next u ∧ findPack u c.pack.loc = some p' ∧ p'.runsAt (nextPc i c) c.path.mask ∧
        (∀ l < 64, c.exec.has l = true → p'.reg o.d.toNat l = BitVec.ofNat 32 v) ∧ u.mem = s.mem ∧ post u
    let user (p : Pack) : Prop := w / 2 ^ 8 % 4 = 0 ∧ at_.slot ≠ 31 ∧ findPack s at_ = some p ∧ p.loc ≠ c.pack.loc
    let kept (u : State) : Prop := u.herds = s.herds ∧ u.residencies = s.residencies ∧ u.cores = s.cores ∧
      ∀ loc, loc ≠ c.pack.loc → findPack u loc = findPack s loc
    let runs (p : Pack) : Prop := p.stop = .running ∧ ∀ x, p.herd.bind (findHerd s) = some x → x.saving = false
    let halted (u : State) (p : Pack) : Prop := ∃ q r, findPack u p.loc = some q ∧ q.stop = .halted ∧ q.record = some r ∧ q.regs = p.regs ∧
      q.wakes = p.wakes ∧ r.code = 0 ∧ r.fpc = 0#64 ∧ r.fmask = 0#64 ∧ r.pack = p.num ∧ r.exited = p.exited ∧ r.paths.length = p.paths.length
    let started (u : State) (p : Pack) : Prop := ∃ q, findPack u p.loc = some q ∧ q.stop = .running ∧ q.record = none ∧ q.regs = p.regs
    -- every path may go on: it waits at no barrier, and its PC passes the checks of R160 whatever stands there, waiting for no walk or page
    let sound (p : Pack) : Prop := p.control = none ∧ ∀ x ∈ p.paths, canonical x.pc.toNat = true ∧ x.pc.toNat % 16 = 0 ∧
      (∀ k ph pr v, x.wait ≠ .bar k ph pr ∧ x.wait ≠ .barDone k ph pr v) ∧ resumeWait s p (sortByLow p.paths) = none
    let all : List Instr := [.packhalt h o, .packhaltHerd h o, .packhaltKill h o, .whistle h o]
    (w / 2 ^ 8 % 4 ≠ 0 ∨ at_.slot = 31 ∨ findPack s at_ = none → ∀ i ∈ all, gives i 1 kept) ∧
    (w / 2 ^ 8 % 4 = 3 ∨ at_.slot = 31 ∨ (w / 2 ^ 8 % 4 ≠ 1 ∧ findPack s at_ = none) → gives (.packresume h o) 1 kept) ∧
    (∀ p, user p →
      (runs p → gives (.packhalt h o) 0 fun u => halted u p ∧ u.herds = s.herds ∧
        ∀ loc, loc ≠ c.pack.loc → loc ≠ p.loc → findPack u loc = findPack s loc) ∧
      (p.stop ≠ .running → gives (.packhalt h o) 2 kept) ∧
      (∀ g, p.herd = some g → c.pack.herd ≠ some g → runs p → gives (.packhaltHerd h o) 0 fun u =>
        ∀ q ∈ s.packs, q.herd = some g → (∀ x ∈ s.packs, x.loc = q.loc → x = q) → if q.stop = .running then halted u q else findPack u q.loc = some q) ∧
      (∀ g, p.herd = some g → (∀ q ∈ s.packs, q.herd = some g → q.stop ≠ .running) → gives (.packhaltHerd h o) 2 kept) ∧
      (∀ g part l, p.herd.bind (findHerd s) = some g → findPart s p.part = some part → part.launches.find? (·.seq == g.seq) = some l →
        l.term = none → (∀ m ∈ part.messages, m.seq ≠ g.seq) → c.pack.herd = none →
        ready (.packhaltKill h o) → ∃ u p' part', exec (.packhaltKill h o) s = .next u ∧ findPack u c.pack.loc = some p' ∧
          p'.runsAt (nextPc (.packhaltKill h o) c) c.path.mask ∧
          (∀ l < 64, c.exec.has l = true → p'.reg o.d.toNat l = 0#32) ∧ findPart u part.id = some part' ∧
          (∃ l' ∈ part'.launches, l'.seq = g.seq ∧ l'.term = some ⟨3, 0, 0#64⟩) ∧
          (∀ x ∈ u.herds, x.part = part.id → x.seq = g.seq → ∀ q ∈ u.packs, q.herd ≠ some x.id) ∧
          ((∀ k ∈ s.cores, k.storeQ = []) → ∀ x ∈ u.herds, ¬(x.part = part.id ∧ x.seq = g.seq))) ∧
      (o.mod = 0 → p.stop = .halted ∨ p.stop = .deferred → sound p → gives (.packresume h o) 0 fun u => started u p) ∧
      (o.mod = 0 → p.stop = .running ∨ p.stop = .faulted → gives (.packresume h o) 2 kept) ∧
      (∀ g, o.mod ≠ 0 → p.herd = some g → c.pack.herd ≠ some g →
        let goes (q : Pack) : Prop := (q = p ∧ p.stop = .deferred) ∨ (q.herd = some g ∧ q.stop = .halted)
        (∃ q ∈ s.packs, goes q) → (∀ q ∈ s.packs, goes q → sound q ∧ ∀ x ∈ s.packs, x.loc = q.loc → x = q) →
        gives (.packresume h o) 0 fun u => ∀ q ∈ s.packs, goes q → started u q) ∧
      (∀ g, o.mod ≠ 0 → p.herd = some g → p.stop ≠ .deferred → (∀ q ∈ s.packs, q.herd = some g → q.stop ≠ .halted) →
        gives (.packresume h o) 2 kept)) ∧
    (∀ y, w / 2 ^ 8 % 4 = 1 → at_.slot ≠ 31 → findCopy s core unit = some y → ¬(y.loc.quarter = at_.quarter ∧ y.loc.slot = at_.slot) →
      gives (.packresume h o) 1 kept) ∧
    (∀ y, w / 2 ^ 8 % 4 = 1 → at_.slot ≠ 31 → findCopy s core unit = some y → y.loc.quarter = at_.quarter → y.loc.slot = at_.slot →
      (y.suspended.map (·.deferred) = some true → gives (.packresume h o) 0 fun u => ∃ z ∈ (getCore u core).copies, z = { y with suspended := none }) ∧
      (y.suspended.map (·.deferred) ≠ some true → gives (.packresume h o) 2 kept)) ∧
    (∀ p r n, w / 2 ^ 8 % 4 = 2 → at_.slot ≠ 31 → findPack s at_ = some p → p.loc ≠ c.pack.loc → p.control = some r.id →
      findRes s r.id = some r → r.port? unit = some n →
      (n.stopped.map (·.deferred) = some true → gives (.packresume h o) 0 fun u => findRes u r.id = some
        { r with ports := updWhere (·.num == n.num) (fun k => { k with stopped := none }) r.ports, quiet := false }) ∧
      (n.stopped.map (·.deferred) ≠ some true → gives (.packresume h o) 2 kept)) ∧
    (∀ p r, user p → (p.control = none → gives (.whistle h o) 1 kept) ∧
      (p.control = some r.id → findRes s r.id = some r → r.phase = .active → ∀ g, p.herd = some g →
        ((∃ q ∈ s.packs, findPack s q.loc = some q ∧ q.herd = some g ∧ q.loc ≠ p.loc ∧ q.stop ≠ .running) → gives (.whistle h o) 2 kept) ∧
        ((∀ q ∈ s.packs, q.herd = some g → q.loc ≠ p.loc → q.stop = .running) → gives (.whistle h o) 0 fun u =>
          findRes u r.id = some { r with cutWanted := true, saveHerd := true } ∧ u.herds = s.herds))) ∧
    (∀ i ∈ [.packresume h o, .eretRes h o, .eretSkip h o, .eretTerm h o, .eretDefer h o] ++ all, Issues i s c → c.exec = 0#64 → Retires i s c fun u p' => u = s ∧ p'.regs = c.pack.regs)

/-! ### Images, shootdown, promotion and adoption -/

/-- R364, R370, R371, R374: `ctxsave.rec` writes a record's header and its path entries and delivers their number; `ctxsave.herd` writes the
image of a stopped herd, with its header, length, digest, scratchpad and registers where the manual places them, and the herd becomes
detached; `ctxload` checks version, digest and name, and the herd becomes one that awaits resumption, with the residency that the image holds,
an earlier one of the herd's too, or without one; each gives its status where it cannot.
Choices of the model that it rests on: logs 13, 20, 30, 31, 32, 33, 34, 64, 66 and 70. -/
def Obligations.HerdImages : Prop :=
  ∀ (h : Head) (o : S) (s s' : State) (c : Ctx) (pa : Nat) (t : Tlb),
    let w := (c.pack.reg o.b.toNat c.low).toNat
    let core := c.pack.loc.core
    let at_ : PackLoc := ⟨core, w / 2 ^ 10 % 4, w / 2 ^ 12 % 32⟩
    let va := (c.pack.pair o.a.toNat c.low).toNat
    let num (u : State) (off n : Nat) : Nat := memNum u (pa + off) n
    let ready (i : Instr) : Prop := Issues i s c ∧ Clean i c ∧ c.exec ≠ 0#64 ∧ c.pack.shaped = true ∧ c.pack.herd = none
    let block (u : State) (acc : Acc) (len : Nat) : Prop :=
      checkBlock u core c.pack.part c.pack.level acc va len 128 = (.ok [(pa, len, t)], s') ∧ t.kind = 0 ∧ t.sc = false ∧
        findPack s' c.pack.loc = some c.pack ∧ memWf Config.blankByte s'.mem = true
    let saves (i : Instr) (status bytes : Nat) (post : State → Prop) : Prop := ∃ u p', exec i s = .next u ∧ findPack u c.pack.loc = some p' ∧
      p'.runsAt (nextPc i c) c.path.mask ∧ (∀ l < 64, c.exec.has l = true → (p'.pair o.d.toNat l).toNat = status + bytes * 2 ^ 32) ∧
      (∀ x, x < pa ∨ pa + bytes ≤ x → memGet Config.blankByte u.mem x = memGet Config.blankByte s'.mem x) ∧ post u
    let stays (i : Instr) (status : Nat) : Prop := ∃ u p', exec i s = .next u ∧ findPack u c.pack.loc = some p' ∧ u.mem = s.mem ∧
      u.herds = s.herds ∧ p'.runsAt (nextPc i c) c.path.mask ∧ ∀ l < 64, c.exec.has l = true → (p'.pair o.d.toNat l).toNat = status
    let user (p : Pack) : Prop := w / 2 ^ 8 % 4 = 0 ∧ at_.slot ≠ 31 ∧ findPack s at_ = some p
    let none_ : Prop := w / 2 ^ 8 % 4 = 3 ∨ (w / 2 ^ 8 % 4 ≠ 1 ∧ (at_.slot = 31 ∨ findPack s at_ = none))
    (∀ i ∈ [Instr.ctxsaveRec h o, .ctxsaveHerd h o, .ctxload h o], Issues i s c → c.exec = 0#64 →
      Retires i s c fun u p' => u = s ∧ p'.regs = c.pack.regs) ∧
    (ready (.ctxsaveRec h o) →
      (none_ → stays (.ctxsaveRec h o) 1) ∧
      (∀ p, user p → p.record = none → stays (.ctxsaveRec h o) 2) ∧
      (∀ p r, user p → p.record = some r → r.appendix = none → r.paths.length ≤ 64 → block s (.write false) (64 + 32 * r.paths.length) →
        saves (.ctxsaveRec h o) 0 (64 + 32 * r.paths.length) fun u =>
          num u 0 64 = (r.code + r.paths.length * 2 ^ 8 + r.pack * 2 ^ 16 + r.quarter * 2 ^ 20 + r.slot * 2 ^ 22 + r.x.toNat * 2 ^ 27 +
            r.seq.toNat * 2 ^ 32 + r.fpc.toNat * 2 ^ 64 + r.fmask.toNat * 2 ^ 128 + r.detail.toNat * 2 ^ 192 + r.exited.toNat * 2 ^ 256 +
            r.clock.toNat * 2 ^ 320 + r.herd * 2 ^ 384) % 2 ^ 512 ∧
          ∀ k q, r.paths[k]? = some q → num u (64 + 32 * k) 32 = (q.pc.toNat + q.mask.toNat * 2 ^ 64 + q.state * 2 ^ 128 + q.num * 2 ^ 130 +
            q.ph.toNat * 2 ^ 136 + q.wcount % 2 ^ 64 * 2 ^ 192) % 2 ^ 256) ∧
      (∀ y x p, w / 2 ^ 8 % 4 = 1 → at_.slot ≠ 31 → findCopy s core (w / 2 ^ 17 % 2 ^ 10) = some y → y.suspended = some x →
        findPack s y.loc = some p → y.loc.quarter = at_.quarter → y.loc.slot = at_.slot → x.code < 2 ^ 8 → p.num < 16 → y.loc.quarter < 4 → y.loc.slot < 32 → block s (.write false) 64 →
        saves (.ctxsaveRec h o) 0 64 fun u => num u 0 1 = x.code ∧ num u 1 1 = 0 ∧ num u 8 8 = 0 ∧ num u 16 8 = 0 ∧
          num u 24 8 = x.detail.toNat)) ∧
    (ready (.ctxsaveHerd h o) →
      let still (g : Herd) : Prop := (∀ q ∈ s.packs, q.herd = some g.id → q.stop ≠ .running) ∧ g.core = core ∧
        (∀ q ∈ s.packs, q ≠ c.pack → q.isHandler = true → q.loc.core = core → q.wakes = [] ∧ q.wake = none) ∧
        c.pack.wakes = [] ∧ (∀ x, c.pack.wake = some x → x.outer = none) ∧ ∀ r ∈ s.residencies, r.herd = g.id → r.phase = .saved
      let copies (g : Herd) : List Copy := (getCore s core).copies.filter fun y => y.herd == some g.id
      (none_ ∨ w / 2 ^ 8 % 4 ≠ 0 → stays (.ctxsaveHerd h o) 1) ∧
      (∀ p g, user p → p.herd.bind (findHerd s) = some g →
        ((∃ q ∈ s.packs, q.herd = some g.id ∧ q.stop = .running) → stays (.ctxsaveHerd h o) 2) ∧
        (still g → (∃ y ∈ copies g, y.suspended ≠ none) → stays (.ctxsaveHerd h o) 3) ∧
        (still g → copies g = [] → (∀ e ∈ (getCore s core).storeQ, e.herd ≠ some g.id) → (∀ r ∈ s.remotePages, r.ackDue = 0) →
          (∀ x ∈ s.scCopies, x.die ≠ dieOf core) → g.packCount < 2 ^ 8 → g.index < 2 ^ 48 → g.spadSize < 2 ^ 32 → g.bars.length < 64 → g.opm.length < 32 →
          let n := (imageBytes g (imageSections s g)).length
          block s (.write false) n → n < 2 ^ 32 → saves (.ctxsaveHerd h o) 0 n fun u =>
            num u 0 1 = 1 ∧ num u 1 1 = g.packCount ∧ num u 4 4 = g.seq.toNat ∧ num u 8 6 = g.index ∧ num u 16 4 = g.spadSize ∧
            num u 20 1 % 64 = g.bars.length ∧ num u 24 8 = n ∧ n % 128 = 0 ∧
            num u 32 8 = numLE ((sha256 (memRead Config.blankByte u.mem (pa + 128) (n - 128))).take 8) ∧
            (∀ q, s.packs.find? (fun q => q.herd == some g.id && q.num == 0) = some q → 0 < g.packCount → q.paths.length < 2 ^ 8 →
              q.shaped = true → ∀ v < q.regCount, ∀ l < 64,
                num u (256 + 32 * q.paths.length + 256 * v + 4 * l) 4 = (q.reg v l).toNat) ∧
            (findHerd u g.id).map (·.place) = some .detached ∧ ∀ q ∈ u.packs, q.herd ≠ some g.id))) ∧
    (ready (.ctxload h o) →
      let loads (u : State) (status : Nat) (post : State → Prop) : Prop := ∃ z p', exec (.ctxload h o) s = .next z ∧
        findPack z c.pack.loc = some p' ∧ p'.runsAt (nextPc (.ctxload h o) c) c.path.mask ∧ z.mem = u.mem ∧
        (∀ l < 64, c.exec.has l = true → (p'.reg o.d.toNat l).toNat = status) ∧ post z
      let n := num s' 24 8
      block s .read 128 →
        (num s' 0 1 ≠ 1 → loads s' 4 fun z => z.herds = s'.herds) ∧
        (∀ s'', num s' 0 1 = 1 → n % 128 = 0 → 256 ≤ n →
          checkBlock s' core c.pack.part c.pack.level .read va n 128 = (.ok [(pa, n, t)], s'') → findPack s'' c.pack.loc = some c.pack →
          let digest := numLE ((sha256 (memRead Config.blankByte s''.mem (pa + 128) (n - 128))).take 8)
          let named (g : Herd) : Prop := g.part = c.pack.part ∧ g.place = .detached ∧ g.seq.toNat = num s'' 4 4 ∧ g.index = num s'' 8 6
          (num s'' 32 8 ≠ digest → loads s'' 5 fun z => z.herds = s''.herds) ∧
          (num s'' 32 8 = digest → (∀ g ∈ s''.herds, ¬named g) → loads s'' 1 fun z => z.herds = s''.herds) ∧
          (∀ g l g' opm, num s'' 32 8 = digest → named g → (∀ x ∈ s''.herds, named x → x = g) → g ∈ s''.herds →
            findHerd s'' g.id = some g → launchOf s'' g = some l →
            herdOf s'' g l.desc (memRead Config.blankByte s''.mem pa n) = some (g', opm) →
            let held := resOf s'' g ((memRead Config.blankByte s''.mem pa n).drop (resStart g opm))
            let res := num s'' 2 1 % 2 = 1
            (¬res → loads s'' 0 fun z => findHerd z g.id = some { g' with residency := none, packs := g'.packs.map fun (p : Pack) => { p with control := none } } ∧
              ∀ r ∈ z.residencies, r.herd ≠ g.id) ∧
            (res → held = none → loads s'' 5 fun z => z.herds = s''.herds) ∧
            (∀ x, res → held = some x → x.res.herd = g.id → (∀ r ∈ s''.residencies, r.id = x.res.id → r.herd = g.id) →
              loads s'' 0 fun z => findRes z x.res.id = some x.res ∧ (∀ r ∈ z.residencies, r.herd = g.id → r = x.res) ∧
                findHerd z g.id = some { g' with
                  residency := some x.res.id
                  packs := g'.packs.map fun (p : Pack) => { p with control := if p.num = x.ctl then some x.res.id else none } }) ∧
            g'.place = .stored ∧ g'.id = g.id ∧ g'.seq = g.seq ∧
              ∀ q ∈ g'.packs, q.num = 0 → ∀ v < q.regCount, ∀ k < 64,
                (q.reg v k).toNat = num s'' (256 + 32 * num s'' 144 1 + 256 * v + 4 * k) 4)))

/-- R137, R139, R391, R395, R396: `tlbinv` checks its range, and retires with no translation of the range left in the partition's TLBs, every
other translation kept, no instruction line left in the L1s of its cores, and nothing that their lanes may still see of the old frames, once
the range entries of its ports have gone; its lane then sees nothing older in its core's L1; until then it stays at its instruction.  Nothing is waited for where no store, port or outside agent stands in the way.
Choices of the model that it rests on: logs 40 and 60. -/
def Obligations.Shootdown : Prop :=
  ∀ (h : Head) (o : S) (s : State) (c : Ctx) (part : Partition), findPart s c.pack.part = some part → c.exec ≠ 0#64 →
    let va := (c.pack.pair o.a.toNat c.low).toNat
    let count := (c.pack.reg o.b.toNat c.low).toNat
    let sys : Bool := o.mod.toNat / 4 % 2 == 1
    let hits (v n : Nat) (e : Tlb) : Bool := decide (n ≠ 0 ∧ e.part = part.id ∧ v < e.vpn + e.pages ∧ e.vpn < v + n)
    let mine (core : Nat) : Prop := 42 * part.die0 ≤ core ∧ core < 42 * (part.die0 + part.dies)
    let idle : Prop := c.pack.shoot = none ∧ c.path.wait = .run ∧ QueueFree s c.pack.loc c.low ∧ (∀ k ∈ s.cores, mine k.id → k.storeQ = []) ∧
      (sys = true → s.pages = [] ∧ s.handOvers = [] ∧ ∀ r ∈ s.remotePages, r.ackDue = 0)
    let ports (f : Port → Prop) : Prop := ∀ r ∈ s.residencies, r.part = part.id → ∀ x ∈ r.ports, f x
    let removes (i : Instr) (v n : Nat) : Prop := Issues i s c → Clean i c → idle →
      (ports (fun x => x.relatch = [] ∧ ∀ e ∈ x.ranges, hits v n e = false) → Retires i s c fun u p' =>
        p'.regs = c.pack.regs ∧ u.mem = s.mem ∧ u.packs = s.packs ∧
        (∀ core, mine core → (getCore u core).tlb = (getCore s core).tlb.filter fun e => !hits v n e) ∧
        (∀ core, ¬mine core → core ≠ c.pack.loc.core → getCore u core = getCore s core) ∧
        (∀ d, (getDie u d).tlb = (getDie s d).tlb.filter fun e => !hits v n e) ∧
        (∀ core, mine core → (getCore u core).early = [] ∧
          (getCore u core).l1 = if core = c.pack.loc.core then [] else (getCore s core).l1.filter fun x => !x.instr)) ∧
      (∀ r ∈ s.residencies, r.part = part.id → r.phase ≠ .saved → findRes s r.id = some r → ∀ x ∈ r.ports, (∃ e ∈ x.ranges, hits v n e = true) →
        ∃ u p' sh r', exec i s = .next u ∧ findPack u c.pack.loc = some p' ∧ p'.regs = c.pack.regs ∧ p'.shoot = some sh ∧
          p'.runsAt c.path.pc c.path.mask ∧ findRes u r.id = some r' ∧ .event (.relatchToken r.id x.num) ∈ u.agenda ∧
          ∃ x' ∈ r'.ports, x'.num = x.num ∧ x'.relatch = x.relatch ++ [(v, n)] ∧ x'.ranges = x.ranges)
    let checked (i : Instr) (n : Nat) : Prop := Issues i s c → Clean i c →
      let last := va + (n - 1) * 65536
      (va % 65536 ≠ 0 → Faults i s c s ⟨7, c.exec, BitVec.ofNat 64 va⟩) ∧
      (va % 65536 = 0 → canonical va = false → Faults i s c s ⟨8, c.exec, BitVec.ofNat 64 va⟩) ∧
      (va % 65536 = 0 → canonical va = true → 0 < n → 2 ^ 64 ≤ last ∨ canonical last = false →
        Faults i s c s ⟨8, c.exec, BitVec.ofNat 64 last⟩)
    let fits (n : Nat) : Prop := va % 65536 = 0 ∧ canonical va = true ∧
      (n = 0 ∨ va + (n - 1) * 65536 < 2 ^ 64 ∧ canonical (va + (n - 1) * 65536) = true)
    (fits 1 → removes (.tlbinvPage h o) (va / 65536 % 2 ^ 39) 1) ∧ checked (.tlbinvPage h o) 1 ∧
    (fits count → removes (.tlbinvRange h o) (va / 65536 % 2 ^ 39) count) ∧ checked (.tlbinvRange h o) count ∧
    removes (.tlbinvAll h o) 0 (2 ^ 39) ∧
    (∀ (s : State) (c : Ctx), ∀ i ∈ [Instr.tlbinvPage h o, .tlbinvRange h o, .tlbinvAll h o, .l2opProm h o, .l2opAdopt h o], Issues i s c →
      c.exec = 0#64 → Retires i s c fun u p' => u = s ∧ p'.regs = c.pack.regs)

/-- R399, R404-R406: `l2op.prom` reads the 64 bytes of a request and queues it, or says that 16 are queued; `l2op.adopt` refuses a range that
does not fit, and else makes every dirty byte of an untracked copy in the range visible in memory, where two dies wrote one byte the
higher die's, leaves no copy of the range, and says whether there was a conflict; the pages of the copies must be at hand (R407, log 59).
Choices of the model that it rests on: logs 42, 53 and 59. -/
def Obligations.PromotionAndAdoption : Prop :=
  ∀ (h : Head) (o : S) (s s' : State) (c : Ctx) (part : Partition) (t : Tlb), c.exec ≠ 0#64 → c.pack.shaped = true →
    let va := (c.pack.pair o.a.toNat c.low).toNat
    let count := (c.pack.reg o.b.toNat c.low).toNat
    let gives (i : Instr) (v : Nat) (post : State → Prop) : Prop := ∃ u p', exec i s = .next u ∧ findPack u c.pack.loc = some p' ∧
      p'.runsAt (nextPc i c) c.path.mask ∧ (∀ l < 64, c.exec.has l = true → (p'.reg o.d.toNat l).toNat = v) ∧ post u
    (∀ pa, Issues (.l2opProm h o) s c → Clean (.l2opProm h o) c →
      checkBlock s c.pack.loc.core c.pack.part c.pack.level .read va 64 64 = (.ok [(pa, 64, t)], s') → t.kind = 0 → t.sc = false →
      findPack s' c.pack.loc = some c.pack → findPart s' c.pack.part = some part →
      let n := memNum s' pa 64
      (part.promotions.length < 16 → gives (.l2opProm h o) 0 fun u => u.mem = s'.mem ∧
        ∃ part' q, findPart u c.pack.part = some part' ∧ part'.promotions = part.promotions ++ [q] ∧ q.addr.toNat = va ∧
          q.op = n % 4 ∧ q.nm = n / 2 ^ 2 % 2 ^ 5 + 1 ∧ q.sys = (n / 2 ^ 7 % 2 == 1) ∧ q.va.toNat = n / 2 ^ 64 % 2 ^ 64 ∧
          q.pa.toNat = n / 2 ^ 128 % 2 ^ 64 ∧ q.gate.toNat = n / 2 ^ 192 % 2 ^ 64 ∧ q.entries = [] ∧ q.shoot = none) ∧
      (16 ≤ part.promotions.length → gives (.l2opProm h o) 1 fun u => u.mem = s'.mem ∧ u.parts = s'.parts)) ∧
    (Issues (.l2opAdopt h o) s c → Clean (.l2opAdopt h o) c → findPart s c.pack.part = some part →
      let ok : Prop := va % 65536 = 0 ∧ 1 ≤ count ∧ count ≤ 65536 ∧ ∀ k < count, insideWindows part (va + k * 65536) 65536 = true
      let covered (line : Nat) : Prop := va / 128 ≤ line ∧ line < va / 128 + 512 * count
      let dirty (x : ScCopy) (off : Nat) (b : Byte) : Prop := (off, b, true) ∈ x.cells
      let clash : Prop := ∃ x ∈ s.scCopies, ∃ y ∈ s.scCopies, covered x.line ∧ x.line = y.line ∧ x.die ≠ y.die ∧ ∃ off a b, dirty x off a ∧ dirty y off b
      (¬ok → gives (.l2opAdopt h o) 2 fun u => u.mem = s.mem ∧ u.scCopies = s.scCopies ∧ u.aon = s.aon) ∧
      (ok → (∀ x ∈ s.scCopies, covered x.line → backReady s x = true) → (clash → gives (.l2opAdopt h o) 3 fun _ => True) ∧ (¬clash → gives (.l2opAdopt h o) 0 fun u => u.aon.logSeq = s.aon.logSeq ∨ s.poison ≠ [] ∨ ∃ x ∈ s.scCopies, x.bad ≠ []) ∧
        ∃ u, exec (.l2opAdopt h o) s = .next u ∧ (∀ x ∈ u.scCopies, x ∈ s.scCopies ∧ ¬covered x.line) ∧
          (∀ x ∈ s.scCopies, ¬covered x.line → x ∈ u.scCopies) ∧
          (memWf Config.blankByte s.mem = true → (∀ x ∈ s.scCopies, (x.cells.map (·.1)).Nodup ∧ ∀ y ∈ s.scCopies, x.line = y.line → x.die = y.die → x = y) →
            (∀ x ∈ s.scCopies, ∀ e ∈ x.cells, e.1 < 128) →
            ∀ line off, off < 128 →
              ((∀ x ∈ s.scCopies, x.line = line → covered line → ∀ b, ¬dirty x off b) →
                memGet Config.blankByte u.mem (line * 128 + off) = memGet Config.blankByte s.mem (line * 128 + off)) ∧
              (∀ x ∈ s.scCopies, ∀ b, x.line = line → covered line → line < remoteBase / 128 → dirty x off b →
                (∀ y ∈ s.scCopies, y.line = line → x.die < y.die → ∀ b, ¬dirty y off b) →
                memGet Config.blankByte u.mem (line * 128 + off) = b))))

/-! ### Faults, wakes and turns of a quarter -/

/-- R57, R69, R345, R346, R363-R366, R377-R379: what a pack's fault leaves: the whole pack stopped at its points, its record, and its cause at
the handler of its quarter; a handler's own fault makes a machine wake ahead of its queue, and at machine level stops the partition; and the
three events that raise such a fault: the fault of a path, an orphaned rejoin set, and a wait that has outlasted the watchdog.
Choices of the model that it rests on: logs 24 and 39. -/
def Obligations.PackFaults : Prop :=
  ∀ (s : State) (p : Pack) (i : Nat) (q : Path) (part : Partition), findPack s p.loc = some p → p.paths[i]? = some q →
    findPart s p.part = some part →
    let seq : Word := ((p.herd.bind (findHerd s)).map (·.seq)).getD 0#32
    let entryOf (q : Path) (e : PathRec) : Prop := e.pc = q.pc ∧ e.mask = q.mask ∧ e.wcount = q.count (now s) ∧ (match q.wait with
      | .run | .again _ _ => e.state = 0
      | .set k => e.state = 1 ∧ e.num = k
      | .bar k ph _ | .barDone k ph _ _ => e.state = 2 ∧ e.num = k ∧ e.ph = ph
      | .line _ _ => e.state = 3)
    let stops (t u : State) (x : Bool) (f : FaultReq) : Prop :=
      let c : Cause := ⟨f.code, 0, p.loc.quarter, p.loc.slot, 0, seq, f.detail, p.herd.isNone || part.mroute.toNat.testBit f.code, 0⟩
      ∃ p' r, findPack u p.loc = some p' ∧ p'.stop = .faulted ∧ p'.record = some r ∧ p'.regs = p.regs ∧ p'.preds = p.preds ∧
        p'.sets = p.sets ∧ p'.paths.map (fun q => (q.pc, q.mask, q.wait)) = p.paths.map (fun q => (q.pc, q.mask, q.wait)) ∧
        r.code = f.code ∧ r.fpc = q.pc ∧ r.fmask = f.lanes ∧ r.detail = f.detail ∧ r.x = x ∧ r.pack = p.num ∧ r.quarter = p.loc.quarter ∧
        r.slot = p.loc.slot ∧ r.seq = seq ∧ r.exited = p.exited ∧ r.clock = s.clock ∧ r.paths.length = p.paths.length ∧
        (∀ q ∈ p.paths, ∃ e ∈ r.paths, entryOf q e) ∧ u.mem = t.mem ∧ u.herds = t.herds ∧
        (p.herd ≠ none → ∀ h, findPack s ⟨p.loc.core, p.loc.quarter, 31⟩ = some h → h.loc ≠ p.loc →
          findPack u h.loc = some { h with wakes := h.wakes ++ [c] }) ∧
        (p.herd = none → p.level ≠ 2 → p'.wakes = c :: p.wakes ∧ u.parts = t.parts) ∧
        (p.herd = none → p.level = 2 → (findPart u part.id).map (·.stopped) = some true ∧ u.aon.logSeq = t.aon.logSeq + 1)
    let live : Prop := p.stop = .running ∧ p.parked = false ∧ part.stopped = false ∧
      ∀ h, p.herd.bind (findHerd s) = some h → h.saving = false
    (∀ x f, stops s (raiseFault s p i x f) x f) ∧
    (∀ f, live → q.wait = .run → 1 ≤ f.code → f.code ≤ 34 →
      ∃ x t u, xAt s p q.pc.toNat = (x, t) ∧ exec (.packFault ⟨p.loc, i⟩ f) s = .next u ∧ stops t u x f) ∧
    (∀ k, live → (∀ r ∈ p.paths, ∃ n, r.wait = .set n) → k < 32 → p.waitingOn k &&& (p.rset k).member ≠ 0#64 →
      (∀ j < k, p.waitingOn j &&& (p.rset j).member = 0#64) → q.mask.has (Mask.lowest (p.waitingOn k)) = true →
      (∀ j r, j < i → p.paths[j]? = some r → r.mask.has (Mask.lowest (p.waitingOn k)) = false) →
      ∃ u, exec (.orphanedRejoinSet p.loc) s = .next u ∧ stops s u false ⟨25, p.waitingOn k, BitVec.ofNat 64 k⟩) ∧
    (live → wakeWaits s p = p → q.wait.counted = true → max 65536 part.bartimeout.toNat < q.count (now s) →
      (∀ r ∈ p.paths, r.wait.counted = true → max 65536 part.bartimeout.toNat < r.count (now s) → q.wstart ≤ r.wstart) →
      ∃ u x detail, exec (.barrierTimeout ⟨p.loc, i⟩) s = .next u ∧ stops s u x ⟨34, q.mask, detail⟩ ∧
        (match q.wait with
          | .run | .set _ => True
          | .bar k _ _ | .barDone k _ _ _ => k < 2 ^ 8 → bitsOf detail.toNat 7 0 = 0 ∧ bitsOf detail.toNat 15 8 = k ∧ bitsOf detail.toNat 63 16 = 0
          | .line off _ => off < 2 ^ 20 → bitsOf detail.toNat 7 0 = 1 ∧ bitsOf detail.toNat 15 8 = 0 ∧
              bitsOf detail.toNat 47 16 = off / 128 * 128 ∧ bitsOf detail.toNat 63 48 = 0
          | .again n k => n < 2 ^ 8 → k < 2 ^ 8 → bitsOf detail.toNat 7 0 = n ∧ bitsOf detail.toNat 15 8 = (if n = 2 then k else 0) ∧
              bitsOf detail.toNat 63 16 = 0))

/-- R34, R43, R44, R312, R345-R347, R366: the wake of an idle handler, or of one stopped by its own fault, at the PC of the table entry, its
registers as they stand; an entry that no path may be at stops the partition; the choice of a quarter among its ready packs, the handler's
ahead unless it has had three cycles, then the starved, those passed over longest first, then the earliest ready, then the lowest slot; and the turns of a quarter: the starved
pack's, the rotation of a slot, the path held for its long wait, which issues before the others, and the `gatewait` that reads its gate again.
Choices of the model that it rests on: logs 18, 24, 48 and 72. -/
def Obligations.QuarterTurns : Prop :=
  ∀ (s : State) (p : Pack) (part : Partition), findPack s p.loc = some p → findPart s p.part = some part → part.stopped = false →
    let live : Prop := p.stop = .running ∧ p.parked = false ∧ ∀ h, p.herd.bind (findHerd s) = some h → h.saving = false
    let same (p' : Pack) : Prop := p'.loc = p.loc ∧ p'.regs = p.regs ∧ p'.preds = p.preds ∧
      p'.paths.map (fun q => (q.pc, q.mask)) = p.paths.map (fun q => (q.pc, q.mask))
    let becomes (i : Instr) (post : Pack → Prop) : Prop := ∃ p', exec i s = .next (setPack s p') ∧ same p' ∧ post p'
    (∀ (c : Cause) (rest : List Cause) (pc : Nat) (s' s'' : State), p.loc.slot = 31 → p.wakes = c :: rest →
      let own : Bool := p.stop == .faulted && c.src == 0 && c.slot == 31
      (own = true ∨ (p.stop = .running ∧ p.wake = none)) →
      let level := if c.machine then 2 else 1
      let entry := ((if c.machine then part.mtvec.toNat else part.tvec.toNat) + 16 * c.code) % 2 ^ 64
      readVector s p.loc.core p.part level entry = (.ok pc, false, s') →
      (checkTarget s' p.loc.core p.part level pc = (.ok, s'') → findPack s'' p.loc = some p →
        ∃ p', exec (.handlerWake p.loc.core p.loc.quarter) s = .next (setPack s'' p') ∧ p'.regs = p.regs ∧ p'.level = level ∧
          (rest.length ≤ 63 → p'.wakes = rest) ∧ p'.wakes.take 63 = rest.take 63 ∧ p'.wakes.Perm rest ∧ p'.wake = some ⟨c, if own then p.wake.map (·.cause) else none⟩ ∧ p'.stop = .running ∧
          p'.paths.map (fun q => (q.pc, q.mask, q.wait, q.slot)) = [(BitVec.ofNat 64 pc, 0xFFFFFFFFFFFFFFFF#64, .run, some 0)]) ∧
      (∀ code, checkTarget s' p.loc.core p.part level pc = (.fault code, s'') → (∃ x ∈ s''.parts, x.id = p.part) →
        ∃ u, exec (.handlerWake p.loc.core p.loc.quarter) s = .next u ∧ (findPart u p.part).map (·.stopped) = some true)) ∧
    (p.herd ≠ none → packReady s p = true → p.readyAt ≠ none → 64 ≤ p.passed →
      exec (.starvationPriority p.loc) s = .next (setPack s { p with starved := true })) ∧
    (∀ core quarter,
      let waits (r : Pack) : Prop := r ∈ s.packs ∧ r.loc.core = core ∧ r.loc.quarter = quarter ∧ r.readyAt ≠ none
      let sated : Prop := (getQuarter s core quarter).recent.take 3 = [true, true, true]
      ((∃ r, waits r) → ∃ r, choosePack s core quarter = some r) ∧
      ∀ r, choosePack s core quarter = some r → waits r ∧
        (r.herd = none → (∃ x, waits x ∧ x.herd ≠ none) → ¬sated) ∧
        (r.herd ≠ none → ((∃ x, waits x ∧ x.herd = none) → sated) ∧ ∀ x, waits x → x.herd ≠ none →
          (x.starved = true → r.starved = true ∧ x.passed ≤ r.passed) ∧
          (x.starved = r.starved → (r.starved = true → x.passed = r.passed) → r.readyAt.getD 0 ≤ x.readyAt.getD 0 ∧
            (r.readyAt.getD 0 = x.readyAt.getD 0 → r.loc.slot ≤ x.loc.slot)))) ∧
    (∀ (i choice : Nat) (q : Path), p.paths[i]? = some q → q.held = true → q.slot.isSome = true → pathRuns s p q = true →
      (∀ j r, j < i → p.paths[j]? = some r → r.held = false) → choosePath s p choice = some i) ∧
    (∀ (i : Nat) (q : Path), live → laneZeroOnly s p = false → p.paths[i]? = some q → q.slot.isSome = true → q.held = false →
      q.took + 64 ≤ p.issued →
      ((∀ r ∈ p.paths, r.wait = .run → r.slot ≠ none) → exec (.slotRotation ⟨p.loc, i⟩) s = .next (setPack s p)) ∧
      (∀ (j : Nat) (r : Path), (∀ x ∈ p.paths, x.qseq < p.qnext) → p.paths[j]? = some r → r.wait = .run → r.slot = none →
        (∀ k x, p.paths[k]? = some x → x.wait = .run → x.slot = none → r.qseq ≤ x.qseq ∧ (k < j → r.qseq < x.qseq)) →
        (∀ k, q.slot = some k → k < 4 ∧ ∀ n x, n ≠ i → p.paths[n]? = some x → x.slot ≠ some k) →
        becomes (.slotRotation ⟨p.loc, i⟩) fun p' => ∃ x, p'.paths[j]? = some x ∧ x.slot.isSome = true)) ∧
    (∀ (i : Nat) (q : Path), live → laneZeroOnly s p = false → p.paths[i]? = some q → q.wait = .run → q.last + 768 ≤ p.issued → (∀ x ∈ p.paths, x.held = false) →
      becomes (.heldPath ⟨p.loc, i⟩) fun p' => ∃ x, p'.paths[i]? = some x ∧ x.held = true ∧ x.slot.isSome = true ∧
        ∀ j y, j ≠ i → p'.paths[j]? = some y → y.held = false) ∧
    (∀ (i : Nat) (q : Path), live → p.paths[i]? = some q → q.wait = .again 3 0 → becomes (.gatewaitReread ⟨p.loc, i⟩) fun p' =>
      p'.paths.map (·.wait) = (p.paths.map (·.wait)).modify i fun _ => .run)

/-! ### The Shepherd -/

/-- R21-R23, R38, R82, R102, R107, R109, R356, R358, R359: the chosen launch's next herd goes where it fits, its index the next one, its packs
in free slots of the partition at the launch's entry with zero registers, free sets and seeded stochastic states; and a herd that awaits
resumption comes back with the registers, scratchpad and barriers it was saved with, its paths at their points.
Choices of the model that it rests on: logs 25, 33, 60, 64 and 70. -/
def Obligations.HerdPlacement : Prop :=
  ∀ (s : State) (part : Nat) (seq : Word) (p : Partition) (l : Launch) (pl : Place), findPart s part = some p → p.stopped = false →
    p.launches.find? (·.seq == seq) = some l → p.chosen = some seq → l.term = none → l.desc.cores = false →
    let at_ (x : Nat × Nat) : PackLoc := ⟨pl.core, x.1, x.2⟩
    (∀ n, Need.takes s p n pl = true → pl.packs.length = n.packs ∧ 42 * p.die0 ≤ pl.core ∧ pl.core < 42 * (p.die0 + p.dies) ∧
      ∀ x ∈ pl.packs, x.1 < 4 ∧ x.2 < 31 ∧ findPack s (at_ x) = none) ∧
    ((∀ h ∈ s.herds, h.part = part → h.seq = seq → h.place ≠ .stored) → l.nextHerd < l.desc.herds →
      Need.takes s p (freshNeed l.desc l.nextHerd) pl = true →
      ∃ u h p', exec (.herdPlacement part seq [pl]) s = .next u ∧ u.mem = s.mem ∧ u.herds = s.herds ++ [h] ∧ h.id = s.nextId ∧
        h.part = part ∧ h.seq = seq ∧ h.place = .resident ∧ h.core = pl.core ∧ h.index = l.nextHerd ∧ h.x = l.nextHerd % l.desc.gridx ∧
        h.y = l.nextHerd / l.desc.gridx % l.desc.gridy ∧ h.z = l.nextHerd / (l.desc.gridx * l.desc.gridy) ∧ h.spad = [] ∧ h.empty = [] ∧
        h.spadSize = 4096 * l.desc.spad ∧ h.bars.length = l.desc.bars ∧ (∀ b ∈ h.bars, b = ⟨false, 0, 0, false, 0, 0, none, 0⟩) ∧
        (∀ t ∈ h.opm, t.holder = none ∧ t.data = []) ∧ findPart u part = some p' ∧
        (∃ l' ∈ p'.launches, l'.seq = seq ∧ l'.nextHerd = l.nextHerd + 1 ∧ l'.aging = 0) ∧
        ∀ k x, pl.packs[k]? = some x → ∃ q, findPack u (at_ x) = some q ∧ q.herd = some h.id ∧ q.num = k ∧ q.level = 0 ∧
          q.regCount = l.desc.regs ∧ q.setCount = l.desc.rsets ∧ q.window = l.desc.window ∧ q.stop = .running ∧ q.exited = 0#64 ∧
          (∀ r l, q.reg r l = 0#32) ∧ (∀ k < 7, ∀ l < 64, q.pred k l = false) ∧ (∀ k < 32, q.rset k = ⟨0#64, 0#64, false⟩) ∧
          (∀ l < 64, Lanes.get 0#32 q.sto l = BitVec.ofNat 32 (0x5EED0000 + l)) ∧
          q.paths.map (fun y => (y.pc, y.mask, y.wait)) = [(l.desc.entry, 0xFFFFFFFFFFFFFFFF#64, .run)]) ∧
    (∀ h, nextStored s p l = [h] → findHerd s h.id = some h → h.residency = none → (∀ x ∈ s.scCopies, x.die ≠ dieOf pl.core) → Need.takes s p (storedNeed s l.desc h) pl = true →
      ∃ u h', exec (.herdResumption part seq [h.id] [pl]) s = .next u ∧ u.mem = s.mem ∧ findHerd u h.id = some h' ∧ h'.place = .resident ∧
        h'.core = pl.core ∧ h'.spad = h.spad ∧ h'.empty = h.empty ∧ h'.bars = h.bars ∧ h'.index = h.index ∧ h'.packs = [] ∧
        ∀ (k : Nat) (x : Nat × Nat) (y : Pack), pl.packs[k]? = some x → h.packs[k]? = some y → (∀ z ∈ y.paths, ∀ b ph pr v, z.wait ≠ .bar b ph pr ∧ z.wait ≠ .barDone b ph pr v) →
          ∃ q, findPack u (at_ x) = some q ∧ q.regs = y.regs ∧ q.preds = y.preds ∧ q.sets = y.sets ∧ q.stop = .running ∧
            q.paths.map (fun z => (z.pc, z.mask)) = y.paths.map (fun z => (z.pc, z.mask)))

/-- R26, R30, R354-R357, R373: a gate's value is observed by every launch it satisfies, and makes eligible those whose
other conditions are met and whose queue is not blocked by an older launch's saved herds; aging, which a block stops; the end of backfill; and the saving of herds:
whom the Shepherd may stop for a launch of higher priority or a stalled residency, whom it may not save, and what it keeps of a herd once its copies have landed
and its stores have performed.
Choices of the model that it rests on: logs 26, 69 and 70. -/
def Obligations.EligibilityAndSaving : Prop :=
  ∀ (s : State) (part : Nat) (p : Partition) (l : Launch), findPart s part = some p →
    let becomes (i : Instr) (post : State → Partition → Prop) : Prop := ∃ u p', exec i s = .next u ∧ findPart u part = some p' ∧ post u p'
    let blocked (u : State) (x : Launch) : Bool := p.launches.find? (·.queue == x.queue) |>.any fun o =>
      o.seq != x.seq && u.herds.any fun h => h.part == p.id && h.seq == o.seq && h.place == .stored
    let stops (i : Instr) (h : Herd) : Prop := ∃ u, exec i s = .next u ∧ u.mem = s.mem ∧
      (∀ x ∈ u.herds, (x.id = h.id → x.saving = true) ∧ (x.id ≠ h.id → x ∈ s.herds)) ∧
      (∀ q, findPack s q.loc = some q → ∃ q', findPack u q.loc = some q' ∧ q'.regs = q.regs ∧
        q'.paths.map (fun y => (y.pc, y.mask, y.wait, y.count (now s))) = q.paths.map (fun y => (y.pc, y.mask, y.wait, y.count (now s)))) ∧
      u.residencies = s.residencies
    let may (h : Herd) : Prop := h ∈ s.herds ∧ h.place = .resident ∧ h.part = part ∧ savable s h = true ∧ herdRes s h.id = none ∧
      (∀ g ∈ s.herds, beingSaved s g = false) ∧ (launchOf s h).map (·.desc.cores) ≠ some true
    (∀ gate ps s', p.stopped = false → gate ∈ watchedGates p → serve s part .read gate.toNat 8 8 = (.ok ps, s') → findPart s' part = some p →
      let v := numLE (servedBytes s' ps)
      let seen (g : Quad × Quad × Bool) : Prop := g.2.2 = true ∨ (g.1 = gate ∧ g.2.1.toNat ≤ v)
      becomes (.gateObservation part gate) fun u p' => u.mem = s'.mem ∧ ∀ x ∈ p.launches, x.eligible = none →
        ∃ x' ∈ p'.launches, x'.seq = x.seq ∧ x'.desc = x.desc ∧
          (∀ g ∈ x.gates, g.1 = gate → g.2.1.toNat ≤ v → (g.1, g.2.1, true) ∈ x'.gates) ∧
          (x.term = none → (∀ g ∈ x.gates, seen g) → depMet p x.desc.dep0 = true → depMet p x.desc.dep1 = true → blocked s' x = false →
            x'.eligible = some (now s')) ∧
          ((∃ g ∈ x.gates, ¬seen g) ∨ blocked s' x = true → x'.eligible = none)) ∧
    (∀ t, l ∈ p.launches → l.eligible = some t → l.term = none → l.nextHerd < l.desc.herds → l.agedAt + 2 ^ 22 ≤ now s →
      (blocked s l = false → l.ageHeld = none → becomes (.agingLevel part l.seq) fun u p' => u = { s with parts := u.parts } ∧
        ∃ l' ∈ p'.launches, l' = { l with aging := l.aging + 1, agedAt := l.agedAt + 2 ^ 22, chosen := l'.chosen }) ∧
      (blocked s l = true → becomes (.agingLevel part l.seq) fun u p' => u = { s with parts := u.parts } ∧
        ∃ l' ∈ p'.launches, l' = { l with ageHeld := l'.ageHeld, chosen := l'.chosen })) ∧
    (∀ t, chosenLaunch p = some l → l.chosen = some t → t + 2 ^ 24 ≤ now s →
      becomes (.backfillStop part) fun u p' => u = { s with parts := u.parts } ∧ p' = { p with noBackfill := true }) ∧
    (∀ h core, chosenLaunch p = some l → p.stopped = false → l.desc.cores = false → may h → herdPrio s h < l.desc.prio →
      h.admitted + 2 ^ 18 ≤ now s → (∀ g ∈ s.herds, preemptable s p l g = true → g = h) → canPlaceNext s p l = false →
      canPlaceNext (without s [h.id]) p l = true → findHerd s h.id = some h → h.core = core →
      p.cores.find? ((match nextStored s p l with
        | [] => freshNeed l.desc l.nextHerd
        | g :: _ => storedNeed s l.desc g).fits (without s [h.id])) = some core →
      stops (.priorityPreemption part) h) ∧
    (∀ h g q r, findPack s q.loc = some q → q.control = some r.id → findRes s r.id = some r → r.phase = .validate → r.ctl = q.loc →
      r.part = part → r.herd ≠ h.id → r.since + 2 ^ 20 ≤ now s → regionFree s r = false → regionFree (without s [h.id]) r = true → may h →
      findHerd s r.herd = some g → herdPrio s h ≤ herdPrio s g → inRegion s q.loc.core r.quarters h = true →
      (∀ x ∈ s.herds, inRegion s q.loc.core r.quarters x = true → x = h ∨ x.id = r.herd) →
      stops (.validateStallPreemption q.loc) h) ∧
    (∀ h, findHerd s h.id = some h → h.saving = true → h.place = .resident → h.part = part → (launchOf s h).map (·.desc.cores) ≠ some true →
      let copies := (getCore s h.core).copies.filter fun y => y.herd == some h.id
      let mine := s.packs.filter fun q => q.herd == some h.id
      (savable s h = false → ∃ u, exec (.herdSave h.id) s = .next u ∧
        findHerd u h.id = some { h with saving := false } ∧ u.mem = s.mem) ∧
      ((∃ y ∈ copies, y.suspended ≠ none) ∨ (∃ q ∈ mine, q.stop ≠ .running) ∨ herdCaused s h none = true → savable s h = false) ∧
      (savable s h = true → copies = [] → (∀ e ∈ (getCore s h.core).storeQ, e.herd ≠ some h.id) → (∀ r ∈ s.remotePages, r.ackDue = 0) →
        (∀ x ∈ s.scCopies, x.die ≠ dieOf h.core) → ∃ u h', exec (.herdSave h.id) s = .next u ∧ u.mem = s.mem ∧
        findHerd u h.id = some h' ∧ h'.place = .stored ∧ h'.spad = h.spad ∧ h'.empty = h.empty ∧ h'.bars = h.bars ∧
        (∀ t ∈ h'.opm, t.queue = []) ∧ h'.packs.map (fun q => (q.regs, q.preds, q.sets)) = mine.map (fun q => (q.regs, q.preds, q.sets)) ∧
        h'.packs.map (fun q => q.paths.map fun y => (y.pc, y.mask)) = mine.map (fun q => q.paths.map fun y => (y.pc, y.mask)) ∧
        u.packs = s.packs.filter fun q => q.herd != some h.id))

/-- R113, R360: a herd without packs, copies and queued stores ends, a claim it still holds noted; and a launch whose herds have ended, or
that was terminated and has no herd left, completes: `s1` is the machine once the record is written, `s2` once the gate has been added to,
and the message is read from `s2`, in that order; then the number is complete.  A message whose queue stays full, or whose port is down, is
dropped, and the record says so.
Choices of the model that it rests on: logs 26 and 38. -/
def Obligations.LaunchCompletion : Prop :=
  ∀ (s : State) (part : Nat) (p : Partition) (l : Launch), findPart s part = some p → p.launches.find? (·.seq == l.seq) = some l →
    let d := l.desc
    let isOver : Prop := (l.term ≠ none ∨ (l.eligible ≠ none ∧ l.ended = d.herds ∧ (d.herds = 0 → queueBlocked s p l = false))) ∧
      ∀ h ∈ s.herds, ¬(h.part = p.id ∧ h.seq = l.seq)
    let term := l.term.getD ⟨0, 0, 0#64⟩
    let faulted : Bool := term.status == 1 || term.status == 2
    let done (p2 : Partition) (u : State) : Prop := ∃ p', findPart u part = some p' ∧ (∀ x ∈ p'.launches, x.seq ≠ l.seq) ∧ l.seq ∉ p'.openSeqs ∧
      ∀ x ∈ p2.launches, x.seq ≠ l.seq → ∃ x' ∈ p'.launches, x'.seq = x.seq ∧ x'.desc = x.desc
    let served (u : State) (acc : Acc) (va : Quad) (len align pa : Nat) (u' : State) : Prop := ∃ t,
      serve u part acc va.toNat len align = (.ok [(pa, len, t)], u') ∧ t.kind = 0 ∧ pa % align = 0 ∧ memWf Config.blankByte u'.mem = true
    let goes (u : State) (acc : Acc) (va : Quad) (len align : Nat) : Prop := ∀ u', serve u part acc va.toNat len align ≠ (.stall, u')
    let kept (u u' : State) (pa n : Nat) : Prop := ∀ x, x < pa ∨ pa + n ≤ x → memGet Config.blankByte u.mem x = memGet Config.blankByte u'.mem x
    let recordAt (u : State) (pa : Nat) (clock : Quad) (dropped : Bool) : Prop :=
      memNum u pa 8 = (l.seq.toNat + term.status * 2 ^ 32 + (if faulted then term.code else 0) * 2 ^ 40 + l.opmrel.toNat * 2 ^ 48 +
        dropped.toNat * 2 ^ 49) % 2 ^ 64 ∧ memNum u (pa + 8) 8 = l.ended % 2 ^ 64 ∧ memNum u (pa + 16) 8 = clock.toNat ∧
      memNum u (pa + 24) 8 = (if faulted then term.fpc.toNat else 0)
    let s1 := modPart (writeRecord s part l.seq d.crec (launchRecord l s.clock false)).2 part fun p =>
      { p with messages := p.messages ++ [⟨l.seq, s.clock, .recorded, now s⟩] }
    let s2 := setStage (completionGate s1 part l).2 part l.seq .gated
    let completes (post : State → Prop) : Prop := ∃ u, exec (.launchCompletion part l.seq) s = .next u ∧ post u
    (∀ h, findHerd s h.id = some h → h.place = .resident → h.part = part → h.seq = l.seq → l.term = none → (∀ q ∈ s.packs, q.herd ≠ some h.id) →
      (∀ y ∈ (getCore s h.core).copies, y.herd ≠ some h.id) → (∀ e ∈ (getCore s h.core).storeQ, e.herd ≠ some h.id) →
      ∃ u p', exec (.herdEnd h.id) s = .next u ∧ u.mem = s.mem ∧ u.herds = s.herds.filter (fun x => x.id != h.id) ∧ findPart u part = some p' ∧
        ∃ l' ∈ p'.launches, l' = { l with ended := l.ended + 1, opmrel := l.opmrel || h.opm.any (·.holder.isSome) }) ∧
    (d.crec = 0 → s1.mem = s.mem) ∧
    (∀ pa u, d.crec ≠ 0 → served s (.write false) d.crec 32 32 pa u → recordAt s1 pa s.clock false ∧ kept s1 u pa 32) ∧
    (d.cgate = 0 → s2.mem = s1.mem) ∧
    (∀ pa u, d.cgate ≠ 0 → served s1 .rmw d.cgate 8 8 pa u →
      memNum s2 pa 8 = (memNum u pa 8 + d.cinc.toNat) % 2 ^ 64 ∧ kept s2 u pa 8) ∧
    (∀ p2, isOver → (∀ m ∈ p.messages, m.seq ≠ l.seq) → (d.crec ≠ 0 → goes s (.write false) d.crec 32 32) →
      (d.cgate ≠ 0 → goes s1 .rmw d.cgate 8 8) → (∀ r ∈ s1.remotePages ++ s2.remotePages, r.ackDue = 0) → findPart s2 part = some p2 →
      (d.cmsg = 0 → completes fun u => done p2 u ∧ u.mem = s2.mem) ∧
      (d.cmsg ≠ 0 → (getPort s2 d.cport).up = true →
        ((getPort s2 d.cport).full = true → completes fun u => u.mem = s2.mem ∧ ∃ p', findPart u part = some p' ∧ p'.launches = p2.launches ∧
          ∀ m ∈ p'.messages, m.seq = l.seq → m.stage = .queueFull ∧ m.since = now s2) ∧
        ((getPort s2 d.cport).full = false → ∀ pa u', served s2 .read d.cmsg d.clen 16 pa u' → findPart u' part = some p2 →
          completes fun u => done p2 u ∧ u.mem = u'.mem ∧
            u.ports = (queueMessage u' d.cport ⟨0, d.cpart, part, d.ctag, memRead Config.blankByte u'.mem pa d.clen⟩).ports)) ∧
      (d.cmsg ≠ 0 → (getPort s2 d.cport).up = false →
        (d.crec = 0 → completes fun u => done p2 u ∧ u.mem = s2.mem ∧ u.ports = s2.ports) ∧
        (∀ pa u', d.crec ≠ 0 → served s2 (.write false) d.crec 32 32 pa u' → findPart u' part = some p2 →
          completes fun u => done p2 u ∧ recordAt u pa s.clock true ∧ kept u u' pa 32))) ∧
    (∀ m, p.messages.find? (·.seq == l.seq) = some m → m.stage = .queueFull → (getPort s d.cport).full = true → m.since + 2 ^ 20 ≤ now s →
      (d.crec = 0 → ∃ u, exec (.completionMessageDrop part l.seq) s = .next u ∧ done p u ∧ u.mem = s.mem) ∧
      (∀ pa u', d.crec ≠ 0 → served s (.write false) d.crec 32 32 pa u' → findPart u' part = some p →
        ∃ u, exec (.completionMessageDrop part l.seq) s = .next u ∧ done p u ∧ recordAt u pa m.clock true ∧ kept u u' pa 32))

/-! ### Residencies from their region to their cut -/

/-- R26-R31, R285, R286, R288, R290-R292, R426 and R434: a validated residency parks its region and asks for its lease; one that is reinstalled
reads its mould again, and a check that fails stops its control pack and keeps the saved state; the head of a die's
queue is granted when the budget covers it; install wakes the cells, empty or as a cut saved them, and the control pack goes on; a drained
residency gives everything back; and a whistle cut places its whistles, saves each cell with the tokens ahead of them, and keeps the state;
a cut for a save freezes its herd, and with it the other herds of a co-resident launch (R38).
Choices of the model that it rests on: logs 13, 47, 62 and 69. -/
def Obligations.ResidencyEvents : Prop :=
  ∀ (s : State) (r : Residency) (p : Pack), findRes s r.id = some r → findPack s r.ctl = some p →
    let die := r.ctl.core / 42
    let moved (i : Instr) (r' : Residency) : Prop := ∃ u, exec i s = .next u ∧ findRes u r.id = some r' ∧ u.mem = s.mem ∧ u.packs = s.packs
    let quarters (u : State) (q : QuarterState) : Prop := ∀ k ∈ r.quarters, (getQuarter u r.ctl.core k).state = q
    let inside (loc : PackLoc) : Prop := loc.core = r.ctl.core ∧ loc.quarter ∈ r.quarters ∧ loc ≠ r.ctl
    let mark : Token := ⟨.whistle, 0, 0#256, 0#8⟩
    let goes (u : State) (p' : Pack) : Prop := findPack u r.ctl = some p' ∧ p'.regs = p.regs ∧
      p'.paths.map (fun q => (q.pc, q.mask, q.wait)) = p.paths.map (fun q => (q.pc + 16, q.mask, .run))
    let givesBack (u : State) : Prop := quarters u .unparking ∧
      (∀ d ∈ s.dies, d.id = die → (getDie u die).granted = (getDie s die).granted - (if r.leased then r.mould.lease else 0)) ∧
      ∀ q, findPack s q.loc = some q → inside q.loc → q.herd ≠ none →
        ∃ q', findPack u q.loc = some q' ∧ (q.herd ≠ some r.herd → q'.parked = false) ∧ q'.regs = q.regs
    (∀ s0, r.phase = .validate → controlRuns s r = true → regionFree s0 r = true → findRes s0 r.id = some r →
      (r.restore = false ∧ s0 = s) ∨ (r.restore = true ∧ revalidate s p r = .ok s0) →
      ∃ u r', exec (.regionParking r.ctl) s = .next u ∧ u.mem = s0.mem ∧ quarters u .parking ∧ findRes u r.id = some r' ∧
        (r.mould.lease = 0 → r' = { r with phase := .install } ∧ u.dies = s0.dies) ∧
        (r.mould.lease ≠ 0 → r' = { r with phase := .lease } ∧ ∀ d ∈ s0.dies, d.id = die →
          (getDie u die).requests = (getDie s0 die).requests ++ [⟨r.id, r.mould.lease⟩]) ∧
        ∀ q, findPack s0 q.loc = some q →
          (inside q.loc ∧ q.herd ≠ none → ∃ q', findPack u q.loc = some q' ∧ q'.parked = true ∧ q'.regs = q.regs ∧
            q'.paths.map (fun y => (y.pc, y.mask, y.wait, y.count (now s0))) = q.paths.map (fun y => (y.pc, y.mask, y.wait, y.count (now s0)))) ∧
          (¬(inside q.loc ∧ q.herd ≠ none) → findPack u q.loc = some q)) ∧
    (r.phase = .validate → controlRuns s r = true → r.restore = true →
      (∀ s', readImage s p r.image.toNat = .stall s' → exec (.regionParking r.ctl) s = .next s') ∧
      (∀ hd digest covered words s', readImage s p r.image.toNat = .ok hd digest covered words s' →
        validateFault s' p hd digest covered words = none → mouldOf hd words = r.mould → revalidate s p r = .ok s') ∧
      (∀ code d s' q, (readImage s p r.image.toNat = .fault code d.toNat s' ∨ ∃ hd digest covered words,
          readImage s p r.image.toNat = .ok hd digest covered words s' ∧ validateFault s' p hd digest covered words = some (code, d)) →
        findRes s' r.id = some r → findPack s' r.ctl = some p → p.paths.head? = some q → r.ctl.slot ≠ 31 → p.herd ≠ none →
        ∃ u p' x, exec (.regionParking r.ctl) s = .next u ∧ findPack u r.ctl = some p' ∧ p'.stop = .faulted ∧ p'.record = some x ∧
          x.code = code ∧ x.fpc = q.pc ∧ x.fmask = activeMask s' p q ∧ x.detail = d ∧ findRes u r.id = some { r with phase := .saved } ∧ u.mem = s'.mem)) ∧
    (∀ d q qs, (∃ x ∈ s.dies, x.id = d) → (getDie s d).requests = q :: qs → q.res = r.id →
      ((getDie s d).budget < (getDie s d).granted + q.units → exec (.leaseGrant d) s = .next s) ∧
      ((getDie s d).granted + q.units ≤ (getDie s d).budget → moved (.leaseGrant d) { r with leased := true, phase := .install } ∧
        ∀ u, exec (.leaseGrant d) s = .next u → getDie u d = { getDie s d with granted := (getDie s d).granted + q.units, requests := qs })) ∧
    (r.phase = .install → controlRuns s r = true →
      ∃ u r', exec (.mouldInstall r.id) s = .next u ∧ u.mem = s.mem ∧ quarters u .spatial ∧ findRes u r.id = some r' ∧ r'.phase = .active ∧
        r'.mould = r.mould ∧
        (r.restore = false → (∃ p', goes u p') ∧ r'.cells.map (·.word) = r.mould.words ∧ r'.sems = [] ∧ r'.semWaits = [] ∧ r'.semovf = false ∧
          (∀ c ∈ r'.cells, (∀ k, c.chan k = []) ∧ c.eos = false ∧ c.data.buffer = []) ∧ ∀ n ∈ r'.ports, n.queue = [] ∧ n.ended = false) ∧
        (r.restore = true → u.packs = s.packs ∧ r'.sems = r.sems ∧ r'.semovf = r.semovf ∧
          r'.cells.map (fun c => (c.word, c.data, c.eos)) = r.cells.map (fun c => (c.word, c.data, c.eos)) ∧
          (∀ i k, i < r.cells.length → (r.cell i).chans.length = 4 → (r.cell i).saveArea.length = 4 → k < 4 →
            (r'.cell i).chan k = (r.cell i).saveArea.getD k [] ++ (r.cell i).chan k) ∧
          r'.ports.map (fun n => (n.num, n.queue)) = r.ports.map (fun n => (n.num, n.queue)))) ∧
    (r.phase = .draining → r.drained = true → ∃ u p', exec (.residencyDrained r.id) s = .next u ∧ goes u p' ∧ givesBack u ∧
      (p.control = some r.id → p'.control = none) ∧ (∀ x ∈ u.residencies, x.id ≠ r.id) ∧ u.mem = s.mem ∧
      ∀ x ∈ (getCore u r.ctl.core).l1, x.instr = true) ∧
    (r.cutWanted = true → r.phase = .active ∨ r.phase = .draining → (∀ n ∈ r.ports, n.stopped = none) →
      ∃ r', moved (.whistleCut r.id) r' ∧ r'.phase = .cutting ∧ r'.sems = r.sems ∧ r'.cells.length = r.cells.length ∧
        (∀ i < r.cells.length, (r.cell i).chans.length = 4 →
          (cwPut (r.cell i).word = true → (r'.cell i).chan 0 = (r.cell i).chan 0 ++ [mark] ∧ ∀ k, 0 < k → (r'.cell i).chan k = (r.cell i).chan k) ∧
          (cwPut (r.cell i).word = false → cwGet (r.cell i).word = true → (r'.cell i).saved = true) ∧
          (cwPut (r.cell i).word = false → cwGet (r.cell i).word = false → r'.cell i = r.cell i)) ∧
        r'.ports.map (fun n => (n.num, n.queue, n.whistle)) =
          r.ports.map (fun n => (n.num, n.queue, decide (256 ≤ n.num) && n.queue.any (·.kind == .command)))) ∧
    (∀ f i k, r.phase = .cutting → r.feederTarget f = some (i, k) → (r.port? (256 + f)).map (·.whistle) = some true → r.room i k = true →
      moved (.cellWhistle r.id (256 + f)) ((r.deliver i k mark).modPort (256 + f) fun n => { n with whistle := false })) ∧
    (∀ i, r.phase = .cutting → i < 256 → r.spillsNow i = false → r.savesNow i = true → i < r.cells.length →
      ∃ r', moved (.cellWhistle r.id i) r' ∧ (r'.cell i).saved = true ∧
        (∀ k < 4, (r'.cell i).saveArea.getD k [] =
          (r.cell i).saveArea.getD k [] ++ (((r.emit i mark).cell i).chan k).takeWhile (fun x => x.kind != .whistle)) ∧
        ∀ j, j ≠ i → r'.cell j = (r.emit i mark).cell j) ∧
    (∀ i, r.phase = .cutting → i < 256 → r.spillsNow i = true → i < r.cells.length → ∃ r', moved (.cellWhistle r.id i) r' ∧
      (∀ k < 4, (r'.cell i).saveArea.getD k [] =
        (r.cell i).saveArea.getD k [] ++ ((r.cell i).chan k).takeWhile (fun x => x.kind != .whistle)) ∧
      ∀ j, j ≠ i → r'.cell j = r.cell j) ∧
    (r.phase = .cutting → r.cutDone = true → ∀ h, findHerd s r.herd = some h → h.id = r.herd → r.ctl.slot ≠ 31 →
      ∃ u r' h', exec (.whistleCutComplete r.id) s = .next u ∧ u.mem = s.mem ∧ givesBack u ∧ findRes u r.id = some r' ∧
        findHerd u r.herd = some h' ∧ h'.residency = some r.id ∧ r'.cells = r.cells ∧ r'.leased = false ∧ r'.restore = true ∧
        (∀ k, r'.sem k = if k ≤ r.mould.semmax then r.sem k else 0) ∧
        r'.ports.map (fun n => (n.num, n.queue, n.stopped, n.ranges)) = r.ports.map (fun n => (n.num, n.queue, none, [])) ∧
        (r.saveHerd = false → r'.phase = (if p.stop = .running then .validate else .saved) ∧ h'.saving = h.saving) ∧
        (r.saveHerd = true → ∀ group : List Herd, h ∈ group →
          group = (if (launchOf s h).map (·.desc.cores) = some true then
            s.herds.filter fun g => g.part == h.part && g.seq == h.seq && g.place == .resident else [h]) →
          (∀ q ∈ s.packs, q.herd = none → q.wakes = [] ∧ q.wake = none) →
          (∀ g ∈ group, findHerd s g.id = some g ∧ (∀ q ∈ s.packs, q.herd = some g.id → q.stop = .running) ∧
            (∀ y ∈ (getCore s g.core).copies, y.herd ≠ some g.id) ∧ ∀ x ∈ s.residencies, x.herd = g.id → x = r) →
          h'.saving = true ∧ r'.phase = .saved ∧ ∀ g ∈ group, (findHerd u g.id).map (·.saving) = some true))

/-! ### Coherence -/

/-- R401-R404: what a request for a line of a hardware-coherent page leaves in the home's directory, with the page back from any outside
holder first; and what an eviction writes: nothing where the home has the data, the dirty bytes of an untracked copy.
R404, R407-R409, R411, R412: a software-coherent page is granted to no agent, whose own loads and stores there are served at the home; the
home grants a page to an outside agent once no other holds it in the way, recalling the near copies of its lines, and revokes it from those
that do; a request that arrives in a hand-over, or behind others that wait, waits, and those have their turn in order when it ends; an
acknowledgment returns the dirty bytes of a page that was exclusive-out and ends the hand-over; an agent that fails, or a link that goes
down, loses its pages, an exclusive one with its lines poisoned and logged; and a remote home's answer or revocation changes what the K9
holds of its page.  That no lane goes on seeing an older line once a page has been granted exclusively is the model's choice (log 60).
Choices of the model that it rests on: logs 10, 35, 44, 54, 59 and 60. -/
def Obligations.CoherenceEvents : Prop :=
  (∀ (s : State),
     (∀ die line store, die < 8 → Config.installed (line * 128) = true → (∀ c ∈ s.scCopies, c.line ≠ line) →
       let page := line / 512
       let home := homeDie (identityTlb 0) (line * 128)
       let away : Prop := (∃ h ∈ s.handOvers, h.page = page) ∨ ∃ e ∈ s.pages, e.page = page ∧ (e.exclusive = true ∨ store = true)
       ∃ u, exec (.lineRequest die line store) s = .next u ∧ u.mem = s.mem ∧ u.packs = s.packs ∧
         (¬away → (die ≠ home → l2Full s die = false → ∃ n ∈ u.near, n.line = line ∧ n.die = die) ∧
           (store = true → ∀ n ∈ u.near, n.line = line → n.die = die) ∧
           (l2Full s die = false → ∀ n, n.line ≠ line → (n ∈ u.near ↔ n ∈ s.near)) ∧ u.pages = s.pages) ∧
         (away → u.near = s.near ∧ (∃ h ∈ u.handOvers, h.page = page))) ∧
     (∀ die line c, scFind s line die = some c → backReady s c = false →
       exec (.nearCopyEviction die line) s = .next (requestPage s (lineHome c.line).1 (lineHome c.line).2 true)) ∧
     (∀ die line, (∀ c, scFind s line die = some c → backReady s c = true) → ∃ u, exec (.nearCopyEviction die line) s = .next u ∧ u.packs = s.packs ∧
       (∀ n, n ∈ u.near ↔ n ∈ s.near ∧ ¬(n.line = line ∧ n.die = die)) ∧
       (∀ c, c ∈ u.scCopies ↔ c ∈ s.scCopies ∧ ¬(c.line = line ∧ c.die = die)) ∧
       (scFind s line die = none → u.mem = s.mem) ∧
       (∀ c, scFind s line die = some c → line < remoteBase / 128 → memWf Config.blankByte s.mem = true → (c.cells.map (·.1)).Nodup →
         (∀ off b, (off, b, true) ∈ c.cells → memGet Config.blankByte u.mem (line * 128 + off) = b) ∧
         ∀ a, (∀ off b, (off, b, true) ∈ c.cells → a ≠ line * 128 + off) → memGet Config.blankByte u.mem a = memGet Config.blankByte s.mem a)) ∧
     (∀ port pa len data, let t : Tlb := { identityTlb 0 with sc := true }
       s.power = .on → (getPort s port).opened = true → 0 < len → pa / 128 = (pa + len - 1) / 128 → Config.installed pa = true →
       pageSc s (pa / 65536) = true → pageReady s t pa data.isSome = true →
       let u := agentAccess s port pa len data
       u.scCopies = s.scCopies ∧ u.packs = s.packs ∧
       (data = none → u.mem = s.mem ∧ u.ports = (queueMessage s port
         ⟨1, 0, 0, 0, (Config.servedBody pa (memRead Config.blankByte s.mem pa len) (poisoned s t pa len)).take 192⟩).ports) ∧
       ∀ bs, data = some bs → bs.length = len → memWf Config.blankByte s.mem = true → ∀ a,
         memGet Config.blankByte u.mem a = if pa ≤ a ∧ a < pa + len then bs.getD (a - pa) 0 else memGet Config.blankByte s.mem a)) ∧
  (∀ (s : State) (port page : Nat),
     let me := (port, ((getPort s port).incarn).getD 0#32)
     let told (u : State) (port code : Nat) (exclusive : Bool) : Prop :=
       let m : TxMessage := ⟨1, 0, 0, 0, (Config.coherenceBody code page exclusive).take 192⟩
       m ∈ (getPort u port).txq ∨ ∃ no, messageSegments s port m no ≠ [] ∧ ∀ x ∈ messageSegments s port m no, x ∈ (getPort u port).wire
     let granted (u : State) (exclusive : Bool) (holders : List (Nat × Word)) : Prop :=
       (∃ e ∈ u.pages, e = ⟨page, exclusive, holders⟩) ∧ (∀ n ∈ u.near, n.line / 512 ≠ page) ∧ told u port 0 exclusive ∧ u.mem = s.mem ∧
         (exclusive = true → ∀ core, (getCore u core).early = [])
     let asks (exclusive : Bool) : Instr := if exclusive then .exclusiveGrantRequest port page else .readGrantRequest port page
     let known : Prop := port < s.ports.length ∧ (getPort s port).opened = true ∧ Config.installed (page * 65536) = true
     let idle : Prop := (∀ h ∈ s.handOvers, h.page ≠ page) ∧ ∀ w ∈ s.waiting, w.page ≠ page
     let reached : Prop := known ∧ idle
     let turn (w : PageWait) : Turn := .event (if w.exclusive then .exclusiveGrantRequest w.port w.page else .readGrantRequest w.port w.page)
     let open_ : Prop := reached ∧ pageSc s page = false
     let lost (i : Instr) (logged : Nat) : Prop := ∃ u, exec i s = .next u ∧ (getPort u port).opened = false ∧ (getPort u port).rx = [] ∧
       (getPort u port).tx = [] ∧ (getPort u port).txq = [] ∧ u.mem = s.mem ∧
       (∀ e ∈ s.pages, e.exclusive = true → e.holders = [(port, e.holders.head?.map (·.2) |>.getD 0#32)] →
         (∀ x ∈ s.pages, x.page = e.page → x = e) → (∀ h ∈ s.handOvers, h.page = e.page → h.grant = none) →
         (∀ x ∈ u.pages, x.page ≠ e.page) ∧ (∀ k < 8192, e.page * 8192 + k ∈ u.poison)) ∧
       ((∀ e ∈ s.pages, ∀ x ∈ e.holders, x.1 ≠ port) → u.aon.logSeq = s.aon.logSeq + BitVec.ofNat 32 logged ∧ u.poison = s.poison)
     (∀ exclusive, known → ¬idle → ∃ w : PageWait, exec (asks exclusive) s = .next { s with waiting := s.waiting ++ [w] } ∧
       w.page = page ∧ w.port = port ∧ w.exclusive = exclusive) ∧
     (∀ exclusive, open_ → (∀ e ∈ s.pages, e.page ≠ page) →
       (s.pages.length < 262144 → ∃ u, exec (asks exclusive) s = .next u ∧ granted u exclusive [me]) ∧
       (262144 ≤ s.pages.length → s.handOvers = [] → ∃ u, exec (asks exclusive) s = .next u ∧
         u.near = s.near ∧ told u port 1 exclusive ∧ (∃ e ∈ s.pages, ∃ h ∈ u.handOvers, h.page = e.page))) ∧
     (∀ exclusive, reached → pageSc s page = true → ∃ u, exec (asks exclusive) s = .next u ∧ u.pages = s.pages ∧ u.mem = s.mem ∧
       told u port 5 exclusive) ∧
     (∀ exclusive (e : PageEntry), open_ → e.page = page → s.pages.find? (·.page == page) = some e →
       ((∀ x ∈ e.holders, x.1 = port) → ∃ u, exec (asks exclusive) s = .next u ∧ granted u (exclusive || e.exclusive) [me]) ∧
       (exclusive = false → e.exclusive = false → ∃ u, exec (asks exclusive) s = .next u ∧
         granted u false (e.holders.filter (fun x => x.1 != port) ++ [me])) ∧
       (e.exclusive = true ∨ exclusive = true → (∃ x ∈ e.holders, x.1 ≠ port) → ∃ u, exec (asks exclusive) s = .next u ∧ u.near = s.near ∧
         u.pages = s.pages ∧ ∃ h ∈ u.handOvers, h.page = page ∧ h.grant = some (port, exclusive) ∧
           ∀ x ∈ e.holders, x.1 ≠ port → x.1 ∈ h.await ∧
             (x.1 < s.ports.length → (getPort s x.1).opened = true → told u x.1 (if e.exclusive then 3 else 2) e.exclusive))) ∧
     (∀ (dirty : List (Nat × Byte)) (h : HandOver) (e : PageEntry), s.handOvers.find? (·.page == page) = some h → port ∈ h.await → h.grant = none →
       (getPort s port).opened = true →
       s.pages.find? (·.page == page) = some e → (∀ x ∈ s.pages, x.page = page → x = e) →
       ∃ u, exec (.revokeAcknowledgment port page dirty) s = .next u ∧
         (∀ x ∈ u.pages, x.page = page → ∀ y ∈ x.holders, y.1 ≠ port) ∧
         ((∀ x ∈ h.await, x = port) → (∀ x ∈ u.handOvers, x.page ≠ page) ∧ (s.aon.cmds = [] →
           u.agenda = s.agenda ++ ((s.waiting.filter (·.page == page)).takeWhile (!·.behind)).map turn)) ∧
         (e.exclusive = false → u.mem = s.mem) ∧
         (e.exclusive = true → memWf Config.blankByte s.mem = true → (dirty.map (·.1)).Nodup → (∀ x ∈ dirty, x.1 < 65536) →
           (∀ x ∈ dirty, memGet Config.blankByte u.mem (page * 65536 + x.1) = x.2) ∧
           ∀ a, (∀ x ∈ dirty, a ≠ page * 65536 + x.1) → memGet Config.blankByte u.mem a = memGet Config.blankByte s.mem a)) ∧
     (port < s.ports.length → (∃ h ∈ s.handOvers, port ∈ h.await ∧ h.since + 2 ^ 24 ≤ now s) → lost (.agentFailed port) 1) ∧
     (port < s.ports.length → (getPort s port).up = true → lost (.linkDown port) 0 ∧
       ∀ u, exec (.linkDown port) s = .next u → (getPort u port).up = false) ∧
     (∀ (r : RemotePage) (bytes : List (Nat × Byte)), Config.remotePort page < s.ports.length →
       (getPort s (Config.remotePort page)).opened = true → s.remotePages.find? (·.page == page) = some r → (∀ x ∈ s.remotePages, x.page = page → x = r) →
       let becomes (i : Instr) (r' : RemotePage) : Prop := ∃ u, exec i s = .next u ∧ u.remotePages.find? (·.page == page) = some r' ∧ u.mem = s.mem
       let read (exclusive : Bool) (a : RemoteAnswer) : Prop := r.asked = some exclusive →
         becomes (.remoteHomeAnswer page a) { r with asked := none, shared := true, exclusive := exclusive, known := true } ∧
           (memWf Config.blankByte s.remote = true → (bytes.map (·.1)).Nodup → ∀ u, exec (.remoteHomeAnswer page a) s = .next u →
             ∀ x ∈ bytes, x.1 < 65536 → memGet Config.blankByte u.remote (page * 65536 + x.1) = x.2)
       read false (.read bytes) ∧ read true (.exclusive bytes) ∧
       becomes (.remoteHomeAnswer page .retry) { r with asked := none } ∧
       becomes (.remoteHomeAnswer page .ack) { r with ackDue := r.ackDue - 1 } ∧
       (∀ recalled, r.exclusive = recalled → (∀ c ∈ s.scCopies, c.line / 512 ≠ placed (page * 65536) true / 65536) → becomes (.remoteHomeRevoke page recalled) { r with shared := false, exclusive := false } ∧
         ∀ u, exec (.remoteHomeRevoke page recalled) s = .next u → told u (Config.remotePort page) 6 recalled)))

/-! ### Walks and the promotion engine -/

/-- R386, R387, R391, R392: a page walk reads one entry of each of three levels; a sound leaf becomes the newest translation of the die's TLB,
with the frame, the permissions and the attributes of its bits; an entry with M = 1 holds the walk up until it is read again; a fault leaves
the TLB as it was, and a format error is logged; and a table page that an outside agent holds is asked back first.
Choices of the model that it rests on: log 22. -/
def Obligations.PageWalks : Prop :=
  ∀ (s : State) (die : Nat) (p : Partition) (va : Quad), partOfDie s die = some p → p.stopped = false → canonical va.toNat = true →
    (∃ d ∈ s.dies, d.id = die) → p.ptroot.toNat % 2 = 1 → (∀ e ∈ (getDie s die).walkCache, e.part ≠ p.id) →
    let vpn := va.toNat / 65536 % 2 ^ 39
    let word (table index : Nat) : Nat := memNum s (table + 8 * index) 8
    let at_ (w : Nat) : Nat := w / 65536 % 2 ^ 36 * 65536
    let table (w : Nat) : Prop := w % 4 = 1 ∧ w / 2 ^ 2 % 2 ^ 14 = 0 ∧ w / 2 ^ 52 % 2 ^ 12 = 0 ∧ installedFrame (at_ w) 65536 = true
    let root := p.ptroot.toNat / 65536 % 2 ^ 36 * 65536
    let w2 := word root (vpn / 2 ^ 26)
    let w1 := word (at_ w2) (vpn / 2 ^ 13 % 2 ^ 13)
    let w := word (at_ w1) (vpn % 2 ^ 13)
    let bit (n : Nat) : Bool := w.testBit n
    let frame (n : Nat) : Bool := insideWindows p (at_ w) n
    let leaf : Prop := bit 0 = true ∧ bit 1 = true ∧ pteBad 0 w = false
    let t : Tlb := ⟨p.id, vpn, 1, at_ w, bit 2, bit 3, bit 4, bit 5, bit 7, bit 8, w / 2 ^ 9 % 4, w / 2 ^ 11 % 8, frame 65536⟩
    let walks : Prop := installedFrame root 65536 = true ∧ table w2 ∧ table w1 ∧ tableReady s root = true ∧ tableReady s (at_ w2) = true ∧
      tableReady s (at_ w1) = true
    let go : Instr := .pageWalk die p.id va
    let held : Prop := ∃ x ∈ (getDie s die).held, x.part = p.id ∧ x.vpn = vpn
    (¬held → walks → leaf → bit 14 = false → bit 6 = false → (w / 2 ^ 9 % 4 = 0 → installedFrame (at_ w) 65536 = true) →
      ∃ u, exec go s = .next u ∧ u.mem = s.mem ∧ u.packs = s.packs ∧ (getDie u die).tlb = (t :: (getDie s die).tlb.filter (· != t)).take 4096 ∧
        (getDie u die).held = (getDie s die).held) ∧
    (¬held → walks → leaf → bit 14 = true → ∃ u x, exec go s = .next u ∧ (getDie u die).tlb = (getDie s die).tlb ∧
      (getDie u die).held = (getDie s die).held ++ [x] ∧ x.part = p.id ∧ x.vpn = vpn ∧ x.va = va ∧ u.mem = s.mem) ∧
    (¬held → installedFrame root 65536 = true → tableReady s root = false → ∃ u, exec go s = .next u ∧
      (getDie u die).tlb = (getDie s die).tlb ∧ u.mem = s.mem ∧ ∃ h ∈ u.handOvers, h.page = root / 65536) ∧
    (¬held → walks → bit 0 = false → ∃ u, exec go s = .next u ∧ u.dies = s.dies ∧ u.aon = s.aon ∧ u.mem = s.mem) ∧
    (¬held → walks → bit 0 = true → pteBad 0 w = true → ∃ u e, exec go s = .next u ∧ u.dies = s.dies ∧ u.mem = s.mem ∧
      u.aon.log.getLast? = some e ∧ e.typ = 5 ∧ e.detail = va) ∧
    (∀ idx x, (getDie s die).held[idx]? = some x → x.part = p.id → x.vpn = vpn → x.va = va → findPart s p.id = some p →
      (∀ j y, j ≠ idx → (getDie s die).held[j]? = some y → ¬(y.part = p.id ∧ y.vpn = vpn)) → walks → leaf → bit 6 = false →
      (w / 2 ^ 9 % 4 = 0 → installedFrame (at_ w) 65536 = true) →
      ∃ u, exec (.walkRetry die idx) s = .next u ∧ u.mem = s.mem ∧
        (bit 14 = false → (getDie u die).held = (getDie s die).held.eraseIdx idx ∧
          (getDie u die).tlb = (t :: (getDie s die).tlb.filter (· != t)).take 4096) ∧
        (bit 14 = true → (getDie u die).tlb = (getDie s die).tlb ∧
          ∃ y, (getDie u die).held = (getDie s die).held.eraseIdx idx ++ [y] ∧ y.part = p.id ∧ y.vpn = vpn ∧ y.last = now s)) ∧
    (w % 4 = 3 → w / 2 ^ 9 % 2 ^ 7 = 0 → w / 2 ^ 52 = 0 → (bit 3 = true → bit 2 = true ∧ bit 4 = false) →
      (bit 7 = true → bit 4 = true ∧ bit 3 = false) → leaf)

/-- R397, R399, R400, R435: a re-latch token drops the range entries it covers, and the port remembers to latch them again; tables held
outside are asked back before a request is judged; an unfit request gets its status and changes nothing else of
its mapping; a fit one sets M in its source entries and waits for its shootdown; a move ends with the frame's bytes at the target, the
entry naming it with M = 0, and status 0; and once the frames are moved, only the status is left, which waits for its page (R407).
Choices of the model that it rests on: logs 40, 41, 42 and 53. -/
def Obligations.PromotionEngine : Prop :=
  ∀ (s : State) (p : Partition) (q : Promotion) (rest : List Promotion), findPart s p.id = some p → p.stopped = false →
    p.promotions = q :: rest →
    let go : Instr := .promotionRequest p.id
    let finished (u : State) : Prop := (findPart u p.id).map (·.promotions) = some rest
    let reads : Prop := ∀ t ∈ tablePages s p q, tableReady s t = true
    let target := q.pa.toNat / 65536 * 65536
    let begins : Prop := q.shoot = none ∧ q.moved = false
    let pa := q.addr.toNat + 32
    (∀ (r : Residency) (n : Port) (v k : Nat) (ts : List (Nat × Nat)), findRes s r.id = some r → r.port? n.num = some n → n.relatch = (v, k) :: ts →
      ∃ u r', exec (.relatchToken r.id n.num) s = .next u ∧ findRes u r.id = some r' ∧ u.mem = s.mem ∧
        ∃ n', r'.port? n.num = some n' ∧ n' = { n with relatch := ts, ranges := n'.ranges, dropped := n'.dropped } ∧
          (∀ e ∈ n.ranges, e ∉ n'.ranges → (e.vpn, e.pages) ∈ n'.dropped) ∧ ∀ e, e ∈ n'.ranges ↔ e ∈ n.ranges ∧ ¬(k ≠ 0 ∧ e.part = r.part ∧ v < e.vpn + e.pages ∧ e.vpn < v + k)) ∧
    (∀ t, begins → (tablePages s p q).find? (fun t => !tableReady s t) = some t →
      exec go s = .next (requestPage s (identityTlb p.id) t false)) ∧
    (∀ status s' pa t, begins → reads → judge s p q = .error status → status < 2 ^ 32 →
      engineAccess s p q.level (.write false) (q.addr.toNat + 32) 4 = (.ok t, pa, s') → t.kind = 0 → pa % 4 = 0 → findPart s' p.id = some p →
      memWf Config.blankByte s'.mem = true → status ≠ 0 →
      ∃ u, exec go s = .next u ∧ finished u ∧ memNum u pa 4 = status ∧
        ∀ a, a < pa ∨ pa + 4 ≤ a → memGet Config.blankByte u.mem a = memGet Config.blankByte s'.mem a) ∧
    ((q.rsvOk = false ∨ q.op = 3 ∨ q.gate.toNat % 8 ≠ 0) → judge s p q = .error 3) ∧
    (∀ ws, judge s p q = .ok ws → begins → reads → (∀ e ∈ ws, pageReady s (identityTlb 0) e.1 true = true) →
      (∀ k ∈ s.cores, k.storeQ = []) → memWf Config.blankByte s.mem = true →
      (ws.map (·.1)).Pairwise (fun a b => a + 8 ≤ b ∨ b + 8 ≤ a) →
      ∃ u q', exec go s = .next u ∧ (findPart u p.id).map (·.promotions) = some (q' :: rest) ∧ q'.entries = ws ∧ q'.shoot.isSome = true ∧
        q'.addr = q.addr ∧ q'.pa = q.pa ∧ (∀ e ∈ ws, memNum u e.1 8 = (e.2 + 2 ^ 14) % 2 ^ 64) ∧
        ∀ a, (∀ e ∈ ws, a < e.1 ∨ e.1 + 8 ≤ a) → memGet Config.blankByte u.mem a = memGet Config.blankByte s.mem a) ∧
    (∀ sh e w, q.moved = false → q.shoot = some sh → sh.tokens = false → sh.pages = [] → q.op = 0 → q.nm = 1 → q.entries = [(e, w)] → q.gate = 0 →
      let old := w / 65536 % 2 ^ 36 * 65536
      old ≠ target → (e + 8 ≤ target ∨ target + 65536 ≤ e) → s.pages = [] → s.handOvers = [] → (∀ c ∈ s.scCopies, c.line / 512 ≠ old / 65536) →
      memWf Config.blankByte s.mem = true → w < 2 ^ 52 → w / 2 ^ 14 % 2 = 0 → q.pa.toNat % 65536 = 0 → q.pa.toNat < 2 ^ 52 →
      q.level = 2 → installedFrame pa 4 = true → (pa + 4 ≤ target ∨ target + 65536 ≤ pa) → (pa + 4 ≤ e ∨ e + 8 ≤ pa) →
      ∃ u, exec go s = .next u ∧ finished u ∧ memNum u pa 4 = 0 ∧
        (∀ k < 65536, memGet Config.blankByte u.mem (target + k) = memGet Config.blankByte s.mem (old + k)) ∧
        memNum u e 8 / 65536 % 2 ^ 36 * 65536 = target ∧ memNum u e 8 % 65536 = w % 65536 ∧ (memNum u e 8).testBit 14 = false ∧
        ∀ n ∈ u.near, n.line / 512 ≠ target / 65536) ∧
    (q.moved = true → q.level = 2 → q.gate = 0 → installedFrame pa 4 = true →
      (pageReady s (identityTlb p.id) pa true = false → exec go s = .next (requestPage s (identityTlb p.id) pa true)) ∧
      (pageReady s (identityTlb p.id) pa true = true → memWf Config.blankByte s.mem = true → ∃ u, exec go s = .next u ∧ finished u ∧ memNum u pa 4 = 0 ∧
        ∀ a, a < pa ∨ pa + 4 ≤ a → memGet Config.blankByte u.mem a = memGet Config.blankByte s.mem a))

/-! ### Ports -/

/-- R409, R411-R414: a port comes up and says hello; a hello with sound fields and a greater incarnation opens the port after all held for the
agent's port is dropped, another is refused and logged, and a header of another version is no hello but a message that is refused (R7); segments are accepted in order, acknowledged and sent again as the streams' rules
have it; and a whole message is held, refused, or written to the buffer of the armed entry it matches.
Choices of the model that it rests on: logs 12, 43, 46 and 54. -/
def Obligations.Links : Prop :=
  ∀ (s : State) (port : Nat) (h : KmtHeader) (g : SegHeader) (body : List Byte), port < s.ports.length → port < 17 →
    let p := getPort s port
    let sends (u : State) (typ : Nat) (tag : Word) : Prop := ∃ x, (getPort u port).wire = p.wire ++ [x] ∧ x.hdr.segno = 0 ∧
      x.hdr.first = true ∧ x.hdr.last = true ∧ x.hdr.kind = 0 ∧ x.hdr.plen = 32#14 ∧ x.payload.length = 32 ∧ (kmtOf x.payload).version = 1#8 ∧
      (kmtOf x.payload).typ = BitVec.ofNat 8 typ ∧ (kmtOf x.payload).tag = tag ∧ (kmtOf x.payload).incarn = s.aon.incarn
    let logged (u : State) (typ : Nat) : Prop := u.aon.logSeq = s.aon.logSeq + 1 ∧ ∃ e, u.aon.log.getLast? = some e ∧ e.typ = typ ∧ e.unit = port
    let acks (u : State) (n : Word) : Prop := ∃ x, (getPort u port).wire = p.wire ++ [x] ∧ x.payload = [] ∧
      x.hdr = { segno := 0, plen := 0, first := false, last := false, kind := 1, dpart := g.spart, spart := g.dpart, rsv := 0, ackno := n, rsv2 := 0 }
    (p.up = false → s.booted = true → ∃ u, exec (.linkUp port) s = .next u ∧ (getPort u port).up = true ∧ sends u 2 0#32) ∧
    (p.up = true →
      let sound := h.version = 1 ∧ h.typ = 2 ∧ h.rsv = 0 ∧ h.rsv2 = 0 ∧ h.len = 0 ∧ h.kmtmax ≠ 0 ∧ h.linkmax ≠ 0
      let known (x : Word × Word) : Prop := (∃ q ∈ s.ports, x ∈ q.seen) ∧ x.1 = h.agent
      (sound → (∀ x, known x → x.2.toNat < h.incarn.toNat) →
        ∃ u q, exec (.kmtHello port h) s = .next u ∧ getPort u port = q ∧ q.opened = true ∧ q.agent = h.agent ∧ q.incarn = some h.incarn ∧
          q.rx = [] ∧ (p.txq = [] → q.tx = []) ∧ (∀ k ∈ u.ports, ∀ x ∈ k.seen, x.1 = h.agent → x.2 = h.incarn) ∧
          (∀ e ∈ u.pages, ∀ x ∈ e.holders, x.1 ≠ port) ∧ ∀ k ∈ u.parts, ∀ m ∈ k.held, m.port ≠ port) ∧
      (h.version = 1 → h.typ = 2 → ¬ sound ∨ ((∃ x, known x) ∧ ∀ x, known x → h.incarn.toNat ≤ x.2.toNat) →
        ∃ u, exec (.kmtHello port h) s = .next u ∧ (getPort u port).opened = false ∧ logged u 8 ∧ sends u 3 h.tag) ∧
      (h.version ≠ 1 ∨ h.typ ≠ 2 → (p.opened = false → exec (.kmtHello port h) s = .next s) ∧
        (p.opened = true → ∃ u, exec (.kmtHello port h) s = .next u ∧ (getPort u port).opened = true ∧ (getPort u port).rx = p.rx ∧ logged u 9 ∧
          (p.txq = [] → (∀ t ∈ p.tx, t.sent = [] ∧ t.next = 0#32) → sends u 3 h.tag)))) ∧
    (p.opened = true → (p.inbox = [] ∨ p.inbox = [(h, body)]) →
      let sound := h.version = 1 ∧ h.typ = 0 ∧ h.rsv = 0 ∧ h.rsv2 = 0 ∧ h.len ≠ 0 ∧ h.len.toNat ≤ 2 ^ 20 ∧ body.length = h.len.toNat ∧
        p.incarn = some h.incarn ∧ p.agent = h.agent
      let go : Instr := .kmtMessage port h body
      let whole := h.version = 1 ∧ h.rsv = 0 ∧ h.rsv2 = 0 ∧ (h.typ = 0 ∨ h.len = 0)
      let refused : Prop := ∃ u, exec go s = .next u ∧ u.mem = s.mem ∧
        ((∀ k ∈ s.parts, ∀ m ∈ k.messages, m.stage ≠ .queueFull) → u.parts = s.parts) ∧ logged u 9 ∧ (getPort u port).inbox = [] ∧
        (p.txq = [] → (∀ t ∈ p.tx, t.sent = [] ∧ t.next = 0#32) → sends u 3 h.tag)
      (¬ whole → refused) ∧ (whole → h.typ = 1 ∨ h.typ = 3 → ∃ u, exec go s = .next u ∧ u = modPort s port fun q => { q with inbox := [] }) ∧
      (h.typ ≠ 1 → h.typ ≠ 3 → (¬ sound → refused) ∧ (findPart s h.part.toNat = none → refused)) ∧
      (sound → ∀ k, findPart s h.part.toNat = some k →
        let fits (a : Armed) : Prop := a ∈ k.armed ∧ a.takes port h.tag h.len.toNat = true
        let room := k.held.length < 256 ∧ (k.held.map (·.bytes.length)).sum + body.length ≤ 2 ^ 26
        ((∀ a, ¬ fits a) → ¬ room → refused) ∧
        ((∀ a, ¬ fits a) → room → ∃ u, exec go s = .next u ∧ u.mem = s.mem ∧ getPort u port = { p with inbox := [] } ∧
          findPart u k.id = some { k with held := k.held ++ [⟨port, h.tag, h.incarn, body⟩] }) ∧
        (∀ a, fits a → (∀ b, fits b → a.entry < b.entry ∨ a = b) →
          let check := serve s k.id (.write false) a.buf.toNat body.length 16
          (∀ code s', check = (.fail code, s') → ∃ u, exec go s = .next u ∧ u.mem = s'.mem ∧ (getPort u port).inbox = []) ∧
          (∀ s', check = (.stall, s') → ∃ u, exec go s = .next u ∧ u.mem = s'.mem ∧ (getPort u port).inbox = [(h, body)]) ∧
          (∀ ps s' v, check = (.ok ps, s') →
            releaseMatch (modPart (servedWrite s' k.id ps body) k.id fun k => { k with armed := k.armed.filter (·.entry != a.entry) }) k.id
              a.entry a.desc = (true, v) →
            exec go s = .next (modPort v port fun q => { q with inbox := [] }))))) ∧
    (let r := rxStream p g.spart.toNat g.dpart.toNat
     let i : Instr := if port = 0 then .segmentReceive g body true else .kiopFlitReceive port g body
     let full := if port = 0 then 8192 else 224
     let hello := g.first = true ∧ g.last = true ∧ body.length = 32 ∧ (kmtOf body).version = 1 ∧ (kmtOf body).typ = 2
     let bytes := if g.first then body else r.partial_ ++ body
     exec (.segmentReceive g body false) s = .next s ∧
     (p.up = true → p.opened = true → g.kind = 0 → g.ackno = 0 → g.plen.toNat = body.length → body.length ≤ full →
       (g.last = false → body.length = full) → ¬ hello →
       (g.segno ≠ r.next → port ≠ 0 → exec i s = .next s) ∧
       (g.segno ≠ r.next → port = 0 →
         ((∀ t, r.ackAt = some t → t + 2 ^ 10 ≤ now s) → ∃ u, exec i s = .next u ∧ acks u r.next ∧ (getPort u port).inbox = p.inbox) ∧
         (∀ t, r.ackAt = some t → now s < t + 2 ^ 10 → exec i s = .next s)) ∧
       (g.segno = r.next → g.first = !r.inMessage → ∃ u, exec i s = .next u ∧
         (rxStream (getPort u port) g.spart.toNat g.dpart.toNat).next = r.next + 1 ∧
         (port = 0 → 31 ≤ r.unacked → acks u (r.next + 1)) ∧ ((port ≠ 0 ∨ r.unacked < 31) → (getPort u port).wire = p.wire) ∧
         (g.last = true → (getPort u port).inbox = p.inbox ++ [(kmtOf bytes, bytes.drop 32)] ∧
           .event (.kmtMessage port (kmtOf bytes) (bytes.drop 32)) ∈ u.agenda) ∧
         (g.last = false → (getPort u port).inbox = p.inbox ∧
           (rxStream (getPort u port) g.spart.toNat g.dpart.toNat).partial_ = bytes)))) ∧
    (port = 0 → p.opened = true →
      let out := txStream p g.dpart.toNat g.spart.toNat
      let inn := rxStream p g.spart.toNat g.dpart.toNat
      let resend : Instr := .segmentResend g.dpart.toNat g.spart.toNat
      let after (u : State) := txStream (getPort u 0) g.dpart.toNat g.spart.toNat
      (∀ n, g.kind = 1 → g.segno = 0 → g.plen = 0 → 0 < n → n ≤ out.sent.length → out.sent.length ≤ 1024 →
        g.ackno = out.next - BitVec.ofNat 32 out.sent.length + BitVec.ofNat 32 n → p.txq = [] →
        ∃ u, exec (.segmentAck g) s = .next u ∧ (after u).sent = out.sent.drop n ∧ (after u).next = out.next ∧ (after u).resends = 0) ∧
      (inn.unacked ≠ 0 → ∃ u, exec (.ackTimer g.spart.toNat g.dpart.toNat) s = .next u ∧ acks u inn.next ∧
        (rxStream (getPort u 0) g.spart.toNat g.dpart.toNat).unacked = 0) ∧
      (out.sent ≠ [] → out.since + 2 ^ 20 ≤ now s →
        (out.resends < 16 → ∃ u, exec resend s = .next u ∧ (getPort u 0).wire = p.wire ++ out.sent ∧ (after u).sent = out.sent ∧
          (after u).resends = out.resends + 1) ∧
        (16 ≤ out.resends → (∀ e ∈ s.pages, ∀ x ∈ e.holders, x.1 ≠ 0) → ∃ u, exec resend s = .next u ∧ logged u 10 ∧
          (getPort u 0).opened = false ∧ (getPort u 0).tx = [] ∧ (getPort u 0).txq = [])))

/-! ### The Collie and the device -/

/-- R415, R417-R421, R423, R425, R430 and R431: what each command of the Collie answers and does: status 0 with its effect, and where it is
refused its status and nothing else; before a hello has opened a session every other command is refused.  A command that needs a page held outside
asks for it and waits (R407), first of the commands; one that arrives meanwhile waits behind it, but a reset overrides them all.
Choices of the model that it rests on: logs 16, 20, 21, 44, 45, 49, 51, 52 and 54. -/
def Obligations.CollieCommands : Prop :=
  ∀ (s : State),
    let woken := match s.power with
      | .idle | .deepIdle | .on => PowerState.on
      | .off => .off
    let answers (i : Instr) (status : Nat) (data : List Byte) (then_ : State → Prop) : Prop :=
      ∃ u, exec i s = .next u ∧ u.aon.reply = some ⟨status, data⟩ ∧ then_ u
    let rest (u : State) : Prop := u.power = woken ∧ u.mem = s.mem ∧ u.poison = s.poison ∧ u.packs = s.packs ∧ u.herds = s.herds ∧ u.ports = s.ports
    let same (u : State) : Prop := rest u ∧ u.parts = s.parts ∧ u.aon = { s.aon with reply := u.aon.reply }
    let logged (u : State) (typ detail : Nat) : Prop := u.aon.logSeq = s.aon.logSeq + 1 ∧
      ∃ e, u.aon.log.getLast? = some e ∧ e.typ = typ ∧ e.detail = BitVec.ofNat 64 detail
    let fresh (u : State) : Prop := u.power = .on ∧ u.booted = false ∧ u.packs = [] ∧ u.herds = [] ∧ u.residencies = [] ∧ u.cores = [] ∧
      .event .boot ∈ u.agenda ∧ u.aon.incarn = s.aon.incarn + 1 ∧ u.aon.sec = s.aon.sec ∧ u.aon.key = s.aon.key ∧ u.aon.flash = s.aon.flash ∧
      u.aon.minSvn = s.aon.minSvn ∧ ∀ q ∈ u.ports, q.up = false ∧ q.opened = false
    let le (b : List Byte) (off n : Nat) : Nat := numLE ((b.drop off).take n)
    (s.aon.cmds ≠ [] →
      (∀ (n len : Nat) (w : Word) (v : Byte) (bs : List Byte) (data : Option (List Byte)) (t : ResetTarget) (k : PowerState) (x : SecState),
        ∀ i ∈ [(Instr.hello v, CollieCommand.hello v), (.telemetry, .telemetry), (.logread w, .logread w), (.fwload bs, .fwload bs), (.kill n w, .kill n w),
            (.debug n w, .debug n w), (.power k, .power k), (.attest bs, .attest bs), (.memrw n len data, .memrw n len data), (.genkey, .genkey),
            (.secstate x, .secstate x), (.reset t, .reset t)],
          (i.1 = .reset t → s.aon.session = none ∨ ∃ p, t = .partition p ∧ findPart s p = none) →
            exec i.1 s = .next { s with aon := { s.aon with cmds := s.aon.cmds ++ [i.2] } }) ∧
      (s.aon.session ≠ none → answers (.reset .device) 0 [] (fun u => u.aon.cmds = []) ∧
        ∀ n q, findPart s n = some q → answers (.reset (.partition n)) 0 [] fun u => u.aon.cmds = [])) ∧
    (s.aon.cmds = [] →
    (∀ v, v ≠ 0 → answers (.hello v) 0 [1] fun u => rest u ∧ u.parts = s.parts ∧ u.aon = { s.aon with session := some 1, reply := u.aon.reply }) ∧
    answers (.hello 0) 2 [] same ∧
    (s.aon.session = none → ∀ (n len : Nat) (w : Word) (bs : List Byte) (data : Option (List Byte)) (t : ResetTarget) (k : PowerState) (x : SecState),
      ∀ i ∈ [Instr.telemetry, .logread w, .fwload bs, .reset t, .kill n w, .debug n w, .power k, .attest bs, .memrw n len data, .genkey, .secstate x],
        answers i 2 [] same) ∧
    (s.aon.session ≠ none →
    (∃ ts, answers .telemetry 0 (ts ++ ((List.range 8).flatMap fun d => bytesLE 4 (getDie s d).budget ++ bytesLE 4 (getDie s d).granted) ++
      bytesLE 4 s.aon.lost) same) ∧
    (∀ n : Word, let es := s.aon.log.filter fun e => n.toNat ≤ e.seq.toNat
      ∃ data, answers (.logread n) 0 data same ∧ data.length = 32 * es.length ∧ ∀ k e, es[k]? = some e →
        le data (32 * k) 1 = e.typ % 2 ^ 8 ∧ (e.typ < 2 ^ 8 → le data (32 * k + 1) 1 = e.part % 8) ∧
        (e.typ < 2 ^ 8 → e.unit < 2 ^ 12 → le data (32 * k + 2) 2 = e.die % 16 + e.unit * 16) ∧
        (e.typ < 2 ^ 8 → e.unit < 2 ^ 12 → le data (32 * k + 4) 4 = e.seq.toNat ∧ le data (32 * k + 8) 8 = e.clock.toNat ∧
          le data (32 * k + 16) 8 = e.addr.toNat ∧ le data (32 * k + 24) 8 = e.detail.toNat)) ∧
    (∀ image,
      let len := le image 8 8
      let header := le image 0 4 = 0x49464B57 ∧ le image 4 2 = 1 ∧ len % 128 = 0 ∧ 128 ≤ len ∧ len ≤ 2 ^ 26 ∧ len ≤ image.length
      let signed := ecdsaVerify Config.firmwareKey (numBE (sha256 (image.take 32 ++ (image.drop 128).take (len - 128))))
        (numBE ((image.drop 32).take 32)) (numBE ((image.drop 64).take 32)) = true
      let fit := header ∧ signed ∧ s.aon.minSvn ≤ le image 6 2
      (fit → answers (.fwload image) 0 [] fun u => rest u ∧ u.parts = s.parts ∧ u.aon = { s.aon with flash := image, reply := u.aon.reply }) ∧
      (¬ fit → answers (.fwload image) 2 [] same)) ∧
    (s.power ≠ .off → answers (.reset .device) 0 [] fun u => fresh u ∧ u.mem = s.mem) ∧
    (s.power = .off → answers (.reset .device) 0 [] fun u => rest u ∧ u.parts = s.parts.map (fun p => { p with dbglvl := secDebug s.aon.sec }) ∧
      u.aon = { s.aon with incarn := s.aon.incarn + 1, bootFailed := false, keptDebug := [], reply := u.aon.reply }) ∧
    (∀ n q, findPart s n = some q → answers (.reset (.partition n)) 0 [] fun u => u.power = woken ∧
      (∃ q', findPart u n = some q' ∧ q'.armed = [] ∧ q'.held = [] ∧ q'.slots = [] ∧ q'.promotions = [] ∧ q'.hdlcfg = q.hdlcfg ∧ q'.die0 = q.die0 ∧
        q'.dies = q.dies ∧ (q'.launches = [] ∨ q'.stopped = true)) ∧
      (q.launches = [] → (∃ q', findPart u n = some q' ∧ q'.launches = [] ∧ q'.stopped = false ∧ q'.resetting = false ∧ q'.tvec = 0 ∧
          q'.mtvec = (if s.booted then Config.firmwareMtvec else 0) ∧ q'.mroute = 0 ∧ q'.ptroot = 0 ∧ q'.bartimeout = 2 ^ 32 ∧
          q'.dbglvl = secDebug s.aon.sec ∧ q'.lastSeq = q.lastSeq) ∧
        (∀ k ∈ u.packs, k.part = n → k.isHandler = true ∧ k.wake = none ∧ k.wakes = [] ∧ k.paths = []) ∧
        (s.booted = true → ∀ core k, 42 * q.die0 ≤ core → core < 42 * (q.die0 + q.dies) → k < 4 →
          ∃ p ∈ u.packs, p.loc = ⟨core, k, 31⟩ ∧ p.part = n))) ∧
    (∀ n, findPart s n = none → answers (.reset (.partition n)) 2 [] same) ∧
    (∀ n q seq, findPart s n = some q →
      (∀ l, q.launches.find? (·.seq == seq) = some l → l.term = none → (∀ m ∈ q.messages, m.seq ≠ seq) → answers (.kill n seq) 0 [] fun u =>
        u.power = woken ∧ ((∀ h ∈ s.herds, h.part = n → h.seq ≠ seq) → logged u 16 seq.toNat) ∧
        ((∀ k ∈ s.cores, k.storeQ = []) → ∀ h ∈ u.herds, h.part = n → h.seq ≠ seq) ∧
        ∃ q', findPart u n = some q' ∧ ∀ l' ∈ q'.launches, l'.seq = seq → l'.term = some ⟨3, 0, 0⟩) ∧
      ((∀ l ∈ q.launches, l.seq = seq → l.term.isSome = true) ∨ (∃ m ∈ q.messages, m.seq = seq) → answers (.kill n seq) 1 [] same)) ∧
    (∀ n (q : Partition) (level : Word), findPart s n = some q →
      (level.toNat ≤ 2 → (s.aon.sec = .production → level ≠ 2) → answers (.debug n level) 0 [] fun u => rest u ∧
        findPart u n = some { q with dbglvl := level } ∧ u.aon.sec = s.aon.sec) ∧
      (2 < level.toNat ∨ (s.aon.sec = .production ∧ level = 2) → answers (.debug n level) 2 [] same)) ∧
    (s.power ≠ .off → answers (.power .on) 0 [] same) ∧
    (s.power = .off → answers (.power .on) 0 [] fun u => fresh u ∧ u.mem = [] ∧
      ∀ p ∈ u.parts, ∀ q, s.parts.find? (·.id == p.id) = some q → p.dbglvl = q.dbglvl) ∧
    (∀ s', s.power = .idle → askBack s s.scCopies = some s' →
      exec (.power .deepIdle) s = .next { s' with aon := { s'.aon with cmds := [.power .deepIdle] } }) ∧
    (s.power = .idle → (∀ k ∈ s.scCopies, backReady s k = true) → answers (.power .deepIdle) 0 [] fun u => u.power = .deepIdle ∧ u.packs = s.packs ∧ u.parts.length = s.parts.length ∧
      u.ports = s.ports ∧ u.near = [] ∧ ∀ k ∈ u.cores, k.l1 = []) ∧
    (s.power = .idle ∨ s.power = .deepIdle → answers (.power .off) 0 [] fun u => u.power = .off ∧ u.mem = [] ∧ u.packs = [] ∧ u.herds = [] ∧
      u.aon.log = [] ∧ u.aon.lost = 0 ∧ u.aon.sec = s.aon.sec ∧ u.aon.key = s.aon.key ∧ u.aon.flash = s.aon.flash ∧ u.aon.incarn = s.aon.incarn ∧
      u.parts.map (fun p => (p.id, p.dbglvl)) = s.parts.map (fun p => (p.id, p.dbglvl))) ∧
    (let refused (target : PowerState) := answers (.power target) 2 [] fun u => u = { s with aon := { s.aon with reply := some ⟨2, []⟩ } }
     refused .idle ∧ (s.power ≠ .idle → refused .deepIdle) ∧ (s.power = .on ∨ s.power = .off → refused .off)) ∧
    (∀ nonce : List Byte,
      (s.aon.key = none → answers (.attest nonce) 3 [] same) ∧
      (∀ k, s.aon.key = some k → nonce.length = 32 → s.imageDigest.length = 32 → ∃ data, answers (.attest nonce) 0 data same ∧
        let key := Config.identityKey k
        let sig := Config.identitySign k (numBE (sha256 (data.take 192)))
        data.length = 256 ∧ le data 0 1 = 1 ∧ le data 1 1 = (match s.aon.sec with
          | .provisioning => 0
          | .production => 1
          | .returned => 2) ∧
        (∀ p < 8, le data 2 2 / 4 ^ p % 4 = ((findPart s p).map (·.dbglvl.toNat % 4)).getD 0) ∧ le data 4 4 = s.layout % 4 ∧
        le data 8 4 = s.aon.incarn.toNat ∧ le data 12 2 = s.imageSvn % 2 ^ 16 ∧ le data 14 2 = 0 ∧ (data.drop 16).take 32 = nonce ∧
        (data.drop 48).take 32 = s.imageDigest ∧ le data 80 32 = key.1 % 2 ^ 256 ∧ le data 112 32 = key.2 % 2 ^ 256 ∧ le data 144 48 = 0 ∧
        le data 192 32 = sig.1 % 2 ^ 256 ∧ le data 224 32 = sig.2 % 2 ^ 256)) ∧
    (∀ addr len, 0 < len → installedFrame addr len = true → Config.isHbm addr = Config.isHbm (addr + len - 1) →
      let away (writes : Bool) (a : Nat) : Prop := addr ≤ a ∧ a < addr + len ∧ pageReady s (identityTlb 0) a writes = false
      (s.power ≠ .off → s.aon.sec ≠ .production → (∀ p ∈ s.parts, p.dbglvl = 2) →
        ((∀ a, ¬away false a) → answers (.memrw addr len none) 0 ((List.range len).map fun k => memGet Config.blankByte s.mem (addr + k)) same) ∧
        (∀ bs, bs.length = len → (∀ a, ¬away true a) → memWf Config.blankByte s.mem = true → answers (.memrw addr len (some bs)) 0 [] fun u =>
          (∀ k b, bs[k]? = some b → memGet Config.blankByte u.mem (addr + k) = b) ∧
          ∀ a, a < addr ∨ addr + len ≤ a → memGet Config.blankByte u.mem a = memGet Config.blankByte s.mem a) ∧
        ∀ data : Option (List Byte), (∀ bs, data = some bs → bs.length = len) → (∃ a, away data.isSome a) →
          ∃ u, exec (.memrw addr len data) s = .next u ∧ u.mem = s.mem ∧ u.aon = { s.aon with cmds := [.memrw addr len data] } ∧
            ∀ a, away data.isSome a → ∃ k ∈ u.handOvers, k.page = a / 65536) ∧
      (s.power = .off ∨ s.aon.sec = .production ∨ (s.parts ≠ [] ∧ ∀ p ∈ s.parts, p.dbglvl ≠ 2) → ∀ data, answers (.memrw addr len data) 2 [] same)) ∧
    (s.aon.sec = .provisioning → s.aon.key = none →
      answers .genkey 0 [] fun u => rest u ∧ u.parts = s.parts ∧
        u.aon = { s.aon with key := some s.aon.keysMade, keysMade := s.aon.keysMade + 1, reply := u.aon.reply }) ∧
    (s.aon.sec ≠ .provisioning ∨ s.aon.key ≠ none → answers .genkey 2 [] same) ∧
    (s.aon.sec = .provisioning → s.aon.key ≠ none → answers (.secstate .production) 0 [] fun u => rest u ∧ u.aon.sec = .production ∧
      u.aon.key = s.aon.key ∧ logged u 15 1 ∧ ∀ p ∈ u.parts, p.dbglvl = 0) ∧
    (s.aon.sec = .production → answers (.secstate .returned) 0 [] fun u => u.aon.sec = .returned ∧ u.aon.key = none ∧ logged u 15 2 ∧
      u.mem = [] ∧ (∀ g ∈ u.poison, remoteBase ≤ 8 * g) ∧ (∀ x ∈ u.near, remoteBase ≤ x.line * 128) ∧ (∀ x ∈ u.scCopies, remoteBase ≤ x.line * 128) ∧
      ∀ p ∈ u.parts, p.dbglvl = 2) ∧
    (∀ target, ¬(s.aon.sec = .provisioning ∧ target = .production ∧ s.aon.key ≠ none) → ¬(s.aon.sec = .production ∧ target = .returned) →
      answers (.secstate target) 2 [] same)))

/-- R346, R415, R416, R418, R422, R423, R428, R430 and R431: power-on, the two resets, boot and a failed boot, the critical temperature, idle
and the wake from it, what correctable and uncorrectable errors leave, and the refetch or the stop after a parity error.
Choices of the model that it rests on: logs 12, 16, 20, 21, 44 and 52. -/
def Obligations.DeviceEvents : Prop :=
  ∀ (s : State),
    let logged (u : State) (typ detail : Nat) : Prop := u.aon.logSeq = s.aon.logSeq + 1 ∧
      ∃ e, u.aon.log.getLast? = some e ∧ e.typ = typ ∧ e.detail = BitVec.ofNat 64 detail ∧ e.seq = u.aon.logSeq ∧ e.clock = s.clock
    let fresh (u : State) : Prop := u.power = .on ∧ u.booted = false ∧ u.packs = [] ∧ u.herds = [] ∧ u.residencies = [] ∧ u.cores = [] ∧
      .event .boot ∈ u.agenda ∧ u.aon.incarn = s.aon.incarn + 1 ∧ u.aon.sec = s.aon.sec ∧ u.aon.key = s.aon.key ∧ u.aon.minSvn = s.aon.minSvn ∧
      u.aon.bootFailed = false ∧ ∀ q ∈ u.ports, q.up = false ∧ q.opened = false
    let le (off n : Nat) : Nat := numLE ((s.aon.flash.drop off).take n)
    -- the partition that the log names for a place: that of the herd or pack whose storage it is, else 0
    let owner (place : StoragePlace) : Nat := match place with
      | .scratchpad h _ | .opm h _ _ => ((findHerd s h).map (·.part)).getD 0
      | .vreg loc _ _ => ((findPack s loc).map (·.part)).getD 0
      | _ => 0
    let owned (u : State) (place : StoragePlace) : Prop := ∃ e, u.aon.log.getLast? = some e ∧ e.part = owner place
    (s.power = .off → ∃ u, exec .powerOn s = .next u ∧ fresh u ∧ u.mem = [] ∧ u.aon.flash = s.aon.flash) ∧
    (s.power ≠ .off → exec .powerOn s = .next s ∧
      ∃ u, exec .deviceReset s = .next u ∧ fresh u ∧ u.mem = s.mem ∧ u.aon.flash = s.aon.flash ∧ (s.pages = [] → u.aon.log = s.aon.log)) ∧
    (s.power = .off → exec .deviceReset s = .next { s with
      parts := s.parts.map fun p => { p with dbglvl := secDebug s.aon.sec }
      aon := { s.aon with incarn := s.aon.incarn + 1, bootFailed := false, keptDebug := [], cmds := [] } }) ∧
    (∀ n q, findPart s n = some q → ∃ u q', exec (.partitionReset n) s = .next u ∧ findPart u n = some q' ∧
      q'.armed = [] ∧ q'.held = [] ∧ q'.slots = [] ∧ q'.promotions = [] ∧ (q'.launches = [] ∨ q'.stopped = true) ∧
      (q.launches = [] → q'.launches = [] ∧ q'.stopped = false ∧ q'.ptroot = 0 ∧ q'.dbglvl = secDebug s.aon.sec ∧
        (∀ k ∈ u.packs, k.part = n → k.isHandler = true ∧ k.wake = none ∧ k.paths = []) ∧
        ∀ k, k.part ≠ n → (k ∈ u.packs ↔ k ∈ s.packs))) ∧
    (s.booted = false → s.aon.bootFailed = false → s.power = .on →
      let header := le 0 4 = 0x49464B57 ∧ le 4 2 = 1 ∧ le 8 8 % 128 = 0 ∧ 128 ≤ le 8 8 ∧ le 8 8 ≤ 2 ^ 26 ∧ le 8 8 ≤ s.aon.flash.length
      let digest := sha256 (s.aon.flash.take 32 ++ (s.aon.flash.drop 128).take (le 8 8 - 128))
      let signed := ecdsaVerify Config.firmwareKey (numBE digest) (numBE ((s.aon.flash.drop 32).take 32)) (numBE ((s.aon.flash.drop 64).take 32)) = true
      let failed (why : Nat) : Prop := ∃ u, exec .boot s = .next u ∧ logged u 12 why ∧ u.aon.bootFailed = true ∧ u.booted = false ∧ u.packs = s.packs
      (¬ header → failed 1) ∧ (header → ¬ signed → failed 2) ∧ (header → signed → le 6 2 < s.aon.minSvn → failed 3) ∧
      (header → signed → s.aon.minSvn ≤ le 6 2 → ∃ u, exec .boot s = .next u ∧ u.booted = true ∧ logged u 13 (le 6 2) ∧ u.imageDigest = digest ∧
        u.imageSvn = le 6 2 ∧ u.aon.minSvn = le 6 2 ∧ u.layout = s.aon.layout ∧ u.mem = s.mem ∧
        let n := 8 / 2 ^ (s.aon.layout % 4)
        u.parts.length = 8 / n ∧ (∀ k < 8 / n, ∃ p, findPart u k = some p ∧ p.die0 = n * k ∧ p.dies = n ∧ p.mtvec = Config.firmwareMtvec ∧
          (s.aon.keptDebug = [] → p.dbglvl = secDebug s.aon.sec)) ∧
        ∀ core < 336, ∀ k < 4, ∃ p ∈ u.packs, p.loc = ⟨core, k, 31⟩ ∧ p.isHandler = true ∧ p.part = core / 42 / n)) ∧
    (∀ image, (s.aon.bootFailed = true → ∃ u, exec (.signedImageFetched image) s = .next u ∧ fresh u ∧ u.aon.flash = image) ∧
      (s.aon.bootFailed = false → exec (.signedImageFetched image) s = .next s)) ∧
    (∀ n, n < 28 → s.power ≠ .off → s.pages = [] → ∃ u, exec (.criticalTemperature n) s = .next u ∧ fresh u ∧ u.mem = s.mem ∧ logged u 14 n) ∧
    (let quiet := s.power = .on ∧ s.booted = true ∧ (∀ p ∈ s.packs, p.isHandler = true) ∧ s.residencies = [] ∧
       (∀ p ∈ s.parts, p.promotions = [] ∧ ∀ l ∈ p.launches, l.pending = true) ∧ s.quietSince + 2 ^ 20 ≤ now s
     (quiet → exec .idleEntry s = .next { s with power := .idle }) ∧ (¬ quiet → exec .idleEntry s = .next s)) ∧
    (s.power = .idle ∨ s.power = .deepIdle → exec .wake s = .next { s with power := .on, quietSince := now s }) ∧
    (s.power = .on ∨ s.power = .off → exec .wake s = .next s) ∧
    (∀ place, let of_ := s.aon.counted.find? (·.1 == unitOf s place)
      ∃ u, exec (.correctableError place) s = .next u ∧ u = { s with aon := u.aon } ∧ (of_ = none → logged u 1 1 ∧ owned u place) ∧
        ∀ v n at_, of_ = some (v, n, at_) → (at_ + 2 ^ 20 ≤ now s → logged u 1 (n + 1) ∧ owned u place) ∧
          (now s < at_ + 2 ^ 20 → u.aon.log = s.aon.log ∧ (v, n + 1, at_) ∈ u.aon.counted)) ∧
    (∀ place, ∃ u, exec (.uncorrectableError place) s = .next u ∧ u.mem = s.mem ∧ owned u place ∧ (match place with
      | .dram pa => logged u 2 1 ∧ ∀ g, g ∈ u.poison ↔ g ∈ s.poison ∨ g * 8 / 32 = pa / 32
      | .l2 pa => logged u 2 2 ∧ ∀ g, g ∈ u.poison ↔ g ∈ s.poison ∨ g = pa / 8
      | .scratchpad h off => logged u 2 3 ∧ u.poison = s.poison ∧ ∀ x, findHerd s h = some x → ∃ y, findHerd u h = some y ∧ y.spad = x.spad ∧
          ∀ g, g ∈ y.bad ↔ g ∈ x.bad ∨ g = off / 4
      | .opm h slot off => logged u 2 4 ∧ u.poison = s.poison ∧ ∀ x o, findHerd s h = some x → x.opm[slot]? = some o → ∃ y o', findHerd u h = some y ∧
          y.opm[slot]? = some o' ∧ ∀ g, g ∈ o'.bad ↔ g ∈ o.bad ∨ g = off / 16
      | .vreg loc r l => logged u 2 5 ∧ u.poison = s.poison ∧ ∀ p, findPack s loc = some p → ∃ p', findPack u loc = some p' ∧ p'.regs = p.regs ∧
          ∀ x, x ∈ p'.bad ↔ x ∈ p.bad ∨ x = (r, l)
      | .parity _ _ => logged u 2 6 ∧ u.poison = s.poison)) ∧
    (∀ n die unit, (∃ u, exec (.parityError n die unit false) s = .next u ∧ logged u 2 6 ∧ u.mem = s.mem ∧ u.packs = s.packs ∧
        (∀ d, (getDie u d).tlb = if d = die then (getDie s d).tlb.filter fun e => e.part != n else (getDie s d).tlb) ∧
        (∀ core, (getCore u core).tlb = if core / 42 = die then (getCore s core).tlb.filter fun e => e.part != n else (getCore s core).tlb) ∧
        ∀ r ∈ u.residencies, r.part = n → r.ctl.core / 42 = die → ∀ x ∈ r.ports, x.ranges = []) ∧
      (∀ q, findPart s n = some q → ∃ u q', exec (.parityError n die unit true) s = .next u ∧ findPart u n = some q' ∧ q'.stopped = true ∧
        u.packs = s.packs ∧ logged u 11 Config.parityCode))

/-! ### Words, steps and the whole machine -/

/-- R143, R145, R148, R149, R152, R153: words written out from the encoding tables, one of each format and of each family, decode to the
instructions they stand for. -/
def Obligations.DecodeKnownWords : Prop :=
  let h : Head := ⟨7#3, false⟩
  let word (w lit : Quad) (i : Instr) : Prop := decode w lit = .ok i
  let s (d a b : Reg) (mod : BitVec 7) (imm : BitVec 16) : S := ⟨d, a, b, 0#6, false, mod, imm⟩
  word 0x2370_8122_85C0_0000#64 0#64 (.ffma h ⟨8#7, 9#7, 10#7, 11#7, 64#7, 0#8, false⟩) ∧
  word 0x0138_8122_8010_0000#64 0#64 (.iadd ⟨3#3, true⟩ (.v ⟨8#7, 9#7, 10#7, 0#7, 16#7, 0#8, false⟩)) ∧
  word 0x1170_20E4_0005_8000#64 0#64 (.shl h (.i ⟨2#7, 7#7, 4#5, 5#16, 0x80#8, false, none⟩)) ∧
  word 0x5570_3000_0000_0000#64 0#64 (.srd h (s 3#7 0#7 0#7 0#7 0#16)) ∧
  word 0xA370_0000_0000_0080#64 0#64 (.call h ⟨0#7, 0#4, 0x80#32⟩) ∧
  word 0xA970_0000_0000_0000#64 0#64 (.nop h ⟨0#7, 0#4, 0#32⟩) ∧
  word 0xE370_0080_0000_0000#64 0#64 (.tlbinvPage h (s 0#7 4#7 0#7 0#7 0#16)) ∧
  word 0xE270_0000_0002_0000#64 0#64 (.eretTerm h (s 0#7 0#7 0#7 2#7 0#16)) ∧
  decode 0x0038_0000_0000_0000#64 0#64 = .error .opcode ∧ decode 0xA978_0000_0000_0000#64 0#64 = .error .guard ∧
  decode 0xA9F0_0000_0000_0000#64 0#64 = .error .xbit ∧ decode 0xA970_0001_0000_0000#64 0#64 = .error .format

/-- R142-R153, R157: decoding and encoding agree, with every operand at every value an encoding admits: the bytes of a well-formed
instruction decode to it, whatever follows them; and bytes that decode are those of the instruction they decode to, so that each word has
one meaning. -/
def Obligations.DecodeEncode : Prop :=
  (∀ (i : Instr) (rest : List Byte), i.WellFormed → parts i ≠ none → decodeBytes (codeBytes i ++ rest) = .ok (i, rest)) ∧
  (∀ (bs rest : List Byte) (i : Instr), decodeBytes bs = .ok (i, rest) → i.WellFormed ∧ parts i ≠ none ∧ bs = codeBytes i ++ rest)

/-- R158, R159, R340, R342: an instruction of a level above its pack's takes the privilege fault, code 4, for its whole path, before any
other; one that its word's checks or the pack's register count A refuse takes the illegal-instruction fault, code 5; neither has another
effect.  The level is 2 for the opcode 0xEA, 1 for 0xE0-0xE9, and that of the CSR where `csrr` or `csrw` names one. -/
def Obligations.EncodingFaults : Prop :=
  ∀ (i : Instr) (s : State) (c : Ctx) (opc : Nat) (h : Head) (b : Body), parts i = some (opc, h, b) → issueCtx h s = some c →
    let level : Nat :=
      if opc = 0xEA then 2
      else if 0xE0 ≤ opc ∧ opc ≤ 0xE9 then
        match b with
        | .s o => if (opc = 0xE0 ∨ opc = 0xE1) ∧ o.imm.toNat % 2 ^ 12 ∈ [0x002, 0x004, 0x011, 0x012, 0x014, 0x050, 0x051, 0x052, 0x053,
            0x054, 0x055, 0x056, 0x057] then 2 else 1
        | _ => 1
      else 0
    let takes (code : Nat) : Prop := exec i s = .next (raiseFault s c.pack c.idx (size i == 16) ⟨code, c.act, c.path.pc⟩)
    (c.pack.level < level → takes 4) ∧
    (level ≤ c.pack.level → ((¬ i.WellFormed ∨ ∃ r ∈ namedRegs i, c.pack.regCount ≤ r) → takes 5) ∧
      (i.WellFormed → (∀ r ∈ namedRegs i, r < c.pack.regCount) → encodingFault i c.pack = none))

/-- R24, R34, R43, R66, R142, R159: a step that issues runs the decoded instruction.  `s1` is the quarter's cycle begun, its waits that are
over ended; `p0` the pack chosen from it, `s3` that cycle accounted and the pack's paths put in their slots, and `k` the path chosen: where the
fetch at its PC gives an instruction, the step is `exec` of it with the issue accounted and `cur` naming the path; a fetch fault is the path's
fault; and at machine level the bytes at the PC that decode to a well-formed instruction are what the fetch gives.  A step that takes an event
of the table is `exec` of it, one that lets a lane go on seeing a line changes nothing else, one that serves an outside agent's own access is that
access, and one in which the Collie goes on takes up the first command that waits, and then the next (R421).
Choices of the model that it rests on: logs 3, 4, 5, 18, 54, 59 and 60. -/
def Obligations.StepRunsDecoded : Prop :=
  ∀ (s : State),
    (∀ (core quarter choice : Nat), nextTurn s = .issue core quarter choice → s.power = .on →
      let s1 := openCycle (advance s) core quarter choice
      (choosePack s1 core quarter = none → step s = .next (endCycle s1 core quarter none)) ∧
      ∀ (p0 : Pack) (k : Nat) (q : Path), choosePack s1 core quarter = some p0 →
        let s2 := endCycle s1 core quarter (some p0)
        let p := prepare s2 ((findPack s2 p0.loc).getD p0)
        let s3 := setPack s2 p
        let pc := q.pc.toNat
        choosePath s3 p (choice / 2 ^ 32) = some k → p.paths[k]? = some q →
        (∀ i s', fetchAt s3 p pc = (.instr i, s') → step s = match exec i { account s' p k with cur := some ⟨p.loc, k⟩ } with
          | .next t => .next { t with cur := none }
          | .fault f => .fault f
          | .refused r => .refused r) ∧
        (∀ code x s', fetchAt s3 p pc = (.fault code x, s') → ∃ p', findPack (account s' p k) p.loc = some p' ∧
          step s = .next (raiseFault (account s' p k) p' k x ⟨code, activeMask s3 p q, q.pc⟩)) ∧
        (∀ s', fetchAt s3 p pc = (.stall, s') → step s = .next (heldUp s' p k pc)) ∧
        (∀ i rest, p.level = 2 → pc % 8 = 0 → installedFrame pc 8 = true → pageReady s3 (identityTlb p.part) pc false = true →
          (getCore s3 p.loc.core).line? (pc / 128) true = none → 0 < l1Lines s3 p.loc.core → canonical pc = true →
          decodeBytes (memRead Config.blankByte s3.mem pc 16) = .ok (i, rest) → (size i = 16 → pc % 16 = 0) →
          ∃ s', fetchAt s3 p pc = (.instr i, s') ∧ s'.mem = s3.mem ∧ s'.packs = s3.packs ∧ s'.herds = s3.herds ∧ s'.parts = s3.parts)) ∧
    (∀ core quarter slot lane spad line, nextTurn s = .capture core quarter slot lane spad line → ∃ u, step s = .next u ∧
      u = { advance s with cores := u.cores } ∧ ∀ c, getCore u c = { getCore s c with early := (getCore u c).early }) ∧
    (∀ i, nextTurn s = .event i → (mayHappen (advance s) i = true → step s = exec i (advance s)) ∧
      (mayHappen (advance s) i = false → step s = .next (advance s))) ∧
    (∀ port pa len data, nextTurn s = .agent port pa len data → step s = .next (agentAccess (advance s) port pa len data)) ∧
    (nextTurn s = .collie → (s.aon.cmds = [] → step s = .next (advance s)) ∧
      ∀ c rest, s.aon.cmds = c :: rest → let s0 := advance s
        ∃ u t, performCommand c { s0 with aon := { s0.aon with cmds := [] } } = .next u ∧ step s = .next t ∧ t.aon.cmds = u.aon.cmds ++ rest ∧
          t = { u with aon := { u.aon with cmds := t.aon.cmds }, agenda := t.agenda } ∧
          (rest ≠ [] → u.aon.cmds = [] → t.agenda = u.agenda ++ [.collie]))

/-- WHATEVER THE STATE, a step answers a next state: no fault of the model and no refusal; and it keeps the canonical form of both memories.
Choices of the model that it rests on: logs 3 and 5. -/
def Obligations.StepKeepsMemory : Prop :=
  ∀ (s : State), memWf Config.blankByte s.mem = true → memWf Config.blankByte s.remote = true →
    ∃ s', step s = .next s' ∧ memWf Config.blankByte s'.mem = true ∧ memWf Config.blankByte s'.remote = true

/-- An invariant of every step: registers, predicates and rejoin sets of every pack, the windows of every partition and the ports are as many
as the manual gives, and no die holds two untracked copies of a line (R17, R48, R342, R404, R410).  Other statements assume parts of it.
Choices of the model that it rests on: log 3. -/
def Obligations.StepKeepsShape : Prop := ∀ (s s' : State), s.shaped → step s = .next s' → s'.shaped

/-- R196, R342, R348, R353, R409-R411, R415, R419, R425, R426, R430: what reset leaves, as the manual gives it: no pack runs before firmware,
one layout-0 partition with its CSRs at their reset values, every link down and every lease budget 8192, the log empty; and reset meets both
invariants.  That unlisted memory reads 0, and each value that log 7 lists, is the model's choice (logs 1 and 7). -/
def Obligations.ResetState : Prop :=
  let s := State.reset
  s.shaped ∧ memWf Config.blankByte s.mem = true ∧ memWf Config.blankByte s.remote = true ∧ s.mem = [] ∧ s.clock = 0 ∧ s.power = .on ∧
  s.booted = false ∧ s.packs = [] ∧ s.herds = [] ∧ s.residencies = [] ∧ s.layout = 0 ∧ s.aon.sec = .provisioning ∧ s.aon.log = [] ∧
  s.aon.logSeq = 0 ∧ s.aon.lost = 0 ∧ (∀ p ∈ s.ports, p.up = false ∧ p.opened = false) ∧
  (∀ d < 8, (getDie s d).budget = 8192 ∧ (getDie s d).granted = 0 ∧ (getDie s d).tlb = []) ∧
  ∃ p, s.parts = [p] ∧ p.die0 = 0 ∧ p.dies = 8 ∧ p.featpol = BitVec.allOnes 64 ∧ p.tvec = 0 ∧ p.mroute = 0 ∧ p.hdlcfg = 0x130#32 ∧
    p.bartimeout = 0x0000_0001_0000_0000#64 ∧ p.ptroot = 0 ∧ p.memwin = List.replicate 8 0 ∧ p.dbglvl = 2 ∧ p.armed = [] ∧ p.held = [] ∧
    p.launches = [] ∧ p.slots = [] ∧ p.stopped = false
end

