-- ==== Sys2Proof/Laws/Mem.lean ====
section
/-!
SUPPORT. The laws of byte memory: a read after a write, the bytes a write leaves alone, and the canonical form that every memory operation
keeps.  And the laws of the keyed lists.
-/

namespace Sys2Proof.Machine

/-! ### The canonical form -/

theorem memWf_tail {d : Byte} {c : Host.Cell} {m : List Host.Cell} (h : memWf d (c :: m) = true) : memWf d m = true := by
  cases m with
  | nil => rfl
  | cons e m => simp [memWf] at h; exact h.2

theorem memWf_head {d : Byte} {k : Nat} {v : Byte} {m : List Host.Cell} (h : memWf d ((k, v) :: m) = true) : v ≠ d := by
  cases m with
  | nil => simpa [memWf] using h
  | cons e m => simp [memWf] at h; exact h.1.1

/-- Every address listed after the first one is above it. -/
theorem memWf_above {d : Byte} {k : Nat} {v : Byte} {m : List Host.Cell} (h : memWf d ((k, v) :: m) = true) :
    ∀ c ∈ m, k < c.1 := by
  induction m generalizing k v with
  | nil => simp
  | cons e m ih =>
    obtain ⟨k', v'⟩ := e
    have h1 : k < k' := by simp [memWf] at h; exact h.1.2
    have h2 := ih (memWf_tail h)
    intro c hc
    simp only [List.mem_cons] at hc
    rcases hc with rfl | hc
    · exact h1
    · exact Nat.lt_trans h1 (h2 c hc)

theorem memWf_cons {d : Byte} {k : Nat} {v : Byte} {m : List Host.Cell} (hv : v ≠ d) (hm : memWf d m = true)
    (ha : ∀ c ∈ m, k < c.1) : memWf d ((k, v) :: m) = true := by
  cases m with
  | nil => simpa [memWf] using hv
  | cons e m =>
    obtain ⟨k', v'⟩ := e
    simp only [memWf, Bool.and_eq_true, bne_iff_ne, ne_eq, decide_eq_true_eq]
    exact ⟨⟨hv, ha (k', v') (by simp)⟩, hm⟩

/-- Every address listed after a put was listed before, or is the one put. -/
theorem memPut_mem {d : Byte} {m : List Host.Cell} {a : Nat} {b : Byte} {c : Host.Cell} (h : c ∈ memPut d m a b) :
    c.1 = a ∨ c ∈ m := by
  induction m with
  | nil =>
    simp only [memPut] at h
    split at h <;> simp_all
  | cons e m ih =>
    obtain ⟨k, v⟩ := e
    simp only [memPut] at h
    split at h
    · split at h
      · exact .inr (List.mem_cons_of_mem _ h)
      · rcases List.mem_cons.1 h with rfl | h
        · exact .inl rfl
        · exact .inr (List.mem_cons_of_mem _ h)
    · split at h
      · split at h
        · exact .inr h
        · rcases List.mem_cons.1 h with rfl | h
          · exact .inl rfl
          · exact .inr h
      · rcases List.mem_cons.1 h with rfl | h
        · exact .inr (by simp)
        · rcases ih h with h | h
          · exact .inl h
          · exact .inr (List.mem_cons_of_mem _ h)

/-- A put keeps the canonical form. -/
theorem memPut_wf {d : Byte} {m : List Host.Cell} (h : memWf d m = true) (a : Nat) (b : Byte) : memWf d (memPut d m a b) = true := by
  induction m with
  | nil =>
    simp only [memPut]
    split
    · rfl
    · simp_all [memWf]
  | cons e m ih =>
    obtain ⟨k, v⟩ := e
    have ht := memWf_tail h
    have hab := memWf_above h
    simp only [memPut]
    split
    · rename_i hk
      split
      · exact ht
      · rename_i hb
        have hk' : k = a := by simpa using hk
        exact memWf_cons (by simpa using hb) ht (by subst hk'; exact hab)
    · rename_i hk
      split
      · rename_i hlt
        split
        · exact h
        · rename_i hb
          refine memWf_cons (by simpa using hb) h ?_
          intro c hc
          rcases List.mem_cons.1 hc with rfl | hc
          · exact hlt
          · exact Nat.lt_trans hlt (hab c hc)
      · rename_i hlt
        have hka : k ≠ a := by simpa using hk
        refine memWf_cons (memWf_head h) (ih ht) ?_
        intro c hc
        rcases memPut_mem hc with h' | h'
        · omega
        · exact hab c h'

/-- Every write keeps the canonical form. -/
theorem memWrite_wf {d : Byte} {m : List Host.Cell} (h : memWf d m = true) (a : Nat) (bs : List Byte) :
    memWf d (memWrite d m a bs) = true := by
  induction bs generalizing m a with
  | nil => exact h
  | cons b bs ih => exact ih (memPut_wf h a b) (a + 1)

/-! ### Reading after writing -/

theorem memGet_above {d : Byte} {m : List Host.Cell} {a : Nat} (h : ∀ c ∈ m, a < c.1) : memGet d m a = d := by
  cases m with
  | nil => rfl
  | cons e m =>
    obtain ⟨k, v⟩ := e
    have := h (k, v) (by simp)
    simp only [memGet]
    split
    · simp_all
    · simp_all

/-- A byte put reads back, and every other address reads as before. -/
theorem memGet_memPut {d : Byte} {m : List Host.Cell} (h : memWf d m = true) (a a' : Nat) (b : Byte) :
    memGet d (memPut d m a b) a' = if a' = a then b else memGet d m a' := by
  induction m with
  | nil =>
    by_cases hb : b = d
    · subst hb; simp [memPut, memGet]
    · simp only [memPut, memGet, beq_iff_eq, hb, if_false]
      by_cases ha : a = a'
      · simp [ha]
      · simp [ha, Ne.symm ha]
  | cons e m ih =>
    obtain ⟨k, v⟩ := e
    have ht := memWf_tail h
    have hab := memWf_above h
    have hih := ih ht
    by_cases hka : k = a
    · subst hka
      by_cases hb : b = d
      · subst hb
        simp only [memPut, beq_self_eq_true, if_true]
        by_cases ha : a' = k
        · subst ha
          rw [memGet_above hab]; simp
        · simp only [ha, if_false]
          by_cases hlt : a' < k
          · have h1 : memGet b m a' = b := memGet_above fun c hc => Nat.lt_trans hlt (hab c hc)
            have h2 : (k == a') = false := by simpa using (Ne.symm ha)
            simp [memGet, h1, h2, hlt]
          · have h2 : (k == a') = false := by simpa using (Ne.symm ha)
            simp [memGet, h2, hlt]
      · have hb' : (b == d) = false := by simpa using hb
        simp only [memPut, beq_self_eq_true, if_true, hb', Bool.false_eq_true, if_false, memGet]
        by_cases ha : a' = k
        · simp [ha]
        · have h2 : (k == a') = false := by simpa using (Ne.symm ha)
          simp [h2, ha]
    · have hka' : (k == a) = false := by simpa using hka
      by_cases hlt : a < k
      · by_cases hb : b = d
        · subst hb
          simp only [memPut, hka', Bool.false_eq_true, if_false, hlt, if_true, beq_self_eq_true]
          by_cases ha : a' = a
          · subst ha
            rw [memGet_above]
            · simp
            · intro c hc
              rcases List.mem_cons.1 hc with rfl | hc
              · exact hlt
              · exact Nat.lt_trans hlt (hab c hc)
          · simp [ha]
        · have hb' : (b == d) = false := by simpa using hb
          simp only [memPut, hka', Bool.false_eq_true, if_false, hlt, if_true, hb']
          by_cases ha : a' = a
          · subst ha; simp [memGet]
          · have h2 : (a == a') = false := by simpa using (Ne.symm ha)
            by_cases hl : a' < a
            · have h3 : memGet d ((k, v) :: m) a' = d := memGet_above fun c hc => by
                rcases List.mem_cons.1 hc with rfl | hc
                · exact Nat.lt_trans hl hlt
                · exact Nat.lt_trans (Nat.lt_trans hl hlt) (hab c hc)
              rw [h3]; simp [memGet, h2, ha, hl]
            · rw [if_neg ha]; conv => lhs; rw [memGet]
              simp [h2, hl]
      · simp only [memPut, hka', Bool.false_eq_true, if_false, hlt, memGet]
        by_cases h1 : k = a'
        · subst h1; simp [hka]
        · have h1' : (k == a') = false := by simpa using h1
          simp only [h1', Bool.false_eq_true, if_false]
          by_cases h2 : a' < k
          · simp only [h2, if_true]
            have : a' ≠ a := by omega
            simp [this]
          · simp only [h2, if_false, hih]

/-- A write reads back inside its bytes, and every other address reads as before. -/
theorem memGet_memWrite {d : Byte} {m : List Host.Cell} (h : memWf d m = true) (a a' : Nat) (bs : List Byte) :
    memGet d (memWrite d m a bs) a' = if a ≤ a' ∧ a' < a + bs.length then bs.getD (a' - a) 0 else memGet d m a' := by
  induction bs generalizing m a with
  | nil => simp only [memWrite, List.length_nil]; rw [if_neg (by omega)]
  | cons b bs ih =>
    simp only [memWrite, List.length_cons]
    rw [ih (memPut_wf h a b), memGet_memPut h]
    by_cases h1 : a' = a
    · subst h1; rw [if_neg (by omega), if_pos (by omega)]; simp
    · by_cases h2 : a + 1 ≤ a' ∧ a' < a + 1 + bs.length
      · have h3 : a ≤ a' ∧ a' < a + (bs.length + 1) := by omega
        simp only [h2, h3, and_self, if_true]
        obtain ⟨k, rfl⟩ : ∃ k, a' = a + 1 + k := ⟨a' - (a + 1), by omega⟩
        have e1 : a + 1 + k - (a + 1) = k := by omega
        have e2 : a + 1 + k - a = k + 1 := by omega
        simp [e1, e2]
      · have h3 : ¬ (a ≤ a' ∧ a' < a + (bs.length + 1)) := by omega
        simp only [h2, h3, if_false, h1]

theorem memRead_length (d : Byte) (m : List Host.Cell) (a n : Nat) : (memRead d m a n).length = n := by
  induction n generalizing a with
  | zero => rfl
  | succ n ih => simp [memRead, ih]

theorem memRead_getElem? (d : Byte) (m : List Host.Cell) (a n k : Nat) (hk : k < n) :
    (memRead d m a n)[k]? = some (memGet d m (a + k)) := by
  induction n generalizing a k with
  | zero => omega
  | succ n ih =>
    cases k with
    | zero => simp [memRead]
    | succ k => simp only [memRead, List.getElem?_cons_succ]; rw [ih _ _ (by omega)]; congr 2; omega

/-- What was written is read. -/
theorem memRead_memWrite {d : Byte} {m : List Host.Cell} (h : memWf d m = true) (a : Nat) (bs : List Byte) :
    memRead d (memWrite d m a bs) a bs.length = bs := by
  apply List.ext_getElem?
  intro k
  by_cases hk : k < bs.length
  · rw [memRead_getElem? _ _ _ _ _ hk, memGet_memWrite h]
    have : a ≤ a + k ∧ a + k < a + bs.length := by omega
    simp [this, hk]
  · rw [List.getElem?_eq_none (by rw [memRead_length]; omega), List.getElem?_eq_none (by omega)]

/-! ### Keyed lists -/

theorem updWhere_map {α : Type} (p : α → Bool) (f : α → α) (l : List α) : (updWhere p f l).length = l.length := by
  simp [updWhere]

/-- Where the update keeps the key, the element found by a key is the updated one. -/
theorem find_updWhere {α : Type} (k p : α → Bool) (f : α → α) (l : List α) (h : ∀ x, k (if p x then f x else x) = k x) :
    (updWhere p f l).find? k = (l.find? k).map (fun x => if p x then f x else x) := by
  induction l with
  | nil => rfl
  | cons x l ih =>
    simp only [updWhere, List.map_cons, List.find?_cons, h] at ih ⊢
    cases k x with
    | true => rfl
    | false => exact ih

theorem findPack_loc {s : State} {loc : PackLoc} {p : Pack} (h : findPack s loc = some p) : p.loc = loc := by
  have := List.find?_some h
  simpa using this

/-- The pack put in a slot that holds one is found there. -/
theorem findPack_setPack_same {s : State} {p q : Pack} (h : findPack s p.loc = some q) : findPack (setPack s p) p.loc = some p := by
  have e : (setPack s p).packs.find? (·.loc == p.loc) = _ := find_updWhere (·.loc == p.loc) (·.loc == p.loc) (fun _ => p) s.packs
    (by intro x; by_cases hx : x.loc = p.loc <;> simp [hx])
  unfold findPack at h ⊢
  rw [e, h]
  have := findPack_loc (s := s) (loc := p.loc) (p := q) h
  simp [this]

/-- A pack in another slot is untouched. -/
theorem findPack_setPack_other {s : State} {p : Pack} {loc : PackLoc} (h : loc ≠ p.loc) : findPack (setPack s p) loc = findPack s loc := by
  have e : (setPack s p).packs.find? (·.loc == loc) = _ := find_updWhere (·.loc == loc) (·.loc == p.loc) (fun _ => p) s.packs
    (by intro x; by_cases hx : x.loc = p.loc <;> simp [hx])
  unfold findPack
  rw [e]
  cases hf : s.packs.find? (·.loc == loc) with
  | none => rfl
  | some x =>
    have hx : x.loc = loc := by simpa using List.find?_some hf
    simp [hx, h]

theorem findHerd_setPack (s : State) (p : Pack) (n : Nat) : findHerd (setPack s p) n = findHerd s n := rfl
theorem findPart_setPack (s : State) (p : Pack) (n : Nat) : findPart (setPack s p) n = findPart s n := rfl
theorem findRes_setPack (s : State) (p : Pack) (n : Nat) : findRes (setPack s p) n = findRes s n := rfl
theorem getCore_setPack (s : State) (p : Pack) (n : Nat) : getCore (setPack s p) n = getCore s n := rfl
theorem getDie_setPack (s : State) (p : Pack) (n : Nat) : getDie (setPack s p) n = getDie s n := rfl

theorem findHerd_id {s : State} {n : Nat} {h : Herd} (e : findHerd s n = some h) : h.id = n := by
  simpa using List.find?_some e

theorem findPart_id {s : State} {n : Nat} {p : Partition} (e : findPart s n = some p) : p.id = n := by
  simpa using List.find?_some e

theorem findRes_id {s : State} {n : Nat} {r : Residency} (e : findRes s n = some r) : r.id = n := by
  simpa using List.find?_some e

/-- The herd changed is found changed. -/
theorem findHerd_modHerd {s : State} {n : Nat} {f : Herd → Herd} (hf : ∀ h : Herd, h.id = n → (f h).id = n) :
    findHerd (modHerd s n f) n = (findHerd s n).map f := by
  have e : (modHerd s n f).herds.find? (·.id == n) = _ := find_updWhere (·.id == n) (·.id == n) f s.herds
    (by intro x; by_cases hx : x.id = n <;> simp [hx, hf])
  unfold findHerd
  rw [e]
  cases h : s.herds.find? (·.id == n) with
  | none => rfl
  | some x => have : x.id = n := by simpa using List.find?_some h
              simp [this]

/-- The partition changed is found changed. -/
theorem findPart_modPart {s : State} {n : Nat} {f : Partition → Partition} (hf : ∀ p : Partition, p.id = n → (f p).id = n) :
    findPart (modPart s n f) n = (findPart s n).map f := by
  have e : (modPart s n f).parts.find? (·.id == n) = _ := find_updWhere (·.id == n) (·.id == n) f s.parts
    (by intro x; by_cases hx : x.id = n <;> simp [hx, hf])
  unfold findPart
  rw [e]
  cases h : s.parts.find? (·.id == n) with
  | none => rfl
  | some x => have : x.id = n := by simpa using List.find?_some h
              simp [this]

/-- The residency changed is found changed. -/
theorem findRes_modRes {s : State} {n : Nat} {f : Residency → Residency} (hf : ∀ r : Residency, r.id = n → (f r).id = n) :
    findRes (modRes s n f) n = (findRes s n).map f := by
  have e : (modRes s n f).residencies.find? (·.id == n) = _ := find_updWhere (·.id == n) (·.id == n) f s.residencies
    (by intro x; by_cases hx : x.id = n <;> simp [hx, hf])
  unfold findRes
  rw [e]
  cases h : s.residencies.find? (·.id == n) with
  | none => rfl
  | some x => have : x.id = n := by simpa using List.find?_some h
              simp [this]

/-- The core written is the core read. -/
theorem getCore_setCore (s : State) (c : Core) : getCore (setCore s c) c.id = c := by
  unfold getCore setCore
  by_cases hc : s.cores.any (·.id == c.id) = true
  · simp only [hc, if_true]
    rw [find_updWhere (·.id == c.id) (·.id == c.id) (fun _ => c) s.cores
      (by intro x; by_cases hx : x.id = c.id <;> simp [hx])]
    obtain ⟨x, hx, hx'⟩ := List.any_eq_true.1 hc
    cases hf : s.cores.find? (·.id == c.id) with
    | none => exact absurd hx' (by simpa using List.find?_eq_none.1 hf x hx)
    | some y => have : y.id = c.id := by simpa using List.find?_some hf
                simp [this]
  · simp [hc]

/-- Another core is untouched. -/
theorem getCore_setCore_other (s : State) (c : Core) (n : Nat) (h : n ≠ c.id) : getCore (setCore s c) n = getCore s n := by
  unfold getCore setCore
  have e : (updWhere (·.id == c.id) (fun _ => c) s.cores).find? (·.id == n) = s.cores.find? (·.id == n) := by
    rw [find_updWhere (·.id == n) (·.id == c.id) (fun _ => c) s.cores
      (by intro x; by_cases hx : x.id = c.id <;> simp [hx])]
    cases hf : s.cores.find? (·.id == n) with
    | none => rfl
    | some y => have : y.id = n := by simpa using List.find?_some hf
                simp [this, h]
  by_cases hc : s.cores.any (·.id == c.id) = true
  · simp only [hc, if_true, e]
  · simp only [hc, Bool.false_eq_true, if_false]
    rw [List.find?_cons]
    have : (c.id == n) = false := by simpa using Ne.symm h
    simp [this]

theorem getCore_id (s : State) (n : Nat) : (getCore s n).id = n := by
  unfold getCore
  cases hf : s.cores.find? (·.id == n) with
  | none => rfl
  | some y => simpa using List.find?_some hf

/-- The core changed is the core read. -/
theorem getCore_modCore (s : State) (n : Nat) (f : Core → Core) (hf : ∀ c : Core, (f c).id = c.id) :
    getCore (modCore s n f) n = f (getCore s n) := by
  have h : (f (getCore s n)).id = n := by rw [hf, getCore_id]
  have e := getCore_setCore s (f (getCore s n))
  rw [h] at e
  exact e

end Sys2Proof.Machine
end

