-- ==== Sys2Proof/Laws/Pack.lean ====
section
/-!
SUPPORT. What each operation on a pack does: registers and predicates written, a path retired, and everything they leave alone.
-/

namespace Sys2Proof.Machine

/-! ### Lane vectors and masks -/

@[simp] theorem lanes_get_tab {α : Type} (d : α) (f : Nat → α) (l : Nat) (h : l < 64) : Lanes.get d (Lanes.tab f) l = f l := by
  simp [Lanes.get, Lanes.tab, allLanes, h]

theorem lanes_tab_length {α : Type} (f : Nat → α) : (Lanes.tab f).length = 64 := by simp [Lanes.tab, allLanes]

/-- A mask holds exactly the lanes for which its predicate holds. -/
theorem has_ofPred (f : Nat → Bool) (l : Nat) (h : l < 64) : (Mask.ofPred f).has l = f l := by
  have key : ∀ n, n ≤ 64 → ∀ l, ((List.range n).foldr (fun l acc => if f l then acc ||| (1#64 <<< l) else acc) 0#64).getLsbD l
      = (decide (l < n) && f l) := by
    intro n
    have gen : ∀ (ls : List Nat), (∀ x ∈ ls, x < 64) → ∀ l,
        (ls.foldr (fun l acc => if f l then acc ||| (1#64 <<< l) else acc) 0#64).getLsbD l = (decide (l ∈ ls) && f l) := by
      intro ls
      induction ls with
      | nil => simp
      | cons x ls ih =>
        intro hx l
        have hx64 : x < 64 := hx x (by simp)
        have ih' := ih (fun y hy => hx y (by simp [hy])) l
        simp only [List.foldr_cons]
        by_cases hf : f x = true
        · simp only [hf, if_true, BitVec.getLsbD_or, ih', BitVec.getLsbD_shiftLeft, BitVec.getLsbD_one]
          by_cases hlx : l = x
          · subst hlx; simp [hf, hx64]
          · simp only [List.mem_cons, hlx, false_or]
            by_cases h64 : l < 64
            · by_cases hlt : l < x
              · simp [hlt]
              · have : (l - x == 0) = false := by simp; omega
                have h' : ¬ (l - x = 0) := by omega
                simp [h']
            · simp [h64]
        · simp only [hf, Bool.false_eq_true, if_false, ih', List.mem_cons]
          by_cases hlx : l = x
          · subst hlx; simp [hf]
          · simp [hlx]
    intro hn l
    rw [gen (List.range n) (by intro x hx; simp at hx; omega) l]
    simp
  have := key 64 (Nat.le_refl _) l
  simpa [Mask.has, Mask.ofPred, allLanes, laneCount, h] using this

/-- The lanes of a mask, in ascending order. -/
theorem mem_lanes (m : Mask) (l : Nat) : l ∈ Mask.lanes m ↔ l < 64 ∧ m.has l = true := by
  simp [Mask.lanes, allLanes, Mask.has]

/-! ### Registers -/

theorem reg_writeReg_same (p : Pack) (r : Nat) (m : Mask) (f : Nat → Word) (l : Nat) (hl : l < 64) (hr : r < p.regs.length) :
    (p.writeReg r m f).reg r l = if m.has l then f l else p.reg r l := by
  simp [Pack.reg, Pack.writeReg, hr, hl]

theorem reg_writeReg_other (p : Pack) (r r' : Nat) (m : Mask) (f : Nat → Word) (l : Nat) (h : r' ≠ r) :
    (p.writeReg r m f).reg r' l = p.reg r' l := by
  simp [Pack.reg, Pack.writeReg, List.getD_eq_getElem?_getD, Ne.symm h]

/-- A lane outside the mask keeps its register, whatever its number. -/
theorem reg_writeReg_unmasked (p : Pack) (r r' : Nat) (m : Mask) (f : Nat → Word) (l : Nat) (hl : l < 64) (h : m.has l = false) :
    (p.writeReg r m f).reg r' l = p.reg r' l := by
  by_cases hr : r' = r
  · subst hr
    by_cases hlen : r' < p.regs.length
    · rw [reg_writeReg_same p r' m f l hl hlen]; simp [h]
    · simp [Pack.reg, Pack.writeReg, List.getD_eq_getElem?_getD, hlen]
  · exact reg_writeReg_other p r r' m f l hr

@[simp] theorem writeReg_regs_length (p : Pack) (r : Nat) (m : Mask) (f : Nat → Word) :
    (p.writeReg r m f).regs.length = p.regs.length := by simp [Pack.writeReg]

@[simp] theorem pred_writeReg (p : Pack) (r : Nat) (m : Mask) (f : Nat → Word) (k l : Nat) :
    (p.writeReg r m f).pred k l = p.pred k l := rfl

@[simp] theorem writeReg_paths (p : Pack) (r : Nat) (m : Mask) (f : Nat → Word) : (p.writeReg r m f).paths = p.paths := rfl
@[simp] theorem writeReg_loc (p : Pack) (r : Nat) (m : Mask) (f : Nat → Word) : (p.writeReg r m f).loc = p.loc := rfl
@[simp] theorem writeReg_sto (p : Pack) (r : Nat) (m : Mask) (f : Nat → Word) : (p.writeReg r m f).sto = p.sto := rfl
@[simp] theorem writePair_paths (p : Pack) (r : Nat) (m : Mask) (f : Nat → Quad) : (p.writePair r m f).paths = p.paths := rfl
@[simp] theorem writePair_loc (p : Pack) (r : Nat) (m : Mask) (f : Nat → Quad) : (p.writePair r m f).loc = p.loc := rfl
@[simp] theorem writeQuad_paths (p : Pack) (r : Nat) (m : Mask) (f : Nat → List Word) : (p.writeQuad r m f).paths = p.paths := rfl
@[simp] theorem writeQuad_loc (p : Pack) (r : Nat) (m : Mask) (f : Nat → List Word) : (p.writeQuad r m f).loc = p.loc := rfl
@[simp] theorem writePred_paths (p : Pack) (r : Nat) (m : Mask) (f : Nat → Bool) : (p.writePred r m f).paths = p.paths := rfl
@[simp] theorem writePred_loc (p : Pack) (r : Nat) (m : Mask) (f : Nat → Bool) : (p.writePred r m f).loc = p.loc := rfl

theorem writeT_paths (p : Pack) (t : Nat) (r : Reg) (m : Mask) (f : Nat → Nat) : (p.writeT t r m f).paths = p.paths := by
  unfold Pack.writeT; split <;> rfl
theorem writeT_loc (p : Pack) (t : Nat) (r : Reg) (m : Mask) (f : Nat → Nat) : (p.writeT t r m f).loc = p.loc := by
  unfold Pack.writeT; split <;> rfl

/-! ### Predicates -/

theorem pred_writePred_same (p : Pack) (k : Nat) (m : Mask) (f : Nat → Bool) (l : Nat) (hl : l < 64) (hk : k < 7)
    (hp : p.preds.length = 7) : (p.writePred k m f).pred k l = if m.has l then f l else p.pred k l := by
  have h7 : ¬ (7 ≤ k) := by omega
  have hf := has_ofPred f l hl
  simp only [Mask.has] at hf
  simp only [Pack.pred, Pack.writePred, ge_iff_le, h7, if_false, Mask.has]
  rw [List.getD_eq_getElem?_getD, List.getElem?_set_self (by omega)]
  simp only [Option.getD_some, BitVec.getLsbD_or, BitVec.getLsbD_and, BitVec.getLsbD_not, hl, hf, decide_true, Bool.true_and]
  cases m.getLsbD l <;> simp

theorem pred_writePred_other (p : Pack) (k k' : Nat) (m : Mask) (f : Nat → Bool) (l : Nat) (h : k' ≠ k) :
    (p.writePred k m f).pred k' l = p.pred k' l := by
  simp only [Pack.pred, Pack.writePred]
  split
  · rfl
  · split
    · rfl
    · simp [List.getD_eq_getElem?_getD, Ne.symm h]

theorem pred_writePred_unmasked (p : Pack) (k k' : Nat) (m : Mask) (f : Nat → Bool) (l : Nat) (hl : l < 64) (h : m.has l = false) :
    (p.writePred k m f).pred k' l = p.pred k' l := by
  by_cases hk : k' = k
  · subst hk
    simp only [Pack.pred, Pack.writePred]
    split
    · rfl
    · by_cases hlen : k' < p.preds.length
      · rw [List.getD_eq_getElem?_getD, List.getElem?_set_self hlen]
        simp only [Mask.has] at h
        simp only [Option.getD_some, Mask.has, BitVec.getLsbD_or, BitVec.getLsbD_and, BitVec.getLsbD_not, h, hl, decide_true]
        simp
      · simp [List.getD_eq_getElem?_getD, hlen]
  · exact pred_writePred_other p k k' m f l hk

@[simp] theorem reg_writePred (p : Pack) (k : Nat) (m : Mask) (f : Nat → Bool) (r l : Nat) :
    (p.writePred k m f).reg r l = p.reg r l := rfl

/-! ### What a pack keeps -/

theorem KeepsRest.refl (rs ks : List Nat) (m : Mask) (p : Pack) : KeepsRest rs ks m p p :=
  ⟨fun _ _ _ _ => rfl, fun _ _ _ _ => rfl, fun _ _ _ => rfl, fun _ _ h => h, rfl⟩

/-- A write of a listed register in the mask's lanes keeps the rest. -/
theorem KeepsRest.writeReg {rs ks : List Nat} {m : Mask} {p p' : Pack} (h : KeepsRest rs ks m p p') {r : Nat} (hr : r ∈ rs)
    (f : Nat → Word) : KeepsRest rs ks m p (p'.writeReg r m f) where
  regs r' l hl hout := by
    rw [← h.regs r' l hl hout]
    rcases hout with hn | hm
    · exact reg_writeReg_other _ _ _ _ _ _ (fun e => hn (e ▸ hr))
    · exact reg_writeReg_unmasked _ _ _ _ _ _ hl hm
  preds k l hl hout := h.preds k l hl hout
  sto l hl hm := h.sto l hl hm
  errs r' l hb := h.errs r' l (List.mem_filter.1 hb).1
  rest := by have e := h.rest; rw [e]; rfl

theorem KeepsRest.writePred {rs ks : List Nat} {m : Mask} {p p' : Pack} (h : KeepsRest rs ks m p p') {k : Nat} (hk : k ∈ ks)
    (f : Nat → Bool) : KeepsRest rs ks m p (p'.writePred k m f) where
  regs r l hl hout := h.regs r l hl hout
  preds k' l hl hout := by
    rw [← h.preds k' l hl hout]
    rcases hout with hn | hm
    · exact pred_writePred_other _ _ _ _ _ _ (fun e => hn (e ▸ hk))
    · exact pred_writePred_unmasked _ _ _ _ _ _ hl hm
  sto l hl hm := h.sto l hl hm
  errs r' l hb := h.errs r' l hb
  rest := by have e := h.rest; rw [e]; rfl

theorem KeepsRest.writePair {rs ks : List Nat} {m : Mask} {p p' : Pack} (h : KeepsRest rs ks m p p') {r : Nat} (hr : r ∈ rs)
    (hr' : r + 1 ∈ rs) (f : Nat → Quad) : KeepsRest rs ks m p (p'.writePair r m f) :=
  (h.writeReg hr _).writeReg hr' _

theorem KeepsRest.writeQuad {rs ks : List Nat} {m : Mask} {p p' : Pack} (h : KeepsRest rs ks m p p') {r : Nat} (h0 : r ∈ rs)
    (h1 : r + 1 ∈ rs) (h2 : r + 2 ∈ rs) (h3 : r + 3 ∈ rs) (f : Nat → List Word) : KeepsRest rs ks m p (p'.writeQuad r m f) :=
  (((h.writeReg h0 _).writeReg h1 _).writeReg h2 _).writeReg h3 _

theorem KeepsRest.writeT {rs ks : List Nat} {m : Mask} {p p' : Pack} (h : KeepsRest rs ks m p p') {t : Nat} {r : Reg}
    (hr : ∀ x ∈ (wr (tcls t) r).regs, x ∈ rs) (f : Nat → Nat) : KeepsRest rs ks m p (p'.writeT t r m f) := by
  unfold Pack.writeT
  cases hw : wide t with
  | true =>
    simp only [if_true]
    simp only [Opnd.regs, wr, tcls, hw, if_true, OpClass.regCount, List.range_succ, List.range_zero] at hr
    exact h.writePair (hr _ (by simp)) (hr _ (by simp)) _
  | false =>
    simp only [Bool.false_eq_true, if_false]
    simp only [Opnd.regs, wr, tcls, hw, OpClass.regCount] at hr
    exact h.writeReg (hr _ (by simp)) _

theorem KeepsRest.setSto {rs ks : List Nat} {m : Mask} {p p' : Pack} (h : KeepsRest rs ks m p p') (f : Nat → Word) :
    KeepsRest rs ks m p { p' with sto := Lanes.tab fun l => if m.has l then f l else Lanes.get 0#32 p.sto l } where
  regs := h.regs
  preds := h.preds
  sto l hl hm := by simp [hl, hm]
  errs := h.errs
  rest := by have e := h.rest; rw [e]

/-- A change of a pack's paths keeps the rest. -/
theorem KeepsRest.setPaths {rs ks : List Nat} {m : Mask} {p p' : Pack} (h : KeepsRest rs ks m p p') (qs : List Path) (n : Nat) :
    KeepsRest rs ks m p { p' with paths := qs, qnext := n } where
  regs := h.regs
  preds := h.preds
  sto := h.sto
  errs := h.errs
  rest := by have e := h.rest; rw [e]

/-! ### Slots, and the end of an instruction -/

/-- The fields of a path that a change of slots leaves alone. -/
def Path.core (q : Path) : Quad × Mask × Wait × Nat × Option Nat := (q.pc, q.mask, q.wait, q.wbase, q.wfrom)

theorem map_core_modify (ps : List Path) (i : Nat) (f : Path → Path) (hf : ∀ q, (f q).core = q.core) :
    (ps.modify i f).map Path.core = ps.map Path.core := by
  apply List.ext_getElem?
  intro j
  simp only [List.getElem?_map, List.getElem?_modify]
  cases ps[j]? with
  | none => rfl
  | some q => by_cases h : i = j <;> simp [h, hf]

/-- Two packs that differ in slots and queue order alone. -/
def SameButSlots (p p' : Pack) : Prop :=
  p' = { p with paths := p'.paths, qnext := p'.qnext } ∧ p'.paths.map Path.core = p.paths.map Path.core

theorem SameButSlots.refl (p : Pack) : SameButSlots p p := ⟨rfl, rfl⟩

theorem SameButSlots.trans {p q r : Pack} (h : SameButSlots p q) (h' : SameButSlots q r) : SameButSlots p r := by
  refine ⟨?_, h'.2.trans h.2⟩
  have e := h.1
  have e' := h'.1
  rw [e'] ; rw [e]

theorem fillSlot_same (p : Pack) (k : Nat) : SameButSlots p (p.fillSlot k) := by
  unfold Pack.fillSlot
  split
  · exact SameButSlots.refl p
  · split
    · exact ⟨rfl, map_core_modify _ _ _ fun _ => rfl⟩
    · exact SameButSlots.refl p

theorem fillSlots_same (p : Pack) : SameButSlots p p.fillSlots := by
  unfold Pack.fillSlots
  exact (((fillSlot_same p 0).trans (fillSlot_same _ 1)).trans (fillSlot_same _ 2)).trans (fillSlot_same _ 3)

theorem unslot_same (p : Pack) (i : Nat) : SameButSlots p (p.unslot i) :=
  ⟨rfl, map_core_modify _ _ _ fun _ => rfl⟩

theorem yieldSlot_same (p : Pack) (i : Nat) : SameButSlots p (p.yieldSlot i) := by
  unfold Pack.yieldSlot
  split
  · exact SameButSlots.refl p
  · exact (unslot_same p i).trans (fillSlots_same _)

/-- The retired pack, slots apart. -/
theorem retire_same (p : Pack) (i : Instr) (c : Ctx) :
    SameButSlots (p.modPath c.idx fun q => { q with pc := nextPc i c, wait := .run, wbase := 0, wfrom := none }) (p.retire i c) := by
  unfold Pack.retire
  split
  · exact yieldSlot_same _ _
  · exact SameButSlots.refl _

theorem SameButSlots.keeps {rs ks : List Nat} {m : Mask} {p q r : Pack} (h : KeepsRest rs ks m p q) (h' : SameButSlots q r) :
    KeepsRest rs ks m p r := by
  rw [h'.1]; exact h.setPaths _ _

/-- Retiring keeps everything but the paths. -/
theorem KeepsRest.retire {rs ks : List Nat} {m : Mask} {p p' : Pack} (h : KeepsRest rs ks m p p') (i : Instr) (c : Ctx) :
    KeepsRest rs ks m p (p'.retire i c) :=
  SameButSlots.keeps (h.setPaths _ p'.qnext) (retire_same p' i c)

theorem core_get {ps qs : List Path} (h : ps.map Path.core = qs.map Path.core) (j : Nat) :
    (ps[j]?).map Path.core = (qs[j]?).map Path.core := by
  rw [← List.getElem?_map, h, List.getElem?_map]

/-- A pack whose paths are those of `p` and which then retires has advanced. -/
theorem advanced_retire {p p' : Pack} (h : p'.paths = p.paths) (i : Instr) (c : Ctx) : Advanced i c p (p'.retire i c) := by
  have hs := retire_same p' i c
  have hlen : (p'.retire i c).paths.length = p.paths.length := by
    have := congrArg List.length hs.2
    simpa [Pack.modPath, h] using this
  refine ⟨hlen, ?_, ?_, ?_⟩
  · have e := core_get hs.2 c.idx
    simp only [Pack.modPath, h, List.getElem?_modify, if_true] at e
    cases hq : p.paths[c.idx]? with
    | none => simp [hq] at e ⊢; exact e
    | some q =>
      simp only [hq, Option.map_eq_map, Option.map_some] at e
      cases hr : (p'.retire i c).paths[c.idx]? with
      | none => simp [hr] at e
      | some q' =>
        simp only [hr, Option.map_some, Option.some.injEq, Path.core, Prod.mk.injEq] at e
        simp [e]
  · intro j hj
    have e := core_get hs.2 j
    simp only [Pack.modPath, h] at e
    simp only [List.getElem?_modify, Ne.symm hj, if_false, Option.map_eq_map, Option.map_id_fun', id_eq] at e
    exact e
  · intro hy
    simp only [Pack.retire, hy, Bool.false_eq_true, if_false, Pack.modPath, h]
    apply List.ext_getElem?
    intro j
    simp only [List.getElem?_map, List.getElem?_modify]
    cases p.paths[j]? with
    | none => rfl
    | some q => by_cases hh : c.idx = j <;> simp [hh]

@[simp] theorem retire_loc (p : Pack) (i : Instr) (c : Ctx) : (p.retire i c).loc = p.loc := by
  rw [(retire_same p i c).1]; rfl
@[simp] theorem retire_reg (p : Pack) (i : Instr) (c : Ctx) (r l : Nat) : (p.retire i c).reg r l = p.reg r l := by
  rw [(retire_same p i c).1]; rfl
@[simp] theorem retire_pred (p : Pack) (i : Instr) (c : Ctx) (k l : Nat) : (p.retire i c).pred k l = p.pred k l := by
  rw [(retire_same p i c).1]; rfl
@[simp] theorem retire_sto (p : Pack) (i : Instr) (c : Ctx) : (p.retire i c).sto = p.sto := by
  rw [(retire_same p i c).1]; rfl

end Sys2Proof.Machine
end

