-- ==== Sys2Proof/Laws/State.lean ====
section
/-!
SUPPORT. The fields of State after each of its updates: one lemma for each field and update, so that no proof unfolds a record update.
-/

namespace Sys2Proof.Machine

/-! ### `setPack` -/

@[simp] theorem setPack_tick (s : State) (p : Pack) : (setPack s p).tick = s.tick := rfl
@[simp] theorem setPack_fresh (s : State) (p : Pack) : (setPack s p).fresh = s.fresh := rfl
@[simp] theorem setPack_agenda (s : State) (p : Pack) : (setPack s p).agenda = s.agenda := rfl
@[simp] theorem setPack_cur (s : State) (p : Pack) : (setPack s p).cur = s.cur := rfl
@[simp] theorem setPack_clock (s : State) (p : Pack) : (setPack s p).clock = s.clock := rfl
@[simp] theorem setPack_power (s : State) (p : Pack) : (setPack s p).power = s.power := rfl
@[simp] theorem setPack_quietSince (s : State) (p : Pack) : (setPack s p).quietSince = s.quietSince := rfl
@[simp] theorem setPack_booted (s : State) (p : Pack) : (setPack s p).booted = s.booted := rfl
@[simp] theorem setPack_imageSvn (s : State) (p : Pack) : (setPack s p).imageSvn = s.imageSvn := rfl
@[simp] theorem setPack_imageDigest (s : State) (p : Pack) : (setPack s p).imageDigest = s.imageDigest := rfl
@[simp] theorem setPack_mem (s : State) (p : Pack) : (setPack s p).mem = s.mem := rfl
@[simp] theorem setPack_poison (s : State) (p : Pack) : (setPack s p).poison = s.poison := rfl
@[simp] theorem setPack_heads (s : State) (p : Pack) : (setPack s p).heads = s.heads := rfl
@[simp] theorem setPack_remote (s : State) (p : Pack) : (setPack s p).remote = s.remote := rfl
@[simp] theorem setPack_near (s : State) (p : Pack) : (setPack s p).near = s.near := rfl
@[simp] theorem setPack_scCopies (s : State) (p : Pack) : (setPack s p).scCopies = s.scCopies := rfl
@[simp] theorem setPack_pages (s : State) (p : Pack) : (setPack s p).pages = s.pages := rfl
@[simp] theorem setPack_handOvers (s : State) (p : Pack) : (setPack s p).handOvers = s.handOvers := rfl
@[simp] theorem setPack_waiting (s : State) (p : Pack) : (setPack s p).waiting = s.waiting := rfl
@[simp] theorem setPack_remotePages (s : State) (p : Pack) : (setPack s p).remotePages = s.remotePages := rfl
@[simp] theorem setPack_cores (s : State) (p : Pack) : (setPack s p).cores = s.cores := rfl
@[simp] theorem setPack_quarters (s : State) (p : Pack) : (setPack s p).quarters = s.quarters := rfl
@[simp] theorem setPack_dies (s : State) (p : Pack) : (setPack s p).dies = s.dies := rfl
@[simp] theorem setPack_packs (s : State) (p : Pack) : (setPack s p).packs = updWhere (·.loc == p.loc) (fun _ => p) s.packs := rfl
@[simp] theorem setPack_herds (s : State) (p : Pack) : (setPack s p).herds = s.herds := rfl
@[simp] theorem setPack_nextId (s : State) (p : Pack) : (setPack s p).nextId = s.nextId := rfl
@[simp] theorem setPack_residencies (s : State) (p : Pack) : (setPack s p).residencies = s.residencies := rfl
@[simp] theorem setPack_resImages (s : State) (p : Pack) : (setPack s p).resImages = s.resImages := rfl
@[simp] theorem setPack_layout (s : State) (p : Pack) : (setPack s p).layout = s.layout := rfl
@[simp] theorem setPack_parts (s : State) (p : Pack) : (setPack s p).parts = s.parts := rfl
@[simp] theorem setPack_ports (s : State) (p : Pack) : (setPack s p).ports = s.ports := rfl
@[simp] theorem setPack_aon (s : State) (p : Pack) : (setPack s p).aon = s.aon := rfl

/-! ### `modHerd` -/

@[simp] theorem modHerd_tick (s : State) (n : Nat) (f : Herd → Herd) : (modHerd s n f).tick = s.tick := rfl
@[simp] theorem modHerd_fresh (s : State) (n : Nat) (f : Herd → Herd) : (modHerd s n f).fresh = s.fresh := rfl
@[simp] theorem modHerd_agenda (s : State) (n : Nat) (f : Herd → Herd) : (modHerd s n f).agenda = s.agenda := rfl
@[simp] theorem modHerd_cur (s : State) (n : Nat) (f : Herd → Herd) : (modHerd s n f).cur = s.cur := rfl
@[simp] theorem modHerd_clock (s : State) (n : Nat) (f : Herd → Herd) : (modHerd s n f).clock = s.clock := rfl
@[simp] theorem modHerd_power (s : State) (n : Nat) (f : Herd → Herd) : (modHerd s n f).power = s.power := rfl
@[simp] theorem modHerd_quietSince (s : State) (n : Nat) (f : Herd → Herd) : (modHerd s n f).quietSince = s.quietSince := rfl
@[simp] theorem modHerd_booted (s : State) (n : Nat) (f : Herd → Herd) : (modHerd s n f).booted = s.booted := rfl
@[simp] theorem modHerd_imageSvn (s : State) (n : Nat) (f : Herd → Herd) : (modHerd s n f).imageSvn = s.imageSvn := rfl
@[simp] theorem modHerd_imageDigest (s : State) (n : Nat) (f : Herd → Herd) : (modHerd s n f).imageDigest = s.imageDigest := rfl
@[simp] theorem modHerd_mem (s : State) (n : Nat) (f : Herd → Herd) : (modHerd s n f).mem = s.mem := rfl
@[simp] theorem modHerd_poison (s : State) (n : Nat) (f : Herd → Herd) : (modHerd s n f).poison = s.poison := rfl
@[simp] theorem modHerd_heads (s : State) (n : Nat) (f : Herd → Herd) : (modHerd s n f).heads = s.heads := rfl
@[simp] theorem modHerd_remote (s : State) (n : Nat) (f : Herd → Herd) : (modHerd s n f).remote = s.remote := rfl
@[simp] theorem modHerd_near (s : State) (n : Nat) (f : Herd → Herd) : (modHerd s n f).near = s.near := rfl
@[simp] theorem modHerd_scCopies (s : State) (n : Nat) (f : Herd → Herd) : (modHerd s n f).scCopies = s.scCopies := rfl
@[simp] theorem modHerd_pages (s : State) (n : Nat) (f : Herd → Herd) : (modHerd s n f).pages = s.pages := rfl
@[simp] theorem modHerd_handOvers (s : State) (n : Nat) (f : Herd → Herd) : (modHerd s n f).handOvers = s.handOvers := rfl
@[simp] theorem modHerd_waiting (s : State) (n : Nat) (f : Herd → Herd) : (modHerd s n f).waiting = s.waiting := rfl
@[simp] theorem modHerd_remotePages (s : State) (n : Nat) (f : Herd → Herd) : (modHerd s n f).remotePages = s.remotePages := rfl
@[simp] theorem modHerd_cores (s : State) (n : Nat) (f : Herd → Herd) : (modHerd s n f).cores = s.cores := rfl
@[simp] theorem modHerd_quarters (s : State) (n : Nat) (f : Herd → Herd) : (modHerd s n f).quarters = s.quarters := rfl
@[simp] theorem modHerd_dies (s : State) (n : Nat) (f : Herd → Herd) : (modHerd s n f).dies = s.dies := rfl
@[simp] theorem modHerd_packs (s : State) (n : Nat) (f : Herd → Herd) : (modHerd s n f).packs = s.packs := rfl
@[simp] theorem modHerd_herds (s : State) (n : Nat) (f : Herd → Herd) : (modHerd s n f).herds = updWhere (·.id == n) f s.herds := rfl
@[simp] theorem modHerd_nextId (s : State) (n : Nat) (f : Herd → Herd) : (modHerd s n f).nextId = s.nextId := rfl
@[simp] theorem modHerd_residencies (s : State) (n : Nat) (f : Herd → Herd) : (modHerd s n f).residencies = s.residencies := rfl
@[simp] theorem modHerd_resImages (s : State) (n : Nat) (f : Herd → Herd) : (modHerd s n f).resImages = s.resImages := rfl
@[simp] theorem modHerd_layout (s : State) (n : Nat) (f : Herd → Herd) : (modHerd s n f).layout = s.layout := rfl
@[simp] theorem modHerd_parts (s : State) (n : Nat) (f : Herd → Herd) : (modHerd s n f).parts = s.parts := rfl
@[simp] theorem modHerd_ports (s : State) (n : Nat) (f : Herd → Herd) : (modHerd s n f).ports = s.ports := rfl
@[simp] theorem modHerd_aon (s : State) (n : Nat) (f : Herd → Herd) : (modHerd s n f).aon = s.aon := rfl

/-! ### `modRes` -/

@[simp] theorem modRes_tick (s : State) (n : Nat) (f : Residency → Residency) : (modRes s n f).tick = s.tick := rfl
@[simp] theorem modRes_fresh (s : State) (n : Nat) (f : Residency → Residency) : (modRes s n f).fresh = s.fresh := rfl
@[simp] theorem modRes_agenda (s : State) (n : Nat) (f : Residency → Residency) : (modRes s n f).agenda = s.agenda := rfl
@[simp] theorem modRes_cur (s : State) (n : Nat) (f : Residency → Residency) : (modRes s n f).cur = s.cur := rfl
@[simp] theorem modRes_clock (s : State) (n : Nat) (f : Residency → Residency) : (modRes s n f).clock = s.clock := rfl
@[simp] theorem modRes_power (s : State) (n : Nat) (f : Residency → Residency) : (modRes s n f).power = s.power := rfl
@[simp] theorem modRes_quietSince (s : State) (n : Nat) (f : Residency → Residency) : (modRes s n f).quietSince = s.quietSince := rfl
@[simp] theorem modRes_booted (s : State) (n : Nat) (f : Residency → Residency) : (modRes s n f).booted = s.booted := rfl
@[simp] theorem modRes_imageSvn (s : State) (n : Nat) (f : Residency → Residency) : (modRes s n f).imageSvn = s.imageSvn := rfl
@[simp] theorem modRes_imageDigest (s : State) (n : Nat) (f : Residency → Residency) : (modRes s n f).imageDigest = s.imageDigest := rfl
@[simp] theorem modRes_mem (s : State) (n : Nat) (f : Residency → Residency) : (modRes s n f).mem = s.mem := rfl
@[simp] theorem modRes_poison (s : State) (n : Nat) (f : Residency → Residency) : (modRes s n f).poison = s.poison := rfl
@[simp] theorem modRes_heads (s : State) (n : Nat) (f : Residency → Residency) : (modRes s n f).heads = s.heads := rfl
@[simp] theorem modRes_remote (s : State) (n : Nat) (f : Residency → Residency) : (modRes s n f).remote = s.remote := rfl
@[simp] theorem modRes_near (s : State) (n : Nat) (f : Residency → Residency) : (modRes s n f).near = s.near := rfl
@[simp] theorem modRes_scCopies (s : State) (n : Nat) (f : Residency → Residency) : (modRes s n f).scCopies = s.scCopies := rfl
@[simp] theorem modRes_pages (s : State) (n : Nat) (f : Residency → Residency) : (modRes s n f).pages = s.pages := rfl
@[simp] theorem modRes_handOvers (s : State) (n : Nat) (f : Residency → Residency) : (modRes s n f).handOvers = s.handOvers := rfl
@[simp] theorem modRes_waiting (s : State) (n : Nat) (f : Residency → Residency) : (modRes s n f).waiting = s.waiting := rfl
@[simp] theorem modRes_remotePages (s : State) (n : Nat) (f : Residency → Residency) : (modRes s n f).remotePages = s.remotePages := rfl
@[simp] theorem modRes_cores (s : State) (n : Nat) (f : Residency → Residency) : (modRes s n f).cores = s.cores := rfl
@[simp] theorem modRes_quarters (s : State) (n : Nat) (f : Residency → Residency) : (modRes s n f).quarters = s.quarters := rfl
@[simp] theorem modRes_dies (s : State) (n : Nat) (f : Residency → Residency) : (modRes s n f).dies = s.dies := rfl
@[simp] theorem modRes_packs (s : State) (n : Nat) (f : Residency → Residency) : (modRes s n f).packs = s.packs := rfl
@[simp] theorem modRes_herds (s : State) (n : Nat) (f : Residency → Residency) : (modRes s n f).herds = s.herds := rfl
@[simp] theorem modRes_nextId (s : State) (n : Nat) (f : Residency → Residency) : (modRes s n f).nextId = s.nextId := rfl
@[simp] theorem modRes_residencies (s : State) (n : Nat) (f : Residency → Residency) : (modRes s n f).residencies = updWhere (·.id == n) f s.residencies := rfl
@[simp] theorem modRes_resImages (s : State) (n : Nat) (f : Residency → Residency) : (modRes s n f).resImages = s.resImages := rfl
@[simp] theorem modRes_layout (s : State) (n : Nat) (f : Residency → Residency) : (modRes s n f).layout = s.layout := rfl
@[simp] theorem modRes_parts (s : State) (n : Nat) (f : Residency → Residency) : (modRes s n f).parts = s.parts := rfl
@[simp] theorem modRes_ports (s : State) (n : Nat) (f : Residency → Residency) : (modRes s n f).ports = s.ports := rfl
@[simp] theorem modRes_aon (s : State) (n : Nat) (f : Residency → Residency) : (modRes s n f).aon = s.aon := rfl

/-! ### `setCore` -/

@[simp] theorem setCore_tick (s : State) (c : Core) : (setCore s c).tick = s.tick := rfl
@[simp] theorem setCore_fresh (s : State) (c : Core) : (setCore s c).fresh = s.fresh := rfl
@[simp] theorem setCore_agenda (s : State) (c : Core) : (setCore s c).agenda = s.agenda := rfl
@[simp] theorem setCore_cur (s : State) (c : Core) : (setCore s c).cur = s.cur := rfl
@[simp] theorem setCore_clock (s : State) (c : Core) : (setCore s c).clock = s.clock := rfl
@[simp] theorem setCore_power (s : State) (c : Core) : (setCore s c).power = s.power := rfl
@[simp] theorem setCore_quietSince (s : State) (c : Core) : (setCore s c).quietSince = s.quietSince := rfl
@[simp] theorem setCore_booted (s : State) (c : Core) : (setCore s c).booted = s.booted := rfl
@[simp] theorem setCore_imageSvn (s : State) (c : Core) : (setCore s c).imageSvn = s.imageSvn := rfl
@[simp] theorem setCore_imageDigest (s : State) (c : Core) : (setCore s c).imageDigest = s.imageDigest := rfl
@[simp] theorem setCore_mem (s : State) (c : Core) : (setCore s c).mem = s.mem := rfl
@[simp] theorem setCore_poison (s : State) (c : Core) : (setCore s c).poison = s.poison := rfl
@[simp] theorem setCore_heads (s : State) (c : Core) : (setCore s c).heads = s.heads := rfl
@[simp] theorem setCore_remote (s : State) (c : Core) : (setCore s c).remote = s.remote := rfl
@[simp] theorem setCore_near (s : State) (c : Core) : (setCore s c).near = s.near := rfl
@[simp] theorem setCore_scCopies (s : State) (c : Core) : (setCore s c).scCopies = s.scCopies := rfl
@[simp] theorem setCore_pages (s : State) (c : Core) : (setCore s c).pages = s.pages := rfl
@[simp] theorem setCore_handOvers (s : State) (c : Core) : (setCore s c).handOvers = s.handOvers := rfl
@[simp] theorem setCore_waiting (s : State) (c : Core) : (setCore s c).waiting = s.waiting := rfl
@[simp] theorem setCore_remotePages (s : State) (c : Core) : (setCore s c).remotePages = s.remotePages := rfl
@[simp] theorem setCore_quarters (s : State) (c : Core) : (setCore s c).quarters = s.quarters := rfl
@[simp] theorem setCore_dies (s : State) (c : Core) : (setCore s c).dies = s.dies := rfl
@[simp] theorem setCore_packs (s : State) (c : Core) : (setCore s c).packs = s.packs := rfl
@[simp] theorem setCore_herds (s : State) (c : Core) : (setCore s c).herds = s.herds := rfl
@[simp] theorem setCore_nextId (s : State) (c : Core) : (setCore s c).nextId = s.nextId := rfl
@[simp] theorem setCore_residencies (s : State) (c : Core) : (setCore s c).residencies = s.residencies := rfl
@[simp] theorem setCore_resImages (s : State) (c : Core) : (setCore s c).resImages = s.resImages := rfl
@[simp] theorem setCore_layout (s : State) (c : Core) : (setCore s c).layout = s.layout := rfl
@[simp] theorem setCore_parts (s : State) (c : Core) : (setCore s c).parts = s.parts := rfl
@[simp] theorem setCore_ports (s : State) (c : Core) : (setCore s c).ports = s.ports := rfl
@[simp] theorem setCore_aon (s : State) (c : Core) : (setCore s c).aon = s.aon := rfl

/-! ### `modCore` -/

@[simp] theorem modCore_tick (s : State) (n : Nat) (f : Core → Core) : (modCore s n f).tick = s.tick := rfl
@[simp] theorem modCore_fresh (s : State) (n : Nat) (f : Core → Core) : (modCore s n f).fresh = s.fresh := rfl
@[simp] theorem modCore_agenda (s : State) (n : Nat) (f : Core → Core) : (modCore s n f).agenda = s.agenda := rfl
@[simp] theorem modCore_cur (s : State) (n : Nat) (f : Core → Core) : (modCore s n f).cur = s.cur := rfl
@[simp] theorem modCore_clock (s : State) (n : Nat) (f : Core → Core) : (modCore s n f).clock = s.clock := rfl
@[simp] theorem modCore_power (s : State) (n : Nat) (f : Core → Core) : (modCore s n f).power = s.power := rfl
@[simp] theorem modCore_quietSince (s : State) (n : Nat) (f : Core → Core) : (modCore s n f).quietSince = s.quietSince := rfl
@[simp] theorem modCore_booted (s : State) (n : Nat) (f : Core → Core) : (modCore s n f).booted = s.booted := rfl
@[simp] theorem modCore_imageSvn (s : State) (n : Nat) (f : Core → Core) : (modCore s n f).imageSvn = s.imageSvn := rfl
@[simp] theorem modCore_imageDigest (s : State) (n : Nat) (f : Core → Core) : (modCore s n f).imageDigest = s.imageDigest := rfl
@[simp] theorem modCore_mem (s : State) (n : Nat) (f : Core → Core) : (modCore s n f).mem = s.mem := rfl
@[simp] theorem modCore_poison (s : State) (n : Nat) (f : Core → Core) : (modCore s n f).poison = s.poison := rfl
@[simp] theorem modCore_heads (s : State) (n : Nat) (f : Core → Core) : (modCore s n f).heads = s.heads := rfl
@[simp] theorem modCore_remote (s : State) (n : Nat) (f : Core → Core) : (modCore s n f).remote = s.remote := rfl
@[simp] theorem modCore_near (s : State) (n : Nat) (f : Core → Core) : (modCore s n f).near = s.near := rfl
@[simp] theorem modCore_scCopies (s : State) (n : Nat) (f : Core → Core) : (modCore s n f).scCopies = s.scCopies := rfl
@[simp] theorem modCore_pages (s : State) (n : Nat) (f : Core → Core) : (modCore s n f).pages = s.pages := rfl
@[simp] theorem modCore_handOvers (s : State) (n : Nat) (f : Core → Core) : (modCore s n f).handOvers = s.handOvers := rfl
@[simp] theorem modCore_waiting (s : State) (n : Nat) (f : Core → Core) : (modCore s n f).waiting = s.waiting := rfl
@[simp] theorem modCore_remotePages (s : State) (n : Nat) (f : Core → Core) : (modCore s n f).remotePages = s.remotePages := rfl
@[simp] theorem modCore_cores (s : State) (n : Nat) (f : Core → Core) : (modCore s n f).cores = (setCore s (f (getCore s n))).cores := rfl
@[simp] theorem modCore_quarters (s : State) (n : Nat) (f : Core → Core) : (modCore s n f).quarters = s.quarters := rfl
@[simp] theorem modCore_dies (s : State) (n : Nat) (f : Core → Core) : (modCore s n f).dies = s.dies := rfl
@[simp] theorem modCore_packs (s : State) (n : Nat) (f : Core → Core) : (modCore s n f).packs = s.packs := rfl
@[simp] theorem modCore_herds (s : State) (n : Nat) (f : Core → Core) : (modCore s n f).herds = s.herds := rfl
@[simp] theorem modCore_nextId (s : State) (n : Nat) (f : Core → Core) : (modCore s n f).nextId = s.nextId := rfl
@[simp] theorem modCore_residencies (s : State) (n : Nat) (f : Core → Core) : (modCore s n f).residencies = s.residencies := rfl
@[simp] theorem modCore_resImages (s : State) (n : Nat) (f : Core → Core) : (modCore s n f).resImages = s.resImages := rfl
@[simp] theorem modCore_layout (s : State) (n : Nat) (f : Core → Core) : (modCore s n f).layout = s.layout := rfl
@[simp] theorem modCore_parts (s : State) (n : Nat) (f : Core → Core) : (modCore s n f).parts = s.parts := rfl
@[simp] theorem modCore_ports (s : State) (n : Nat) (f : Core → Core) : (modCore s n f).ports = s.ports := rfl
@[simp] theorem modCore_aon (s : State) (n : Nat) (f : Core → Core) : (modCore s n f).aon = s.aon := rfl

/-! ### `setQuarter` -/

@[simp] theorem setQuarter_tick (s : State) (q : Quarter) : (setQuarter s q).tick = s.tick := rfl
@[simp] theorem setQuarter_fresh (s : State) (q : Quarter) : (setQuarter s q).fresh = s.fresh := rfl
@[simp] theorem setQuarter_agenda (s : State) (q : Quarter) : (setQuarter s q).agenda = s.agenda := rfl
@[simp] theorem setQuarter_cur (s : State) (q : Quarter) : (setQuarter s q).cur = s.cur := rfl
@[simp] theorem setQuarter_clock (s : State) (q : Quarter) : (setQuarter s q).clock = s.clock := rfl
@[simp] theorem setQuarter_power (s : State) (q : Quarter) : (setQuarter s q).power = s.power := rfl
@[simp] theorem setQuarter_quietSince (s : State) (q : Quarter) : (setQuarter s q).quietSince = s.quietSince := rfl
@[simp] theorem setQuarter_booted (s : State) (q : Quarter) : (setQuarter s q).booted = s.booted := rfl
@[simp] theorem setQuarter_imageSvn (s : State) (q : Quarter) : (setQuarter s q).imageSvn = s.imageSvn := rfl
@[simp] theorem setQuarter_imageDigest (s : State) (q : Quarter) : (setQuarter s q).imageDigest = s.imageDigest := rfl
@[simp] theorem setQuarter_mem (s : State) (q : Quarter) : (setQuarter s q).mem = s.mem := rfl
@[simp] theorem setQuarter_poison (s : State) (q : Quarter) : (setQuarter s q).poison = s.poison := rfl
@[simp] theorem setQuarter_heads (s : State) (q : Quarter) : (setQuarter s q).heads = s.heads := rfl
@[simp] theorem setQuarter_remote (s : State) (q : Quarter) : (setQuarter s q).remote = s.remote := rfl
@[simp] theorem setQuarter_near (s : State) (q : Quarter) : (setQuarter s q).near = s.near := rfl
@[simp] theorem setQuarter_scCopies (s : State) (q : Quarter) : (setQuarter s q).scCopies = s.scCopies := rfl
@[simp] theorem setQuarter_pages (s : State) (q : Quarter) : (setQuarter s q).pages = s.pages := rfl
@[simp] theorem setQuarter_handOvers (s : State) (q : Quarter) : (setQuarter s q).handOvers = s.handOvers := rfl
@[simp] theorem setQuarter_waiting (s : State) (q : Quarter) : (setQuarter s q).waiting = s.waiting := rfl
@[simp] theorem setQuarter_remotePages (s : State) (q : Quarter) : (setQuarter s q).remotePages = s.remotePages := rfl
@[simp] theorem setQuarter_cores (s : State) (q : Quarter) : (setQuarter s q).cores = s.cores := rfl
@[simp] theorem setQuarter_quarters (s : State) (q : Quarter) : (setQuarter s q).quarters = q :: s.quarters.filter (fun r => !(r.core == q.core && r.quarter == q.quarter)) := rfl
@[simp] theorem setQuarter_dies (s : State) (q : Quarter) : (setQuarter s q).dies = s.dies := rfl
@[simp] theorem setQuarter_packs (s : State) (q : Quarter) : (setQuarter s q).packs = s.packs := rfl
@[simp] theorem setQuarter_herds (s : State) (q : Quarter) : (setQuarter s q).herds = s.herds := rfl
@[simp] theorem setQuarter_nextId (s : State) (q : Quarter) : (setQuarter s q).nextId = s.nextId := rfl
@[simp] theorem setQuarter_residencies (s : State) (q : Quarter) : (setQuarter s q).residencies = s.residencies := rfl
@[simp] theorem setQuarter_resImages (s : State) (q : Quarter) : (setQuarter s q).resImages = s.resImages := rfl
@[simp] theorem setQuarter_layout (s : State) (q : Quarter) : (setQuarter s q).layout = s.layout := rfl
@[simp] theorem setQuarter_parts (s : State) (q : Quarter) : (setQuarter s q).parts = s.parts := rfl
@[simp] theorem setQuarter_ports (s : State) (q : Quarter) : (setQuarter s q).ports = s.ports := rfl
@[simp] theorem setQuarter_aon (s : State) (q : Quarter) : (setQuarter s q).aon = s.aon := rfl

/-! ### `modDie` -/

@[simp] theorem modDie_tick (s : State) (n : Nat) (f : Die → Die) : (modDie s n f).tick = s.tick := rfl
@[simp] theorem modDie_fresh (s : State) (n : Nat) (f : Die → Die) : (modDie s n f).fresh = s.fresh := rfl
@[simp] theorem modDie_agenda (s : State) (n : Nat) (f : Die → Die) : (modDie s n f).agenda = s.agenda := rfl
@[simp] theorem modDie_cur (s : State) (n : Nat) (f : Die → Die) : (modDie s n f).cur = s.cur := rfl
@[simp] theorem modDie_clock (s : State) (n : Nat) (f : Die → Die) : (modDie s n f).clock = s.clock := rfl
@[simp] theorem modDie_power (s : State) (n : Nat) (f : Die → Die) : (modDie s n f).power = s.power := rfl
@[simp] theorem modDie_quietSince (s : State) (n : Nat) (f : Die → Die) : (modDie s n f).quietSince = s.quietSince := rfl
@[simp] theorem modDie_booted (s : State) (n : Nat) (f : Die → Die) : (modDie s n f).booted = s.booted := rfl
@[simp] theorem modDie_imageSvn (s : State) (n : Nat) (f : Die → Die) : (modDie s n f).imageSvn = s.imageSvn := rfl
@[simp] theorem modDie_imageDigest (s : State) (n : Nat) (f : Die → Die) : (modDie s n f).imageDigest = s.imageDigest := rfl
@[simp] theorem modDie_mem (s : State) (n : Nat) (f : Die → Die) : (modDie s n f).mem = s.mem := rfl
@[simp] theorem modDie_poison (s : State) (n : Nat) (f : Die → Die) : (modDie s n f).poison = s.poison := rfl
@[simp] theorem modDie_heads (s : State) (n : Nat) (f : Die → Die) : (modDie s n f).heads = s.heads := rfl
@[simp] theorem modDie_remote (s : State) (n : Nat) (f : Die → Die) : (modDie s n f).remote = s.remote := rfl
@[simp] theorem modDie_near (s : State) (n : Nat) (f : Die → Die) : (modDie s n f).near = s.near := rfl
@[simp] theorem modDie_scCopies (s : State) (n : Nat) (f : Die → Die) : (modDie s n f).scCopies = s.scCopies := rfl
@[simp] theorem modDie_pages (s : State) (n : Nat) (f : Die → Die) : (modDie s n f).pages = s.pages := rfl
@[simp] theorem modDie_handOvers (s : State) (n : Nat) (f : Die → Die) : (modDie s n f).handOvers = s.handOvers := rfl
@[simp] theorem modDie_waiting (s : State) (n : Nat) (f : Die → Die) : (modDie s n f).waiting = s.waiting := rfl
@[simp] theorem modDie_remotePages (s : State) (n : Nat) (f : Die → Die) : (modDie s n f).remotePages = s.remotePages := rfl
@[simp] theorem modDie_cores (s : State) (n : Nat) (f : Die → Die) : (modDie s n f).cores = s.cores := rfl
@[simp] theorem modDie_quarters (s : State) (n : Nat) (f : Die → Die) : (modDie s n f).quarters = s.quarters := rfl
@[simp] theorem modDie_dies (s : State) (n : Nat) (f : Die → Die) : (modDie s n f).dies = updWhere (·.id == n) f s.dies := rfl
@[simp] theorem modDie_packs (s : State) (n : Nat) (f : Die → Die) : (modDie s n f).packs = s.packs := rfl
@[simp] theorem modDie_herds (s : State) (n : Nat) (f : Die → Die) : (modDie s n f).herds = s.herds := rfl
@[simp] theorem modDie_nextId (s : State) (n : Nat) (f : Die → Die) : (modDie s n f).nextId = s.nextId := rfl
@[simp] theorem modDie_residencies (s : State) (n : Nat) (f : Die → Die) : (modDie s n f).residencies = s.residencies := rfl
@[simp] theorem modDie_resImages (s : State) (n : Nat) (f : Die → Die) : (modDie s n f).resImages = s.resImages := rfl
@[simp] theorem modDie_layout (s : State) (n : Nat) (f : Die → Die) : (modDie s n f).layout = s.layout := rfl
@[simp] theorem modDie_parts (s : State) (n : Nat) (f : Die → Die) : (modDie s n f).parts = s.parts := rfl
@[simp] theorem modDie_ports (s : State) (n : Nat) (f : Die → Die) : (modDie s n f).ports = s.ports := rfl
@[simp] theorem modDie_aon (s : State) (n : Nat) (f : Die → Die) : (modDie s n f).aon = s.aon := rfl

/-! ### `modPart` -/

@[simp] theorem modPart_tick (s : State) (n : Nat) (f : Partition → Partition) : (modPart s n f).tick = s.tick := rfl
@[simp] theorem modPart_fresh (s : State) (n : Nat) (f : Partition → Partition) : (modPart s n f).fresh = s.fresh := rfl
@[simp] theorem modPart_agenda (s : State) (n : Nat) (f : Partition → Partition) : (modPart s n f).agenda = s.agenda := rfl
@[simp] theorem modPart_cur (s : State) (n : Nat) (f : Partition → Partition) : (modPart s n f).cur = s.cur := rfl
@[simp] theorem modPart_clock (s : State) (n : Nat) (f : Partition → Partition) : (modPart s n f).clock = s.clock := rfl
@[simp] theorem modPart_power (s : State) (n : Nat) (f : Partition → Partition) : (modPart s n f).power = s.power := rfl
@[simp] theorem modPart_quietSince (s : State) (n : Nat) (f : Partition → Partition) : (modPart s n f).quietSince = s.quietSince := rfl
@[simp] theorem modPart_booted (s : State) (n : Nat) (f : Partition → Partition) : (modPart s n f).booted = s.booted := rfl
@[simp] theorem modPart_imageSvn (s : State) (n : Nat) (f : Partition → Partition) : (modPart s n f).imageSvn = s.imageSvn := rfl
@[simp] theorem modPart_imageDigest (s : State) (n : Nat) (f : Partition → Partition) : (modPart s n f).imageDigest = s.imageDigest := rfl
@[simp] theorem modPart_mem (s : State) (n : Nat) (f : Partition → Partition) : (modPart s n f).mem = s.mem := rfl
@[simp] theorem modPart_poison (s : State) (n : Nat) (f : Partition → Partition) : (modPart s n f).poison = s.poison := rfl
@[simp] theorem modPart_heads (s : State) (n : Nat) (f : Partition → Partition) : (modPart s n f).heads = s.heads := rfl
@[simp] theorem modPart_remote (s : State) (n : Nat) (f : Partition → Partition) : (modPart s n f).remote = s.remote := rfl
@[simp] theorem modPart_near (s : State) (n : Nat) (f : Partition → Partition) : (modPart s n f).near = s.near := rfl
@[simp] theorem modPart_scCopies (s : State) (n : Nat) (f : Partition → Partition) : (modPart s n f).scCopies = s.scCopies := rfl
@[simp] theorem modPart_pages (s : State) (n : Nat) (f : Partition → Partition) : (modPart s n f).pages = s.pages := rfl
@[simp] theorem modPart_handOvers (s : State) (n : Nat) (f : Partition → Partition) : (modPart s n f).handOvers = s.handOvers := rfl
@[simp] theorem modPart_waiting (s : State) (n : Nat) (f : Partition → Partition) : (modPart s n f).waiting = s.waiting := rfl
@[simp] theorem modPart_remotePages (s : State) (n : Nat) (f : Partition → Partition) : (modPart s n f).remotePages = s.remotePages := rfl
@[simp] theorem modPart_cores (s : State) (n : Nat) (f : Partition → Partition) : (modPart s n f).cores = s.cores := rfl
@[simp] theorem modPart_quarters (s : State) (n : Nat) (f : Partition → Partition) : (modPart s n f).quarters = s.quarters := rfl
@[simp] theorem modPart_dies (s : State) (n : Nat) (f : Partition → Partition) : (modPart s n f).dies = s.dies := rfl
@[simp] theorem modPart_packs (s : State) (n : Nat) (f : Partition → Partition) : (modPart s n f).packs = s.packs := rfl
@[simp] theorem modPart_herds (s : State) (n : Nat) (f : Partition → Partition) : (modPart s n f).herds = s.herds := rfl
@[simp] theorem modPart_nextId (s : State) (n : Nat) (f : Partition → Partition) : (modPart s n f).nextId = s.nextId := rfl
@[simp] theorem modPart_residencies (s : State) (n : Nat) (f : Partition → Partition) : (modPart s n f).residencies = s.residencies := rfl
@[simp] theorem modPart_resImages (s : State) (n : Nat) (f : Partition → Partition) : (modPart s n f).resImages = s.resImages := rfl
@[simp] theorem modPart_layout (s : State) (n : Nat) (f : Partition → Partition) : (modPart s n f).layout = s.layout := rfl
@[simp] theorem modPart_parts (s : State) (n : Nat) (f : Partition → Partition) : (modPart s n f).parts = updWhere (·.id == n) f s.parts := rfl
@[simp] theorem modPart_ports (s : State) (n : Nat) (f : Partition → Partition) : (modPart s n f).ports = s.ports := rfl
@[simp] theorem modPart_aon (s : State) (n : Nat) (f : Partition → Partition) : (modPart s n f).aon = s.aon := rfl

/-! ### `modPort` -/

@[simp] theorem modPort_tick (s : State) (n : Nat) (f : IoPort → IoPort) : (modPort s n f).tick = s.tick := rfl
@[simp] theorem modPort_fresh (s : State) (n : Nat) (f : IoPort → IoPort) : (modPort s n f).fresh = s.fresh := rfl
@[simp] theorem modPort_agenda (s : State) (n : Nat) (f : IoPort → IoPort) : (modPort s n f).agenda = s.agenda := rfl
@[simp] theorem modPort_cur (s : State) (n : Nat) (f : IoPort → IoPort) : (modPort s n f).cur = s.cur := rfl
@[simp] theorem modPort_clock (s : State) (n : Nat) (f : IoPort → IoPort) : (modPort s n f).clock = s.clock := rfl
@[simp] theorem modPort_power (s : State) (n : Nat) (f : IoPort → IoPort) : (modPort s n f).power = s.power := rfl
@[simp] theorem modPort_quietSince (s : State) (n : Nat) (f : IoPort → IoPort) : (modPort s n f).quietSince = s.quietSince := rfl
@[simp] theorem modPort_booted (s : State) (n : Nat) (f : IoPort → IoPort) : (modPort s n f).booted = s.booted := rfl
@[simp] theorem modPort_imageSvn (s : State) (n : Nat) (f : IoPort → IoPort) : (modPort s n f).imageSvn = s.imageSvn := rfl
@[simp] theorem modPort_imageDigest (s : State) (n : Nat) (f : IoPort → IoPort) : (modPort s n f).imageDigest = s.imageDigest := rfl
@[simp] theorem modPort_mem (s : State) (n : Nat) (f : IoPort → IoPort) : (modPort s n f).mem = s.mem := rfl
@[simp] theorem modPort_poison (s : State) (n : Nat) (f : IoPort → IoPort) : (modPort s n f).poison = s.poison := rfl
@[simp] theorem modPort_heads (s : State) (n : Nat) (f : IoPort → IoPort) : (modPort s n f).heads = s.heads := rfl
@[simp] theorem modPort_remote (s : State) (n : Nat) (f : IoPort → IoPort) : (modPort s n f).remote = s.remote := rfl
@[simp] theorem modPort_near (s : State) (n : Nat) (f : IoPort → IoPort) : (modPort s n f).near = s.near := rfl
@[simp] theorem modPort_scCopies (s : State) (n : Nat) (f : IoPort → IoPort) : (modPort s n f).scCopies = s.scCopies := rfl
@[simp] theorem modPort_pages (s : State) (n : Nat) (f : IoPort → IoPort) : (modPort s n f).pages = s.pages := rfl
@[simp] theorem modPort_handOvers (s : State) (n : Nat) (f : IoPort → IoPort) : (modPort s n f).handOvers = s.handOvers := rfl
@[simp] theorem modPort_waiting (s : State) (n : Nat) (f : IoPort → IoPort) : (modPort s n f).waiting = s.waiting := rfl
@[simp] theorem modPort_remotePages (s : State) (n : Nat) (f : IoPort → IoPort) : (modPort s n f).remotePages = s.remotePages := rfl
@[simp] theorem modPort_cores (s : State) (n : Nat) (f : IoPort → IoPort) : (modPort s n f).cores = s.cores := rfl
@[simp] theorem modPort_quarters (s : State) (n : Nat) (f : IoPort → IoPort) : (modPort s n f).quarters = s.quarters := rfl
@[simp] theorem modPort_dies (s : State) (n : Nat) (f : IoPort → IoPort) : (modPort s n f).dies = s.dies := rfl
@[simp] theorem modPort_packs (s : State) (n : Nat) (f : IoPort → IoPort) : (modPort s n f).packs = s.packs := rfl
@[simp] theorem modPort_herds (s : State) (n : Nat) (f : IoPort → IoPort) : (modPort s n f).herds = s.herds := rfl
@[simp] theorem modPort_nextId (s : State) (n : Nat) (f : IoPort → IoPort) : (modPort s n f).nextId = s.nextId := rfl
@[simp] theorem modPort_residencies (s : State) (n : Nat) (f : IoPort → IoPort) : (modPort s n f).residencies = s.residencies := rfl
@[simp] theorem modPort_resImages (s : State) (n : Nat) (f : IoPort → IoPort) : (modPort s n f).resImages = s.resImages := rfl
@[simp] theorem modPort_layout (s : State) (n : Nat) (f : IoPort → IoPort) : (modPort s n f).layout = s.layout := rfl
@[simp] theorem modPort_parts (s : State) (n : Nat) (f : IoPort → IoPort) : (modPort s n f).parts = s.parts := rfl
@[simp] theorem modPort_ports (s : State) (n : Nat) (f : IoPort → IoPort) : (modPort s n f).ports = s.ports.set n (f (getPort s n)) := rfl
@[simp] theorem modPort_aon (s : State) (n : Nat) (f : IoPort → IoPort) : (modPort s n f).aon = s.aon := rfl

/-! ### `modAon` -/

@[simp] theorem modAon_tick (s : State) (f : AlwaysOn → AlwaysOn) : (modAon s f).tick = s.tick := rfl
@[simp] theorem modAon_fresh (s : State) (f : AlwaysOn → AlwaysOn) : (modAon s f).fresh = s.fresh := rfl
@[simp] theorem modAon_agenda (s : State) (f : AlwaysOn → AlwaysOn) : (modAon s f).agenda = s.agenda := rfl
@[simp] theorem modAon_cur (s : State) (f : AlwaysOn → AlwaysOn) : (modAon s f).cur = s.cur := rfl
@[simp] theorem modAon_clock (s : State) (f : AlwaysOn → AlwaysOn) : (modAon s f).clock = s.clock := rfl
@[simp] theorem modAon_power (s : State) (f : AlwaysOn → AlwaysOn) : (modAon s f).power = s.power := rfl
@[simp] theorem modAon_quietSince (s : State) (f : AlwaysOn → AlwaysOn) : (modAon s f).quietSince = s.quietSince := rfl
@[simp] theorem modAon_booted (s : State) (f : AlwaysOn → AlwaysOn) : (modAon s f).booted = s.booted := rfl
@[simp] theorem modAon_imageSvn (s : State) (f : AlwaysOn → AlwaysOn) : (modAon s f).imageSvn = s.imageSvn := rfl
@[simp] theorem modAon_imageDigest (s : State) (f : AlwaysOn → AlwaysOn) : (modAon s f).imageDigest = s.imageDigest := rfl
@[simp] theorem modAon_mem (s : State) (f : AlwaysOn → AlwaysOn) : (modAon s f).mem = s.mem := rfl
@[simp] theorem modAon_poison (s : State) (f : AlwaysOn → AlwaysOn) : (modAon s f).poison = s.poison := rfl
@[simp] theorem modAon_heads (s : State) (f : AlwaysOn → AlwaysOn) : (modAon s f).heads = s.heads := rfl
@[simp] theorem modAon_remote (s : State) (f : AlwaysOn → AlwaysOn) : (modAon s f).remote = s.remote := rfl
@[simp] theorem modAon_near (s : State) (f : AlwaysOn → AlwaysOn) : (modAon s f).near = s.near := rfl
@[simp] theorem modAon_scCopies (s : State) (f : AlwaysOn → AlwaysOn) : (modAon s f).scCopies = s.scCopies := rfl
@[simp] theorem modAon_pages (s : State) (f : AlwaysOn → AlwaysOn) : (modAon s f).pages = s.pages := rfl
@[simp] theorem modAon_handOvers (s : State) (f : AlwaysOn → AlwaysOn) : (modAon s f).handOvers = s.handOvers := rfl
@[simp] theorem modAon_waiting (s : State) (f : AlwaysOn → AlwaysOn) : (modAon s f).waiting = s.waiting := rfl
@[simp] theorem modAon_remotePages (s : State) (f : AlwaysOn → AlwaysOn) : (modAon s f).remotePages = s.remotePages := rfl
@[simp] theorem modAon_cores (s : State) (f : AlwaysOn → AlwaysOn) : (modAon s f).cores = s.cores := rfl
@[simp] theorem modAon_quarters (s : State) (f : AlwaysOn → AlwaysOn) : (modAon s f).quarters = s.quarters := rfl
@[simp] theorem modAon_dies (s : State) (f : AlwaysOn → AlwaysOn) : (modAon s f).dies = s.dies := rfl
@[simp] theorem modAon_packs (s : State) (f : AlwaysOn → AlwaysOn) : (modAon s f).packs = s.packs := rfl
@[simp] theorem modAon_herds (s : State) (f : AlwaysOn → AlwaysOn) : (modAon s f).herds = s.herds := rfl
@[simp] theorem modAon_nextId (s : State) (f : AlwaysOn → AlwaysOn) : (modAon s f).nextId = s.nextId := rfl
@[simp] theorem modAon_residencies (s : State) (f : AlwaysOn → AlwaysOn) : (modAon s f).residencies = s.residencies := rfl
@[simp] theorem modAon_resImages (s : State) (f : AlwaysOn → AlwaysOn) : (modAon s f).resImages = s.resImages := rfl
@[simp] theorem modAon_layout (s : State) (f : AlwaysOn → AlwaysOn) : (modAon s f).layout = s.layout := rfl
@[simp] theorem modAon_parts (s : State) (f : AlwaysOn → AlwaysOn) : (modAon s f).parts = s.parts := rfl
@[simp] theorem modAon_ports (s : State) (f : AlwaysOn → AlwaysOn) : (modAon s f).ports = s.ports := rfl
@[simp] theorem modAon_aon (s : State) (f : AlwaysOn → AlwaysOn) : (modAon s f).aon = f s.aon := rfl

/-! ### `draw` -/

@[simp] theorem draw_tick (s : State) : (draw s).tick = s.tick := rfl
@[simp] theorem draw_fresh (s : State) : (draw s).fresh = s.fresh + 1 := rfl
@[simp] theorem draw_agenda (s : State) : (draw s).agenda = s.agenda := rfl
@[simp] theorem draw_cur (s : State) : (draw s).cur = s.cur := rfl
@[simp] theorem draw_clock (s : State) : (draw s).clock = s.clock := rfl
@[simp] theorem draw_power (s : State) : (draw s).power = s.power := rfl
@[simp] theorem draw_quietSince (s : State) : (draw s).quietSince = s.quietSince := rfl
@[simp] theorem draw_booted (s : State) : (draw s).booted = s.booted := rfl
@[simp] theorem draw_imageSvn (s : State) : (draw s).imageSvn = s.imageSvn := rfl
@[simp] theorem draw_imageDigest (s : State) : (draw s).imageDigest = s.imageDigest := rfl
@[simp] theorem draw_mem (s : State) : (draw s).mem = s.mem := rfl
@[simp] theorem draw_poison (s : State) : (draw s).poison = s.poison := rfl
@[simp] theorem draw_heads (s : State) : (draw s).heads = s.heads := rfl
@[simp] theorem draw_remote (s : State) : (draw s).remote = s.remote := rfl
@[simp] theorem draw_near (s : State) : (draw s).near = s.near := rfl
@[simp] theorem draw_scCopies (s : State) : (draw s).scCopies = s.scCopies := rfl
@[simp] theorem draw_pages (s : State) : (draw s).pages = s.pages := rfl
@[simp] theorem draw_handOvers (s : State) : (draw s).handOvers = s.handOvers := rfl
@[simp] theorem draw_waiting (s : State) : (draw s).waiting = s.waiting := rfl
@[simp] theorem draw_remotePages (s : State) : (draw s).remotePages = s.remotePages := rfl
@[simp] theorem draw_cores (s : State) : (draw s).cores = s.cores := rfl
@[simp] theorem draw_quarters (s : State) : (draw s).quarters = s.quarters := rfl
@[simp] theorem draw_dies (s : State) : (draw s).dies = s.dies := rfl
@[simp] theorem draw_packs (s : State) : (draw s).packs = s.packs := rfl
@[simp] theorem draw_herds (s : State) : (draw s).herds = s.herds := rfl
@[simp] theorem draw_nextId (s : State) : (draw s).nextId = s.nextId := rfl
@[simp] theorem draw_residencies (s : State) : (draw s).residencies = s.residencies := rfl
@[simp] theorem draw_resImages (s : State) : (draw s).resImages = s.resImages := rfl
@[simp] theorem draw_layout (s : State) : (draw s).layout = s.layout := rfl
@[simp] theorem draw_parts (s : State) : (draw s).parts = s.parts := rfl
@[simp] theorem draw_ports (s : State) : (draw s).ports = s.ports := rfl
@[simp] theorem draw_aon (s : State) : (draw s).aon = s.aon := rfl

/-! ### `logEvent` -/

@[simp] theorem logEvent_tick (s : State) (t p d u : Nat) (a x : Quad) : (logEvent s t p d u a x).tick = s.tick := rfl
@[simp] theorem logEvent_fresh (s : State) (t p d u : Nat) (a x : Quad) : (logEvent s t p d u a x).fresh = s.fresh := rfl
@[simp] theorem logEvent_agenda (s : State) (t p d u : Nat) (a x : Quad) : (logEvent s t p d u a x).agenda = s.agenda := rfl
@[simp] theorem logEvent_cur (s : State) (t p d u : Nat) (a x : Quad) : (logEvent s t p d u a x).cur = s.cur := rfl
@[simp] theorem logEvent_clock (s : State) (t p d u : Nat) (a x : Quad) : (logEvent s t p d u a x).clock = s.clock := rfl
@[simp] theorem logEvent_power (s : State) (t p d u : Nat) (a x : Quad) : (logEvent s t p d u a x).power = s.power := rfl
@[simp] theorem logEvent_quietSince (s : State) (t p d u : Nat) (a x : Quad) : (logEvent s t p d u a x).quietSince = s.quietSince := rfl
@[simp] theorem logEvent_booted (s : State) (t p d u : Nat) (a x : Quad) : (logEvent s t p d u a x).booted = s.booted := rfl
@[simp] theorem logEvent_imageSvn (s : State) (t p d u : Nat) (a x : Quad) : (logEvent s t p d u a x).imageSvn = s.imageSvn := rfl
@[simp] theorem logEvent_imageDigest (s : State) (t p d u : Nat) (a x : Quad) : (logEvent s t p d u a x).imageDigest = s.imageDigest := rfl
@[simp] theorem logEvent_mem (s : State) (t p d u : Nat) (a x : Quad) : (logEvent s t p d u a x).mem = s.mem := rfl
@[simp] theorem logEvent_poison (s : State) (t p d u : Nat) (a x : Quad) : (logEvent s t p d u a x).poison = s.poison := rfl
@[simp] theorem logEvent_heads (s : State) (t p d u : Nat) (a x : Quad) : (logEvent s t p d u a x).heads = s.heads := rfl
@[simp] theorem logEvent_remote (s : State) (t p d u : Nat) (a x : Quad) : (logEvent s t p d u a x).remote = s.remote := rfl
@[simp] theorem logEvent_near (s : State) (t p d u : Nat) (a x : Quad) : (logEvent s t p d u a x).near = s.near := rfl
@[simp] theorem logEvent_scCopies (s : State) (t p d u : Nat) (a x : Quad) : (logEvent s t p d u a x).scCopies = s.scCopies := rfl
@[simp] theorem logEvent_pages (s : State) (t p d u : Nat) (a x : Quad) : (logEvent s t p d u a x).pages = s.pages := rfl
@[simp] theorem logEvent_handOvers (s : State) (t p d u : Nat) (a x : Quad) : (logEvent s t p d u a x).handOvers = s.handOvers := rfl
@[simp] theorem logEvent_waiting (s : State) (t p d u : Nat) (a x : Quad) : (logEvent s t p d u a x).waiting = s.waiting := rfl
@[simp] theorem logEvent_remotePages (s : State) (t p d u : Nat) (a x : Quad) : (logEvent s t p d u a x).remotePages = s.remotePages := rfl
@[simp] theorem logEvent_cores (s : State) (t p d u : Nat) (a x : Quad) : (logEvent s t p d u a x).cores = s.cores := rfl
@[simp] theorem logEvent_quarters (s : State) (t p d u : Nat) (a x : Quad) : (logEvent s t p d u a x).quarters = s.quarters := rfl
@[simp] theorem logEvent_dies (s : State) (t p d u : Nat) (a x : Quad) : (logEvent s t p d u a x).dies = s.dies := rfl
@[simp] theorem logEvent_packs (s : State) (t p d u : Nat) (a x : Quad) : (logEvent s t p d u a x).packs = s.packs := rfl
@[simp] theorem logEvent_herds (s : State) (t p d u : Nat) (a x : Quad) : (logEvent s t p d u a x).herds = s.herds := rfl
@[simp] theorem logEvent_nextId (s : State) (t p d u : Nat) (a x : Quad) : (logEvent s t p d u a x).nextId = s.nextId := rfl
@[simp] theorem logEvent_residencies (s : State) (t p d u : Nat) (a x : Quad) : (logEvent s t p d u a x).residencies = s.residencies := rfl
@[simp] theorem logEvent_resImages (s : State) (t p d u : Nat) (a x : Quad) : (logEvent s t p d u a x).resImages = s.resImages := rfl
@[simp] theorem logEvent_layout (s : State) (t p d u : Nat) (a x : Quad) : (logEvent s t p d u a x).layout = s.layout := rfl
@[simp] theorem logEvent_parts (s : State) (t p d u : Nat) (a x : Quad) : (logEvent s t p d u a x).parts = s.parts := rfl
@[simp] theorem logEvent_ports (s : State) (t p d u : Nat) (a x : Quad) : (logEvent s t p d u a x).ports = s.ports := rfl

/-! ### `push` -/

@[simp] theorem push_tick (s : State) (t : Turn) : (push s t).tick = s.tick := rfl
@[simp] theorem push_fresh (s : State) (t : Turn) : (push s t).fresh = s.fresh := rfl
@[simp] theorem push_agenda (s : State) (t : Turn) : (push s t).agenda = s.agenda ++ [t] := rfl
@[simp] theorem push_cur (s : State) (t : Turn) : (push s t).cur = s.cur := rfl
@[simp] theorem push_clock (s : State) (t : Turn) : (push s t).clock = s.clock := rfl
@[simp] theorem push_power (s : State) (t : Turn) : (push s t).power = s.power := rfl
@[simp] theorem push_quietSince (s : State) (t : Turn) : (push s t).quietSince = s.quietSince := rfl
@[simp] theorem push_booted (s : State) (t : Turn) : (push s t).booted = s.booted := rfl
@[simp] theorem push_imageSvn (s : State) (t : Turn) : (push s t).imageSvn = s.imageSvn := rfl
@[simp] theorem push_imageDigest (s : State) (t : Turn) : (push s t).imageDigest = s.imageDigest := rfl
@[simp] theorem push_mem (s : State) (t : Turn) : (push s t).mem = s.mem := rfl
@[simp] theorem push_poison (s : State) (t : Turn) : (push s t).poison = s.poison := rfl
@[simp] theorem push_heads (s : State) (t : Turn) : (push s t).heads = s.heads := rfl
@[simp] theorem push_remote (s : State) (t : Turn) : (push s t).remote = s.remote := rfl
@[simp] theorem push_near (s : State) (t : Turn) : (push s t).near = s.near := rfl
@[simp] theorem push_scCopies (s : State) (t : Turn) : (push s t).scCopies = s.scCopies := rfl
@[simp] theorem push_pages (s : State) (t : Turn) : (push s t).pages = s.pages := rfl
@[simp] theorem push_handOvers (s : State) (t : Turn) : (push s t).handOvers = s.handOvers := rfl
@[simp] theorem push_waiting (s : State) (t : Turn) : (push s t).waiting = s.waiting := rfl
@[simp] theorem push_remotePages (s : State) (t : Turn) : (push s t).remotePages = s.remotePages := rfl
@[simp] theorem push_cores (s : State) (t : Turn) : (push s t).cores = s.cores := rfl
@[simp] theorem push_quarters (s : State) (t : Turn) : (push s t).quarters = s.quarters := rfl
@[simp] theorem push_dies (s : State) (t : Turn) : (push s t).dies = s.dies := rfl
@[simp] theorem push_packs (s : State) (t : Turn) : (push s t).packs = s.packs := rfl
@[simp] theorem push_herds (s : State) (t : Turn) : (push s t).herds = s.herds := rfl
@[simp] theorem push_nextId (s : State) (t : Turn) : (push s t).nextId = s.nextId := rfl
@[simp] theorem push_residencies (s : State) (t : Turn) : (push s t).residencies = s.residencies := rfl
@[simp] theorem push_resImages (s : State) (t : Turn) : (push s t).resImages = s.resImages := rfl
@[simp] theorem push_layout (s : State) (t : Turn) : (push s t).layout = s.layout := rfl
@[simp] theorem push_parts (s : State) (t : Turn) : (push s t).parts = s.parts := rfl
@[simp] theorem push_ports (s : State) (t : Turn) : (push s t).ports = s.ports := rfl
@[simp] theorem push_aon (s : State) (t : Turn) : (push s t).aon = s.aon := rfl

end Sys2Proof.Machine
end

