-- ==== Sys2Proof/Laws/Run.lean ====
section
/-!
SUPPORT. The wrapper of every instruction row: what it answers when the row issues, when it meets a fault, and when its level, word or
registers do not allow it.
-/

namespace Sys2Proof.Machine

/-- No lane of the mask has a fault: none is reported. -/
theorem pickFault_none {m : Mask} {f : Nat → LaneFault} (h : ∀ l < 64, m.has l = true → f l = none) : pickFault m f = none := by
  have e : (m.lanes.filterMap fun l => (f l).map fun x => (l, x.1, x.2)) = [] := by
    rw [List.filterMap_eq_nil_iff]
    intro l hl
    have := (mem_lanes m l).1 hl
    simp [h l this.1 this.2]
  simp [pickFault, e]

theorem poisonFault_clean {i : Instr} {c : Ctx} (h : Clean i c) (l : Nat) (hl : l < 64) (he : c.exec.has l = true) :
    poisonFault c.pack (sourceRegs i) l = none := by
  have e : (sourceRegs i).filter (fun r => c.pack.bad.contains (r, l)) = [] := by
    rw [List.filter_eq_nil_iff]
    intro r hr
    have := h r hr l hl (.inl he)
    simpa [List.contains_iff_mem] using this
  unfold poisonFault
  rw [e]
  rfl

/-- Lane faults of a row with clean sources are those of its own checks. -/
theorem laneFaults_clean {i : Instr} {c : Ctx} (h : Clean i c) {f : Nat → LaneFault}
    (hf : ∀ l < 64, c.exec.has l = true → f l = none) : laneFaults i c f = none := by
  unfold laneFaults
  apply pickFault_none
  intro l hl he
  rw [poisonFault_clean h l hl he, hf l hl he]
  rfl

theorem lowest_mem {m : Mask} (h : m ≠ 0#64) : Mask.lowest m < 64 ∧ m.has (Mask.lowest m) = true := by
  have hne : m.lanes ≠ [] := by
    intro e
    apply h
    apply BitVec.eq_of_getLsbD_eq
    intro i hi
    have : i ∉ m.lanes := by rw [e]; simp
    rw [mem_lanes] at this
    simp only [hi, true_and, Mask.has] at this
    simpa using this
  unfold Mask.lowest
  cases hl : m.lanes with
  | nil => exact absurd hl hne
  | cons x xs => exact (mem_lanes m x).1 (by rw [hl]; simp)

/-- A whole-instruction check with clean sources answers its own fault alone, and none where no lane executes. -/
theorem wholeFault_clean {i : Instr} {c : Ctx} (h : Clean i c) (f : LaneFault) :
    wholeFault i c f = if c.exec = 0#64 then none else f.map fun x => ⟨x.1, c.exec, x.2⟩ := by
  unfold wholeFault onceFault
  by_cases he : c.exec = 0#64
  · simp [he]
  · have ⟨h1, h2⟩ := lowest_mem he
    have : poisonFault c.pack (sourceRegs i) c.low = none := poisonFault_clean h _ h1 h2
    simp [he, this]

/-- The row issues and its effect comes to an end. -/
theorem run_done {i : Instr} {h : Head} {s : State} {k : Ctx → Effect} {c : Ctx} {t : State} (hc : issueCtx h s = some c)
    (hok : encodingFault i c.pack = none) (hk : k c = .done t) : run i h s k = .next t := by
  simp [run, hc, hok, hk]

/-- The row issues and meets a fault of its own. -/
theorem run_fault {i : Instr} {h : Head} {s : State} {k : Ctx → Effect} {c : Ctx} {t : State} {f : FaultReq}
    (hc : issueCtx h s = some c) (hok : encodingFault i c.pack = none) (hk : k c = .fault f t) :
    run i h s k = .next
      (raiseFault (logConsumed t c.pack.part c.pack.loc.core f.code 15 (consumedAt i c t f))
        ((findPack (logConsumed t c.pack.part c.pack.loc.core f.code 15 (consumedAt i c t f)) c.pack.loc).getD c.pack) c.idx
        (twoWords i) f) := by
  simp [run, hc, hok, hk]

/-- The row's level, word or registers do not allow it (R158, R159). -/
theorem run_encoding {i : Instr} {h : Head} {s : State} {k : Ctx → Effect} {c : Ctx} {code : Nat} (hc : issueCtx h s = some c)
    (hbad : encodingFault i c.pack = some code) :
    run i h s k = .next (raiseFault s c.pack c.idx (twoWords i) ⟨code, c.act, c.path.pc⟩) := by
  simp [run, hc, hbad]

/-- With an issuing path, a row always answers a next state. -/
theorem run_next {i : Instr} {h : Head} {s : State} {k : Ctx → Effect} {c : Ctx} (hc : issueCtx h s = some c) :
    ∃ t, run i h s k = .next t := by
  simp only [run, hc]
  cases he : encodingFault i c.pack with
  | some code => exact ⟨_, rfl⟩
  | none =>
    cases hk : k c with
    | done t => exact ⟨_, rfl⟩
    | fault f t => exact ⟨_, rfl⟩

/-- A row that acts on its pack alone (R206): the pack as its meaning writes it, retired. -/
theorem runPack_done {i : Instr} {h : Head} {s : State} {f : Ctx → Pack} {c : Ctx} (hc : issueCtx h s = some c)
    (hok : encodingFault i c.pack = none) (hcl : Clean i c) : runPack i h s f = .next (setPack s ((f c).retire i c)) := by
  apply run_done hc hok
  rw [laneFaults_clean hcl (fun _ _ _ => rfl)]

/-- The context that issues: its pack is the one in its slot, and its path and mask are that pack's. -/
theorem issueCtx_some {h : Head} {s : State} {c : Ctx} (hc : issueCtx h s = some c) :
    findPack s c.pack.loc = some c.pack ∧ c.pack.paths[c.idx]? = some c.path ∧ s.cur = some ⟨c.pack.loc, c.idx⟩ ∧
      c.act = activeMask s c.pack c.path ∧ c.exec = guarded c.pack h c.act := by
  unfold issueCtx at hc
  split at hc
  · simp at hc
  · rename_i at_ hcur
    split at hc
    · simp at hc
    · rename_i p hp
      split at hc
      · simp at hc
      · rename_i q hq
        simp only [Option.some.injEq] at hc
        subst hc
        have hloc := findPack_loc hp
        exact ⟨by rw [hloc]; exact hp, hq, by rw [hcur, hloc], rfl, rfl⟩

/-- No lane outside the active mask executes (R143). -/
theorem exec_le_act {h : Head} {s : State} {c : Ctx} (hc : issueCtx h s = some c) (l : Nat) (hl : c.exec.has l = true) :
    c.act.has l = true := by
  have := (issueCtx_some hc).2.2.2.2
  rw [this] at hl
  simp only [guarded, Mask.has, BitVec.getLsbD_and, Bool.and_eq_true] at hl
  exact hl.1

end Sys2Proof.Machine
end

