-- ==== Sys2Proof/Laws/Register.lean ====
section
/-!
SUPPORT. The rows that act on their pack alone: the frame that each way of writing registers gives, and the values their destinations read
as afterwards.
-/

namespace Sys2Proof.Machine

/-! ### Frames -/

/-- A row that issues has fields that its description accepts. -/
theorem issues_ok {i s c} (h : Issues i s c) : (shape i).ok = true := by
  have := h.ok
  unfold encodingFault at this
  split at this
  · simp at this
  · split at this
    · simp at this
    · rename_i h2
      simp only [Bool.or_eq_true, not_or] at h2
      have hl : legal i = none := by simpa using h2.1
      unfold legal at hl
      cases hs : (shape i).ok with
      | true => rfl
      | false => dsimp only at hl; rw [hs] at hl; split at hl <;> (first | (simp at hl; done) | (split at hl <;> simp at hl))

theorem writeT_sto (p : Pack) (t : Nat) (r : Reg) (m : Mask) (f : Nat → Nat) : (p.writeT t r m f).sto = p.sto := by
  unfold Pack.writeT; split <;> rfl

/-- What keeps the rest of fewer registers and predicates keeps the rest of more. -/
theorem KeepsRest.mono {rs rs' ks ks' m p p'} (h : KeepsRest rs ks m p p') (h1 : ∀ x ∈ rs, x ∈ rs') (h2 : ∀ x ∈ ks, x ∈ ks') : KeepsRest rs' ks' m p p' where
  regs r l hl ho := h.regs r l hl (ho.imp (fun hn hm => hn (h1 _ hm)) id)
  preds r l hl ho := h.preds r l hl (ho.imp (fun hn hm => hn (h2 _ hm)) id)
  sto := h.sto
  errs := h.errs
  rest := h.rest

/-- A row that acts on its pack alone, whose meaning keeps the rest of the pack, answers a pack that keeps the rest and has advanced. -/
theorem runPack_keeps {i : Instr} {h : Head} {s : State} {f : Ctx → Pack} {c : Ctx} (hi : headOf i = h) (hc : Issues i s c) (hcl : Clean i c)
   (hk : KeepsRest (destRegs i) (destPreds i) c.exec c.pack (f c)) (hp : (f c).paths = c.pack.paths)
   (hs : writesSto i = false → (f c).sto = c.pack.sto) :
   ∃ p', runPack i h s f = .next (setPack s p') ∧ KeepsRest (destRegs i) (destPreds i) c.exec c.pack p' ∧ Advanced i c c.pack p' ∧
     (writesSto i = false → p'.sto = c.pack.sto) := by
  subst hi
  exact ⟨_, runPack_done hc.ctx hc.ok hcl, hk.retire i c, advanced_retire hp i c, by simpa using hs⟩

/-- A fold keeps the rest where every round does. -/
theorem foldl_keeps {α : Type} {rs ks m p} (l : List α) (g : Pack → α → Pack) 
  (hg : ∀ q a, a ∈ l → KeepsRest rs ks m p q → KeepsRest rs ks m p (g q a)) : ∀ q, KeepsRest rs ks m p q → KeepsRest rs ks m p (l.foldl g q) := by
  induction l with
  | nil => intro q h; exact h
  | cons a l ih => intro q h; exact ih (fun q b hb => hg q b (List.mem_cons_of_mem _ hb)) _ (hg q a (by simp) h)

theorem mem_regs_vec (r : Reg) : r.toNat ∈ (wr .vec r).regs := by simp [Opnd.regs, wr, OpClass.regCount]

theorem mem_regs_pair (r : Reg) : r.toNat ∈ (wr .pair r).regs ∧ r.toNat + 1 ∈ (wr .pair r).regs := by 
  constructor <;> simp [Opnd.regs, wr, OpClass.regCount, List.range_succ]

/-- The registers of a row's first field, a destination, are among its destinations. -/
theorem flat_first {ops : List Opnd} {o : Opnd} (ho : o.src = false) : ∀ x ∈ o.regs, x ∈ ((o :: ops).filter (!·.src)).flatMap Opnd.regs := by
  intro x hx
  simp [ho, hx]

theorem writeRed_keeps (c : Ctx) (o : V) (f) : KeepsRest (wr (tcls o.ty) o.d).regs [] c.exec c.pack (writeRed c o f) := by
  unfold writeRed
  split
  · rename_i hf
    refine (KeepsRest.refl _ _ _ _).writeReg ?_ _
    have : tcls o.ty = .vec := by simp [isFlt] at hf; rcases hf with (h|h)|h <;> rw [h] <;> rfl
    rw [this]; exact mem_regs_vec _
  · exact (KeepsRest.refl _ _ _ _).writeT (fun _ h => h) _

theorem writeRed_paths (c : Ctx) (o : V) (f) : (writeRed c o f).paths = c.pack.paths ∧ (writeRed c o f).sto = c.pack.sto := by
  unfold writeRed
  split
  · exact ⟨rfl, rfl⟩
  · exact ⟨writeT_paths .., writeT_sto ..⟩

/-- A partial written keeps the rest, and the paths. -/
theorem writePartial_keeps (p : Pack) (rms : Bool) (r : Reg) (m : Mask) (f) : KeepsRest (wr (partCls rms) r).regs [] m p (writePartial p rms r m f)
   ∧ (writePartial p rms r m f).paths = p.paths ∧ (writePartial p rms r m f).sto = p.sto := by
  unfold writePartial
  cases rms with
  | true => exact ⟨(KeepsRest.refl _ _ _ _).writePair (mem_regs_pair _).1 (mem_regs_pair _).2 _, rfl, rfl⟩
  | false => refine ⟨(KeepsRest.refl _ _ _ _).writeQuad ?_ ?_ ?_ ?_ _, rfl, rfl⟩ <;> simp [Opnd.regs, wr, partCls, OpClass.regCount, List.range_succ]

/-! ### Values -/

theorem issues_named {i : Instr} {s : State} {c : Ctx} (h : Issues i s c) : ∀ r ∈ namedRegs i, r < c.pack.regCount := by
  have := h.ok
  unfold encodingFault at this
  split at this
  · simp at this
  · split at this
    · simp at this
    · rename_i h2
      simp only [Bool.or_eq_true, not_or, Bool.not_eq_true, List.any_eq_false, decide_eq_true_eq] at h2
      intro r hr
      have := h2.2 r hr
      omega

theorem shaped_regs {p : Pack} (h : p.shaped = true) : p.regs.length = p.regCount := by
  simp [Pack.shaped] at h; exact h.1.1

theorem shaped_preds {p : Pack} (h : p.shaped = true) : p.preds.length = 7 := by
  simp [Pack.shaped] at h; exact h.1.2

theorem shaped_sets {p : Pack} (h : p.shaped = true) : p.sets.length = 32 := by
  simp [Pack.shaped] at h; exact h.2

/-- Sign extension from `w` bits is the two's-complement value of the low `w` bits. -/
theorem sextN_eq_toInt (v w : Nat) (hw : 0 < w) : sextN v w = (BitVec.ofNat w v).toInt := by
  obtain ⟨k, rfl⟩ : ∃ k, w = k + 1 := ⟨w - 1, by omega⟩
  have hk : 0 < 2 ^ k := Nat.pow_pos (by omega)
  have hm : v % (2 ^ k * 2) < 2 ^ k * 2 := Nat.mod_lt _ (by omega)
  have hz : ((2 : Int) ^ (k + 1)) = ((2 ^ k * 2 : Nat) : Int) := by rw [Int.pow_succ]; simp
  simp only [sextN, BitVec.toInt_eq_toNat_cond, BitVec.toNat_ofNat, Nat.add_sub_cancel, Nat.pow_succ, hz]
  by_cases h : 2 ^ k ≤ v % (2 ^ k * 2)
  · rw [if_pos h, if_neg (by omega)]
  · rw [if_neg h, if_pos (by omega)]

theorem valT_eq (p : Pack) (t : Nat) (r : Reg) (l : Nat) : p.valT t r l = tyVal t (p.bitsT t r l) := by
  unfold Pack.valT Pack.bitsT tyVal tyW
  cases hw : wide t <;> cases hs : tySigned t
  · simp [Nat.mod_eq_of_lt (p.reg r.toNat l).isLt]
  · simp [sextN_eq_toInt]
  · simp [Nat.mod_eq_of_lt (p.pair r.toNat l).isLt]
  · simp [sextN_eq_toInt]

/-- val(r, t) as the meanings read it (R183). -/
theorem tval_eq (c : Ctx) (t : Nat) (r : Reg) (l : Nat) : c.tval t r l = c.pack.valT t r l := by
  rw [valT_eq]; rfl

theorem tbits_eq (c : Ctx) (t : Nat) (r : Reg) (l : Nat) : c.tbits t r l = c.pack.bitsT t r l := rfl

theorem pair_writePair (p : Pack) (r : Nat) (m : Mask) (f : Nat → Quad) (l : Nat) (hl : l < 64) (hm : m.has l = true)
    (hr : r + 1 < p.regs.length) : (p.writePair r m f).pair r l = f l := by
  unfold Pack.pair Pack.writePair
  rw [reg_writeReg_same _ _ _ _ _ hl (by simpa using hr), reg_writeReg_other _ (r + 1) r _ _ _ (by omega),
    reg_writeReg_same _ _ _ _ _ hl (by omega)]
  simp only [hm, if_true]
  rw [BitVec.extractLsb'_append_extractLsb'_eq_extractLsb' (by rfl)]
  simp

theorem reg_writeReg_here (p : Pack) (r : Nat) (m : Mask) (f : Nat → Word) (l : Nat) (hl : l < 64) (hm : m.has l = true)
    (hr : r < p.regs.length) : (p.writeReg r m f).reg r l = f l := by
  rw [reg_writeReg_same _ _ _ _ _ hl hr]; simp [hm]

/-- A T destination reads back the bits written, cut to the type's width. -/
theorem bitsT_writeT (p : Pack) (t : Nat) (d : Reg) (m : Mask) (f : Nat → Nat) (l : Nat) (hl : l < 64) (hm : m.has l = true)
    (hr : ∀ r ∈ (wr (tcls t) d).regs, r < p.regs.length) : (p.writeT t d m f).bitsT t d l = f l % 2 ^ tyW t := by
  unfold Pack.writeT Pack.bitsT tyW
  cases hw : wide t
  · simp only [tcls, hw, Opnd.regs, wr, OpClass.regCount] at hr
    simp only [Bool.false_eq_true, if_false]
    rw [reg_writeReg_here _ _ _ _ _ hl hm (hr _ (by simp))]
    simp
  · simp only [tcls, hw, Opnd.regs, wr, OpClass.regCount, if_true] at hr
    simp only [if_true]
    rw [pair_writePair _ _ _ _ _ hl hm (hr _ (by simp [List.range_succ]))]
    simp

theorem tyVal_mod (t b : Nat) : tyVal t (b % 2 ^ tyW t) = tyVal t b := by
  unfold tyVal sextN
  simp

theorem two_pow_cast (w : Nat) : ((2 ^ w : Nat) : Int) = (2 : Int) ^ w := by simp

theorem tyVal_truncI (t : Nat) (x : Int) : tyVal t (truncI x (tyW t)) = if tySigned t then Int.bmod x (2 ^ tyW t) else x % 2 ^ tyW t := by
  have hw : tyW t = 32 ∨ tyW t = 64 := by unfold tyW; split <;> simp
  unfold tyVal truncI sextN Int.bmod
  rcases hw with h | h <;> rw [h] <;> cases tySigned t <;> simp only [Bool.false_eq_true, if_false, if_true] <;> (try split) <;> (try split) <;> omega

/-- What put leaves reads back as its value (R183). -/
theorem tyVal_tyPut (x : Int) (t : Nat) (s : Bool) : tyVal t (tyPut x t s) = putVal x t s := by
  have hw : tyW t = 32 ∨ tyW t = 64 := by unfold tyW; split <;> simp
  unfold tyPut putVal
  cases s
  · simp only [Bool.false_eq_true, if_false]; rw [tyVal_truncI]; cases tySigned t <;> simp
  · simp only [if_true]
    cases hs : tySigned t
    · simp only [Bool.false_eq_true, if_false, satU]; rw [tyVal_truncI, hs]
      simp only [Bool.false_eq_true, if_false]
      rcases hw with h | h <;> rw [h] <;> omega
    · simp only [if_true, satS]; rw [tyVal_truncI, hs]
      simp only [if_true, Int.bmod]
      rcases hw with h | h <;> rw [h] <;> split <;> omega

/-- The T destination of a row of put: it reads as the value of put. -/
theorem valT_writeT_put (p : Pack) (t : Nat) (d : Reg) (m : Mask) (x : Nat → Int) (s : Bool) (l : Nat) (hl : l < 64)
    (hm : m.has l = true) (hr : ∀ r ∈ (wr (tcls t) d).regs, r < p.regs.length) :
    (p.writeT t d m fun l => tyPut (x l) t s).valT t d l = putVal (x l) t s := by
  rw [valT_eq, bitsT_writeT _ _ _ _ _ _ hl hm hr, tyVal_mod, tyVal_tyPut]

@[simp] theorem valT_retire (p : Pack) (i : Instr) (c : Ctx) (t : Nat) (r : Reg) (l : Nat) : (p.retire i c).valT t r l = p.valT t r l := by
  simp [Pack.valT, Pack.pair]

@[simp] theorem bitsT_retire (p : Pack) (i : Instr) (c : Ctx) (t : Nat) (r : Reg) (l : Nat) : (p.retire i c).bitsT t r l = p.bitsT t r l := by
  simp [Pack.bitsT, Pack.pair]

/-- A row that acts on its pack alone gives what its meaning leaves in the pack. -/
theorem gives_runPack {i : Instr} {h : Head} {s : State} {f : Ctx → Pack} {post : Ctx → Pack → Nat → Prop} (hi : headOf i = h)
    (he : exec i s = runPack i h s f)
    (hp : ∀ c, Issues i s c → c.pack.shaped = true → ∀ l < 64, c.exec.has l = true → post c ((f c).retire i c) l) : Gives i s post := by
  subst hi
  intro c hc hcl hs
  exact ⟨_, he.trans (runPack_done hc.ctx hc.ok hcl), fun l hl hm => hp c hc hs l hl hm⟩

/-- The registers of a field lie inside the pack's registers. -/
theorem field_in {i : Instr} {s : State} {c : Ctx} (hc : Issues i s c) (hs : c.pack.shaped = true) {o : Opnd}
    (ho : o ∈ (shape i).ops) : ∀ r ∈ o.regs, r < c.pack.regs.length := by
  intro r hr
  rw [shaped_regs hs]
  exact issues_named hc r (List.mem_flatMap.2 ⟨o, ho, hr⟩)

/-! ### The V/I and V rows of the integer unit -/

theorem immVal_eq (o : I) : immVal o false = immediateOf o := by
  unfold immVal immediateOf
  cases o.lit with
  | none => cases hs : tySigned o.ty <;> simp [sextN_eq_toInt]
  | some q =>
     cases hw : wide o.ty <;> cases hs : tySigned o.ty <;> simp [hs, hw, tyVal, tyW, sextN_eq_toInt]
     · rw [BitVec.toInt_ofNat']; simp; exact Int.emod_bmod ..
     · omega
     · rw [BitVec.toInt_ofNat', BitVec.toInt_eq_toNat_bmod]; simp; exact Int.emod_bmod ..

theorem opB_eq (c : Ctx) (o : VI) (l) : c.opB o l = operandB o c.pack l := by
  cases o with
  | v w => exact tval_eq ..
  | i w => exact immVal_eq w

theorem vi_dest {i : Instr} {s c} (hc : Issues i s c) (hs : c.pack.shaped = true) (o : VI) {tt a b cc} (hsh : shape i = viShape o tt a b cc) :
    ∀ r ∈ (wr (tcls (VI.ty o)) (VI.d o)).regs, r < c.pack.regs.length := 
  field_in hc hs (by rw [hsh]; cases o <;> simp [viShape, VI.ty, VI.d])

theorem gives_vi {i h o s} {tt a b cc} {f x : Int → Int → Int} (hi : headOf i = h) (hsh : shape i = viShape o tt a b cc) (he : exec i s = aluVI i h o s f)
    (hf : ∀ p q, f p q = x p q): Gives i s (fun c p l =>
         p.valT (VI.ty o) (VI.d o) l = putVal (x (c.pack.valT (VI.ty o) (VI.a o) l) (operandB o c.pack l)) (VI.ty o) (VI.sat o)) := by
  refine gives_runPack hi he ?_
  intro c hc hs l hl hm
  rw [valT_retire, valT_writeT_put _ _ _ _ _ _ _ hl hm (vi_dest hc hs o hsh), tval_eq, opB_eq, hf]

theorem v_dest {i : Instr} {s c} (hc : Issues i s c) (hs : c.pack.shaped = true) (t : Nat) (d : Reg) {ops} {k} (hsh : shape i = ⟨k, wr (tcls t) d :: ops⟩) :
    ∀ r ∈ (wr (tcls t) d).regs, r < c.pack.regs.length := 
  field_in hc hs (by rw [hsh]; simp)

theorem gives_v {i : Instr} {h : Head} {o : V} {s} {k ops} {f x : Int → Int → Int → Int} (hi : headOf i = h) (hsh : shape i = ⟨k, wr (tcls o.ty) o.d :: ops⟩) (he : exec i s = aluV i h o s f)
    (hf : ∀ p q r, f p q r = x p q r): Gives i s (fun c p l =>
         p.valT o.ty o.d l = putVal (x (c.pack.valT o.ty o.a l) (c.pack.valT o.ty o.b l) (c.pack.valT o.ty o.c l)) o.ty o.sat) := by
  refine gives_runPack hi he ?_
  intro c hc hs l hl hm
  rw [valT_retire, valT_writeT_put _ _ _ _ _ _ _ hl hm (v_dest hc hs _ _ hsh), tval_eq, tval_eq, tval_eq, hf]

end Sys2Proof.Machine
end

