-- ==== Sys2Proof/Laws/Access.lean ====
section
/-!
SUPPORT. Accesses: what passing the checks of R236 leads to, what the caches and the store queue change, and what a store that performs
leaves in memory and in a scratchpad.
-/

namespace Sys2Proof.Machine

/-! ### The checks -/

/-- An access whose checks let every executing lane through goes on with what the lanes resolved to. -/
theorem globalAccess_reached {i : Instr} {c : Ctx} {s s' : State} {acc : Acc} {size align : Nat} {addr : Nat → Nat} {as : List LaneAcc}
    {ahead : List LaneAcc → State → Bool × State} {bad : State → LaneAcc → Bool} {u : State}
    (h : Reached s c acc size align addr as s') (hcl : Clean i c) (hd : ahead as s' = (true, u)) (hp : ∀ a ∈ as, bad u a = false)
    (k : List LaneAcc → State → Effect) : globalAccess i c s acc size align addr ahead bad k = k as u := by
  have hal : c.exec.lanes.filter (fun l => addr l % align == 0) = c.exec.lanes := by
    apply List.filter_eq_self.2
    intro l hl
    have := (mem_lanes _ _).1 hl
    simp [h.aligned l this.1 this.2]
  unfold globalAccess
  simp only [hal, h.found]
  have hns : (as.map fun a => (a.lane, Resolved.ok a.pa a.t)).any (·.2 == .stall) = false := by
    simp [List.any_eq_false]
  simp only [hns, Bool.false_eq_true, if_false]
  have hfm : passed (as.map fun a => (a.lane, Resolved.ok a.pa a.t)) = as := by
    simp [passed, List.filterMap_map, Function.comp_def]
  rw [laneFaults_clean hcl]
  · simp [hfm, hd]
  · intro l hl he
    simp only [h.aligned l hl he, bne_self_eq_false, Bool.false_eq_true, if_false]
    cases hf : (as.map fun a => (a.lane, Resolved.ok a.pa a.t)).find? (·.1 == l) with
    | none => rfl
    | some x =>
      have hx := List.mem_of_find?_eq_some hf
      obtain ⟨a, ha, rfl⟩ := List.mem_map.1 hx
      have he : a.lane = l := by simpa using List.find?_some hf
      subst he
      simp [hfm, hd, hp a ha]

/-- An access that performs nothing first and reads no poison. -/
theorem globalAccess_plain {i : Instr} {c : Ctx} {s s' : State} {acc : Acc} {size align : Nat} {addr : Nat → Nat} {as : List LaneAcc}
    {bad : State → LaneAcc → Bool} (h : Reached s c acc size align addr as s') (hcl : Clean i c) (hp : ∀ a ∈ as, bad s' a = false)
    (k : List LaneAcc → State → Effect) : globalAccess i c s acc size align addr noneAhead bad k = k as s' :=
  globalAccess_reached h hcl rfl hp k

/-- A load whose bytes lie in no poisoned granule meets no poison. -/
theorem readsPoison_clean {s : State} {loc : PackLoc} {as : List LaneAcc} {n : Nat} (h : Unpoisoned s loc.core as n) :
    ∀ a ∈ as, readsPoison loc n s a = false := fun a ha => by simp [readsPoison, h a ha]

/-- The lanes of the accesses are the executing lanes. -/
theorem resolveLanes_fst (s : State) (p : Pack) (acc : Acc) (size : Nat) (addr : Nat → Nat) (ls : List Nat) :
    (resolveLanes s p acc size addr ls).1.map (·.1) = ls := by
  induction ls generalizing s with
  | nil => rfl
  | cons l ls ih => simp [resolveLanes, ih]

theorem Reached.lanes {s s' : State} {c : Ctx} {acc : Acc} {size align : Nat} {addr : Nat → Nat} {as : List LaneAcc}
    (h : Reached s c acc size align addr as s') : as.map (·.lane) = c.exec.lanes := by
  have := resolveLanes_fst s c.pack acc size addr c.exec.lanes
  rw [h.found] at this
  simpa [List.map_map, Function.comp_def] using this

/-! ### Caches -/

/-- Nothing but caches and drawn choices differs. -/
def CachesOnly (s u : State) : Prop :=
  u = { s with cores := u.cores, near := u.near, scCopies := u.scCopies, fresh := u.fresh } ∧
    ∀ k, (getCore u k).storeQ = (getCore s k).storeQ ∧ (getCore u k).copies = (getCore s k).copies ∧ (getCore u k).tlb = (getCore s k).tlb

theorem CachesOnly.refl (s : State) : CachesOnly s s := ⟨rfl, fun _ => ⟨rfl, rfl, rfl⟩⟩

theorem CachesOnly.trans {s u v : State} (h : CachesOnly s u) (h' : CachesOnly u v) : CachesOnly s v := by
  refine ⟨?_, fun k => ⟨(h'.2 k).1.trans (h.2 k).1, (h'.2 k).2.1.trans (h.2 k).2.1, (h'.2 k).2.2.trans (h.2 k).2.2⟩⟩
  have e := h.1
  have e' := h'.1
  rw [e']; rw [e]

/-- What a core holds of lines, and what its lanes may still see, replaced. -/
theorem cachesOnly_core (s : State) (core : Nat) (f : Core → Core)
    (hf : ∀ c, (f c).id = c.id ∧ (f c).storeQ = c.storeQ ∧ (f c).copies = c.copies ∧ (f c).tlb = c.tlb) : CachesOnly s (modCore s core f) := by
  refine ⟨rfl, fun k => ?_⟩
  by_cases hk : k = core
  · subst hk; rw [getCore_modCore s k f (fun c => (hf c).1)]; exact (hf _).2
  · have : getCore (modCore s core f) k = getCore s k := by
      apply getCore_setCore_other; simp [getCore_id, hf, hk]
    rw [this]; exact ⟨rfl, rfl, rfl⟩

/-- A core's L1 replaced. -/
theorem cachesOnly_l1 (s : State) (core : Nat) (f : List L1Line → List L1Line) :
    CachesOnly s (modCore s core fun c => { c with l1 := f c.l1 }) := cachesOnly_core s core _ fun _ => ⟨rfl, rfl, rfl, rfl⟩

theorem cachesOnly_dropEarly (s : State) (core : Nat) (f : EarlyLine → Bool) : CachesOnly s (dropEarly s core f) := by
  unfold dropEarly
  split
  · exact cachesOnly_core s core _ fun _ => ⟨rfl, rfl, rfl, rfl⟩
  · exact CachesOnly.refl s

theorem cachesOnly_hear (s : State) (p : Pack) (lane sc : Nat) (acq : Bool) (hs : List ReleaseHead) :
    CachesOnly s (hear s p lane sc acq hs) := by
  unfold hear
  dsimp only
  split
  · exact CachesOnly.refl s
  · exact cachesOnly_core s p.loc.core _ fun _ => ⟨rfl, rfl, rfl, rfl⟩

theorem cachesOnly_l1Drop (s : State) (core line : Nat) (instr : Bool) : CachesOnly s (l1Drop s core line instr) := by
  unfold l1Drop
  split
  · exact cachesOnly_l1 s core fun l1 => l1.filter fun x => !(x.line == line && x.instr == instr)
  · exact CachesOnly.refl s

theorem cachesOnly_l1Fill (s : State) (core : Nat) (t : Tlb) (pa : Nat) (instr first : Bool) :
    CachesOnly s (l1Fill s core t pa instr first) := by
  unfold l1Fill
  exact cachesOnly_core s core _ fun _ => ⟨rfl, rfl, rfl, rfl⟩

theorem cachesOnly_l1Acquire (s : State) (core : Nat) : CachesOnly s (l1Acquire s core) := by
  unfold l1Acquire
  split
  · exact CachesOnly.refl s
  · exact cachesOnly_l1 s core fun l1 => l1.filter (·.instr)

theorem cachesOnly_draw (s : State) : CachesOnly s (draw s) := ⟨rfl, fun _ => ⟨rfl, rfl, rfl⟩⟩

/-- Copies of lines in the L2 replaced. -/
theorem cachesOnly_copies (s : State) (near : List NearCopy) (scCopies : List ScCopy) :
    CachesOnly s { s with near := near, scCopies := scCopies } := ⟨rfl, fun _ => ⟨rfl, rfl, rfl⟩⟩

theorem cachesOnly_l2Give (s : State) (die : Nat) : CachesOnly s (l2Give s die) := by
  unfold l2Give
  split
  · split
    · exact cachesOnly_copies s _ s.scCopies
    · split
      · exact cachesOnly_copies s s.near _
      · exact CachesOnly.refl s
  · exact CachesOnly.refl s

theorem cachesOnly_nearRequest (s : State) (line die home : Nat) (w first : Bool) :
    CachesOnly s (nearRequest s line die home w first) := by
  unfold nearRequest
  dsimp only
  split
  · exact CachesOnly.refl s
  · have give (b : Bool) : CachesOnly s (if b then s else l2Give s die) := by
      split
      · exact CachesOnly.refl s
      · exact cachesOnly_l2Give s die
    split
    · exact (give _).trans (cachesOnly_copies _ _ _)
    · exact (give _).trans (cachesOnly_copies _ _ _)

theorem cachesOnly_l2Touch (s : State) (die : Nat) (t : Tlb) (pa : Nat) (first : Bool) : CachesOnly s (l2Touch s die t pa first) := by
  unfold l2Touch
  dsimp only
  split
  · split <;> split
    · exact cachesOnly_l2Give s die
    · exact (cachesOnly_l2Give s die).trans (cachesOnly_copies _ _ _)
    · exact CachesOnly.refl s
    · exact cachesOnly_copies _ _ _
  · split
    · exact CachesOnly.refl s
    · exact cachesOnly_nearRequest ..

theorem cachesOnly_l1Read (s : State) (core : Nat) (t : Tlb) (pa n : Nat) (instr first : Bool) :
    CachesOnly s (l1Read s core t pa n instr first).2 := by
  unfold l1Read
  split
  · split
    · exact ((cachesOnly_draw s).trans (cachesOnly_l2Touch ..)).trans (cachesOnly_l1Fill ..)
    · exact cachesOnly_draw s
  · exact (cachesOnly_l2Touch ..).trans (cachesOnly_l1Fill ..)

theorem cachesOnly_loadPart (s : State) (p : Pack) (ord sc cop : Nat) (a : LaneAcc) (n : Nat) :
    CachesOnly s (loadPart s p ord sc cop a n).2 := by
  have hears (s : State) (hs : List ReleaseHead) :
      CachesOnly s (if ord == 0 then s else hear s p a.lane sc (acqOrd ord) (hs.filter (·.meets (placed a.pa (a.t.kind == 1)) n))) := by
    split
    · exact CachesOnly.refl s
    · exact cachesOnly_hear ..
  have looks (s : State) : CachesOnly s
      (if ord == 0 && cop != 1 then l1Read s p.loc.core a.t a.pa n false (cop == 2)
        else
          (l2Bytes s (dieOf p.loc.core) a.t a.pa n,
            if cop == 1 then l1Drop (l2Touch s (dieOf p.loc.core) a.t a.pa (cop == 2)) p.loc.core (a.t.line a.pa) false
            else l1Fill (l2Touch s (dieOf p.loc.core) a.t a.pa (cop == 2)) p.loc.core a.t a.pa false (cop == 2))).2 := by
    split
    · exact cachesOnly_l1Read ..
    · dsimp only
      split
      · exact (cachesOnly_l2Touch ..).trans (cachesOnly_l1Drop ..)
      · exact (cachesOnly_l2Touch ..).trans (cachesOnly_l1Fill ..)
  unfold loadPart
  dsimp only
  split
  · exact (hears ..).trans (looks _)
  · split
    · exact ((cachesOnly_draw s).trans (hears ..)).trans (cachesOnly_l1Drop ..)
    · exact (((cachesOnly_draw s).trans (cachesOnly_dropEarly ..)).trans (hears ..)).trans (looks _)

theorem cachesOnly_loadLane (s : State) (p : Pack) (ord sc cop : Nat) (a : LaneAcc) (n : Nat) :
    CachesOnly s (loadLane s p ord sc cop a n).2 := by
  unfold loadLane
  split
  · exact cachesOnly_loadPart ..
  · exact (cachesOnly_loadPart ..).trans (cachesOnly_loadPart ..)

theorem cachesOnly_loadLanes (s : State) (p : Pack) (ord sc cop n : Nat) (as : List LaneAcc) :
    CachesOnly s (loadLanes s p ord sc cop n as).2 := by
  induction as generalizing s with
  | nil => exact CachesOnly.refl s
  | cons a as ih => exact (cachesOnly_loadLane ..).trans (ih _)

/-- After an acquire the L1 holds no global data line (R100, R128). -/
theorem l1Acquire_instr (s : State) (core : Nat) : ∀ x ∈ (getCore (l1Acquire s core) core).l1, x.instr = true := by
  unfold l1Acquire
  split
  · rename_i h; simpa [List.all_eq_true] using h
  · rw [getCore_modCore s core (fun c => { c with l1 := c.l1.filter (·.instr) }) (fun _ => rfl)]; simp

theorem CachesOnly.mem {s u : State} (h : CachesOnly s u) : u.mem = s.mem := by rw [h.1]
theorem CachesOnly.herds {s u : State} (h : CachesOnly s u) : u.herds = s.herds := by rw [h.1]
theorem CachesOnly.packs {s u : State} (h : CachesOnly s u) : u.packs = s.packs := by rw [h.1]
theorem CachesOnly.parts {s u : State} (h : CachesOnly s u) : u.parts = s.parts := by rw [h.1]
theorem CachesOnly.remotePages {s u : State} (h : CachesOnly s u) : u.remotePages = s.remotePages := by rw [h.1]

end Sys2Proof.Machine
end

