-- ==== Sys2Proof/Laws/Encoding.lean ====
section
/-!
SUPPORT. The laws of the encoding: every format's fields come back from the word they were packed into, what the format leaves reserved is
zero there, and numbers come back from their bytes.
-/

namespace Sys2Proof

/-! ### Fields of a word -/

theorem fld_of {w lo n : Nat} {x : BitVec n} (h : w / 2 ^ lo % 2 ^ n = x.toNat) : fld w lo n = x := by
  apply BitVec.eq_of_toNat_eq; simp [fld, BitVec.toNat_ofNat, h]

theorem bitAt_of {w lo : Nat} {b : Bool} (h : w / 2 ^ lo % 2 = b.toNat) : bitAt w lo = b := by
  cases b <;> simp [bitAt, h]

/-- A Bool's number is below 2. -/
theorem bool_lt (b : Bool) : b.toNat < 2 := by cases b <;> decide

/-- A head's number is a multiple of bit 51's, and shorter than 64 bits. -/
theorem pkHead_eq {opc : Nat} (x : Bool) (h : Head) (ho : opc < 256) :
    ∃ k, pkHead opc x h = k * 2 ^ 51 ∧ k < 2 ^ 13 ∧ k / 2 ^ 5 = opc ∧ k / 2 ^ 4 % 2 = x.toNat ∧ k / 2 % 2 ^ 3 = h.g.toNat ∧ k % 2 = h.gn.toNat := by
  have := h.g.isLt; have := bool_lt x; have := bool_lt h.gn
  refine ⟨opc * 2 ^ 5 + x.toNat * 2 ^ 4 + h.g.toNat * 2 + h.gn.toNat, ?_, ?_, ?_, ?_, ?_, ?_⟩
  · simp only [pkHead]; omega
  all_goals omega

/-- A body's number stays below bit 51. -/
theorem pkBody_lt (b : Body) : pkBody b < 2 ^ 51 := by
  cases b with
  | v o =>
    have := o.d.isLt; have := o.a.isLt; have := o.b.isLt; have := o.c.isLt; have := o.mod.isLt; have := o.fn.isLt; have := bool_lt o.y
    simp only [pkBody]; omega
  | i o =>
    have := o.d.isLt; have := o.a.isLt; have := o.mod.isLt; have := o.imm.isLt; have := o.fn.isLt; have := bool_lt o.y
    simp only [pkBody]; omega
  | m o =>
    have := o.d.isLt; have := o.a.isLt; have := o.b.isLt; have := o.sz.isLt; have := o.sc.isLt; have := o.ord.isLt; have := o.cop.isLt
    have := o.off.isLt
    simp only [pkBody]; omega
  | ma o =>
    have := o.d.isLt; have := o.a.isLt; have := o.b.isLt; have := o.sz.isLt; have := o.sc.isLt; have := o.ord.isLt; have := o.cop.isLt
    have := o.aop.isLt; have := o.off.isLt
    simp only [pkBody]; omega
  | b o => have := o.a.isLt; have := o.k.isLt; have := o.off.isLt; simp only [pkBody]; omega
  | s o =>
    have := o.d.isLt; have := o.a.isLt; have := o.b.isLt; have := o.idx.isLt; have := bool_lt o.ind; have := o.mod.isLt; have := o.imm.isLt
    simp only [pkBody]; omega
  | x o => have := o.d.isLt; have := o.a.isLt; have := o.b.isLt; have := o.op.isLt; simp only [pkBody]; omega

/-- The first word of an instruction has 64 bits. -/
theorem pkWord_lt {opc : Nat} (x : Bool) (h : Head) (b : Body) (ho : opc < 256) : pkHead opc x h + pkBody b < 2 ^ 64 := by
  obtain ⟨k, hk, hl, _⟩ := pkHead_eq x h ho; have := pkBody_lt b; omega

/-- The head's fields come back. -/
theorem unHead_pk {opc : Nat} (x : Bool) (h : Head) (b : Body) (ho : opc < 256) : unHead (pkHead opc x h + pkBody b) = h := by
  obtain ⟨k, hk, _, _, _, h1, h2⟩ := pkHead_eq x h ho
  have := pkBody_lt b
  have e : (pkHead opc x h + pkBody b) / 2 ^ 51 = k := by omega
  have e1 : (pkHead opc x h + pkBody b) / 2 ^ 52 = k / 2 := by omega
  cases h
  simp only [unHead, Head.mk.injEq]
  exact ⟨fld_of (by rw [e1]; exact h1), bitAt_of (by rw [e]; exact h2)⟩

/-- The opcode and the x bit come back. -/
theorem opcode_pk {opc : Nat} (x : Bool) (h : Head) (b : Body) (ho : opc < 256) :
    (pkHead opc x h + pkBody b) / 2 ^ 56 = opc ∧ bitAt (pkHead opc x h + pkBody b) 55 = x := by
  obtain ⟨k, hk, _, h1, h2, _⟩ := pkHead_eq x h ho
  have := pkBody_lt b
  have e : (pkHead opc x h + pkBody b) / 2 ^ 55 = k / 2 ^ 4 := by omega
  exact ⟨by omega, bitAt_of (by rw [e]; exact h2)⟩

/-- A field below bit 51 is a field of the body. -/
theorem fld_body {opc lo n : Nat} (x : Bool) (h : Head) (b : Body) (ho : opc < 256) (hl : lo + n ≤ 51) :
    (pkHead opc x h + pkBody b) / 2 ^ lo % 2 ^ n = pkBody b / 2 ^ lo % 2 ^ n := by
  obtain ⟨k, hk, _⟩ := pkHead_eq x h ho
  have e : pkHead opc x h = 2 ^ lo * (k * 2 ^ (51 - lo)) := by rw [hk, ← Nat.mul_assoc, Nat.mul_comm (2 ^ lo), Nat.mul_assoc, ← Nat.pow_add]; congr 2; omega
  have e2 : 2 ^ (51 - lo) = 2 ^ n * 2 ^ (51 - lo - n) := by rw [← Nat.pow_add]; congr 1; omega
  rw [e, Nat.mul_add_div (Nat.two_pow_pos lo), e2, ← Nat.mul_assoc, Nat.mul_comm k, Nat.mul_assoc, Nat.mul_add_mod]

/-- A bit below bit 51 is a bit of the body. -/
theorem bit_body {opc lo : Nat} (x : Bool) (h : Head) (b : Body) (ho : opc < 256) (hl : lo < 51) :
    (pkHead opc x h + pkBody b) / 2 ^ lo % 2 = pkBody b / 2 ^ lo % 2 := by
  have := fld_body (lo := lo) (n := 1) x h b ho (by omega); simpa using this

/-! ### The formats -/

theorem unV_pk {opc : Nat} (h : Head) (o : V) (ho : opc < 256) : unV (pkHead opc false h + pkBody (.v o)) = o := by
  have := o.d.isLt; have := o.a.isLt; have := o.b.isLt; have := o.c.isLt; have := o.mod.isLt; have := o.fn.isLt; have := bool_lt o.y
  cases o
  simp only [unV, V.mk.injEq]
  refine ⟨fld_of ?_, fld_of ?_, fld_of ?_, fld_of ?_, fld_of ?_, fld_of ?_, bitAt_of ?_⟩ <;>
    first | rw [bit_body false h _ ho (by omega)] | rw [fld_body false h _ ho (by omega)]
  all_goals simp only [pkBody] at *; omega

theorem unM_pk {opc : Nat} (h : Head) (o : M) (ho : opc < 256) : unM (pkHead opc false h + pkBody (.m o)) = o := by
  have := o.d.isLt; have := o.a.isLt; have := o.b.isLt; have := o.sz.isLt; have := o.sc.isLt; have := o.ord.isLt; have := o.cop.isLt; have := o.off.isLt
  cases o
  simp only [unM, M.mk.injEq]
  refine ⟨fld_of ?_, fld_of ?_, fld_of ?_, fld_of ?_, fld_of ?_, fld_of ?_, fld_of ?_, fld_of ?_⟩ <;>
    first | rw [bit_body false h _ ho (by omega)] | rw [fld_body false h _ ho (by omega)]
  all_goals simp only [pkBody] at *; omega

theorem unMA_pk {opc : Nat} (h : Head) (o : MA) (ho : opc < 256) : unMA (pkHead opc false h + pkBody (.ma o)) = o := by
  have := o.d.isLt; have := o.a.isLt; have := o.b.isLt; have := o.sz.isLt; have := o.sc.isLt; have := o.ord.isLt; have := o.cop.isLt; have := o.aop.isLt; have := o.off.isLt
  cases o
  simp only [unMA, MA.mk.injEq]
  refine ⟨fld_of ?_, fld_of ?_, fld_of ?_, fld_of ?_, fld_of ?_, fld_of ?_, fld_of ?_, fld_of ?_, fld_of ?_⟩ <;>
    first | rw [bit_body false h _ ho (by omega)] | rw [fld_body false h _ ho (by omega)]
  all_goals simp only [pkBody] at *; omega

theorem unB_pk {opc : Nat} (h : Head) (o : B) (ho : opc < 256) : unB (pkHead opc false h + pkBody (.b o)) = o := by
  have := o.a.isLt; have := o.k.isLt; have := o.off.isLt
  cases o
  simp only [unB, B.mk.injEq]
  refine ⟨fld_of ?_, fld_of ?_, fld_of ?_⟩ <;>
    first | rw [bit_body false h _ ho (by omega)] | rw [fld_body false h _ ho (by omega)]
  all_goals simp only [pkBody] at *; omega

theorem unS_pk {opc : Nat} (h : Head) (o : S) (ho : opc < 256) : unS (pkHead opc false h + pkBody (.s o)) = o := by
  have := o.d.isLt; have := o.a.isLt; have := o.b.isLt; have := o.idx.isLt; have := bool_lt o.ind; have := o.mod.isLt; have := o.imm.isLt
  cases o
  simp only [unS, S.mk.injEq]
  refine ⟨fld_of ?_, fld_of ?_, fld_of ?_, fld_of ?_, bitAt_of ?_, fld_of ?_, fld_of ?_⟩ <;>
    first | rw [bit_body false h _ ho (by omega)] | rw [fld_body false h _ ho (by omega)]
  all_goals simp only [pkBody] at *; omega

/-- The I format comes back, its literal with it where x = 1. -/
theorem unI_pk {opc : Nat} (h : Head) (o : I) (w : Nat) (ho : opc < 256) (hw : ∀ q, o.lit = some q → w = q.toNat) :
    unI (pkHead opc o.lit.isSome h + pkBody (.i o)) w = o := by
  have := o.d.isLt; have := o.a.isLt; have := o.mod.isLt; have := o.imm.isLt; have := o.fn.isLt; have := bool_lt o.y
  have hx := (opcode_pk o.lit.isSome h (.i o) ho).2
  cases o with
  | mk d a mod imm fn y lit =>
    simp only [unI, I.mk.injEq]
    refine ⟨fld_of ?_, fld_of ?_, fld_of ?_, fld_of ?_, fld_of ?_, bitAt_of ?_, ?_⟩
    case refine_7 =>
      simp only at hx hw; rw [hx]
      cases lit with
      | none => rfl
      | some q => simp [hw q rfl]
    all_goals first | rw [bit_body _ h _ ho (by omega)] | rw [fld_body _ h _ ho (by omega)]
    all_goals simp only [pkBody] at *; omega

/-- The X format comes back from its word and its literal. -/
theorem unX_pk {opc : Nat} (h : Head) (o : X) (w : Nat) (ho : opc < 256) (hw : pkLit (.x o) = some w) :
    unX (pkHead opc true h + pkBody (.x o)) w = o := by
  have := o.d.isLt; have := o.a.isLt; have := o.b.isLt; have := o.op.isLt
  have := o.wsem.isLt; have := o.wthr.isLt; have := o.ssem.isLt; have := o.sinc.isLt; have := o.low.isLt
  cases o
  simp only [pkLit, Option.some.injEq] at hw
  simp only [unX, X.mk.injEq]
  refine ⟨fld_of ?_, fld_of ?_, fld_of ?_, fld_of ?_, fld_of ?_, fld_of ?_, fld_of ?_, fld_of ?_, fld_of ?_⟩
  case refine_1 | refine_2 | refine_3 | refine_4 => rw [fld_body _ h _ ho (by omega)]; simp only [pkBody] at *; omega
  all_goals simp only at *; omega

/-- Bit 15 of a V/I word (R148). -/
theorem form_pk {opc : Nat} (x : Bool) (h : Head) (ho : opc < 256) :
    (∀ o : V, bitAt (pkHead opc x h + pkBody (.v o)) 15 = decide (128 ≤ o.fn.toNat)) ∧
    (∀ o : I, bitAt (pkHead opc x h + pkBody (.i o)) 15 = decide (128 ≤ o.fn.toNat)) := by
  constructor <;> intro o <;> apply bitAt_of <;> rw [bit_body _ h _ ho (by omega)]
  · have := o.d.isLt; have := o.a.isLt; have := o.b.isLt; have := o.c.isLt; have := o.mod.isLt; have := o.fn.isLt; have := bool_lt o.y
    simp only [pkBody]; by_cases hf : 128 ≤ o.fn.toNat <;> simp [hf] <;> omega
  · have := o.d.isLt; have := o.a.isLt; have := o.mod.isLt; have := o.imm.isLt; have := o.fn.isLt; have := bool_lt o.y
    simp only [pkBody]; by_cases hf : 128 ≤ o.fn.toNat <;> simp [hf] <;> omega

/-- What a format leaves reserved is zero in the words the encoder writes. -/
theorem formOk_pk {opc : Nat} (h : Head) (b : Body) (ho : opc < 256) : formOk (pkHead opc (pkLit b).isSome h + pkBody b) b = none := by
  have hx := (opcode_pk (pkLit b).isSome h b ho).2
  have low : ∀ lo n, lo + n ≤ 51 → pkBody b / 2 ^ lo % 2 ^ n = 0 → (pkHead opc (pkLit b).isSome h + pkBody b) / 2 ^ lo % 2 ^ n = 0 :=
    fun lo n hl hz => by rw [fld_body _ h _ ho hl]; exact hz
  have seven : (2 : Nat) ^ 7 = 128 := rfl
  cases b with
  | v o =>
    have := low 0 7 (by omega) (by simp only [pkBody]; omega)
    simp only [pkLit, Option.isSome_none] at hx this ⊢
    simp only [Nat.pow_zero, Nat.div_one, seven] at this
    simp [formOk, hx, this]
  | i o =>
    have := low 0 7 (by omega) (by simp only [pkBody]; omega)
    simp only [Nat.pow_zero, Nat.div_one, seven] at this
    simp [formOk, this]
  | b o =>
    have := low 32 8 (by omega) (by have := o.off.isLt; have := o.k.isLt; simp only [pkBody]; omega)
    simp only [pkLit, Option.isSome_none] at hx this ⊢
    simp only [formOk, hx, this]; simp
  | x o => simp only [formOk, hx]; simp [pkLit]
  | m o => simp only [formOk, hx]; simp [pkLit]
  | ma o => simp only [formOk, hx]; simp [pkLit]
  | s o => simp only [formOk, hx]; simp [pkLit]

/-! ### Bytes -/

@[simp] theorem bytesLE_length (n w : Nat) : (bytesLE n w).length = n := by
  induction n generalizing w with
  | zero => rfl
  | succ n ih => simp [bytesLE, ih]

/-- A number comes back from its bytes, as far as they reach. -/
theorem numLE_bytesLE (n w : Nat) : numLE (bytesLE n w) = w % 256 ^ n := by
  induction n generalizing w with
  | zero => simp [bytesLE, numLE, Nat.mod_one]
  | succ n ih =>
    have h8 : (BitVec.ofNat 8 w).toNat = w % 256 := BitVec.toNat_ofNat w 8
    simp only [bytesLE, numLE, ih, h8]
    rw [Nat.pow_succ', Nat.mod_mul]

/-- Eight bytes of a 64-bit word. -/
theorem numLE_quad (q : Quad) : numLE (bytesLE 8 q.toNat) = q.toNat := by
  rw [numLE_bytesLE]; exact Nat.mod_eq_of_lt q.isLt

end Sys2Proof
end

