-- ==== Sys2Proof/Laws/PerInstr.lean ====
section
/-!
SUPPORT. For each instruction: the word that the encoder writes for it names it again.
-/

namespace Sys2Proof.Laws.Words

/-- The opcode has eight bits, and the fields of the word that the encoder writes are those of the instruction, where its shape is accepted. -/
def Statement (i : Instr) : Prop :=
  ∀ (opc : Nat) (h : Head) (b : Body) (lit : Nat), parts i = some (opc, h, b) → (shape i).ok = true → (∀ x, pkLit b = some x → x = lit) →
    opc < 256 ∧ ofOpcode opc (pkHead opc (pkLit b).isSome h + pkBody b) lit = some i

/-- fn agrees with the form: bit 7 of it is bit 15 of the word (R148). -/
def agrees : VI → Prop
  | .v o => o.fn.toNat < 128
  | .i o => 128 ≤ o.fn.toNat

/-- A V/I body comes back by its bit 15 where fn agrees with its form (R148). -/
theorem unVI_pk {opc : Nat} (h : Head) (o : VI) (lit : Nat) (ho : opc < 256) (hl : ∀ x, pkLit o.body = some x → x = lit)
    (hf : agrees o) : unVI (pkHead opc (pkLit o.body).isSome h + pkBody o.body) lit = o := by
  cases o with
  | v o => simp only [unVI, VI.body, pkLit, Option.isSome_none, (form_pk false h ho).1 o, unV_pk h o ho]; simp only [agrees] at hf; simp; omega
  | i o =>
    have e : (pkLit (VI.body (.i o))).isSome = o.lit.isSome := by simp [VI.body, pkLit]
    rw [e]
    simp only [unVI, VI.body, (form_pk o.lit.isSome h ho).2 o]
    rw [unI_pk h o lit ho (fun q hq => by have := hl q.toNat (by simp [VI.body, pkLit, hq]); exact this.symm)]
    simp only [agrees] at hf; simp [hf]

/-- A V/I shape settles its form. -/
theorem viShape_form {o : VI} {types satOk variants : Nat → Bool} {shift : Bool} (h : (viShape o types satOk variants shift).ok = true) :
    agrees o := by
  cases o <;> simp [viShape] at h <;> simp only [agrees] <;> omega

/-- So does the shape of `icmp`. -/
theorem icmpShape_form {o : VI} (h : (icmpShape o).ok = true) : agrees o := by
  cases o <;> simp [icmpShape] at h <;> simp only [agrees] <;> omega

/-- The cop field of an M word. -/
theorem copField {opc : Nat} (h : Head) (o : M) (ho : opc < 256) : (pkHead opc false h + pkBody (.m o)) / 2 ^ 16 % 16 = o.cop.toNat := by
  have e : (pkHead opc false h + pkBody (.m o)) / 2 ^ 16 % 16 = pkBody (.m o) / 2 ^ 16 % 16 :=
    fld_body (lo := 16) (n := 4) false h (.m o) ho (by omega)
  have := o.cop.isLt; have := o.off.isLt
  rw [e]; simp only [pkBody]; omega

/-- The mod field of an S word. -/
theorem modField {opc : Nat} (h : Head) (o : S) (ho : opc < 256) : (pkHead opc false h + pkBody (.s o)) / 2 ^ 16 % 128 = o.mod.toNat := by
  have e := fld_body (lo := 16) (n := 7) false h (.s o) ho (by omega)
  have := o.mod.isLt; have := o.imm.isLt
  rw [show (128 : Nat) = 2 ^ 7 from rfl, e]; simp only [pkBody]; omega

/-- The two low bits of the mod field of an S word. -/
theorem modLow {opc : Nat} (h : Head) (o : S) (ho : opc < 256) : (pkHead opc false h + pkBody (.s o)) / 2 ^ 16 % 4 = o.mod.toNat % 4 := by
  have := modField h o ho; omega

/-- The imm16 field and the two low bits of the mod field of an S word. -/
theorem csrFields {opc : Nat} (h : Head) (o : S) (ho : opc < 256) :
    (pkHead opc false h + pkBody (.s o)) % 2 ^ 16 = o.imm.toNat ∧ (pkHead opc false h + pkBody (.s o)) / 2 ^ 16 % 4 = o.mod.toNat % 4 := by
  have e := fld_body (lo := 0) (n := 16) false h (.s o) ho (by omega)
  have := o.imm.isLt
  refine ⟨?_, modLow h o ho⟩
  simp only [Nat.pow_zero, Nat.div_one] at e
  rw [e]; simp only [pkBody]; omega

theorem cacheShape_ok {o : M} {f : Nat → Bool} (h : (cacheShape o f).ok = true) : f o.cop.toNat = true := by
  simp [cacheShape] at h; exact h.2

theorem sysShape_ok {o : S} {m : Bool} {d a b : Opnd} (h : (sysShape o m d a b).ok = true) : m = true := by
  simp [sysShape] at h; exact h.2

theorem csrwShape_ok {o : S} {m n : Bool} (h : (csrwShape o m n).ok = true) : m = true ∧ n = true := by
  unfold csrwShape at h
  split at h
  · simp at h
  · simp at h; exact ⟨h.1.1.1.2, h.2⟩

/-! ### By format -/

/-- A V row whose opcode is its own. -/
theorem ofV {opc : Nat} (f : Head → V → Instr) (h : Head) (o : V) (lit : Nat) (ho : opc < 256)
    (e : ∀ w, ofOpcode opc w lit = some (f (unHead w) (unV w))) :
    ofOpcode opc (pkHead opc (pkLit (.v o)).isSome h + pkBody (.v o)) lit = some (f h o) := by
  rw [e, unHead_pk _ h _ ho]; exact congrArg (fun x => some (f h x)) (unV_pk h o ho)

/-- An MA row. -/
theorem ofMA {opc : Nat} (f : Head → MA → Instr) (h : Head) (o : MA) (lit : Nat) (ho : opc < 256)
    (e : ∀ w, ofOpcode opc w lit = some (f (unHead w) (unMA w))) :
    ofOpcode opc (pkHead opc (pkLit (.ma o)).isSome h + pkBody (.ma o)) lit = some (f h o) := by
  rw [e, unHead_pk _ h _ ho]; exact congrArg (fun x => some (f h x)) (unMA_pk h o ho)

/-- A B row. -/
theorem ofB {opc : Nat} (f : Head → B → Instr) (h : Head) (o : B) (lit : Nat) (ho : opc < 256)
    (e : ∀ w, ofOpcode opc w lit = some (f (unHead w) (unB w))) :
    ofOpcode opc (pkHead opc (pkLit (.b o)).isSome h + pkBody (.b o)) lit = some (f h o) := by
  rw [e, unHead_pk _ h _ ho]; exact congrArg (fun x => some (f h x)) (unB_pk h o ho)

/-- An M row; cop tells rows of one opcode apart. -/
theorem ofM {opc : Nat} (f : Head → M → Instr) (h : Head) (o : M) (lit : Nat) (ho : opc < 256)
    (e : ∀ w, w / 2 ^ 16 % 16 = o.cop.toNat → ofOpcode opc w lit = some (f (unHead w) (unM w))) :
    ofOpcode opc (pkHead opc (pkLit (.m o)).isSome h + pkBody (.m o)) lit = some (f h o) := by
  have e := e _ (copField h o ho); rw [unHead_pk _ h _ ho, unM_pk h o ho] at e; exact e

/-- An S row; mod and imm16 tell rows of one opcode apart. -/
theorem ofS {opc : Nat} (f : Head → S → Instr) (h : Head) (o : S) (lit : Nat) (ho : opc < 256)
    (e : ∀ w, w / 2 ^ 16 % 128 = o.mod.toNat → w / 2 ^ 16 % 4 = o.mod.toNat % 4 → w % 2 ^ 16 = o.imm.toNat →
      ofOpcode opc w lit = some (f (unHead w) (unS w))) :
    ofOpcode opc (pkHead opc (pkLit (.s o)).isSome h + pkBody (.s o)) lit = some (f h o) := by
  have e := e _ (modField h o ho) (csrFields h o ho).2 (csrFields h o ho).1
  rw [unHead_pk _ h _ ho, unS_pk h o ho] at e; exact e

/-- An X row. -/
theorem ofX {opc : Nat} (f : Head → X → Instr) (h : Head) (o : X) (lit : Nat) (ho : opc < 256) (hl : ∀ x, pkLit (.x o) = some x → x = lit)
    (e : ∀ w, ofOpcode opc w lit = some (f (unHead w) (unX w lit))) :
    ofOpcode opc (pkHead opc (pkLit (.x o)).isSome h + pkBody (.x o)) lit = some (f h o) := by
  have hx : pkLit (.x o) = some lit := by rw [← hl _ rfl]; rfl
  rw [e, unHead_pk _ h _ ho]; exact congrArg (fun x => some (f h x)) (unX_pk h o lit ho hx)

/-- An I row. -/
theorem ofI {opc : Nat} (f : Head → I → Instr) (h : Head) (o : I) (lit : Nat) (ho : opc < 256) (hl : ∀ x, pkLit (.i o) = some x → x = lit)
    (e : ∀ w, ofOpcode opc w lit = some (f (unHead w) (unI w lit))) :
    ofOpcode opc (pkHead opc (pkLit (.i o)).isSome h + pkBody (.i o)) lit = some (f h o) := by
  have e' : (pkLit (.i o)).isSome = o.lit.isSome := by simp [pkLit]
  rw [e, unHead_pk _ h _ ho, e']
  exact congrArg (fun x => some (f h x)) (unI_pk h o lit ho fun q hq => (hl q.toNat (by simp [pkLit, hq])).symm)

/-- A V/I row. -/
theorem ofVI {opc : Nat} (f : Head → VI → Instr) (h : Head) (o : VI) (lit : Nat) (ho : opc < 256) (hl : ∀ x, pkLit o.body = some x → x = lit)
    (hf : agrees o)
    (e : ∀ w, ofOpcode opc w lit = some (f (unHead w) (unVI w lit))) :
    ofOpcode opc (pkHead opc (pkLit o.body).isSome h + pkBody o.body) lit = some (f h o) := by
  rw [e, unHead_pk _ h _ ho]; exact congrArg (fun x => some (f h x)) (unVI_pk h o lit ho hl hf)

/-! ### Opcodes that several rows share -/

theorem opcode_67 (w lit : Nat) : ofOpcode 0x67 w lit =
    match w / 2 ^ 16 % 16 with
    | 0 => some (.cinvL1 (unHead w) (unM w))
    | 1 => some (.cinvL1all (unHead w) (unM w))
    | 2 => some (.cinvNear (unHead w) (unM w))
    | _ => none := rfl

theorem opcode_68 (w lit : Nat) : ofOpcode 0x68 w lit =
    match w / 2 ^ 16 % 16 with
    | 0 => some (.cwbHome (unHead w) (unM w))
    | 1 => some (.cwbMem (unHead w) (unM w))
    | 2 => some (.cwbInv (unHead w) (unM w))
    | _ => none := rfl

theorem opcode_E1 (w lit : Nat) : ofOpcode 0xE1 w lit =
    if w % 2 ^ 16 == 4 then some (.partcfgApply (unHead w) (unS w))
    else match w / 2 ^ 16 % 4 with
    | 0 => some (.csrw (unHead w) (unS w))
    | 1 => some (.csrwSet (unHead w) (unS w))
    | 2 => some (.csrwClr (unHead w) (unS w))
    | _ => none := rfl

theorem opcode_E2 (w lit : Nat) : ofOpcode 0xE2 w lit =
    match w / 2 ^ 16 % 128 with
    | 0 => some (.eretRes (unHead w) (unS w))
    | 1 => some (.eretSkip (unHead w) (unS w))
    | 2 => some (.eretTerm (unHead w) (unS w))
    | 3 => some (.eretDefer (unHead w) (unS w))
    | _ => none := rfl

theorem opcode_E3 (w lit : Nat) : ofOpcode 0xE3 w lit =
    match w / 2 ^ 16 % 4 with
    | 0 => some (.tlbinvPage (unHead w) (unS w))
    | 1 => some (.tlbinvRange (unHead w) (unS w))
    | 2 => some (.tlbinvAll (unHead w) (unS w))
    | _ => none := rfl

theorem opcode_E4 (w lit : Nat) : ofOpcode 0xE4 w lit =
    match w / 2 ^ 16 % 128 with
    | 0 => some (.l2opProm (unHead w) (unS w))
    | 1 => some (.l2opAdopt (unHead w) (unS w))
    | _ => none := rfl

theorem opcode_E5 (w lit : Nat) : ofOpcode 0xE5 w lit =
    match w / 2 ^ 16 % 128 with
    | 0 => some (.ctxsaveRec (unHead w) (unS w))
    | 1 => some (.ctxsaveHerd (unHead w) (unS w))
    | _ => none := rfl

theorem opcode_E7 (w lit : Nat) : ofOpcode 0xE7 w lit =
    match w / 2 ^ 16 % 128 with
    | 0 => some (.packhalt (unHead w) (unS w))
    | 1 => some (.packhaltHerd (unHead w) (unS w))
    | 2 => some (.packhaltKill (unHead w) (unS w))
    | _ => none := rfl

theorem opcode_EA (w lit : Nat) : ofOpcode 0xEA w lit =
    match w / 2 ^ 16 % 128 with
    | 0 => some (.pwrlsRd (unHead w) (unS w))
    | 1 => some (.pwrlsSet (unHead w) (unS w))
    | _ => none := rfl

/-! ### Row by row -/

theorem iadd (h : Head) (o : VI) : Statement (.iadd h o) := by
  rintro _ _ _ lit ⟨⟩ ok hl
  exact ⟨by decide, ofVI .iadd h o lit (by decide) hl (viShape_form ok) fun _ => rfl⟩

theorem isub (h : Head) (o : VI) : Statement (.isub h o) := by
  rintro _ _ _ lit ⟨⟩ ok hl
  exact ⟨by decide, ofVI .isub h o lit (by decide) hl (viShape_form ok) fun _ => rfl⟩

theorem imul (h : Head) (o : VI) : Statement (.imul h o) := by
  rintro _ _ _ lit ⟨⟩ ok hl
  exact ⟨by decide, ofVI .imul h o lit (by decide) hl (viShape_form ok) fun _ => rfl⟩

theorem imad (h : Head) (o : V) : Statement (.imad h o) := by
  rintro _ _ _ lit ⟨⟩ _ _
  exact ⟨by decide, ofV .imad h o lit (by decide) fun _ => rfl⟩

theorem imulw (h : Head) (o : V) : Statement (.imulw h o) := by
  rintro _ _ _ lit ⟨⟩ _ _
  exact ⟨by decide, ofV .imulw h o lit (by decide) fun _ => rfl⟩

theorem imin (h : Head) (o : VI) : Statement (.imin h o) := by
  rintro _ _ _ lit ⟨⟩ ok hl
  exact ⟨by decide, ofVI .imin h o lit (by decide) hl (viShape_form ok) fun _ => rfl⟩

theorem imax (h : Head) (o : VI) : Statement (.imax h o) := by
  rintro _ _ _ lit ⟨⟩ ok hl
  exact ⟨by decide, ofVI .imax h o lit (by decide) hl (viShape_form ok) fun _ => rfl⟩

theorem iabs (h : Head) (o : V) : Statement (.iabs h o) := by
  rintro _ _ _ lit ⟨⟩ _ _
  exact ⟨by decide, ofV .iabs h o lit (by decide) fun _ => rfl⟩

theorem iclamp (h : Head) (o : V) : Statement (.iclamp h o) := by
  rintro _ _ _ lit ⟨⟩ _ _
  exact ⟨by decide, ofV .iclamp h o lit (by decide) fun _ => rfl⟩

theorem isad (h : Head) (o : V) : Statement (.isad h o) := by
  rintro _ _ _ lit ⟨⟩ _ _
  exact ⟨by decide, ofV .isad h o lit (by decide) fun _ => rfl⟩

theorem iaddc (h : Head) (o : V) : Statement (.iaddc h o) := by
  rintro _ _ _ lit ⟨⟩ _ _
  exact ⟨by decide, ofV .iaddc h o lit (by decide) fun _ => rfl⟩

theorem lea (h : Head) (o : V) : Statement (.lea h o) := by
  rintro _ _ _ lit ⟨⟩ _ _
  exact ⟨by decide, ofV .lea h o lit (by decide) fun _ => rfl⟩

theorem and (h : Head) (o : VI) : Statement (.and h o) := by
  rintro _ _ _ lit ⟨⟩ ok hl
  exact ⟨by decide, ofVI .and h o lit (by decide) hl (viShape_form ok) fun _ => rfl⟩

theorem or (h : Head) (o : VI) : Statement (.or h o) := by
  rintro _ _ _ lit ⟨⟩ ok hl
  exact ⟨by decide, ofVI .or h o lit (by decide) hl (viShape_form ok) fun _ => rfl⟩

theorem xor (h : Head) (o : VI) : Statement (.xor h o) := by
  rintro _ _ _ lit ⟨⟩ ok hl
  exact ⟨by decide, ofVI .xor h o lit (by decide) hl (viShape_form ok) fun _ => rfl⟩

theorem lop3 (h : Head) (o : V) : Statement (.lop3 h o) := by
  rintro _ _ _ lit ⟨⟩ _ _
  exact ⟨by decide, ofV .lop3 h o lit (by decide) fun _ => rfl⟩

theorem shl (h : Head) (o : VI) : Statement (.shl h o) := by
  rintro _ _ _ lit ⟨⟩ ok hl
  exact ⟨by decide, ofVI .shl h o lit (by decide) hl (viShape_form ok) fun _ => rfl⟩

theorem shr (h : Head) (o : VI) : Statement (.shr h o) := by
  rintro _ _ _ lit ⟨⟩ ok hl
  exact ⟨by decide, ofVI .shr h o lit (by decide) hl (viShape_form ok) fun _ => rfl⟩

theorem sar (h : Head) (o : VI) : Statement (.sar h o) := by
  rintro _ _ _ lit ⟨⟩ ok hl
  exact ⟨by decide, ofVI .sar h o lit (by decide) hl (viShape_form ok) fun _ => rfl⟩

theorem fshf (h : Head) (o : V) : Statement (.fshf h o) := by
  rintro _ _ _ lit ⟨⟩ _ _
  exact ⟨by decide, ofV .fshf h o lit (by decide) fun _ => rfl⟩

theorem bfx (h : Head) (o : V) : Statement (.bfx h o) := by
  rintro _ _ _ lit ⟨⟩ _ _
  exact ⟨by decide, ofV .bfx h o lit (by decide) fun _ => rfl⟩

theorem bfi (h : Head) (o : V) : Statement (.bfi h o) := by
  rintro _ _ _ lit ⟨⟩ _ _
  exact ⟨by decide, ofV .bfi h o lit (by decide) fun _ => rfl⟩

theorem popc (h : Head) (o : V) : Statement (.popc h o) := by
  rintro _ _ _ lit ⟨⟩ _ _
  exact ⟨by decide, ofV .popc h o lit (by decide) fun _ => rfl⟩

theorem clz (h : Head) (o : V) : Statement (.clz h o) := by
  rintro _ _ _ lit ⟨⟩ _ _
  exact ⟨by decide, ofV .clz h o lit (by decide) fun _ => rfl⟩

theorem brev (h : Head) (o : V) : Statement (.brev h o) := by
  rintro _ _ _ lit ⟨⟩ _ _
  exact ⟨by decide, ofV .brev h o lit (by decide) fun _ => rfl⟩

theorem icmp (h : Head) (o : VI) : Statement (.icmp h o) := by
  rintro _ _ _ lit ⟨⟩ ok hl
  exact ⟨by decide, ofVI .icmp h o lit (by decide) hl (icmpShape_form ok) fun _ => rfl⟩

theorem sel (h : Head) (o : V) : Statement (.sel h o) := by
  rintro _ _ _ lit ⟨⟩ _ _
  exact ⟨by decide, ofV .sel h o lit (by decide) fun _ => rfl⟩

theorem idp4 (h : Head) (o : V) : Statement (.idp4 h o) := by
  rintro _ _ _ lit ⟨⟩ _ _
  exact ⟨by decide, ofV .idp4 h o lit (by decide) fun _ => rfl⟩

theorem idp2 (h : Head) (o : V) : Statement (.idp2 h o) := by
  rintro _ _ _ lit ⟨⟩ _ _
  exact ⟨by decide, ofV .idp2 h o lit (by decide) fun _ => rfl⟩

theorem fadd (h : Head) (o : V) : Statement (.fadd h o) := by
  rintro _ _ _ lit ⟨⟩ _ _
  exact ⟨by decide, ofV .fadd h o lit (by decide) fun _ => rfl⟩

theorem fsub (h : Head) (o : V) : Statement (.fsub h o) := by
  rintro _ _ _ lit ⟨⟩ _ _
  exact ⟨by decide, ofV .fsub h o lit (by decide) fun _ => rfl⟩

theorem fmul (h : Head) (o : V) : Statement (.fmul h o) := by
  rintro _ _ _ lit ⟨⟩ _ _
  exact ⟨by decide, ofV .fmul h o lit (by decide) fun _ => rfl⟩

theorem ffma (h : Head) (o : V) : Statement (.ffma h o) := by
  rintro _ _ _ lit ⟨⟩ _ _
  exact ⟨by decide, ofV .ffma h o lit (by decide) fun _ => rfl⟩

theorem fmin (h : Head) (o : V) : Statement (.fmin h o) := by
  rintro _ _ _ lit ⟨⟩ _ _
  exact ⟨by decide, ofV .fmin h o lit (by decide) fun _ => rfl⟩

theorem fmax (h : Head) (o : V) : Statement (.fmax h o) := by
  rintro _ _ _ lit ⟨⟩ _ _
  exact ⟨by decide, ofV .fmax h o lit (by decide) fun _ => rfl⟩

theorem fcmp (h : Head) (o : V) : Statement (.fcmp h o) := by
  rintro _ _ _ lit ⟨⟩ _ _
  exact ⟨by decide, ofV .fcmp h o lit (by decide) fun _ => rfl⟩

theorem fclass (h : Head) (o : V) : Statement (.fclass h o) := by
  rintro _ _ _ lit ⟨⟩ _ _
  exact ⟨by decide, ofV .fclass h o lit (by decide) fun _ => rfl⟩

theorem frnd (h : Head) (o : V) : Statement (.frnd h o) := by
  rintro _ _ _ lit ⟨⟩ _ _
  exact ⟨by decide, ofV .frnd h o lit (by decide) fun _ => rfl⟩

theorem fscale (h : Head) (o : V) : Statement (.fscale h o) := by
  rintro _ _ _ lit ⟨⟩ _ _
  exact ⟨by decide, ofV .fscale h o lit (by decide) fun _ => rfl⟩

theorem cvt (h : Head) (o : V) : Statement (.cvt h o) := by
  rintro _ _ _ lit ⟨⟩ _ _
  exact ⟨by decide, ofV .cvt h o lit (by decide) fun _ => rfl⟩

theorem cvts (h : Head) (o : V) : Statement (.cvts h o) := by
  rintro _ _ _ lit ⟨⟩ _ _
  exact ⟨by decide, ofV .cvts h o lit (by decide) fun _ => rfl⟩

theorem pack (h : Head) (o : V) : Statement (.pack h o) := by
  rintro _ _ _ lit ⟨⟩ _ _
  exact ⟨by decide, ofV .pack h o lit (by decide) fun _ => rfl⟩

theorem hdp2 (h : Head) (o : V) : Statement (.hdp2 h o) := by
  rintro _ _ _ lit ⟨⟩ _ _
  exact ⟨by decide, ofV .hdp2 h o lit (by decide) fun _ => rfl⟩

theorem frcp (h : Head) (o : V) : Statement (.frcp h o) := by
  rintro _ _ _ lit ⟨⟩ _ _
  exact ⟨by decide, ofV .frcp h o lit (by decide) fun _ => rfl⟩

theorem frsq (h : Head) (o : V) : Statement (.frsq h o) := by
  rintro _ _ _ lit ⟨⟩ _ _
  exact ⟨by decide, ofV .frsq h o lit (by decide) fun _ => rfl⟩

theorem fsqrt (h : Head) (o : V) : Statement (.fsqrt h o) := by
  rintro _ _ _ lit ⟨⟩ _ _
  exact ⟨by decide, ofV .fsqrt h o lit (by decide) fun _ => rfl⟩

theorem fdiv (h : Head) (o : V) : Statement (.fdiv h o) := by
  rintro _ _ _ lit ⟨⟩ _ _
  exact ⟨by decide, ofV .fdiv h o lit (by decide) fun _ => rfl⟩

theorem fexp2 (h : Head) (o : V) : Statement (.fexp2 h o) := by
  rintro _ _ _ lit ⟨⟩ _ _
  exact ⟨by decide, ofV .fexp2 h o lit (by decide) fun _ => rfl⟩

theorem flog2 (h : Head) (o : V) : Statement (.flog2 h o) := by
  rintro _ _ _ lit ⟨⟩ _ _
  exact ⟨by decide, ofV .flog2 h o lit (by decide) fun _ => rfl⟩

theorem fsin (h : Head) (o : V) : Statement (.fsin h o) := by
  rintro _ _ _ lit ⟨⟩ _ _
  exact ⟨by decide, ofV .fsin h o lit (by decide) fun _ => rfl⟩

theorem fcos (h : Head) (o : V) : Statement (.fcos h o) := by
  rintro _ _ _ lit ⟨⟩ _ _
  exact ⟨by decide, ofV .fcos h o lit (by decide) fun _ => rfl⟩

theorem ftanh (h : Head) (o : V) : Statement (.ftanh h o) := by
  rintro _ _ _ lit ⟨⟩ _ _
  exact ⟨by decide, ofV .ftanh h o lit (by decide) fun _ => rfl⟩

theorem fsig (h : Head) (o : V) : Statement (.fsig h o) := by
  rintro _ _ _ lit ⟨⟩ _ _
  exact ⟨by decide, ofV .fsig h o lit (by decide) fun _ => rfl⟩

theorem ferf (h : Head) (o : V) : Statement (.ferf h o) := by
  rintro _ _ _ lit ⟨⟩ _ _
  exact ⟨by decide, ofV .ferf h o lit (by decide) fun _ => rfl⟩

theorem gelu (h : Head) (o : V) : Statement (.gelu h o) := by
  rintro _ _ _ lit ⟨⟩ _ _
  exact ⟨by decide, ofV .gelu h o lit (by decide) fun _ => rfl⟩

theorem sfn (h : Head) (o : V) : Statement (.sfn h o) := by
  rintro _ _ _ lit ⟨⟩ _ _
  exact ⟨by decide, ofV .sfn h o lit (by decide) fun _ => rfl⟩

theorem sfnld (h : Head) (o : V) : Statement (.sfnld h o) := by
  rintro _ _ _ lit ⟨⟩ _ _
  exact ⟨by decide, ofV .sfnld h o lit (by decide) fun _ => rfl⟩

theorem sfnsw (h : Head) (o : V) : Statement (.sfnsw h o) := by
  rintro _ _ _ lit ⟨⟩ _ _
  exact ⟨by decide, ofV .sfnsw h o lit (by decide) fun _ => rfl⟩

theorem mxq (h : Head) (o : V) : Statement (.mxq h o) := by
  rintro _ _ _ lit ⟨⟩ _ _
  exact ⟨by decide, ofV .mxq h o lit (by decide) fun _ => rfl⟩

theorem mxdq (h : Head) (o : V) : Statement (.mxdq h o) := by
  rintro _ _ _ lit ⟨⟩ _ _
  exact ⟨by decide, ofV .mxdq h o lit (by decide) fun _ => rfl⟩

theorem shfl (h : Head) (o : V) : Statement (.shfl h o) := by
  rintro _ _ _ lit ⟨⟩ _ _
  exact ⟨by decide, ofV .shfl h o lit (by decide) fun _ => rfl⟩

theorem vote (h : Head) (o : V) : Statement (.vote h o) := by
  rintro _ _ _ lit ⟨⟩ _ _
  exact ⟨by decide, ofV .vote h o lit (by decide) fun _ => rfl⟩

theorem redl (h : Head) (o : V) : Statement (.redl h o) := by
  rintro _ _ _ lit ⟨⟩ _ _
  exact ⟨by decide, ofV .redl h o lit (by decide) fun _ => rfl⟩

theorem scanl (h : Head) (o : V) : Statement (.scanl h o) := by
  rintro _ _ _ lit ⟨⟩ _ _
  exact ⟨by decide, ofV .scanl h o lit (by decide) fun _ => rfl⟩

theorem laneMatch (h : Head) (o : V) : Statement (.laneMatch h o) := by
  rintro _ _ _ lit ⟨⟩ _ _
  exact ⟨by decide, ofV .laneMatch h o lit (by decide) fun _ => rfl⟩

theorem rstat (h : Head) (o : V) : Statement (.rstat h o) := by
  rintro _ _ _ lit ⟨⟩ _ _
  exact ⟨by decide, ofV .rstat h o lit (by decide) fun _ => rfl⟩

theorem rstatf (h : Head) (o : V) : Statement (.rstatf h o) := by
  rintro _ _ _ lit ⟨⟩ _ _
  exact ⟨by decide, ofV .rstatf h o lit (by decide) fun _ => rfl⟩

theorem mov (h : Head) (o : V) : Statement (.mov h o) := by
  rintro _ _ _ lit ⟨⟩ _ _
  exact ⟨by decide, ofV .mov h o lit (by decide) fun _ => rfl⟩

theorem movi (h : Head) (o : I) : Statement (.movi h o) := by
  rintro _ _ _ lit ⟨⟩ _ hl
  exact ⟨by decide, ofI .movi h o lit (by decide) hl fun _ => rfl⟩

theorem pops (h : Head) (o : V) : Statement (.pops h o) := by
  rintro _ _ _ lit ⟨⟩ _ _
  exact ⟨by decide, ofV .pops h o lit (by decide) fun _ => rfl⟩

theorem p2v (h : Head) (o : V) : Statement (.p2v h o) := by
  rintro _ _ _ lit ⟨⟩ _ _
  exact ⟨by decide, ofV .p2v h o lit (by decide) fun _ => rfl⟩

theorem v2p (h : Head) (o : V) : Statement (.v2p h o) := by
  rintro _ _ _ lit ⟨⟩ _ _
  exact ⟨by decide, ofV .v2p h o lit (by decide) fun _ => rfl⟩

theorem srd (h : Head) (o : S) : Statement (.srd h o) := by
  rintro _ _ _ lit ⟨⟩ _ _
  exact ⟨by decide, ofS .srd h o lit (by decide) fun _ _ _ _ => rfl⟩

theorem swr (h : Head) (o : V) : Statement (.swr h o) := by
  rintro _ _ _ lit ⟨⟩ _ _
  exact ⟨by decide, ofV .swr h o lit (by decide) fun _ => rfl⟩

theorem ld (h : Head) (o : M) : Statement (.ld h o) := by
  rintro _ _ _ lit ⟨⟩ _ _
  exact ⟨by decide, ofM .ld h o lit (by decide) fun _ _ => rfl⟩

theorem st (h : Head) (o : M) : Statement (.st h o) := by
  rintro _ _ _ lit ⟨⟩ _ _
  exact ⟨by decide, ofM .st h o lit (by decide) fun _ _ => rfl⟩

theorem lds (h : Head) (o : M) : Statement (.lds h o) := by
  rintro _ _ _ lit ⟨⟩ _ _
  exact ⟨by decide, ofM .lds h o lit (by decide) fun _ _ => rfl⟩

theorem sts (h : Head) (o : M) : Statement (.sts h o) := by
  rintro _ _ _ lit ⟨⟩ _ _
  exact ⟨by decide, ofM .sts h o lit (by decide) fun _ _ => rfl⟩

theorem stse (h : Head) (o : M) : Statement (.stse h o) := by
  rintro _ _ _ lit ⟨⟩ _ _
  exact ⟨by decide, ofM .stse h o lit (by decide) fun _ _ => rfl⟩

theorem ldc (h : Head) (o : M) : Statement (.ldc h o) := by
  rintro _ _ _ lit ⟨⟩ _ _
  exact ⟨by decide, ofM .ldc h o lit (by decide) fun _ _ => rfl⟩

theorem pref (h : Head) (o : M) : Statement (.pref h o) := by
  rintro _ _ _ lit ⟨⟩ _ _
  exact ⟨by decide, ofM .pref h o lit (by decide) fun _ _ => rfl⟩

theorem cinvL1 (h : Head) (o : M) : Statement (.cinvL1 h o) := by
  rintro _ _ _ lit ⟨⟩ ok _
  have ok := cacheShape_ok ok
  refine ⟨by decide, ofM .cinvL1 h o lit (by decide) ?_⟩
  simp at ok
  intros; rw [opcode_67]; simp_all

theorem cinvL1all (h : Head) (o : M) : Statement (.cinvL1all h o) := by
  rintro _ _ _ lit ⟨⟩ ok _
  refine ⟨by decide, ofM .cinvL1all h o lit (by decide) ?_⟩
  simp [shape] at ok
  intros; rw [opcode_67]; simp_all

theorem cinvNear (h : Head) (o : M) : Statement (.cinvNear h o) := by
  rintro _ _ _ lit ⟨⟩ ok _
  have ok := cacheShape_ok ok
  refine ⟨by decide, ofM .cinvNear h o lit (by decide) ?_⟩
  simp at ok
  intros; rw [opcode_67]; simp_all

theorem cwbHome (h : Head) (o : M) : Statement (.cwbHome h o) := by
  rintro _ _ _ lit ⟨⟩ ok _
  have ok := cacheShape_ok ok
  refine ⟨by decide, ofM .cwbHome h o lit (by decide) ?_⟩
  simp at ok
  intros; rw [opcode_68]; simp_all

theorem cwbMem (h : Head) (o : M) : Statement (.cwbMem h o) := by
  rintro _ _ _ lit ⟨⟩ ok _
  have ok := cacheShape_ok ok
  refine ⟨by decide, ofM .cwbMem h o lit (by decide) ?_⟩
  simp at ok
  intros; rw [opcode_68]; simp_all

theorem cwbInv (h : Head) (o : M) : Statement (.cwbInv h o) := by
  rintro _ _ _ lit ⟨⟩ ok _
  have ok := cacheShape_ok ok
  refine ⟨by decide, ofM .cwbInv h o lit (by decide) ?_⟩
  simp at ok
  intros; rw [opcode_68]; simp_all

theorem atom (h : Head) (o : MA) : Statement (.atom h o) := by
  rintro _ _ _ lit ⟨⟩ _ _
  exact ⟨by decide, ofMA .atom h o lit (by decide) fun _ => rfl⟩

theorem atomcas (h : Head) (o : MA) : Statement (.atomcas h o) := by
  rintro _ _ _ lit ⟨⟩ _ _
  exact ⟨by decide, ofMA .atomcas h o lit (by decide) fun _ => rfl⟩

theorem red (h : Head) (o : MA) : Statement (.red h o) := by
  rintro _ _ _ lit ⟨⟩ _ _
  exact ⟨by decide, ofMA .red h o lit (by decide) fun _ => rfl⟩

theorem atoms (h : Head) (o : MA) : Statement (.atoms h o) := by
  rintro _ _ _ lit ⟨⟩ _ _
  exact ⟨by decide, ofMA .atoms h o lit (by decide) fun _ => rfl⟩

theorem atomscas (h : Head) (o : MA) : Statement (.atomscas h o) := by
  rintro _ _ _ lit ⟨⟩ _ _
  exact ⟨by decide, ofMA .atomscas h o lit (by decide) fun _ => rfl⟩

theorem fence (h : Head) (o : M) : Statement (.fence h o) := by
  rintro _ _ _ lit ⟨⟩ _ _
  exact ⟨by decide, ofM .fence h o lit (by decide) fun _ _ => rfl⟩

theorem barinit (h : Head) (o : S) : Statement (.barinit h o) := by
  rintro _ _ _ lit ⟨⟩ _ _
  exact ⟨by decide, ofS .barinit h o lit (by decide) fun _ _ _ _ => rfl⟩

theorem bararv (h : Head) (o : S) : Statement (.bararv h o) := by
  rintro _ _ _ lit ⟨⟩ _ _
  exact ⟨by decide, ofS .bararv h o lit (by decide) fun _ _ _ _ => rfl⟩

theorem barsync (h : Head) (o : S) : Statement (.barsync h o) := by
  rintro _ _ _ lit ⟨⟩ _ _
  exact ⟨by decide, ofS .barsync h o lit (by decide) fun _ _ _ _ => rfl⟩

theorem barexp (h : Head) (o : S) : Statement (.barexp h o) := by
  rintro _ _ _ lit ⟨⟩ _ _
  exact ⟨by decide, ofS .barexp h o lit (by decide) fun _ _ _ _ => rfl⟩

theorem barwait (h : Head) (o : S) : Statement (.barwait h o) := by
  rintro _ _ _ lit ⟨⟩ _ _
  exact ⟨by decide, ofS .barwait h o lit (by decide) fun _ _ _ _ => rfl⟩

theorem barinv (h : Head) (o : S) : Statement (.barinv h o) := by
  rintro _ _ _ lit ⟨⟩ _ _
  exact ⟨by decide, ofS .barinv h o lit (by decide) fun _ _ _ _ => rfl⟩

theorem tcopy (h : Head) (o : S) : Statement (.tcopy h o) := by
  rintro _ _ _ lit ⟨⟩ _ _
  exact ⟨by decide, ofS .tcopy h o lit (by decide) fun _ _ _ _ => rfl⟩

theorem tstore (h : Head) (o : S) : Statement (.tstore h o) := by
  rintro _ _ _ lit ⟨⟩ _ _
  exact ⟨by decide, ofS .tstore h o lit (by decide) fun _ _ _ _ => rfl⟩

theorem tgather (h : Head) (o : S) : Statement (.tgather h o) := by
  rintro _ _ _ lit ⟨⟩ _ _
  exact ⟨by decide, ofS .tgather h o lit (by decide) fun _ _ _ _ => rfl⟩

theorem opmclm (h : Head) (o : S) : Statement (.opmclm h o) := by
  rintro _ _ _ lit ⟨⟩ _ _
  exact ⟨by decide, ofS .opmclm h o lit (by decide) fun _ _ _ _ => rfl⟩

theorem opmrel (h : Head) (o : S) : Statement (.opmrel h o) := by
  rintro _ _ _ lit ⟨⟩ _ _
  exact ⟨by decide, ofS .opmrel h o lit (by decide) fun _ _ _ _ => rfl⟩

theorem tcancel (h : Head) (o : S) : Statement (.tcancel h o) := by
  rintro _ _ _ lit ⟨⟩ _ _
  exact ⟨by decide, ofS .tcancel h o lit (by decide) fun _ _ _ _ => rfl⟩

theorem bra (h : Head) (o : B) : Statement (.bra h o) := by
  rintro _ _ _ lit ⟨⟩ _ _
  exact ⟨by decide, ofB .bra h o lit (by decide) fun _ => rfl⟩

theorem brx (h : Head) (o : B) : Statement (.brx h o) := by
  rintro _ _ _ lit ⟨⟩ _ _
  exact ⟨by decide, ofB .brx h o lit (by decide) fun _ => rfl⟩

theorem brvote (h : Head) (o : B) : Statement (.brvote h o) := by
  rintro _ _ _ lit ⟨⟩ _ _
  exact ⟨by decide, ofB .brvote h o lit (by decide) fun _ => rfl⟩

theorem call (h : Head) (o : B) : Statement (.call h o) := by
  rintro _ _ _ lit ⟨⟩ _ _
  exact ⟨by decide, ofB .call h o lit (by decide) fun _ => rfl⟩

theorem callx (h : Head) (o : B) : Statement (.callx h o) := by
  rintro _ _ _ lit ⟨⟩ _ _
  exact ⟨by decide, ofB .callx h o lit (by decide) fun _ => rfl⟩

theorem ret (h : Head) (o : B) : Statement (.ret h o) := by
  rintro _ _ _ lit ⟨⟩ _ _
  exact ⟨by decide, ofB .ret h o lit (by decide) fun _ => rfl⟩

theorem exit (h : Head) (o : B) : Statement (.exit h o) := by
  rintro _ _ _ lit ⟨⟩ _ _
  exact ⟨by decide, ofB .exit h o lit (by decide) fun _ => rfl⟩

theorem trap (h : Head) (o : B) : Statement (.trap h o) := by
  rintro _ _ _ lit ⟨⟩ _ _
  exact ⟨by decide, ofB .trap h o lit (by decide) fun _ => rfl⟩

theorem bkpt (h : Head) (o : B) : Statement (.bkpt h o) := by
  rintro _ _ _ lit ⟨⟩ _ _
  exact ⟨by decide, ofB .bkpt h o lit (by decide) fun _ => rfl⟩

theorem nop (h : Head) (o : B) : Statement (.nop h o) := by
  rintro _ _ _ lit ⟨⟩ _ _
  exact ⟨by decide, ofB .nop h o lit (by decide) fun _ => rfl⟩

theorem yield (h : Head) (o : B) : Statement (.yield h o) := by
  rintro _ _ _ lit ⟨⟩ _ _
  exact ⟨by decide, ofB .yield h o lit (by decide) fun _ => rfl⟩

theorem rsopen (h : Head) (o : S) : Statement (.rsopen h o) := by
  rintro _ _ _ lit ⟨⟩ _ _
  exact ⟨by decide, ofS .rsopen h o lit (by decide) fun _ _ _ _ => rfl⟩

theorem rsenter (h : Head) (o : S) : Statement (.rsenter h o) := by
  rintro _ _ _ lit ⟨⟩ _ _
  exact ⟨by decide, ofS .rsenter h o lit (by decide) fun _ _ _ _ => rfl⟩

theorem rsquit (h : Head) (o : S) : Statement (.rsquit h o) := by
  rintro _ _ _ lit ⟨⟩ _ _
  exact ⟨by decide, ofS .rsquit h o lit (by decide) fun _ _ _ _ => rfl⟩

theorem rsarv (h : Head) (o : S) : Statement (.rsarv h o) := by
  rintro _ _ _ lit ⟨⟩ _ _
  exact ⟨by decide, ofS .rsarv h o lit (by decide) fun _ _ _ _ => rfl⟩

theorem rswait (h : Head) (o : S) : Statement (.rswait h o) := by
  rintro _ _ _ lit ⟨⟩ _ _
  exact ⟨by decide, ofS .rswait h o lit (by decide) fun _ _ _ _ => rfl⟩

theorem rsfree (h : Head) (o : S) : Statement (.rsfree h o) := by
  rintro _ _ _ lit ⟨⟩ _ _
  exact ⟨by decide, ofS .rsfree h o lit (by decide) fun _ _ _ _ => rfl⟩

theorem rsget (h : Head) (o : S) : Statement (.rsget h o) := by
  rintro _ _ _ lit ⟨⟩ _ _
  exact ⟨by decide, ofS .rsget h o lit (by decide) fun _ _ _ _ => rfl⟩

theorem rsput (h : Head) (o : S) : Statement (.rsput h o) := by
  rintro _ _ _ lit ⟨⟩ _ _
  exact ⟨by decide, ofS .rsput h o lit (by decide) fun _ _ _ _ => rfl⟩

theorem spxenter (h : Head) (o : X) : Statement (.spxenter h o) := by
  rintro _ _ _ lit ⟨⟩ _ hl
  exact ⟨by decide, ofX .spxenter h o lit (by decide) hl fun _ => rfl⟩

theorem spxleave (h : Head) (o : X) : Statement (.spxleave h o) := by
  rintro _ _ _ lit ⟨⟩ _ hl
  exact ⟨by decide, ofX .spxleave h o lit (by decide) hl fun _ => rfl⟩

theorem spxstrm (h : Head) (o : X) : Statement (.spxstrm h o) := by
  rintro _ _ _ lit ⟨⟩ _ hl
  exact ⟨by decide, ofX .spxstrm h o lit (by decide) hl fun _ => rfl⟩

theorem spxsem (h : Head) (o : X) : Statement (.spxsem h o) := by
  rintro _ _ _ lit ⟨⟩ _ hl
  exact ⟨by decide, ofX .spxsem h o lit (by decide) hl fun _ => rfl⟩

theorem spxsweep (h : Head) (o : X) : Statement (.spxsweep h o) := by
  rintro _ _ _ lit ⟨⟩ _ hl
  exact ⟨by decide, ofX .spxsweep h o lit (by decide) hl fun _ => rfl⟩

theorem spxbar (h : Head) (o : X) : Statement (.spxbar h o) := by
  rintro _ _ _ lit ⟨⟩ _ hl
  exact ⟨by decide, ofX .spxbar h o lit (by decide) hl fun _ => rfl⟩

theorem spxput (h : Head) (o : X) : Statement (.spxput h o) := by
  rintro _ _ _ lit ⟨⟩ _ hl
  exact ⟨by decide, ofX .spxput h o lit (by decide) hl fun _ => rfl⟩

theorem spxget (h : Head) (o : X) : Statement (.spxget h o) := by
  rintro _ _ _ lit ⟨⟩ _ hl
  exact ⟨by decide, ofX .spxget h o lit (by decide) hl fun _ => rfl⟩

theorem spxstat (h : Head) (o : X) : Statement (.spxstat h o) := by
  rintro _ _ _ lit ⟨⟩ _ hl
  exact ⟨by decide, ofX .spxstat h o lit (by decide) hl fun _ => rfl⟩

theorem launch (h : Head) (o : X) : Statement (.launch h o) := by
  rintro _ _ _ lit ⟨⟩ _ hl
  exact ⟨by decide, ofX .launch h o lit (by decide) hl fun _ => rfl⟩

theorem gateadd (h : Head) (o : X) : Statement (.gateadd h o) := by
  rintro _ _ _ lit ⟨⟩ _ hl
  exact ⟨by decide, ofX .gateadd h o lit (by decide) hl fun _ => rfl⟩

theorem gatewait (h : Head) (o : X) : Statement (.gatewait h o) := by
  rintro _ _ _ lit ⟨⟩ _ hl
  exact ⟨by decide, ofX .gatewait h o lit (by decide) hl fun _ => rfl⟩

theorem matcharm (h : Head) (o : X) : Statement (.matcharm h o) := by
  rintro _ _ _ lit ⟨⟩ _ hl
  exact ⟨by decide, ofX .matcharm h o lit (by decide) hl fun _ => rfl⟩

theorem msgsend (h : Head) (o : X) : Statement (.msgsend h o) := by
  rintro _ _ _ lit ⟨⟩ _ hl
  exact ⟨by decide, ofX .msgsend h o lit (by decide) hl fun _ => rfl⟩

theorem csrr (h : Head) (o : S) : Statement (.csrr h o) := by
  rintro _ _ _ lit ⟨⟩ _ _
  exact ⟨by decide, ofS .csrr h o lit (by decide) fun _ _ _ _ => rfl⟩

theorem csrw (h : Head) (o : S) : Statement (.csrw h o) := by
  rintro _ _ _ lit ⟨⟩ ok _
  have ok := csrwShape_ok ok
  refine ⟨by decide, ofS .csrw h o lit (by decide) ?_⟩
  simp at ok
  intros; rw [opcode_E1]; simp_all

theorem csrwSet (h : Head) (o : S) : Statement (.csrwSet h o) := by
  rintro _ _ _ lit ⟨⟩ ok _
  have ok := csrwShape_ok ok
  refine ⟨by decide, ofS .csrwSet h o lit (by decide) ?_⟩
  simp at ok
  intros; rw [opcode_E1]; simp_all

theorem csrwClr (h : Head) (o : S) : Statement (.csrwClr h o) := by
  rintro _ _ _ lit ⟨⟩ ok _
  have ok := csrwShape_ok ok
  refine ⟨by decide, ofS .csrwClr h o lit (by decide) ?_⟩
  simp at ok
  intros; rw [opcode_E1]; simp_all

theorem partcfgApply (h : Head) (o : S) : Statement (.partcfgApply h o) := by
  rintro _ _ _ lit ⟨⟩ ok _
  have ok := csrwShape_ok ok
  refine ⟨by decide, ofS .partcfgApply h o lit (by decide) ?_⟩
  simp at ok
  intros; rw [opcode_E1]; simp_all

theorem eretRes (h : Head) (o : S) : Statement (.eretRes h o) := by
  rintro _ _ _ lit ⟨⟩ ok _
  have ok := sysShape_ok ok
  refine ⟨by decide, ofS .eretRes h o lit (by decide) ?_⟩
  simp at ok
  intros; rw [opcode_E2]; simp_all

theorem eretSkip (h : Head) (o : S) : Statement (.eretSkip h o) := by
  rintro _ _ _ lit ⟨⟩ ok _
  have ok := sysShape_ok ok
  refine ⟨by decide, ofS .eretSkip h o lit (by decide) ?_⟩
  simp at ok
  intros; rw [opcode_E2]; simp_all

theorem eretTerm (h : Head) (o : S) : Statement (.eretTerm h o) := by
  rintro _ _ _ lit ⟨⟩ ok _
  have ok := sysShape_ok ok
  refine ⟨by decide, ofS .eretTerm h o lit (by decide) ?_⟩
  simp at ok
  intros; rw [opcode_E2]; simp_all

theorem eretDefer (h : Head) (o : S) : Statement (.eretDefer h o) := by
  rintro _ _ _ lit ⟨⟩ ok _
  have ok := sysShape_ok ok
  refine ⟨by decide, ofS .eretDefer h o lit (by decide) ?_⟩
  simp at ok
  intros; rw [opcode_E2]; simp_all

theorem tlbinvPage (h : Head) (o : S) : Statement (.tlbinvPage h o) := by
  rintro _ _ _ lit ⟨⟩ ok _
  have ok := sysShape_ok ok
  refine ⟨by decide, ofS .tlbinvPage h o lit (by decide) ?_⟩
  simp at ok
  intros; rw [opcode_E3]; simp_all

theorem tlbinvRange (h : Head) (o : S) : Statement (.tlbinvRange h o) := by
  rintro _ _ _ lit ⟨⟩ ok _
  have ok := sysShape_ok ok
  refine ⟨by decide, ofS .tlbinvRange h o lit (by decide) ?_⟩
  simp at ok
  intros; rw [opcode_E3]; simp_all

theorem tlbinvAll (h : Head) (o : S) : Statement (.tlbinvAll h o) := by
  rintro _ _ _ lit ⟨⟩ ok _
  have ok := sysShape_ok ok
  refine ⟨by decide, ofS .tlbinvAll h o lit (by decide) ?_⟩
  simp at ok
  intros; rw [opcode_E3]; simp_all

theorem l2opProm (h : Head) (o : S) : Statement (.l2opProm h o) := by
  rintro _ _ _ lit ⟨⟩ ok _
  have ok := sysShape_ok ok
  refine ⟨by decide, ofS .l2opProm h o lit (by decide) ?_⟩
  simp at ok
  intros; rw [opcode_E4]; simp_all

theorem l2opAdopt (h : Head) (o : S) : Statement (.l2opAdopt h o) := by
  rintro _ _ _ lit ⟨⟩ ok _
  have ok := sysShape_ok ok
  refine ⟨by decide, ofS .l2opAdopt h o lit (by decide) ?_⟩
  simp at ok
  intros; rw [opcode_E4]; simp_all

theorem ctxsaveRec (h : Head) (o : S) : Statement (.ctxsaveRec h o) := by
  rintro _ _ _ lit ⟨⟩ ok _
  have ok := sysShape_ok ok
  refine ⟨by decide, ofS .ctxsaveRec h o lit (by decide) ?_⟩
  simp at ok
  intros; rw [opcode_E5]; simp_all

theorem ctxsaveHerd (h : Head) (o : S) : Statement (.ctxsaveHerd h o) := by
  rintro _ _ _ lit ⟨⟩ ok _
  have ok := sysShape_ok ok
  refine ⟨by decide, ofS .ctxsaveHerd h o lit (by decide) ?_⟩
  simp at ok
  intros; rw [opcode_E5]; simp_all

theorem ctxload (h : Head) (o : S) : Statement (.ctxload h o) := by
  rintro _ _ _ lit ⟨⟩ _ _
  exact ⟨by decide, ofS .ctxload h o lit (by decide) fun _ _ _ _ => rfl⟩

theorem packhalt (h : Head) (o : S) : Statement (.packhalt h o) := by
  rintro _ _ _ lit ⟨⟩ ok _
  have ok := sysShape_ok ok
  refine ⟨by decide, ofS .packhalt h o lit (by decide) ?_⟩
  simp at ok
  intros; rw [opcode_E7]; simp_all

theorem packhaltHerd (h : Head) (o : S) : Statement (.packhaltHerd h o) := by
  rintro _ _ _ lit ⟨⟩ ok _
  have ok := sysShape_ok ok
  refine ⟨by decide, ofS .packhaltHerd h o lit (by decide) ?_⟩
  simp at ok
  intros; rw [opcode_E7]; simp_all

theorem packhaltKill (h : Head) (o : S) : Statement (.packhaltKill h o) := by
  rintro _ _ _ lit ⟨⟩ ok _
  have ok := sysShape_ok ok
  refine ⟨by decide, ofS .packhaltKill h o lit (by decide) ?_⟩
  simp at ok
  intros; rw [opcode_E7]; simp_all

theorem packresume (h : Head) (o : S) : Statement (.packresume h o) := by
  rintro _ _ _ lit ⟨⟩ _ _
  exact ⟨by decide, ofS .packresume h o lit (by decide) fun _ _ _ _ => rfl⟩

theorem whistle (h : Head) (o : S) : Statement (.whistle h o) := by
  rintro _ _ _ lit ⟨⟩ _ _
  exact ⟨by decide, ofS .whistle h o lit (by decide) fun _ _ _ _ => rfl⟩

theorem pwrlsRd (h : Head) (o : S) : Statement (.pwrlsRd h o) := by
  rintro _ _ _ lit ⟨⟩ ok _
  have ok := sysShape_ok ok
  refine ⟨by decide, ofS .pwrlsRd h o lit (by decide) ?_⟩
  simp at ok
  intros; rw [opcode_EA]; simp_all

theorem pwrlsSet (h : Head) (o : S) : Statement (.pwrlsSet h o) := by
  rintro _ _ _ lit ⟨⟩ ok _
  have ok := sysShape_ok ok
  refine ⟨by decide, ofS .pwrlsSet h o lit (by decide) ?_⟩
  simp at ok
  intros; rw [opcode_EA]; simp_all

theorem storePerform (core idx : Nat) : Statement (.storePerform core idx) := fun _ _ _ _ hp => nomatch hp

theorem packFault (p : PathAt) (f : FaultReq) : Statement (.packFault p f) := fun _ _ _ _ hp => nomatch hp

theorem handlerWake (core quarter : Nat) : Statement (.handlerWake core quarter) := fun _ _ _ _ hp => nomatch hp

theorem starvationPriority (p : PackLoc) : Statement (.starvationPriority p) := fun _ _ _ _ hp => nomatch hp

theorem slotRotation (p : PathAt) : Statement (.slotRotation p) := fun _ _ _ _ hp => nomatch hp

theorem heldPath (p : PathAt) : Statement (.heldPath p) := fun _ _ _ _ hp => nomatch hp

theorem orphanedRejoinSet (p : PackLoc) : Statement (.orphanedRejoinSet p) := fun _ _ _ _ hp => nomatch hp

theorem barrierTimeout (p : PathAt) : Statement (.barrierTimeout p) := fun _ _ _ _ hp => nomatch hp

theorem gatewaitReread (p : PathAt) : Statement (.gatewaitReread p) := fun _ _ _ _ hp => nomatch hp

theorem copyLineLanding (core entry line : Nat) : Statement (.copyLineLanding core entry line) := fun _ _ _ _ hp => nomatch hp

theorem copyFault (core entry line : Nat) : Statement (.copyFault core entry line) := fun _ _ _ _ hp => nomatch hp

theorem copyRequest (res cell : Nat) : Statement (.copyRequest res cell) := fun _ _ _ _ hp => nomatch hp

theorem herdPlacement (part : Nat) (seq : Word) (places : List Place) : Statement (.herdPlacement part seq places) := fun _ _ _ _ hp => nomatch hp

theorem herdResumption (part : Nat) (seq : Word) (herds : List Nat) (places : List Place) : Statement (.herdResumption part seq herds places) := fun _ _ _ _ hp => nomatch hp

theorem gateObservation (part : Nat) (gate : Quad) : Statement (.gateObservation part gate) := fun _ _ _ _ hp => nomatch hp

theorem agingLevel (part : Nat) (seq : Word) : Statement (.agingLevel part seq) := fun _ _ _ _ hp => nomatch hp

theorem backfillStop (part : Nat) : Statement (.backfillStop part) := fun _ _ _ _ hp => nomatch hp

theorem priorityPreemption (part : Nat) : Statement (.priorityPreemption part) := fun _ _ _ _ hp => nomatch hp

theorem herdSave (herd : Nat) : Statement (.herdSave herd) := fun _ _ _ _ hp => nomatch hp

theorem validateStallPreemption (p : PackLoc) : Statement (.validateStallPreemption p) := fun _ _ _ _ hp => nomatch hp

theorem regionParking (p : PackLoc) : Statement (.regionParking p) := fun _ _ _ _ hp => nomatch hp

theorem leaseGrant (die : Nat) : Statement (.leaseGrant die) := fun _ _ _ _ hp => nomatch hp

theorem mouldInstall (res : Nat) : Statement (.mouldInstall res) := fun _ _ _ _ hp => nomatch hp

theorem residencyDrained (res : Nat) : Statement (.residencyDrained res) := fun _ _ _ _ hp => nomatch hp

theorem whistleCut (res : Nat) : Statement (.whistleCut res) := fun _ _ _ _ hp => nomatch hp

theorem cellWhistle (res cell : Nat) : Statement (.cellWhistle res cell) := fun _ _ _ _ hp => nomatch hp

theorem whistleCutComplete (res : Nat) : Statement (.whistleCutComplete res) := fun _ _ _ _ hp => nomatch hp

theorem launchCompletion (part : Nat) (seq : Word) : Statement (.launchCompletion part seq) := fun _ _ _ _ hp => nomatch hp

theorem completionMessageDrop (part : Nat) (seq : Word) : Statement (.completionMessageDrop part seq) := fun _ _ _ _ hp => nomatch hp

theorem herdEnd (herd : Nat) : Statement (.herdEnd herd) := fun _ _ _ _ hp => nomatch hp

theorem feederDelivery (res feeder : Nat) : Statement (.feederDelivery res feeder) := fun _ _ _ _ hp => nomatch hp

theorem commandBegin (res port : Nat) : Statement (.commandBegin res port) := fun _ _ _ _ hp => nomatch hp

theorem commandComplete (res port : Nat) : Statement (.commandComplete res port) := fun _ _ _ _ hp => nomatch hp

theorem sweepGroupBegin (res group : Nat) : Statement (.sweepGroupBegin res group) := fun _ _ _ _ hp => nomatch hp

theorem portFault (res port : Nat) : Statement (.portFault res port) := fun _ _ _ _ hp => nomatch hp

theorem quiescentPoint (res : Nat) : Statement (.quiescentPoint res) := fun _ _ _ _ hp => nomatch hp

theorem pass (res cell : Nat) : Statement (.pass res cell) := fun _ _ _ _ hp => nomatch hp

theorem fork (res cell : Nat) : Statement (.fork res cell) := fun _ _ _ _ hp => nomatch hp

theorem merge (res cell : Nat) : Statement (.merge res cell) := fun _ _ _ _ hp => nomatch hp

theorem filter (res cell : Nat) : Statement (.filter res cell) := fun _ _ _ _ hp => nomatch hp

theorem cnt (res cell : Nat) : Statement (.cnt res cell) := fun _ _ _ _ hp => nomatch hp

theorem alu (res cell : Nat) : Statement (.alu res cell) := fun _ _ _ _ hp => nomatch hp

theorem fmac (res cell : Nat) : Statement (.fmac res cell) := fun _ _ _ _ hp => nomatch hp

theorem sfu (res cell : Nat) : Statement (.sfu res cell) := fun _ _ _ _ hp => nomatch hp

theorem cvtCell (res cell : Nat) : Statement (.cvtCell res cell) := fun _ _ _ _ hp => nomatch hp

theorem rstatCell (res cell : Nat) : Statement (.rstatCell res cell) := fun _ _ _ _ hp => nomatch hp

theorem macs (res cell : Nat) : Statement (.macs res cell) := fun _ _ _ _ hp => nomatch hp

theorem cmpx (res cell : Nat) : Statement (.cmpx res cell) := fun _ _ _ _ hp => nomatch hp

theorem agen (res cell : Nat) : Statement (.agen res cell) := fun _ _ _ _ hp => nomatch hp

theorem mpld (res cell : Nat) : Statement (.mpld res cell) := fun _ _ _ _ hp => nomatch hp

theorem mpst (res cell : Nat) : Statement (.mpst res cell) := fun _ _ _ _ hp => nomatch hp

theorem spld (res cell : Nat) : Statement (.spld res cell) := fun _ _ _ _ hp => nomatch hp

theorem spst (res cell : Nat) : Statement (.spst res cell) := fun _ _ _ _ hp => nomatch hp

theorem gath (res cell : Nat) : Statement (.gath res cell) := fun _ _ _ _ hp => nomatch hp

theorem rqst (res cell : Nat) : Statement (.rqst res cell) := fun _ _ _ _ hp => nomatch hp

theorem tas (res cell : Nat) : Statement (.tas res cell) := fun _ _ _ _ hp => nomatch hp

theorem accd (res cell : Nat) : Statement (.accd res cell) := fun _ _ _ _ hp => nomatch hp

theorem sems (res cell : Nat) : Statement (.sems res cell) := fun _ _ _ _ hp => nomatch hp

theorem pageWalk (die part : Nat) (va : Quad) : Statement (.pageWalk die part va) := fun _ _ _ _ hp => nomatch hp

theorem walkRetry (die idx : Nat) : Statement (.walkRetry die idx) := fun _ _ _ _ hp => nomatch hp

theorem relatchToken (res port : Nat) : Statement (.relatchToken res port) := fun _ _ _ _ hp => nomatch hp

theorem promotionRequest (part : Nat) : Statement (.promotionRequest part) := fun _ _ _ _ hp => nomatch hp

theorem lineRequest (die line : Nat) (store : Bool) : Statement (.lineRequest die line store) := fun _ _ _ _ hp => nomatch hp

theorem nearCopyEviction (die line : Nat) : Statement (.nearCopyEviction die line) := fun _ _ _ _ hp => nomatch hp

theorem readGrantRequest (port page : Nat) : Statement (.readGrantRequest port page) := fun _ _ _ _ hp => nomatch hp

theorem exclusiveGrantRequest (port page : Nat) : Statement (.exclusiveGrantRequest port page) := fun _ _ _ _ hp => nomatch hp

theorem revokeAcknowledgment (port page : Nat) (dirty : List (Nat × Byte)) : Statement (.revokeAcknowledgment port page dirty) := fun _ _ _ _ hp => nomatch hp

theorem agentFailed (port : Nat) : Statement (.agentFailed port) := fun _ _ _ _ hp => nomatch hp

theorem linkDown (port : Nat) : Statement (.linkDown port) := fun _ _ _ _ hp => nomatch hp

theorem kmtHello (port : Nat) (hdr : KmtHeader) : Statement (.kmtHello port hdr) := fun _ _ _ _ hp => nomatch hp

theorem kmtMessage (port : Nat) (hdr : KmtHeader) (body : List Byte) : Statement (.kmtMessage port hdr body) := fun _ _ _ _ hp => nomatch hp

theorem segmentReceive (hdr : SegHeader) (payload : List Byte) (fcsGood : Bool) : Statement (.segmentReceive hdr payload fcsGood) := fun _ _ _ _ hp => nomatch hp

theorem segmentAck (hdr : SegHeader) : Statement (.segmentAck hdr) := fun _ _ _ _ hp => nomatch hp

theorem ackTimer (spart dpart : Nat) : Statement (.ackTimer spart dpart) := fun _ _ _ _ hp => nomatch hp

theorem segmentResend (spart dpart : Nat) : Statement (.segmentResend spart dpart) := fun _ _ _ _ hp => nomatch hp

theorem hello (version : Byte) : Statement (.hello version) := fun _ _ _ _ hp => nomatch hp

theorem telemetry : Statement (.telemetry) := fun _ _ _ _ hp => nomatch hp

theorem logread (fromSeq : Word) : Statement (.logread fromSeq) := fun _ _ _ _ hp => nomatch hp

theorem fwload (image : List Byte) : Statement (.fwload image) := fun _ _ _ _ hp => nomatch hp

theorem reset (target : ResetTarget) : Statement (.reset target) := fun _ _ _ _ hp => nomatch hp

theorem kill (part : Nat) (seq : Word) : Statement (.kill part seq) := fun _ _ _ _ hp => nomatch hp

theorem debug (part : Nat) (level : Word) : Statement (.debug part level) := fun _ _ _ _ hp => nomatch hp

theorem power (target : PowerState) : Statement (.power target) := fun _ _ _ _ hp => nomatch hp

theorem attest (nonce : List Byte) : Statement (.attest nonce) := fun _ _ _ _ hp => nomatch hp

theorem memrw (addr : Nat) (len : Nat) (data : Option (List Byte)) : Statement (.memrw addr len data) := fun _ _ _ _ hp => nomatch hp

theorem genkey : Statement (.genkey) := fun _ _ _ _ hp => nomatch hp

theorem secstate (target : SecState) : Statement (.secstate target) := fun _ _ _ _ hp => nomatch hp

theorem powerOn : Statement (.powerOn) := fun _ _ _ _ hp => nomatch hp

theorem deviceReset : Statement (.deviceReset) := fun _ _ _ _ hp => nomatch hp

theorem partitionReset (part : Nat) : Statement (.partitionReset part) := fun _ _ _ _ hp => nomatch hp

theorem boot : Statement (.boot) := fun _ _ _ _ hp => nomatch hp

theorem criticalTemperature (island : Nat) : Statement (.criticalTemperature island) := fun _ _ _ _ hp => nomatch hp

theorem idleEntry : Statement (.idleEntry) := fun _ _ _ _ hp => nomatch hp

theorem wake : Statement (.wake) := fun _ _ _ _ hp => nomatch hp

theorem correctableError (place : StoragePlace) : Statement (.correctableError place) := fun _ _ _ _ hp => nomatch hp

theorem uncorrectableError (place : StoragePlace) : Statement (.uncorrectableError place) := fun _ _ _ _ hp => nomatch hp

theorem parityError (part die unit : Nat) (again : Bool) : Statement (.parityError part die unit again) := fun _ _ _ _ hp => nomatch hp

theorem linkUp (port : Nat) : Statement (.linkUp port) := fun _ _ _ _ hp => nomatch hp

theorem kiopFlitReceive (port : Nat) (hdr : SegHeader) (payload : List Byte) : Statement (.kiopFlitReceive port hdr payload) := fun _ _ _ _ hp => nomatch hp

theorem remoteHomeAnswer (page : Nat) (answer : RemoteAnswer) : Statement (.remoteHomeAnswer page answer) := fun _ _ _ _ hp => nomatch hp

theorem remoteHomeRevoke (page : Nat) (recalled : Bool) : Statement (.remoteHomeRevoke page recalled) := fun _ _ _ _ hp => nomatch hp

theorem signedImageFetched (image : List Byte) : Statement (.signedImageFetched image) := fun _ _ _ _ hp => nomatch hp

end Sys2Proof.Laws.Words
end

