-- ==== Sys2Proof/Tests/Slice0.lean ====
section
/-!
SUPPORT. Tests: words written out from the encoding tables, terms the well-formedness check refuses, worked results of the manual, and a
witness for the hypotheses of each statement.
-/

namespace Sys2Proof.Tests

open Sys2Proof.Machine

/-! ### Small machines -/

/-- The guard of an unconditional instruction. -/
def always : Head := ⟨7#3, false⟩

/-- A launch of two packs a herd, its bank at address 0x10000. -/
def launch : Launch :=
  { (default : Launch) with seq := 1, desc := { (default : Desc) with npack := 2, regs := 32, rsets := 32, spad := 1, bars := 4, opm := 2, gridx := 1, gridy := 1, gridz := 1, cbank := 0x10000 } }

/-- A live barrier object. -/
def bar : Barrier := { (default : Barrier) with init := 2, pending := 2 }

/-- A resident herd with 4 KiB of scratchpad, four objects and two slots of operand memory. -/
def herd : Herd :=
  { (default : Herd) with id := 7, seq := 1, spadSize := 4096, bars := List.replicate 4 bar, opm := List.replicate 2 default, packCount := 2 }

/-- A pack of that herd: lane 0 on a path at PC 0, lane 1 on one that waits, the others gone. -/
def user : Pack :=
  { Pack.admitted ⟨0, 0, 0⟩ (some 7) 0 0 32 1 32 0 0#64 with
    paths := [{ pc := 0, mask := 1, slot := some 0 }, { pc := 64, mask := 2, wait := .set 9 }], exited := ~~~3#64 }

/-- A translation of page 1 to frame 1. -/
def page : Tlb := { (default : Tlb) with vpn := 1, pages := 1, pa := 65536, r := true, w := true, x := true, u := true, inside := true }

/-- The partition, with that launch and a page table. -/
def part : Partition := { Partition.initial 0 0 8 2 0 with launches := [launch], ptroot := 1 }

/-- Where the instruction of a pack of core 0, quarter 0 runs. -/
def at_ (slot : Nat) : Option PathAt := some ⟨⟨0, 0, slot⟩, 0⟩

/-- Core 0 with that translation, stores queued and copies under way. -/
def core (q : List StoreEntry) (cs : List Copy) : Core := ⟨0, q, [], [page], cs, [], []⟩

/-- A machine in which `p` issues. -/
def world (p : Pack) : State :=
  { State.reset with
    booted := true, cur := at_ p.loc.slot, packs := [p], herds := [herd], parts := [part], cores := [core [] []] }

/-- A pack with register `r` holding `w` in every lane. -/
def setReg (p : Pack) (r : Nat) (w : Word) : Pack := { p with regs := p.regs.set r (List.replicate 64 w) }

/-- A handler pack in service at machine level, lane 0 at PC 0. -/
def hand : Pack :=
  { Pack.handler 0 0 0 48 1 with level := 2, paths := [{ pc := 0, mask := 1, slot := some 0 }], wake := some ⟨placedCause, none⟩ }

/-- Row `i` issues, cleanly and with a lane executing. -/
def Runs (i : Instr) (s : State) : Prop := ∃ c, Issues i s c ∧ Clean i c ∧ c.pack.shaped = true ∧ c.exec ≠ 0#64

/-- What `Runs` asks, evaluated. -/
def runsB (i : Instr) (s : State) : Bool :=
  match issueCtx (headOf i) s with
  | none => false
  | some c => (encodingFault i c.pack).isNone && c.pack.bad.isEmpty && c.pack.shaped && decide (c.exec ≠ 0#64)

theorem clean_of {i : Instr} {c : Ctx} (h : c.pack.bad = []) : Clean i c := fun r _ l _ _ => by simp [h]

theorem runs {i : Instr} {s : State} (h : runsB i s = true) : Runs i s := by
  unfold runsB at h
  split at h
  · simp at h
  · next c hc =>
    simp at h
    exact ⟨c, ⟨hc, h.1.1.1⟩, clean_of h.1.1.2, h.1.2, h.2⟩

/-- The same of several rows. -/
theorem runs_all {is : List Instr} {s : State} (h : is.all (runsB · s) = true) : ∀ i ∈ is, Runs i s :=
  fun _ hi => runs (List.all_eq_true.mp h _ hi)

/-! ### Words written out from the encoding tables, one of each instruction row (R143-R153 and each row's own rule) -/

theorem test_words_integer_a :
    decode 0x0170_8184_0010_0000 0 = .ok (.iadd always (.v ⟨8#7, 12#7, 16#7, 0#7, 16#7, 0#8, false⟩)) ∧
    decode 0x0270_8184_0005_8000 0 = .ok (.isub always (.i ⟨8#7, 12#7, 4#5, 5#16, 128#8, false, none⟩)) ∧
    decode 0x0370_8184_0030_0000 0 = .ok (.imul always (.v ⟨8#7, 12#7, 16#7, 0#7, 48#7, 0#8, false⟩)) ∧
    decode 0x0470_8184_0A10_0000 0 = .ok (.imad always ⟨8#7, 12#7, 16#7, 20#7, 16#7, 0#8, false⟩) ∧
    decode 0x0570_8184_0030_0000 0 = .ok (.imulw always ⟨8#7, 12#7, 16#7, 0#7, 48#7, 0#8, false⟩) ∧
    decode 0x0670_8184_0010_0000 0 = .ok (.imin always (.v ⟨8#7, 12#7, 16#7, 0#7, 16#7, 0#8, false⟩)) ∧
    decode 0x0770_8184_0038_0000 0 = .ok (.imax always (.v ⟨8#7, 12#7, 16#7, 0#7, 56#7, 0#8, false⟩)) ∧
    decode 0x0870_8180_0018_0000 0 = .ok (.iabs always ⟨8#7, 12#7, 0#7, 0#7, 24#7, 0#8, false⟩) ∧
    decode 0x0970_8184_0A10_0000 0 = .ok (.iclamp always ⟨8#7, 12#7, 16#7, 20#7, 16#7, 0#8, false⟩) ∧
    decode 0x0A70_8184_0A30_0000 0 = .ok (.isad always ⟨8#7, 12#7, 16#7, 20#7, 48#7, 0#8, false⟩) ∧
    decode 0x0B70_8184_01B0_0900 0 = .ok (.iaddc always ⟨8#7, 12#7, 16#7, 3#7, 48#7, 9#8, false⟩) ∧
    decode 0x0C70_8184_0030_0300 0 = .ok (.lea always ⟨8#7, 12#7, 16#7, 0#7, 48#7, 3#8, false⟩) ∧
    decode 0x0D70_8184_0010_0000 0 = .ok (.and always (.v ⟨8#7, 12#7, 16#7, 0#7, 16#7, 0#8, false⟩)) ∧
    decode 0x0E70_8184_0018_0000 0 = .ok (.or always (.v ⟨8#7, 12#7, 16#7, 0#7, 24#7, 0#8, false⟩)) ∧
    decode 0x0FF0_8184_0000_8000 0xdeadbeef = .ok (.xor always (.i ⟨8#7, 12#7, 4#5, 0#16, 128#8, false, some 0xdeadbeef#64⟩)) ∧
    decode 0x1070_8184_0A10_CA00 0 = .ok (.lop3 always ⟨8#7, 12#7, 16#7, 20#7, 16#7, 202#8, false⟩) :=
  ⟨rfl, rfl, rfl, rfl, rfl, rfl, rfl, rfl, rfl, rfl, rfl, rfl, rfl, rfl, rfl, rfl⟩

theorem test_words_integer_b :
    decode 0x1170_20E4_0005_8000 0 = .ok (.shl always (.i ⟨2#7, 7#7, 4#5, 5#16, 128#8, false, none⟩)) ∧
    decode 0x1270_8184_0018_0000 0 = .ok (.shr always (.v ⟨8#7, 12#7, 16#7, 0#7, 24#7, 0#8, false⟩)) ∧
    decode 0x1370_8184_0010_0000 0 = .ok (.sar always (.v ⟨8#7, 12#7, 16#7, 0#7, 16#7, 0#8, false⟩)) ∧
    decode 0x1470_8184_0A10_0100 0 = .ok (.fshf always ⟨8#7, 12#7, 16#7, 20#7, 16#7, 1#8, false⟩) ∧
    decode 0x1570_8184_0030_0000 0 = .ok (.bfx always ⟨8#7, 12#7, 16#7, 0#7, 48#7, 0#8, false⟩) ∧
    decode 0x1670_8184_0A10_0000 0 = .ok (.bfi always ⟨8#7, 12#7, 16#7, 20#7, 16#7, 0#8, false⟩) ∧
    decode 0x1770_8180_0018_0000 0 = .ok (.popc always ⟨8#7, 12#7, 0#7, 0#7, 24#7, 0#8, false⟩) ∧
    decode 0x1870_8180_0010_0000 0 = .ok (.clz always ⟨8#7, 12#7, 0#7, 0#7, 16#7, 0#8, false⟩) ∧
    decode 0x1970_8180_0018_0000 0 = .ok (.brev always ⟨8#7, 12#7, 0#7, 0#7, 24#7, 0#8, false⟩) ∧
    decode 0x1A70_1084_0010_8200 0 = .ok (.icmp always (.i ⟨1#7, 4#7, 4#5, 16#16, 130#8, false, none⟩)) ∧
    decode 0x1B70_8184_0190_0000 0 = .ok (.sel always ⟨8#7, 12#7, 16#7, 3#7, 16#7, 0#8, false⟩) ∧
    decode 0x1C70_8184_0A14_0300 0 = .ok (.idp4 always ⟨8#7, 12#7, 16#7, 20#7, 20#7, 3#8, false⟩) ∧
    decode 0x1D70_8184_0A10_0100 0 = .ok (.idp2 always ⟨8#7, 12#7, 16#7, 20#7, 16#7, 1#8, false⟩) :=
  ⟨rfl, rfl, rfl, rfl, rfl, rfl, rfl, rfl, rfl, rfl, rfl, rfl, rfl⟩

theorem test_words_float_a :
    decode 0x2070_8184_0041_0000 0 = .ok (.fadd always ⟨8#7, 12#7, 16#7, 0#7, 65#7, 0#8, false⟩) ∧
    decode 0x2170_8184_0041_0000 0 = .ok (.fsub always ⟨8#7, 12#7, 16#7, 0#7, 65#7, 0#8, false⟩) ∧
    decode 0x2270_8184_0041_0000 0 = .ok (.fmul always ⟨8#7, 12#7, 16#7, 0#7, 65#7, 0#8, false⟩) ∧
    decode 0x2370_8122_85C0_0000 0 = .ok (.ffma always ⟨8#7, 9#7, 10#7, 11#7, 64#7, 0#8, false⟩) ∧
    decode 0x2470_8184_0048_0300 0 = .ok (.fmin always ⟨8#7, 12#7, 16#7, 0#7, 72#7, 3#8, false⟩) ∧
    decode 0x2570_8184_0040_0000 0 = .ok (.fmax always ⟨8#7, 12#7, 16#7, 0#7, 64#7, 0#8, false⟩) ∧
    decode 0x2670_1184_0040_0200 0 = .ok (.fcmp always ⟨1#7, 12#7, 16#7, 0#7, 64#7, 2#8, false⟩) ∧
    decode 0x2770_8180_0058_0200 0 = .ok (.fclass always ⟨8#7, 12#7, 0#7, 0#7, 88#7, 2#8, false⟩) ∧
    decode 0x2870_8180_0043_0000 0 = .ok (.frnd always ⟨8#7, 12#7, 0#7, 0#7, 67#7, 0#8, false⟩) ∧
    decode 0x2970_8184_0040_0000 0 = .ok (.fscale always ⟨8#7, 12#7, 16#7, 0#7, 64#7, 0#8, false⟩) ∧
    decode 0x2A70_4040_005C_8800 0 = .ok (.cvt always ⟨4#7, 2#7, 0#7, 0#7, 92#7, 136#8, false⟩) ∧
    decode 0x2B70_4040_005C_0800 0 = .ok (.cvts always ⟨4#7, 2#7, 0#7, 0#7, 92#7, 8#8, false⟩) ∧
    decode 0x2C70_8184_0A5C_1800 0 = .ok (.pack always ⟨8#7, 12#7, 16#7, 20#7, 92#7, 24#8, false⟩) ∧
    decode 0x2D70_8184_0A50_0000 0 = .ok (.hdp2 always ⟨8#7, 12#7, 16#7, 20#7, 80#7, 0#8, false⟩) ∧
    decode 0x2E70_8180_0040_0000 0 = .ok (.frcp always ⟨8#7, 12#7, 0#7, 0#7, 64#7, 0#8, false⟩) ∧
    decode 0x2F70_8180_0048_0100 0 = .ok (.frsq always ⟨8#7, 12#7, 0#7, 0#7, 72#7, 1#8, false⟩) :=
  ⟨rfl, rfl, rfl, rfl, rfl, rfl, rfl, rfl, rfl, rfl, rfl, rfl, rfl, rfl, rfl, rfl⟩

theorem test_words_float_b :
    decode 0x3070_8180_0050_0100 0 = .ok (.fsqrt always ⟨8#7, 12#7, 0#7, 0#7, 80#7, 1#8, false⟩) ∧
    decode 0x3170_8184_0042_0000 0 = .ok (.fdiv always ⟨8#7, 12#7, 16#7, 0#7, 66#7, 0#8, false⟩) ∧
    decode 0x3270_8180_0040_0000 0 = .ok (.fexp2 always ⟨8#7, 12#7, 0#7, 0#7, 64#7, 0#8, false⟩) ∧
    decode 0x3370_8180_0048_0100 0 = .ok (.flog2 always ⟨8#7, 12#7, 0#7, 0#7, 72#7, 1#8, false⟩) ∧
    decode 0x3470_8180_0050_0100 0 = .ok (.fsin always ⟨8#7, 12#7, 0#7, 0#7, 80#7, 1#8, false⟩) ∧
    decode 0x3570_8180_0040_0000 0 = .ok (.fcos always ⟨8#7, 12#7, 0#7, 0#7, 64#7, 0#8, false⟩) ∧
    decode 0x3670_8180_0048_0100 0 = .ok (.ftanh always ⟨8#7, 12#7, 0#7, 0#7, 72#7, 1#8, false⟩) ∧
    decode 0x3770_8180_0050_0100 0 = .ok (.fsig always ⟨8#7, 12#7, 0#7, 0#7, 80#7, 1#8, false⟩) ∧
    decode 0x3870_8180_0040_0000 0 = .ok (.ferf always ⟨8#7, 12#7, 0#7, 0#7, 64#7, 0#8, false⟩) ∧
    decode 0x3970_8180_0040_0400 0 = .ok (.gelu always ⟨8#7, 12#7, 0#7, 0#7, 64#7, 4#8, false⟩) ∧
    decode 0x3A70_8180_0048_1300 0 = .ok (.sfn always ⟨8#7, 12#7, 0#7, 0#7, 72#7, 19#8, false⟩) ∧
    decode 0x3B70_0180_0000_0500 0 = .ok (.sfnld always ⟨0#7, 12#7, 0#7, 0#7, 0#7, 5#8, false⟩) ∧
    decode 0x3C70_0000_0000_0000 0 = .ok (.sfnsw always ⟨0#7, 0#7, 0#7, 0#7, 0#7, 0#8, false⟩) ∧
    decode 0x3D70_8180_0068_0000 0 = .ok (.mxq always ⟨8#7, 12#7, 0#7, 0#7, 104#7, 0#8, false⟩) ∧
    decode 0x3E70_8180_0070_0000 0 = .ok (.mxdq always ⟨8#7, 12#7, 0#7, 0#7, 112#7, 0#8, false⟩) :=
  ⟨rfl, rfl, rfl, rfl, rfl, rfl, rfl, rfl, rfl, rfl, rfl, rfl, rfl, rfl, rfl⟩

theorem test_words_lanes :
    decode 0x4070_60E0_8090_0100 0 = .ok (.shfl always ⟨6#7, 7#7, 2#7, 1#7, 16#7, 1#8, false⟩) ∧
    decode 0x4170_4060_0000_0400 0 = .ok (.vote always ⟨4#7, 3#7, 0#7, 0#7, 0#7, 4#8, false⟩) ∧
    decode 0x4270_8180_0040_0100 0 = .ok (.redl always ⟨8#7, 12#7, 0#7, 0#7, 64#7, 1#8, false⟩) ∧
    decode 0x4370_8180_0010_1000 0 = .ok (.scanl always ⟨8#7, 12#7, 0#7, 0#7, 16#7, 16#8, false⟩) ∧
    decode 0x4470_8180_0110_0100 0 = .ok (.laneMatch always ⟨8#7, 12#7, 0#7, 2#7, 16#7, 1#8, false⟩) ∧
    decode 0x4570_8180_0A40_0200 0 = .ok (.rstat always ⟨8#7, 12#7, 0#7, 20#7, 64#7, 2#8, false⟩) ∧
    decode 0x4670_8184_0040_0000 0 = .ok (.rstatf always ⟨8#7, 12#7, 16#7, 0#7, 64#7, 0#8, false⟩) :=
  ⟨rfl, rfl, rfl, rfl, rfl, rfl, rfl⟩

theorem test_words_moves :
    decode 0x5070_8180_0000_0200 0 = .ok (.mov always ⟨8#7, 12#7, 0#7, 0#7, 0#7, 2#8, false⟩) ∧
    decode 0x51F0_8006_0000_0000 0x123456789abcdef0 = .ok (.movi always ⟨8#7, 0#7, 6#5, 0#16, 0#8, false, some 0x123456789abcdef0#64⟩) ∧
    decode 0x5270_1040_C000_0400 0 = .ok (.pops always ⟨1#7, 2#7, 3#7, 0#7, 0#7, 4#8, false⟩) ∧
    decode 0x5370_8000_0000_0000 0 = .ok (.p2v always ⟨8#7, 0#7, 0#7, 0#7, 0#7, 0#8, false⟩) ∧
    decode 0x5470_0180_0000_5500 0 = .ok (.v2p always ⟨0#7, 12#7, 0#7, 0#7, 0#7, 85#8, false⟩) ∧
    decode 0x5570_3000_0000_0000 0 = .ok (.srd always ⟨3#7, 0#7, 0#7, 0#6, false, 0#7, 0#16⟩) ∧
    decode 0x5670_8000_0000_0100 0 = .ok (.swr always ⟨8#7, 0#7, 0#7, 0#7, 0#7, 1#8, false⟩) :=
  ⟨rfl, rfl, rfl, rfl, rfl, rfl, rfl⟩

theorem test_words_memory_a :
    decode 0x6070_8180_09A1_FFF8 0 = .ok (.ld always ⟨8#7, 12#7, 0#7, 2#4, 3#3, 2#3, 1#4, 65528#16⟩) ∧
    decode 0x6170_8180_0CB0_0010 0 = .ok (.st always ⟨8#7, 12#7, 0#7, 3#4, 1#3, 3#3, 0#4, 16#16⟩) ∧
    decode 0x6270_8180_1000_0040 0 = .ok (.lds always ⟨8#7, 12#7, 0#7, 4#4, 0#3, 0#3, 0#4, 64#16⟩) ∧
    decode 0x6370_8180_0400_0002 0 = .ok (.sts always ⟨8#7, 12#7, 0#7, 1#4, 0#3, 0#3, 0#4, 2#16⟩) ∧
    decode 0x6470_8180_4800_0000 0 = .ok (.stse always ⟨8#7, 12#7, 1#7, 2#4, 0#3, 0#3, 0#4, 0#16⟩) ∧
    decode 0x6570_8180_0800_0004 0 = .ok (.ldc always ⟨8#7, 12#7, 0#7, 2#4, 0#3, 0#3, 0#4, 4#16⟩) ∧
    decode 0x6670_0180_0001_0080 0 = .ok (.pref always ⟨0#7, 12#7, 0#7, 0#4, 0#3, 0#3, 1#4, 128#16⟩) ∧
    decode 0x6770_0180_0000_0000 0 = .ok (.cinvL1 always ⟨0#7, 12#7, 0#7, 0#4, 0#3, 0#3, 0#4, 0#16⟩) ∧
    decode 0x6770_0000_0001_0000 0 = .ok (.cinvL1all always ⟨0#7, 0#7, 0#7, 0#4, 0#3, 0#3, 1#4, 0#16⟩) ∧
    decode 0x6770_0180_0002_0000 0 = .ok (.cinvNear always ⟨0#7, 12#7, 0#7, 0#4, 0#3, 0#3, 2#4, 0#16⟩) ∧
    decode 0x6870_0180_0000_0000 0 = .ok (.cwbHome always ⟨0#7, 12#7, 0#7, 0#4, 0#3, 0#3, 0#4, 0#16⟩) ∧
    decode 0x6870_0180_0001_0000 0 = .ok (.cwbMem always ⟨0#7, 12#7, 0#7, 0#4, 0#3, 0#3, 1#4, 0#16⟩) ∧
    decode 0x6870_0180_0002_0000 0 = .ok (.cwbInv always ⟨0#7, 12#7, 0#7, 0#4, 0#3, 0#3, 2#4, 0#16⟩) ∧
    decode 0x8070_8184_0940_3008 0 = .ok (.atom always ⟨8#7, 12#7, 16#7, 2#4, 2#3, 4#3, 0#4, 3#4, 8#12⟩) ∧
    decode 0x8170_8184_0DA0_0000 0 = .ok (.atomcas always ⟨8#7, 12#7, 16#7, 3#4, 3#3, 2#3, 0#4, 0#4, 0#12⟩) ∧
    decode 0x8270_0184_2030_1000 0 = .ok (.red always ⟨0#7, 12#7, 16#7, 8#4, 0#3, 3#3, 0#4, 1#4, 0#12⟩) :=
  ⟨rfl, rfl, rfl, rfl, rfl, rfl, rfl, rfl, rfl, rfl, rfl, rfl, rfl, rfl, rfl, rfl⟩

theorem test_words_memory_b :
    decode 0x8370_8184_1C00_2FFC 0 = .ok (.atoms always ⟨8#7, 12#7, 16#7, 7#4, 0#3, 0#3, 0#4, 2#4, 4092#12⟩) ∧
    decode 0x8470_8184_0810_0000 0 = .ok (.atomscas always ⟨8#7, 12#7, 16#7, 2#4, 0#3, 1#3, 0#4, 0#4, 0#12⟩) ∧
    decode 0x8570_0000_0140_0000 0 = .ok (.fence always ⟨0#7, 0#7, 0#7, 0#4, 2#3, 4#3, 0#4, 0#16⟩) :=
  ⟨rfl, rfl, rfl⟩

theorem test_words_objects :
    decode 0x9070_0000_0500_0007 0 = .ok (.barinit always ⟨0#7, 0#7, 0#7, 5#6, false, 0#7, 7#16⟩) ∧
    decode 0x9170_8000_0301_0000 0 = .ok (.bararv always ⟨8#7, 0#7, 0#7, 3#6, false, 1#7, 0#16⟩) ∧
    decode 0x9270_1000_0200_0004 0 = .ok (.barsync always ⟨1#7, 0#7, 0#7, 2#6, false, 0#7, 4#16⟩) ∧
    decode 0x9370_0184_0081_0000 0 = .ok (.barexp always ⟨0#7, 12#7, 16#7, 0#6, true, 1#7, 0#16⟩) ∧
    decode 0x9470_1004_0900_0000 0 = .ok (.barwait always ⟨1#7, 0#7, 16#7, 9#6, false, 0#7, 0#16⟩) ∧
    decode 0x9570_0000_1F00_0000 0 = .ok (.barinv always ⟨0#7, 0#7, 0#7, 31#6, false, 0#7, 0#16⟩) ∧
    decode 0x9670_0082_0100_0000 0 = .ok (.tcopy always ⟨0#7, 4#7, 8#7, 1#6, false, 0#7, 0#16⟩) ∧
    decode 0x9771_4184_0404_0000 0 = .ok (.tstore always ⟨20#7, 12#7, 16#7, 4#6, false, 4#7, 0#16⟩) ∧
    decode 0x9870_9184_0600_0000 0 = .ok (.tgather always ⟨9#7, 12#7, 16#7, 6#6, false, 0#7, 0#16⟩) ∧
    decode 0x9970_0000_0300_0000 0 = .ok (.opmclm always ⟨0#7, 0#7, 0#7, 3#6, false, 0#7, 0#16⟩) ∧
    decode 0x9A70_0000_0F00_0000 0 = .ok (.opmrel always ⟨0#7, 0#7, 0#7, 15#6, false, 0#7, 0#16⟩) ∧
    decode 0x9B70_8000_0001_0000 0 = .ok (.tcancel always ⟨8#7, 0#7, 0#7, 0#6, false, 1#7, 0#16⟩) :=
  ⟨rfl, rfl, rfl, rfl, rfl, rfl, rfl, rfl, rfl, rfl, rfl, rfl⟩

theorem test_words_control :
    decode 0xA070_0000_FFFF_FFF8 0 = .ok (.bra always ⟨0#7, 0#4, 4294967288#32⟩) ∧
    decode 0xA170_C000_0000_0000 0 = .ok (.brx always ⟨12#7, 0#4, 0#32⟩) ∧
    decode 0xA270_3200_0000_0040 0 = .ok (.brvote always ⟨3#7, 2#4, 64#32⟩) ∧
    decode 0xA370_0000_0000_0080 0 = .ok (.call always ⟨0#7, 0#4, 128#32⟩) ∧
    decode 0xA470_C000_0000_0000 0 = .ok (.callx always ⟨12#7, 0#4, 0#32⟩) ∧
    decode 0xA570_0000_0000_0000 0 = .ok (.ret always ⟨0#7, 0#4, 0#32⟩) ∧
    decode 0xA670_0000_0000_0000 0 = .ok (.exit always ⟨0#7, 0#4, 0#32⟩) ∧
    decode 0xA770_0000_0000_0099 0 = .ok (.trap always ⟨0#7, 0#4, 153#32⟩) ∧
    decode 0xA870_0000_0000_0007 0 = .ok (.bkpt always ⟨0#7, 0#4, 7#32⟩) ∧
    decode 0xA970_0000_0000_0000 0 = .ok (.nop always ⟨0#7, 0#4, 0#32⟩) ∧
    decode 0xAA70_0000_0000_0000 0 = .ok (.yield always ⟨0#7, 0#4, 0#32⟩) :=
  ⟨rfl, rfl, rfl, rfl, rfl, rfl, rfl, rfl, rfl, rfl, rfl⟩

theorem test_words_sets :
    decode 0xB070_8000_0000_0000 0 = .ok (.rsopen always ⟨8#7, 0#7, 0#7, 0#6, false, 0#7, 0#16⟩) ∧
    decode 0xB170_0000_0400_0000 0 = .ok (.rsenter always ⟨0#7, 0#7, 0#7, 4#6, false, 0#7, 0#16⟩) ∧
    decode 0xB270_0000_0500_0000 0 = .ok (.rsquit always ⟨0#7, 0#7, 0#7, 5#6, false, 0#7, 0#16⟩) ∧
    decode 0xB370_0000_0600_0000 0 = .ok (.rsarv always ⟨0#7, 0#7, 0#7, 6#6, false, 0#7, 0#16⟩) ∧
    decode 0xB470_0280_0080_0000 0 = .ok (.rswait always ⟨0#7, 20#7, 0#7, 0#6, true, 0#7, 0#16⟩) ∧
    decode 0xB570_0000_0700_0000 0 = .ok (.rsfree always ⟨0#7, 0#7, 0#7, 7#6, false, 0#7, 0#16⟩) ∧
    decode 0xB670_8000_0803_0000 0 = .ok (.rsget always ⟨8#7, 0#7, 0#7, 8#6, false, 3#7, 0#16⟩) ∧
    decode 0xB770_8004_0900_0000 0 = .ok (.rsput always ⟨8#7, 0#7, 16#7, 9#6, false, 0#7, 0#16⟩) :=
  ⟨rfl, rfl, rfl, rfl, rfl, rfl, rfl, rfl⟩

theorem test_words_spatial :
    decode 0xC0F0_0180_0000_0000 0 = .ok (.spxenter always ⟨0#7, 12#7, 0#7, 0#30, 0#8, 0#16, 0#8, 0#8, 0#24⟩) ∧
    decode 0xC1F0_0000_0000_0000 0 = .ok (.spxleave always ⟨0#7, 0#7, 0#7, 0#30, 0#8, 0#16, 0#8, 0#8, 0#24⟩) ∧
    decode 0xC2F0_8184_0000_0000 0x300050401002103 = .ok (.spxstrm always ⟨8#7, 12#7, 16#7, 0#30, 3#8, 5#16, 4#8, 1#8, 8451#24⟩) ∧
    decode 0xC3F0_8000_0000_0001 0x200090000000007 = .ok (.spxsem always ⟨8#7, 0#7, 0#7, 1#30, 2#8, 9#16, 0#8, 0#8, 7#24⟩) ∧
    decode 0xC4F0_0180_0000_0001 0 = .ok (.spxsweep always ⟨0#7, 12#7, 0#7, 1#30, 0#8, 0#16, 0#8, 0#8, 0#24⟩) ∧
    decode 0xC5F0_0000_0000_0000 0x101000000 = .ok (.spxbar always ⟨0#7, 0#7, 0#7, 0#30, 0#8, 0#16, 1#8, 1#8, 0#24⟩) ∧
    decode 0xC6F0_0184_0000_0000 0xff01 = .ok (.spxput always ⟨0#7, 12#7, 16#7, 0#30, 0#8, 0#16, 0#8, 0#8, 65281#24⟩) ∧
    decode 0xC7F0_8184_0000_0001 0x2 = .ok (.spxget always ⟨8#7, 12#7, 16#7, 1#30, 0#8, 0#16, 0#8, 0#8, 2#24⟩) ∧
    decode 0xC8F0_8000_0000_0003 0x6 = .ok (.spxstat always ⟨8#7, 0#7, 0#7, 3#30, 0#8, 0#16, 0#8, 0#8, 6#24⟩) :=
  ⟨rfl, rfl, rfl, rfl, rfl, rfl, rfl, rfl, rfl⟩

theorem test_words_tasks :
    decode 0xD0F0_8180_0000_0000 0x11 = .ok (.launch always ⟨8#7, 12#7, 0#7, 0#30, 0#8, 0#16, 0#8, 0#8, 17#24⟩) ∧
    decode 0xD1F0_8184_0000_0003 0 = .ok (.gateadd always ⟨8#7, 12#7, 16#7, 3#30, 0#8, 0#16, 0#8, 0#8, 0#24⟩) ∧
    decode 0xD2F0_8184_0000_0002 0 = .ok (.gatewait always ⟨8#7, 12#7, 16#7, 2#30, 0#8, 0#16, 0#8, 0#8, 0#24⟩) ∧
    decode 0xD3F0_8180_0000_0000 0x3e8 = .ok (.matcharm always ⟨8#7, 12#7, 0#7, 0#30, 0#8, 0#16, 0#8, 0#8, 1000#24⟩) ∧
    decode 0xD4F0_8184_0000_0000 0xe3 = .ok (.msgsend always ⟨8#7, 12#7, 16#7, 0#30, 0#8, 0#16, 0#8, 0#8, 227#24⟩) :=
  ⟨rfl, rfl, rfl, rfl, rfl⟩

theorem test_words_system_a :
    decode 0xE070_2000_0000_0020 0 = .ok (.csrr always ⟨2#7, 0#7, 0#7, 0#6, false, 0#7, 32#16⟩) ∧
    decode 0xE170_0180_0000_0010 0 = .ok (.csrw always ⟨0#7, 12#7, 0#7, 0#6, false, 0#7, 16#16⟩) ∧
    decode 0xE170_8180_0005_0012 0 = .ok (.csrwSet always ⟨8#7, 12#7, 0#7, 0#6, false, 5#7, 18#16⟩) ∧
    decode 0xE170_0180_0002_0020 0 = .ok (.csrwClr always ⟨0#7, 12#7, 0#7, 0#6, false, 2#7, 32#16⟩) ∧
    decode 0xE170_0180_0000_0004 0 = .ok (.partcfgApply always ⟨0#7, 12#7, 0#7, 0#6, false, 0#7, 4#16⟩) ∧
    decode 0xE270_0000_0000_0000 0 = .ok (.eretRes always ⟨0#7, 0#7, 0#7, 0#6, false, 0#7, 0#16⟩) ∧
    decode 0xE270_0000_0001_0000 0 = .ok (.eretSkip always ⟨0#7, 0#7, 0#7, 0#6, false, 1#7, 0#16⟩) ∧
    decode 0xE270_0000_0002_0000 0 = .ok (.eretTerm always ⟨0#7, 0#7, 0#7, 0#6, false, 2#7, 0#16⟩) ∧
    decode 0xE270_0000_0003_0000 0 = .ok (.eretDefer always ⟨0#7, 0#7, 0#7, 0#6, false, 3#7, 0#16⟩) ∧
    decode 0xE370_0080_0000_0000 0 = .ok (.tlbinvPage always ⟨0#7, 4#7, 0#7, 0#6, false, 0#7, 0#16⟩) ∧
    decode 0xE370_0184_0005_0000 0 = .ok (.tlbinvRange always ⟨0#7, 12#7, 16#7, 0#6, false, 5#7, 0#16⟩) ∧
    decode 0xE370_0000_0002_0000 0 = .ok (.tlbinvAll always ⟨0#7, 0#7, 0#7, 0#6, false, 2#7, 0#16⟩) ∧
    decode 0xE470_8080_0000_0000 0 = .ok (.l2opProm always ⟨8#7, 4#7, 0#7, 0#6, false, 0#7, 0#16⟩) ∧
    decode 0xE470_8184_0001_0000 0 = .ok (.l2opAdopt always ⟨8#7, 12#7, 16#7, 0#6, false, 1#7, 0#16⟩) ∧
    decode 0xE570_8184_0000_0000 0 = .ok (.ctxsaveRec always ⟨8#7, 12#7, 16#7, 0#6, false, 0#7, 0#16⟩) ∧
    decode 0xE570_8184_0001_0000 0 = .ok (.ctxsaveHerd always ⟨8#7, 12#7, 16#7, 0#6, false, 1#7, 0#16⟩) :=
  ⟨rfl, rfl, rfl, rfl, rfl, rfl, rfl, rfl, rfl, rfl, rfl, rfl, rfl, rfl, rfl, rfl⟩

theorem test_words_system_b :
    decode 0xE670_8180_0000_0000 0 = .ok (.ctxload always ⟨8#7, 12#7, 0#7, 0#6, false, 0#7, 0#16⟩) ∧
    decode 0xE770_8004_0000_0000 0 = .ok (.packhalt always ⟨8#7, 0#7, 16#7, 0#6, false, 0#7, 0#16⟩) ∧
    decode 0xE770_8004_0001_0000 0 = .ok (.packhaltHerd always ⟨8#7, 0#7, 16#7, 0#6, false, 1#7, 0#16⟩) ∧
    decode 0xE770_1001_8002_0000 0 = .ok (.packhaltKill always ⟨1#7, 0#7, 6#7, 0#6, false, 2#7, 0#16⟩) ∧
    decode 0xE870_8004_0001_0000 0 = .ok (.packresume always ⟨8#7, 0#7, 16#7, 0#6, false, 1#7, 0#16⟩) ∧
    decode 0xE970_8004_0000_0000 0 = .ok (.whistle always ⟨8#7, 0#7, 16#7, 0#6, false, 0#7, 0#16⟩) ∧
    decode 0xEA70_8180_0000_0000 0 = .ok (.pwrlsRd always ⟨8#7, 12#7, 0#7, 0#6, false, 0#7, 0#16⟩) ∧
    decode 0xEA70_8184_0001_0000 0 = .ok (.pwrlsSet always ⟨8#7, 12#7, 16#7, 0#6, false, 1#7, 0#16⟩) :=
  ⟨rfl, rfl, rfl, rfl, rfl, rfl, rfl, rfl⟩

/-! ### The hypotheses of the statements can be met -/

theorem witness_register_only : ∃ c, registerOnly (.nop always ⟨0, 0, 0⟩) = true ∧ Issues (.nop always ⟨0, 0, 0⟩) (world user) c ∧
    Clean (.nop always ⟨0, 0, 0⟩) c := ⟨_, rfl, ⟨rfl, by decide⟩, clean_of rfl⟩

theorem witness_integer : ∀ i ∈ [Instr.iadd always (.v ⟨8, 12, 16, 0, 0x10, 0, false⟩), .imad always ⟨8, 12, 16, 20, 0x10, 0, false⟩,
    .imulw always ⟨8, 12, 16, 0, 0x30, 0, false⟩, .iaddc always ⟨8, 12, 16, 3, 0x30, 9, false⟩, .lea always ⟨8, 12, 16, 0, 0x30, 3, false⟩,
    .xor always (.i ⟨8, 12, 4, 0, 0x80, false, some 5⟩), .shl always (.i ⟨8, 12, 4, 33, 0x80, false, none⟩),
    .lop3 always ⟨8, 12, 16, 20, 0x10, 0xCA, false⟩, .bfx always ⟨8, 12, 16, 0, 0x30, 0, false⟩, .popc always ⟨8, 12, 0, 0, 0x18, 0, false⟩,
    .icmp always (.v ⟨1, 12, 16, 3, 0x10, 9, false⟩), .sel always ⟨8, 12, 16, 3, 0x10, 0, false⟩, .idp4 always ⟨8, 12, 16, 20, 0x14, 3, false⟩],
    Runs i (world user) := runs_all (by decide)

theorem witness_float : ∀ i ∈ [Instr.fadd always ⟨8, 12, 16, 0, 0x40, 0, false⟩, .ffma always ⟨8, 12, 16, 20, 0x48, 1, false⟩,
    .fdiv always ⟨8, 12, 16, 0, 0x40, 0, false⟩, .fsqrt always ⟨8, 12, 0, 0, 0x40, 0, false⟩, .fmin always ⟨8, 12, 16, 0, 0x48, 3, false⟩,
    .fcmp always ⟨1, 12, 16, 0, 0x40, 7, false⟩, .fclass always ⟨8, 12, 0, 0, 0x58, 2, false⟩, .cvt always ⟨8, 12, 0, 0, 0x24, 2, false⟩,
    .cvts always ⟨8, 12, 0, 0, 0x5C, 8, false⟩, .swr always ⟨8, 0, 0, 0, 0, 1, false⟩], Runs i (world user) := runs_all (by decide)

theorem witness_lanes : ∀ i ∈ [Instr.shfl always ⟨8, 12, 16, 1, 0x10, 1, false⟩, .vote always ⟨8, 3, 0, 0, 0, 4, false⟩,
    .laneMatch always ⟨8, 12, 0, 2, 0x10, 1, false⟩, .redl always ⟨8, 12, 0, 0, 0x10, 0, false⟩, .scanl always ⟨8, 12, 0, 0, 0x10, 16, false⟩,
    .mov always ⟨8, 12, 0, 0, 0, 2, false⟩, .pops always ⟨1, 2, 3, 0, 0, 4, false⟩, .v2p always ⟨0, 12, 0, 0, 0, 0x7F, false⟩,
    .movi always ⟨8, 0, 6, 5, 0, false, none⟩, .srd always ⟨8, 0, 0, 0, false, 0, 10⟩], Runs i (world user) := runs_all (by decide)

theorem witness_access_checks : canonical (2 ^ 60) = false ∧ canonical 0 = true ∧ installedFrame 0 8 = true ∧
    installedFrame (2 ^ 40 - 8) 8 = false ∧ findPart (world user) 0 = some part ∧ part.ptroot.getLsbD 0 = true ∧
    (Partition.initial 0 0 8 2 0).ptroot.getLsbD 0 = false ∧
    (getCore (world user) 0).tlb.find? (·.covers 0 (vpnOf 0x10000)) = some page ∧ permitted (world user) page true .read 0x10000 = true ∧
    permitted (world user) { page with w := false } true (.write false) 0x10000 = false ∧
    pageReady (world user) page (page.phys 0x10000) true = true := by decide

/-- A pack whose v12:v13 hold 0x10000. -/
def pointing : Pack := setReg user 12 0x10000

theorem witness_global_loads : ∃ c s', Issues (.ld always ⟨8, 12, 0, 2, 3, 2, 0, 0⟩) (world pointing) c ∧
    Clean (.ld always ⟨8, 12, 0, 2, 3, 2, 0, 0⟩) c ∧ Reached (world pointing) c .read 4 4 (c.addrM ⟨8, 12, 0, 2, 3, 2, 0, 0⟩) [⟨0, 65536, page⟩] s' ∧
    Unpoisoned (world pointing) 0 [⟨0, 65536, page⟩] 4 ∧ QueueFree s' c.pack.loc 0 ∧ (⟨0, 65536, page⟩ : LaneAcc).plain ∧ c.exec ≠ 0#64 ∧
    acquires 2 3 = true :=
  ⟨_, _, ⟨rfl, by decide⟩, clean_of rfl, ⟨by decide, rfl⟩, by unfold Unpoisoned; decide,
    by unfold QueueFree; decide, ⟨rfl, rfl⟩, by decide, rfl⟩

theorem witness_global_stores : ∃ c s', Issues (.st always ⟨8, 12, 0, 3, 0, 0, 0, 0⟩) (world pointing) c ∧
    Clean (.st always ⟨8, 12, 0, 3, 0, 0, 0, 0⟩) c ∧
    Reached (world pointing) c (.write true) 8 8 (c.addrM ⟨8, 12, 0, 3, 0, 0, 0, 0⟩) [⟨0, 65536, page⟩] s' :=
  ⟨_, _, ⟨rfl, by decide⟩, clean_of rfl, ⟨by decide, rfl⟩⟩

/-- A queued store of a lane. -/
def queued (op : StoreOp) : StoreEntry := { (default : StoreEntry) with herd := some 7, op := op }

/-- A machine with stores queued at core 0. -/
def queueing (es : List StoreEntry) : State := { world user with cores := [core es []] }

theorem witness_stores_perform :
    (let s := queueing [queued (.global 128 [1, 2] false none false)]
     (getCore s 0).storeQ[0]? = some (queued (.global 128 [1, 2] false none false)) ∧ (∀ x ∈ (getCore s 0).storeQ.take 0, x.blocks default = false) ∧
     storeReady s (queued (.global 128 [1, 2] false none false)) = true ∧ memWf Config.blankByte s.mem = true) ∧
    (let s := queueing [queued (.spad 128 [1] .setEmpty)]
     (getCore s 0).storeQ[0]? = some (queued (.spad 128 [1] .setEmpty)) ∧ findHerd s 7 = some herd ∧
     storeReady s (queued (.spad 128 [1] .setEmpty)) = true ∧ memWf 0#8 herd.spad = true ∧ 16 * herd.bars.length ≤ 128) := by decide

theorem witness_scratchpad_loads : ∃ c, Issues (.lds always ⟨8, 12, 0, 2, 0, 0, 0, 128⟩) (world user) c ∧
    Clean (.lds always ⟨8, 12, 0, 2, 0, 0, 0, 128⟩) c ∧ c.herd (world user) = some herd ∧
    stseLanes (world user) c 4 (c.offM ⟨8, 12, 0, 2, 0, 0, 0, 128⟩) = 0#64 ∧
    (∀ l < 64, c.exec.has l = true → spadFault (some herd) (c.offM ⟨8, 12, 0, 2, 0, 0, 0, 128⟩ l) 4 false false (fun _ _ => false) = none) ∧
    (∀ l < 64, c.exec.has l = true → touchesEmpty herd (c.offM ⟨8, 12, 0, 2, 0, 0, 0, 128⟩ l).toNat 4 = false) ∧
    (∀ l < 64, c.exec.has l = true → touchesEmpty { herd with empty := [1] } (c.offM ⟨8, 12, 0, 2, 0, 0, 0, 128⟩ l).toNat 4 = true) ∧
    (2 : Int) % (4 : Int) ≠ 0 ∧ (4096 : Int) % (4 : Int) = 0 ∧ (herd.spadSize : Int) < 4096 + 4 :=
  ⟨_, ⟨rfl, by decide⟩, clean_of rfl, by decide, by decide, by decide, by decide, by decide, by decide⟩

theorem witness_constant_loads : ∃ c, ∃ s', Issues (.ldc always ⟨8, 12, 0, 2, 0, 0, 0, 0⟩) (world user) c ∧
    Clean (.ldc always ⟨8, 12, 0, 2, 0, 0, 0, 0⟩) c ∧ c.herd (world user) = some herd ∧ herdLaunch (world user) herd = some launch ∧
    (∀ l < 64, c.exec.has l = true → ldcFault (some launch) (c.offM ⟨8, 12, 0, 2, 0, 0, 0, 0⟩ l) 4 = none) ∧
    resolveLanes (world user) c.pack .read 4 (fun l => ((launch.desc.cbank.toNat + c.offM ⟨8, 12, 0, 2, 0, 0, 0, 0⟩ l) % 2 ^ 64).toNat) c.exec.lanes =
      (([⟨0, 65536, page⟩] : List LaneAcc).map fun a => (a.lane, Resolved.ok a.pa a.t), s') ∧ Unpoisoned s' 0 [⟨0, 65536, page⟩] 4 :=
  ⟨_, _, ⟨rfl, by decide⟩, clean_of rfl, by decide, by decide, by decide, rfl, by unfold Unpoisoned; decide⟩

theorem witness_scratchpad_stores : ∃ c, Issues (.sts always ⟨8, 12, 0, 2, 0, 0, 0, 4092⟩) (world user) c ∧
    Clean (.sts always ⟨8, 12, 0, 2, 0, 0, 0, 4092⟩) c ∧ stseLanes (world user) c 4 (c.offM ⟨8, 12, 0, 2, 0, 0, 0, 4092⟩) = 0#64 ∧
    (∀ l < 64, c.exec.has l = true → spadFault (c.herd (world user)) (c.offM ⟨8, 12, 0, 2, 0, 0, 0, 4092⟩ l) 4 true true (fun _ _ => false) = none) ∧
    runsB (.stse always ⟨8, 12, 1, 2, 0, 0, 0, 4092⟩) (world user) = true :=
  ⟨_, ⟨rfl, by decide⟩, clean_of rfl, by decide, by decide, by decide⟩

theorem witness_global_atomics : ∃ c s', Issues (.atom always ⟨8, 12, 16, 2, 0, 0, 0, 0, 0⟩) (world pointing) c ∧
    Clean (.atom always ⟨8, 12, 16, 2, 0, 0, 0, 0, 0⟩) c ∧
    Reached (world pointing) c .rmw 4 4 (c.addrMA ⟨8, 12, 16, 2, 0, 0, 0, 0, 0⟩) [⟨0, 65536, page⟩] s' ∧
    Unpoisoned (world pointing) 0 [⟨0, 65536, page⟩] 4 ∧ (∀ l < 64, c.exec.has l = true → QueueFree s' c.pack.loc l) ∧
    (∀ r ∈ s'.remotePages, r.ackDue = 0) ∧
    (∀ i ∈ [Instr.red always ⟨0, 12, 16, 2, 0, 0, 0, 0, 0⟩, .atomcas always ⟨8, 12, 16, 2, 0, 0, 0, 0, 0⟩], Runs i (world pointing)) :=
  ⟨_, _, ⟨rfl, by decide⟩, clean_of rfl, ⟨by decide, rfl⟩, by unfold Unpoisoned; decide, by unfold QueueFree; decide, by decide,
    runs_all (by decide)⟩

theorem witness_scratchpad_atomics : ∃ c, Issues (.atoms always ⟨8, 12, 16, 2, 0, 0, 0, 0, 128⟩) (world user) c ∧
    Clean (.atoms always ⟨8, 12, 16, 2, 0, 0, 0, 0, 128⟩) c ∧ c.exec.lanes = [0] ∧ c.herd (world user) = some herd ∧ memWf 0#8 herd.spad = true ∧
    spadFault (some herd) (c.offMA ⟨8, 12, 16, 2, 0, 0, 0, 0, 128⟩ 0) 4 true true (fun h a => spadPoisoned h a 4) = none ∧ QueueFree (world user) c.pack.loc 0 ∧
    (∀ r ∈ (world user).remotePages, r.ackDue = 0) ∧ runsB (.atomscas always ⟨8, 12, 16, 2, 0, 0, 0, 0, 128⟩) (world user) = true :=
  ⟨_, ⟨rfl, by decide⟩, clean_of rfl, by decide, by decide, by decide, by decide, by unfold QueueFree; decide, by decide, by decide⟩

theorem witness_cache_operations : (∃ c s', Issues (.cwbInv always ⟨0, 12, 0, 0, 0, 0, 2, 0⟩) (world pointing) c ∧
    Clean (.cwbInv always ⟨0, 12, 0, 0, 0, 0, 2, 0⟩) c ∧
    Reached (world pointing) c .mapped 1 1 (c.addrM ⟨0, 12, 0, 0, 0, 0, 2, 0⟩) [⟨0, 65536, page⟩] s') ∧
    (∀ i ∈ [Instr.pref always ⟨0, 12, 0, 0, 0, 0, 0, 0⟩, .cinvL1all always ⟨0, 0, 0, 0, 0, 0, 1, 0⟩, .cinvL1 always ⟨0, 12, 0, 0, 0, 0, 0, 0⟩,
      .cwbHome always ⟨0, 12, 0, 0, 0, 0, 0, 0⟩, .cwbMem always ⟨0, 12, 0, 0, 0, 0, 1, 0⟩, .cinvNear always ⟨0, 12, 0, 0, 0, 0, 2, 0⟩,
      .fence always ⟨0, 0, 0, 0, 2, 4, 0, 0⟩], Runs i (world pointing)) ∧
    Runs (.fence always ⟨0, 0, 0, 0, 2, 3, 0, 0⟩) (queueing [queued (.global 128 [1] false none false)]) :=
  ⟨⟨_, _, ⟨rfl, by decide⟩, clean_of rfl, ⟨by decide, rfl⟩⟩, runs_all (by decide), runs (by decide)⟩

theorem witness_fence : ∃ c, Issues (.fence always ⟨0, 0, 0, 0, 2, 4, 0, 0⟩) (world user) c ∧
    (∀ l < 64, c.exec.has l = true → QueueFree (world user) c.pack.loc l) ∧ (∀ r ∈ (world user).remotePages, r.ackDue = 0) ∧ c.exec ≠ 0#64 :=
  ⟨_, ⟨rfl, by decide⟩, fun _ _ _ _ he => (List.not_mem_nil he).elim, by decide, by decide⟩

/-- A transfer at machine level whose target, the address in v10:v11 and v12:v13, is 64. -/
def jumping : State := world (setReg (setReg hand 12 64) 10 64)

theorem witness_transfers : (∃ c s', Issues (.bra always ⟨0, 0, 8⟩) jumping c ∧ Clean (.bra always ⟨0, 0, 8⟩) c ∧ laneZeroOnly jumping c.pack = false ∧
    checkTargets jumping 0 0 2 (c.exec.lanes.map fun _ => (c.path.pc + ((8 : BitVec 32).signExtend 64) * 8#64).toNat).eraseDups =
      ((c.exec.lanes.map fun _ => (c.path.pc + ((8 : BitVec 32).signExtend 64) * 8#64).toNat).eraseDups.map fun t => (t, .ok), s')) ∧
    (∀ i ∈ [Instr.call always ⟨0, 0, 8⟩, .brx always ⟨12, 0, 0⟩, .callx always ⟨12, 0, 0⟩, .ret always ⟨0, 0, 0⟩, .brvote always ⟨3, 0, 8⟩], Runs i jumping) ∧
    (checkTarget (world (setReg hand 12 4)) 0 0 2 4).1 = .fault 3 ∧ canonical (2 ^ 60) = false :=
  ⟨⟨_, _, ⟨rfl, by decide⟩, clean_of rfl, by decide, Prod.ext (by decide) rfl⟩, runs_all (by decide), by decide, by decide⟩

theorem witness_vote_fails : ∃ c, Issues (.brvote always ⟨3, 0, 8⟩) (world user) c ∧ (c.exec.lanes.map (c.pack.pred 3)).any id = false ∧
    (c.exec.lanes.map (c.pack.pred 3)).all id = false := ⟨_, ⟨rfl, by decide⟩, by decide, by decide⟩

/-- The same pack with lane 1 gone too. -/
def alone : Pack := { user with paths := [{ pc := 0, mask := 1, slot := some 0 }], exited := ~~~1#64 }

theorem witness_exit : (∃ c, Issues (.exit always ⟨0, 0, 0⟩) (world user) c ∧ c.exec ≠ 0#64 ∧ c.pack.isHandler = false ∧ c.pack.control = none ∧
      c.pack.exited ||| c.exec ≠ 0xFFFFFFFFFFFFFFFF#64) ∧
    (∃ c, Issues (.exit always ⟨0, 0, 0⟩) (world alone) c ∧ c.pack.exited ||| c.exec = 0xFFFFFFFFFFFFFFFF#64 ∧
      ∀ l < 64, QueueFree (world alone) c.pack.loc l) ∧
    (∃ c, Issues (.exit always ⟨0, 0, 0⟩) (world { user with control := some 3 }) c ∧ c.pack.control.isSome = true ∧ c.exec ≠ 0#64) ∧
    (∃ c, Issues (.exit ⟨3, false⟩ ⟨0, 0, 0⟩) (world user) c ∧ c.exec = 0#64) :=
  ⟨⟨_, ⟨rfl, by decide⟩, by decide, rfl, rfl, by decide⟩, ⟨_, ⟨rfl, by decide⟩, by decide, fun _ _ _ he => nomatch he⟩,
    ⟨_, ⟨rfl, by decide⟩, rfl, by decide⟩, ⟨_, ⟨rfl, by decide⟩, by decide⟩⟩

theorem witness_trap : (∀ i ∈ [Instr.trap always ⟨0, 0, 7⟩, .bkpt always ⟨0, 0, 7⟩, .yield always ⟨0, 0, 0⟩], Runs i (world user)) ∧
    findPart (world user) 0 = some part ∧ part.dbglvl ≠ 0 ∧ { part with dbglvl := 0 }.dbglvl = 0 :=
  ⟨runs_all (by decide), by decide, by decide, by decide⟩

/-- Two paths of a pack, the second in the path queue. -/
def pair : Pack := { user with paths := [{ pc := 0, mask := 1, slot := some 0 }, { pc := 64, mask := 2, slot := none }], qnext := 1 }

theorem witness_yield : (∀ x ∈ pair.paths, x.qseq < pair.qnext) ∧
    (∀ i < 2, ∀ x, i ≠ 0 → pair.paths[i]? = some x → x.slot ≠ some 0) ∧
    (∀ x ∈ pair.paths, x.wait = .run → x.slot = none → (0 : Nat) ≤ x.qseq) ∧ runsB (.yield always ⟨0, 0, 0⟩) (world pair) = true := by
  refine ⟨by decide, ?_, by decide, by decide⟩
  intro i hi x h0 hx
  match i, hi with
  | 0, _ => exact absurd rfl h0
  | 1, _ => cases hx; decide

/-- Lane 0 in set 9 with the waiting lane 1. -/
def gathered : Pack := { user with sets := user.sets.set 9 ⟨3#64, 2#64, true⟩, waitSet := user.waitSet.set 1 (some 9) }

/-- Every set open. -/
def crowded : Pack := { user with sets := List.replicate 32 ⟨1#64, 0#64, true⟩ }

theorem witness_rejoin_sets : user.shaped = true ∧ user.setCount = 32 ∧ (user.rset 0).opened = false ∧
    (∀ i ∈ [Instr.rsopen always ⟨8, 0, 0, 0, false, 0, 0⟩, .rsenter always ⟨0, 0, 0, 9, false, 0, 0⟩, .rsput always ⟨8, 0, 16, 3, false, 0, 0⟩,
      .rsget always ⟨8, 0, 0, 9, false, 2, 0⟩, .rsarv always ⟨0, 0, 0, 9, false, 0, 0⟩, .rsquit always ⟨0, 0, 0, 9, false, 0, 0⟩,
      .rswait always ⟨0, 0, 0, 9, false, 0, 0⟩], Runs i (world gathered)) ∧
    (∃ c, Issues (.rswait always ⟨0, 0, 0, 9, false, 0, 0⟩) (world gathered) c ∧ c.naming ⟨0, 0, 0, 9, false, 0, 0⟩ 9 = 1#64 ∧
      laneZeroOnly (world gathered) c.pack = false ∧ c.pack.control = none ∧
      (∃ q : RSet, q.completes) ∧ ∃ q : RSet, ¬q.completes) ∧
    (∃ c, Issues (.rsopen always ⟨8, 0, 0, 0, false, 0, 0⟩) (world crowded) c ∧ c.exec ≠ 0#64 ∧
      ∀ j < c.pack.setCount, (c.pack.rset j).opened = true) ∧
    (∃ c, Issues (.rsenter always ⟨0, 12, 0, 0, true, 0, 0⟩) (world pointing) c ∧ c.exec.lanes = [0] ∧
      c.pack.setCount ≤ c.name ⟨0, 12, 0, 0, true, 0, 0⟩ 0) :=
  ⟨by decide, by decide, by decide, runs_all (by decide), ⟨_, ⟨rfl, by decide⟩, by decide, by decide, by decide,
      ⟨⟨3#64, 3#64, true⟩, by unfold RSet.completes; decide⟩, ⟨7#64, 3#64, true⟩, by unfold RSet.completes; decide⟩,
    ⟨_, ⟨rfl, by decide⟩, by decide, by decide⟩, ⟨_, ⟨rfl, by decide⟩, by decide, by decide⟩⟩

set_option maxRecDepth 4000 in
theorem witness_rejoin_arrival : ∃ c, Issues (.rsarv always ⟨0, 0, 0, 9, false, 0, 0⟩) (world gathered) c ∧
    ∀ k, ∀ l < 64, (c.naming ⟨0, 0, 0, 9, false, 0, 0⟩ k).has l = true → (c.pack.rset k).member.has l = true ∧ (c.pack.rset k).arrived.has l = false := by
  refine ⟨_, ⟨rfl, by decide⟩, fun k l hl h => ?_⟩
  have h9 : (Mask.ofPred fun _ => (9 : Nat) == k).has l = true := by
    have : ∀ m n : Mask, (m &&& n).has l = true → n.has l = true := fun m n h => by simp_all [Mask.has]
    exact this _ _ h
  rw [has_ofPred _ l hl] at h9
  obtain rfl := eq_of_beq h9
  clear h9; revert l; decide

/-- A herd whose object 1 is as `b`. -/
def barred (b : Barrier) : State := { world user with herds := [{ herd with bars := herd.bars.set 1 b }] }

theorem witness_barriers : (∀ i ∈ [Instr.barinit always ⟨0, 0, 0, 1, false, 0, 2047⟩, .bararv always ⟨8, 0, 0, 1, false, 1, 0⟩,
      .barexp always ⟨0, 0, 0, 1, false, 0, 128⟩, .barinv always ⟨0, 0, 0, 1, false, 0, 0⟩, .barsync always ⟨1, 0, 0, 1, false, 0, 0⟩,
      .barsync always ⟨1, 0, 0, 1, false, 0, 2048⟩, .barwait always ⟨1, 0, 16, 1, false, 0, 0⟩], Runs i (world user)) ∧
    Runs (.bararv always ⟨8, 0, 0, 1, false, 1, 0⟩) (barred { bar with inv := true }) ∧
    (∃ c, Issues (.bararv always ⟨8, 0, 0, 1, false, 1, 0⟩) (world user) c ∧ c.exec ≠ 0#64 ∧
      (∀ l < 64, c.exec.has l = true → c.name ⟨8, 0, 0, 1, false, 1, 0⟩ l = 1) ∧ c.herd (world user) = some herd ∧ herd.bars[1]? = some bar ∧
      (∀ l < 64, c.exec.has l = true → QueueFree (world user) c.pack.loc l) ∧ c.exec.lanes.length = 1 ∧ anyWaiter (world user) 7 1 = false ∧
      laneZeroOnly (world user) c.pack = false ∧ herd.saving = false) ∧
    findHerd (barred { bar with pending := 1 }) 7 = some { herd with bars := herd.bars.set 1 { bar with pending := 1 } } ∧
    findHerd (barred { bar with inv := true }) 7 = some { herd with bars := herd.bars.set 1 { bar with inv := true } } ∧
    findHerd (barred { bar with init := 0 }) 7 = some { herd with bars := herd.bars.set 1 { bar with init := 0 } } :=
  ⟨runs_all (by decide), runs (by decide), ⟨_, ⟨rfl, by decide⟩, by decide, by decide, by decide, by decide, by unfold QueueFree; decide,
    by decide, by decide, by decide, by decide⟩, by decide, by decide, by decide⟩

theorem witness_opm_claims : (∀ i ∈ [Instr.opmclm always ⟨0, 0, 0, 1, false, 0, 0⟩, .opmrel always ⟨0, 0, 0, 1, false, 0, 0⟩], Runs i (world user)) ∧
    (∃ c, Issues (.opmclm always ⟨0, 0, 0, 1, false, 0, 0⟩) (world user) c ∧ c.herd (world user) = some herd ∧
      (∀ l < 64, c.exec.has l = true → c.name ⟨0, 0, 0, 1, false, 0, 0⟩ l = 1)) ∧
    herd.opm[1]? = some { phys := 0, holder := none, queue := [], data := [], bad := [] } ∧ herd.opm.length ≤ 2 :=
  ⟨runs_all (by decide), ⟨_, ⟨rfl, by decide⟩, by decide, by decide⟩, by decide, by decide⟩

/-- A pack whose v16 to v19 hold the record of one row of 128 bytes at offset 1024, and v12:v13 the address 0x10000. -/
def copying : Pack := setReg (setReg (setReg (setReg pointing 16 1024) 17 0x10080) 18 128) 19 128

/-- That record, with the row at `lbase`, `rowb` bytes long. -/
def rowOf (lbase rowb : Nat) : CopyRec := ⟨lbase, rowb, 1, 128, 128⟩

theorem witness_copies : (∃ c, Issues (.tcopy always ⟨0, 12, 16, 1, false, 0, 0⟩) (world copying) c ∧ Clean (.tcopy always ⟨0, 12, 16, 1, false, 0, 0⟩) c ∧
      c.exec ≠ 0#64 ∧ c.herd (world copying) = some herd ∧ (∀ l < 64, c.exec.has l = true → QueueFree (world copying) c.pack.loc l) ∧
      (getCore (world copying) c.pack.loc.core).copies.length < 64 ∧ c.pack.shaped = true) ∧
    checkCopy (some herd) ⟨.load 0 0#64, false, some 1, 0x10000, rowOf 1024 128⟩ = none ∧
    checkCopy (some herd) ⟨.store 0 0#64, false, none, 0x10000, rowOf 3968 128⟩ = none ∧
    checkCopy (some herd) ⟨.gather [0], true, some 1, 0x10000, rowOf 1024 128⟩ = none ∧
    (checkCopy (some herd) ⟨.load 0 0#64, false, some 1, 0x10000, rowOf 1025 128⟩).isSome = true ∧ (1024 + 1) % 128 ≠ 0 ∧
    herd.spadSize < 4096 + (1 - 1) * 128 + 128 ∧
    (∀ i ∈ [Instr.tstore always ⟨0, 12, 16, 0, false, 2, 0⟩, .tgather always ⟨9, 12, 16, 1, false, 0, 0⟩, .tcancel always ⟨8, 0, 0, 0, false, 1, 0⟩],
      Runs i (world copying)) :=
  ⟨⟨_, ⟨rfl, by decide⟩, clean_of rfl, by decide, by decide, by unfold QueueFree; decide, by decide, by decide⟩, by decide, by decide, by decide,
    by decide, by decide, by decide, runs_all (by decide)⟩

/-- A copy of one row between offset 1024 and the address `va`, in entry 3 of its queue. -/
def row (kind : CopyKind) (va : Quad) : Copy :=
  { (default : Copy) with entry := 3, tag := 5, herd := some 7, loc := ⟨0, 0, 0⟩, kind := kind, bar := some 1, gbase := va, lbase := 1024, rowb := 128, rows := 1, gstride := 128, lstride := 128 }

/-- The machine with that copy in its core's queue. -/
def landing (c : Copy) : State := { world user with cores := [core [] [c]], packs := [user, hand] }

theorem witness_landings :
    (findCopy (landing (row (.load 0 0) 0x10000)) 0 3 = some (row (.load 0 0) 0x10000) ∧
      (row (.load 0 0) 0x10000).lines[0]? = some ⟨1024, 0, 0, 0, 128, false⟩ ∧
      (copyResolve (landing (row (.load 0 0) 0x10000)) 0 (row (.load 0 0) 0x10000) .read 0x10000 128).1 = .ok [(65536, 128, page)] ∧
      findHerd (landing (row (.load 0 0) 0x10000)) 7 = some herd ∧ memWf 0#8 herd.spad = true ∧ herd.tags = []) ∧
    ((row (.store 0 0) 0x10000).lines[0]? = some ⟨1024, 0, 0, 0x10000, 128, false⟩ ∧
      (copyResolve (landing (row (.store 0 0) 0x10000)) 0 (row (.store 0 0) 0x10000) (.write false) 0x10000 128).1 = .ok [(65536, 128, page)] ∧
      touchesEmpty herd 1024 128 = false) ∧
    (copyResolve (landing (row (.load 0 0) (2 ^ 60))) 0 (row (.load 0 0) (2 ^ 60)) .read (2 ^ 60) 128).1 = .fault 8 (2 ^ 60) ∧
    findPack (landing (row (.load 0 0) (2 ^ 60))) ⟨0, 0, 31⟩ = some hand :=
  ⟨⟨by decide, by decide, rfl, by decide, by decide, by decide⟩, ⟨by decide, rfl, by decide⟩, rfl, by decide⟩

/-- A mould image of one idle cell at 0x10000: its digest, `ncells` = 1 and version 1, and the word 0. -/
def imaged : State :=
  { world (setReg alone 12 0x10000) with mem := [(65536, 128), (65537, 231), (65538, 171), (65539, 202), (65540, 165), (65541, 214), (65542, 39), (65543, 152), (65544, 1), (65551, 1)] }

set_option maxRecDepth 10000 in
theorem witness_spatial_entry : ∃ c hd digest covered words s', Issues (.spxenter always ⟨0, 12, 0, 0, 0, 0, 0, 0, 0⟩) imaged c ∧
    Clean (.spxenter always ⟨0, 12, 0, 0, 0, 0, 0, 0, 0⟩) c ∧ c.exec.has 0 = true ∧ c.pack.herd = some 7 ∧ c.pack.control = none ∧
    c.pack.paths.length = 1 ∧ (∀ q ∈ imaged.packs, q.herd = some 7 → q.control = none) ∧ user.paths.length ≠ 1 ∧
    QueueFree imaged c.pack.loc 0 ∧ (c.pack.pair 12 0).toNat % 16 = 0 ∧
    readImage imaged c.pack (c.pack.pair 12 0).toNat = .ok hd digest covered words s' ∧ validateFault s' c.pack hd digest covered words = none ∧
    s'.nextId = imaged.nextId ∧ s'.packs = imaged.packs :=
  ⟨_, _, _, _, _, _, ⟨rfl, by decide⟩, clean_of rfl, by decide, by decide, by decide, by decide, by decide, by decide, by unfold QueueFree; decide, by decide,
    rfl, by decide, rfl, rfl⟩

/-- A cell word: operator, one consumer (255 for none) and its input, link type and config. -/
def cellWord (cop to_ input ltype cfg : Nat) : Quad := BitVec.ofNat 64 (cop * 2 ^ 58 + to_ * 2 ^ 50 + input * 2 ^ 48 + 255 * 2 ^ 40 + ltype * 2 ^ 34 + cfg)

/-- An active residency of one quarter with these cells and ports, controlled by pack 0. -/
def region (words : List Quad) (cells : List Cell) (ports : List Port) : Residency :=
  { Residency.entered 3 7 { user with control := some 3 } ⟨0, 2040, 0, 255, words.length, words⟩ 0 0 with phase := .active, cells := cells, ports := ports }

/-- Cell 0 has the word `w` and these tokens at its inputs A, B …, each the consumer of a producer; a cell 9 takes what it sends. -/
def operating (w : Quad) (d : CellData) (xs : List Token) : Residency :=
  let words := w :: xs.mapIdx fun k x => cellWord 5 0 k x.ltype 0
  region words ({ Cell.fresh w with chans := (xs.map fun x => [x]) ++ List.replicate (4 - xs.length) [], data := d } :: words.tail.map Cell.fresh) []

/-- The data of a fresh cell. -/
def noData : CellData := (Cell.fresh 0).data

/-- The machine with that residency, its control pack at lane 0. -/
def spatial (r : Residency) : State := { world { pointing with control := some 3 } with residencies := [r] }

/-- A data token. -/
def data (t v : Nat) : Token := ⟨.data, t, BitVec.ofNat 256 v, 0⟩

/-- Operator `cop` with config `cfg` may fire, and the tokens at its inputs are `xs`. -/
def Fires (cop lt cfg : Nat) (d : CellData) (xs : List Token) : Prop :=
  MayFire (spatial (operating (cellWord cop 255 0 lt cfg) d xs)) 3 (operating (cellWord cop 255 0 lt cfg) d xs) 0 ∧
  (operating (cellWord cop 255 0 lt cfg) d xs).heads 0 (List.range xs.length) xs ∧
  cwCop ((operating (cellWord cop 255 0 lt cfg) d xs).cell 0).word = cop ∧ cwCfg ((operating (cellWord cop 255 0 lt cfg) d xs).cell 0).word = cfg

/-- What `Fires` asks, evaluated. -/
def firesB (cop lt cfg : Nat) (d : CellData) (xs : List Token) : Bool :=
  let r := operating (cellWord cop 255 0 lt cfg) d xs
  findRes (spatial r) 3 == some r && r.live 0 && r.canEmit 0 && (r.cell 0).data.buffer.isEmpty && (r.alignedMark 0 (r.inputs 0)).isNone &&
    (List.range xs.length).map (r.head? 0) == xs.map some &&
    ((List.range xs.length).zip xs).all (fun x => x.2.kind == .data && acceptsType (r.cell 0).word x.1 x.2.ltype) &&
    cwCop (r.cell 0).word == cop && cwCfg (r.cell 0).word == cfg

theorem fires {cop lt cfg : Nat} {d : CellData} {xs : List Token} (h : firesB cop lt cfg d xs = true) : Fires cop lt cfg d xs := by
  simp only [firesB, Bool.and_eq_true, beq_iff_eq, List.isEmpty_iff, Option.isNone_iff_eq_none, List.all_eq_true] at h
  obtain ⟨⟨⟨⟨⟨⟨⟨⟨h1, h2⟩, h3⟩, h4⟩, h5⟩, h6⟩, h7⟩, h8⟩, h9⟩ := h
  exact ⟨⟨h1, h2, h3, h4, h5⟩, ⟨h6, fun x hx => h7 x hx⟩, h8, h9⟩

theorem witness_cells : Fires 0x01 2 0 noData [data 2 5] ∧ Fires 0x02 2 0xFFFFF000 noData [data 2 5] ∧
    Fires 0x04 2 1 noData [data 2 5, data 1 0] ∧ Fires 0x05 1 0x10003 noData [] ∧ Fires 0x06 2 12 noData [data 2 5, data 2 7] ∧
    Fires 0x07 3 0 noData [data 3 5, data 3 7, data 3 0] ∧ Fires 0x07 3 8 noData [data 3 5, data 3 7] ∧ Fires 0x08 3 4 noData [data 3 5] ∧
    Fires 0x09 4 0 noData [data 5 5] ∧ Fires 0x0B 4 0 noData [data 4 5, data 4 7] ∧
    Fires 0x0B 4 0 { noData with panelA := List.replicate 7 (data 4 1), panelB := List.replicate 7 (data 4 1) } [data 4 5, data 4 7] ∧
    Fires 0x0C 12 1 noData [data 12 5, data 12 7] ∧ Fires 0x16 0 255 noData [data 1 5] ∧ Fires 0x16 0 256 noData [data 1 0] :=
  ⟨fires (by decide), fires (by decide), fires (by decide), fires (by decide), fires (by decide), fires (by decide), fires (by decide),
    fires (by decide), fires (by decide), fires (by decide), fires (by decide), fires (by decide), fires (by decide), fires (by decide)⟩

theorem witness_merge : (∃ r : Residency, r = operating (cellWord 3 255 0 2 0xC) noData [data 2 5, data 2 7] ∧ MayFire (spatial r) 3 r 0 ∧
      r.inputs 0 = [0, 1] ∧ r.head? 0 1 = some (data 2 7) ∧ (r.inputs 0).find? (fun j => decide (1 ≤ j)) = some 1) :=
  ⟨_, rfl, ⟨by decide, by decide, by decide, by decide, by decide⟩, by decide, by decide, by decide⟩

theorem witness_statistics : Fires 0x0A 3 0 noData [data 3 0x3F800000] ∧ cellCvtOk 5 4 0 = true ∧ linkCount 5 = linkCount 4 ∧
    (let p := (elements 3 (data 3 0x3F800000)).foldl welfordAdd ⟨0, 0, 0⟩
     p.n ≠ 0 ∧ p.n < 2 ^ 32 ∧ p.mean < 2 ^ 32 ∧ p.m2 < 2 ^ 32) := ⟨fires (by decide), by decide, by decide, by decide⟩

/-- An `accd` cell that serves a draining `macs` cell. -/
def draining : Residency :=
  let words := [cellWord 0x15 255 0 15 0, cellWord 0x0B 255 0 4 0]
  region words [Cell.fresh words[0]!, { Cell.fresh words[1]! with data := { noData with draining := true } }] []

theorem witness_drain : MayFire (spatial draining) 3 draining 0 ∧ (servedMacs draining 0)[((draining.cell 0).data).count 0]? = some 1 ∧
    (draining.cell 1).data.draining = true ∧ ((draining.cell 0).data).count 1 < 7 :=
  ⟨⟨by decide, by decide, by decide, by decide, by decide⟩, by decide, by decide, by decide⟩

/-- A put-mode `pass` feeding a get-mode one, an `mpld`, an `mpst`, an `spld` and an `spst` of f32 tokens, a `rqst` and a `cnt`. -/
def mould : List Quad :=
  [cellWord 1 1 0 2 1, cellWord 1 255 0 0 2, cellWord 0x0E 3 0 3 0, cellWord 0x0F 255 0 0 0, cellWord 0x10 5 0 3 0, cellWord 0x11 255 0 0 0,
    cellWord 0x13 255 0 0 0, cellWord 0x0D 8 0 13 0, cellWord 0x12 255 0 3 0, cellWord 0x14 255 0 2 64]

/-- That region, its ports with these queues. -/
def working (q : List Command) : Residency :=
  region mould (mould.map Cell.fresh) ([2, 3, 4, 5, 6, 7, 8, 9].map fun n => { Port.fresh n with queue := q })

theorem witness_region_rows : (∃ c, Issues (.spxsem always ⟨8, 0, 0, 1, 2, 0, 0, 1, 7⟩) (spatial (working [])) c ∧
      InRegion (spatial (working [])) c (working []) ∧ QueueFree (spatial (working [])) c.pack.loc 0 ∧ c.pack.shaped = true) ∧
    (∀ i ∈ [Instr.spxleave always ⟨0, 0, 0, 0, 0, 0, 0, 0, 0⟩, .spxsem always ⟨0, 0, 0, 0, 2, 9, 0, 0, 0⟩, .spxbar always ⟨0, 0, 0, 0, 0, 0, 1, 1, 0⟩,
      .spxput always ⟨0, 12, 16, 0, 0, 0, 0, 0, 0⟩, .spxget always ⟨8, 12, 0, 0, 0, 0, 0, 0, 1⟩, .spxstat always ⟨8, 0, 0, 2, 0, 0, 0, 0, 0⟩,
      .spxstrm always ⟨0, 12, 16, 0, 0, 0, 0, 0, 2⟩, .spxsweep always ⟨0, 0, 0, 0, 0, 0, 0, 0, 2⟩], Runs i (spatial (working []))) ∧
    (working []).sem 2 < 9 ∧ (working []).bars = [] ∧ cwPut ((working []).cell 0).word = true ∧ ((working []).cell 0).putEos = false ∧
    (working []).room 0 0 = true ∧ unusedZero 2 (data 2 (2 ^ 255)) = true ∧ cwGet ((working []).cell 1).word = true ∧
    (working []).head? 1 0 = none ∧ ((working []).cell 1).eos = false ∧
    Runs (.spxleave always ⟨0, 0, 0, 0, 0, 0, 0, 0, 0⟩) (world user) ∧ user.control = none :=
  ⟨⟨_, ⟨rfl, by decide⟩, ⟨by decide, by decide, by decide, by decide, by decide, by decide⟩, by unfold QueueFree; decide, by decide⟩,
    runs_all (by decide), by decide, by decide, by decide, by decide, by decide, by decide, by decide, by decide, by decide,
    runs (by decide), by decide⟩

/-- A command over one token at `base`. -/
def command (base : Quad) (lt : Nat) (begun : Bool) : Command := ⟨.command, base, 0, 1, 1, 1, 0, 0, 0, lt, false, 0, 0, 0, 1, begun, 0⟩

theorem witness_stream_commands :
    (∃ c, Issues (.spxstrm always ⟨0, 12, 16, 0, 0, 0, 0, 0, 2⟩) (spatial (working [])) c ∧
      InRegion (spatial (working [])) c (working []) ∧ (working []).port? (strmPort ⟨0, 12, 16, 0, 0, 0, 0, 0, 2⟩) = some (Port.fresh 2) ∧
      strmRanges (c.herd (spatial (working []))) 0x0E (strmCommand c ⟨0, 12, 16, 0, 0, 0, 0, 0, 2⟩ (working [])) = none) ∧
    (working []).port? 0 = none ∧ sweepable (working []) 2 = true ∧
    (let r := working [command 0x10000 3 false]
     findRes (spatial r) 3 = some r ∧ r.port? 2 = some { Port.fresh 2 with queue := [command 0x10000 3 false] } ∧
       r.beginnable { Port.fresh 2 with queue := [command 0x10000 3 false] } = some (command 0x10000 3 false)) ∧
    (let r := working [{ command 0x10000 3 true with pos := 1 }]
     findRes (spatial r) 3 = some r ∧ r.firing = true ∧ (command 0x10000 3 true).total ≤ 1) ∧
    (let r := { working [{ command 0 3 false with kind := .sweep 4 }] with groups := [⟨4, [2], 0, 0, 0, 1, false⟩] }
     r.groups.find? (·.id == 4) = some ⟨4, [2], 0, 0, 0, 1, false⟩ ∧ r.sweepReady ⟨4, [2], 0, 0, 0, 1, false⟩ = true) :=
  ⟨⟨_, ⟨rfl, by decide⟩, ⟨by decide, by decide, by decide, by decide, by decide, by decide⟩, by decide, by decide⟩, by decide, by decide, by decide,
    by decide, by decide⟩

/-- The region under way: every port carries one token of type `lt` at `base`, and every input of cell `i` holds `x`. -/
def carrying (base : Quad) (lt : Nat) (i : Nat) (x : Token) : Residency :=
  (working [command base lt true]).modCell i fun c => { c with chans := List.replicate 4 [x] }

/-- Cell `i` of that region may fire, its port carrying the command. -/
def Carries (base : Quad) (lt : Nat) (i : Nat) (x : Token) : Prop :=
  MayFire (spatial (carrying base lt i x)) 3 (carrying base lt i x) i ∧
  (carrying base lt i x).port? i = some { Port.fresh i with queue := [command base lt true] } ∧
  (Port.current { Port.fresh i with queue := [command base lt true] }) = some (command base lt true)

theorem witness_ports : Carries 0x10000 3 2 (data 3 1) ∧ Carries 0x10000 3 3 (data 3 1) ∧ Carries 128 3 4 (data 3 1) ∧ Carries 128 3 5 (data 3 1) ∧
    Carries 0x10000 13 7 (data 13 0x10000) ∧ Carries 0x10000 3 8 (data 13 0x10000) ∧ Carries 0x10000 2 9 (data 2 1) ∧
    (carrying 0x10000 3 3 (data 3 1)).heads 3 [0] [data 3 1] ∧ (carrying 128 3 5 (data 3 1)).heads 5 [0] [data 3 1] ∧
    (∃ u, portAccess (spatial (carrying 0x10000 3 2 (data 3 1))) (carrying 0x10000 3 2 (data 3 1))
      { Port.fresh 2 with queue := [command 0x10000 3 true], ranges := [page] } .read true 0x10000 32 32 = .ok 65536 page u) ∧
    (∃ u, portAccess (spatial (carrying 0x10000 3 3 (data 3 1))) (carrying 0x10000 3 3 (data 3 1))
      { Port.fresh 3 with queue := [command 0x10000 3 true], ranges := [page] } (.write false) false 0x10000 32 32 = .ok 65536 page u) ∧
    touchesEmpty herd 128 32 = false ∧ spadPoisoned herd 128 32 = false ∧ touchesEmpty { herd with empty := [1] } 128 32 = true ∧
    (∃ u, tryPort (spatial (carrying 0x10001 3 2 (data 3 1))) (carrying 0x10001 3 2 (data 3 1)) 2 = .fault 7 0x10001 u) ∧
    (reqFault (spatial (working [])) (working []) (data 14 (2 ^ 255))).isSome = true ∧
    reqFault (spatial (working [])) (working []) (data 14 (0x10000 + 2 ^ 64 * (1024 + 2 ^ 32 * (0x10080 + 2 ^ 32 * (128 + 2 ^ 32 * 128))) + 2 ^ 195)) = none := by
  refine ⟨⟨⟨?_, ?_, ?_, ?_, ?_⟩, ?_, ?_⟩, ⟨⟨?_, ?_, ?_, ?_, ?_⟩, ?_, ?_⟩, ⟨⟨?_, ?_, ?_, ?_, ?_⟩, ?_, ?_⟩, ⟨⟨?_, ?_, ?_, ?_, ?_⟩, ?_, ?_⟩,
    ⟨⟨?_, ?_, ?_, ?_, ?_⟩, ?_, ?_⟩, ⟨⟨?_, ?_, ?_, ?_, ?_⟩, ?_, ?_⟩, ⟨⟨?_, ?_, ?_, ?_, ?_⟩, ?_, ?_⟩, ⟨?_, ?_⟩, ⟨?_, ?_⟩, ⟨_, rfl⟩, ⟨_, rfl⟩, ?_, ?_, ?_,
    ⟨_, rfl⟩, ?_, ?_⟩ <;> decide

/-- A port stopped in a region that can do nothing else. -/
def stuck : Residency := region [cellWord 0x0E 255 0 3 0] [Cell.fresh (cellWord 0x0E 255 0 3 0)] [{ Port.fresh 0 with stopped := some ⟨9, 0, 0, false, 0⟩ }]

theorem witness_quiescent : findRes (spatial stuck) 3 = some stuck ∧ stuck.firing = true ∧ stuck.ports.any (·.stopped.isSome) = true ∧
    stuck.quiescent (spatial stuck) = true := by decide

/-- A feeder of the west side that carries one token from slot 0 of the operand memory. -/
def feeding : Residency :=
  let w := cellWord 2 255 0 3 0 ||| 0x2_0000_0000#64
  region [w] [Cell.fresh w] [{ Port.fresh 256 with queue := [command 0 3 true] }]

theorem witness_feeder : findRes (spatial feeding) 3 = some feeding ∧ feeding.feederTarget 0 = some (0, 0) ∧ feeding.room 0 0 = true ∧
    feeding.port? (256 + 0) = some { Port.fresh 256 with queue := [command 0 3 true] } ∧ findHerd (spatial feeding) 7 = some herd ∧
    (herd.opm[0]?).map (·.bad) = some [] := by decide

theorem witness_function_store : (∃ c s' t, Issues (.sfnld always ⟨0, 12, 0, 0, 0, 5, false⟩) (world pointing) c ∧
      Clean (.sfnld always ⟨0, 12, 0, 0, 0, 5, false⟩) c ∧ c.exec ≠ 0#64 ∧ QueueFree (world pointing) c.pack.loc c.low ∧
      checkBlock (world pointing) 0 0 c.pack.level .read 65536 128 128 = (.ok [(65536, 128, t)], s') ∧ t.kind = 0 ∧ t.sc = false ∧
      (c.pack.pair 12 c.low).toNat = 65536 ∧ firstBadStep (memRead Config.blankByte s'.mem 65536 128) = none ∧ findPart s' 0 = some part ∧
      bankHeld s' 0 (1 - part.bank) = false) ∧
    canonical (2 ^ 60) = false ∧ 64 % 128 ≠ 0 ∧ (firstBadStep (0xFF#8 :: List.replicate 127 0xFF#8)).isSome = true ∧
    Runs (.sfnsw always ⟨0, 0, 0, 0, 0, 0, false⟩) (world user) :=
  ⟨⟨_, _, _, ⟨rfl, by decide⟩, clean_of rfl, by decide, by unfold QueueFree; decide, rfl, by decide, by decide, by decide, by decide, by decide, by decide⟩,
    by decide, by decide, by decide, runs (by decide)⟩

/-- A launch of one herd of one pack and a 4 KiB scratchpad, as its 128 bytes. -/
def descriptor : Nat := 1 + 2 ^ 32 + 2 ^ 128 + 2 ^ 144 + 2 ^ 160

/-- The machine with that descriptor at 0x10000. -/
def launching : State := { world pointing with mem := [(65536, 1), (65540, 1), (65552, 1), (65554, 1), (65556, 1)] }

set_option maxRecDepth 4000 in
theorem witness_launch : (∃ c s' t, Issues (.launch always ⟨8, 12, 0, 0, 0, 0, 0, 0, 17⟩) launching c ∧
      Clean (.launch always ⟨8, 12, 0, 0, 0, 0, 0, 0, 17⟩) c ∧ c.exec ≠ 0#64 ∧ c.pack.shaped = true ∧
      (∀ l < 64, c.exec.has l = true → QueueFree launching c.pack.loc l) ∧
      checkBlock launching 0 0 c.pack.level .read 65536 128 128 = (.ok [(65536, 128, t)], s') ∧ t.kind = 0 ∧ t.sc = false ∧
      findPack s' c.pack.loc = some c.pack ∧ findPart s' 0 = some part ∧ memNum s' 65536 128 = descriptor) ∧
    descCode part descriptor = none ∧ descriptor / 2 ^ 320 % 8 = 0 ∧ descriptor / 2 ^ 384 % 2 ^ 64 = 0 ∧ (watchedGates part).length ≤ 512 * part.dies ∧
    (part.launches.filter (·.queue == 17)).length < 256 ∧ descCode part 0 = some 1 :=
  ⟨⟨_, _, _, ⟨rfl, by decide⟩, clean_of rfl, by decide, by decide, by unfold QueueFree; decide, rfl, by decide, by decide, by decide, by decide, by decide⟩,
    by decide, by decide, by decide, by decide, by decide, by decide⟩

theorem witness_tasks : (∃ c s' t, Issues (.gateadd always ⟨8, 12, 16, 3, 0, 0, 0, 0, 0⟩) (world pointing) c ∧
      Clean (.gateadd always ⟨8, 12, 16, 3, 0, 0, 0, 0, 0⟩) c ∧ (∀ r ∈ (world pointing).remotePages, r.ackDue = 0) ∧
      resolve (world pointing) 0 0 c.pack.level .rmw 65536 8 = (.ok 65536 t, s') ∧ t.kind = 0 ∧ t.sc = false ∧
      findPack s' c.pack.loc = some c.pack ∧ poisoned s' t 65536 8 = false ∧ memWf Config.blankByte s'.mem = true) ∧
    (∃ s' t, checkBlock (world pointing) 0 0 0 .read 65536 8 8 = (.ok [(65536, 8, t)], s') ∧ memNum s' 65536 8 = 0) ∧
    (∃ s' t, checkBlock (world pointing) 0 0 0 .read 65536 32 32 = (.ok [(65536, 32, t)], s')) ∧
    (∀ i ∈ [Instr.gatewait always ⟨8, 12, 16, 2, 0, 0, 0, 0, 0⟩, .matcharm always ⟨8, 12, 0, 0, 0, 0, 0, 0, 1000⟩,
      .msgsend always ⟨8, 12, 16, 0, 0, 0, 0, 0, 227⟩], Runs i (world pointing)) ∧
    armOk 0 = false ∧ armOk (128 + 16 * 2 ^ 64 + 2 ^ 160) = true ∧ part.armed = [] ∧ part.held = [] ∧
    (getPort (world pointing) 3).up = false ∧ (getPort { world pointing with ports := [{ getPort State.reset 3 with up := true }] } 0).up = true :=
  ⟨⟨_, _, _, ⟨rfl, by decide⟩, clean_of rfl, by decide, rfl, by decide, by decide, by decide, by decide, by decide⟩, ⟨_, _, rfl, by decide⟩,
    ⟨_, _, rfl⟩, runs_all (by decide), by decide, by decide, by decide, by decide, by decide, by decide⟩

theorem witness_control_registers : (∀ i ∈ [Instr.csrr always ⟨2, 0, 0, 0, false, 0, 32⟩, .csrw always ⟨0, 12, 0, 0, false, 0, 16⟩,
      .csrwSet always ⟨8, 12, 0, 0, false, 5, 18⟩, .csrwClr always ⟨0, 12, 0, 0, false, 2, 32⟩, .partcfgApply always ⟨0, 12, 0, 0, false, 0, 4⟩,
      .pwrlsRd always ⟨8, 12, 0, 0, false, 0, 0⟩, .pwrlsSet always ⟨8, 12, 16, 0, false, 1, 0⟩], Runs i (world hand)) ∧
    hand.shaped = true ∧ findPart (world hand) 0 = some part ∧ part.memwin.length = 8 ∧
    (world hand).residencies = [] ∧ (∀ p ∈ (world hand).packs, p.herd = none) ∧
    (∀ p ∈ ({ world hand with parts := [Partition.initial 0 0 8 2 0] }).parts, p.launches = [] ∧ p.armed = []) ∧
    (world hand).parts.any (!·.launches.isEmpty) = true ∧ (∃ d ∈ (world hand).dies, d.id = 3) ∧ part.die0 ≤ 3 ∧ 3 < part.die0 + part.dies ∧
    ¬8 < part.die0 + part.dies :=
  ⟨runs_all (by decide), by decide, by decide, by decide, by decide, by decide, by decide, by decide, by decide, by decide, by decide, by decide⟩

/-- The record of a fault of `user` with this code. -/
def recordOf (code : Nat) : TrapRecord := { (default : TrapRecord) with code := code, seq := 1, fpc := 0, fmask := 1, exited := user.exited }

/-- The same pack stopped by it. -/
def stopped (code : Nat) (paths : List Path) : Pack := { user with stop := .faulted, record := some (recordOf code), paths := paths }

/-- The handler in service for a cause. -/
def serving (code src unit : Nat) (ps : List Pack) : State :=
  let p := { hand with wake := some ⟨⟨code, src, 0, 0, unit, 1, 0, true, 0⟩, none⟩ }
  { world p with packs := p :: ps, residencies := [stuck], cores := [core [] [{ row (.load 0 0) 0 with seq := 1, suspended := some ⟨9, 0, 0, false, 0⟩ }]] }

theorem witness_return : (∀ code ∈ [9, 34, 25], ∀ i ∈ [Instr.eretRes always ⟨0, 0, 0, 0, false, 0, 0⟩, .eretSkip always ⟨0, 0, 0, 0, false, 1, 0⟩,
      .eretTerm always ⟨0, 0, 0, 0, false, 2, 0⟩, .eretDefer always ⟨0, 0, 0, 0, false, 3, 0⟩],
      runsB i (serving code 0 0 [stopped code [{ pc := 0, mask := 1, slot := some 0 }]]) = true) ∧
    findPack (serving 9 0 0 [stopped 9 user.paths]) ⟨0, 0, 0⟩ = some (stopped 9 user.paths) ∧ (stopped 9 user.paths).stop = .faulted ∧
    (recordOf 9).seq = 1 ∧ (stopped 9 user.paths).control = none ∧
    (stopped 9 user.paths).paths[0]? = some { pc := 0, mask := 1, slot := some 0 } ∧ (1 : Mask) &&& (recordOf 9).fmask ≠ 0#64 ∧
    findCopy (serving 9 1 3 []) 0 3 = some { row (.load 0 0) 0 with seq := 1, suspended := some ⟨9, 0, 0, false, 0⟩ } ∧
    (findRes (serving 9 2 0 [{ user with control := some 3 }]) 3).bind (·.port? 0) = some { Port.fresh 0 with stopped := some ⟨9, 0, 0, false, 0⟩ } ∧
    findPack (serving 9 0 0 []) ⟨0, 0, 0⟩ = none := by decide

theorem witness_resume : ∃ u, resumeFault (world { user with paths := [{ pc := 0x10000, mask := 1, slot := some 0 }] }) user
    (sortByLow [{ pc := 0x10000, mask := 1, slot := some 0 }]) = (none, u) := ⟨_, by rfl⟩

/-- The handler and another pack, v16 of the handler naming it as a unit of source `src`. -/
def ordering (src : Nat) (p : Pack) : State :=
  { world (setReg hand 16 (BitVec.ofNat 32 (src * 256 + 3 * 2 ^ 17 * (if src = 1 then 1 else 0)))) with
    packs := [setReg hand 16 (BitVec.ofNat 32 (src * 256 + 3 * 2 ^ 17 * (if src = 1 then 1 else 0))), p]
    residencies := [{ stuck with ports := [{ Port.fresh 0 with stopped := some ⟨9, 0, 0, true, 0⟩ }] }]
    cores := [core [] [{ row (.load 0 0) 0 with seq := 1, suspended := some ⟨9, 0, 0, true, 0⟩ }]] }

theorem witness_pack_status : (∀ i ∈ [Instr.packhalt always ⟨8, 0, 16, 0, false, 0, 0⟩, .packhaltHerd always ⟨8, 0, 16, 0, false, 1, 0⟩,
      .packhaltKill always ⟨8, 0, 16, 0, false, 2, 0⟩, .packresume always ⟨8, 0, 16, 0, false, 0, 0⟩, .whistle always ⟨8, 0, 16, 0, false, 0, 0⟩],
      runsB i (ordering 0 user) = true) ∧
    findPack (ordering 0 user) ⟨0, 0, 0⟩ = some user ∧ findPack (ordering 0 alone) ⟨0, 1, 0⟩ = none ∧ user.stop = .running ∧ herd.saving = false ∧
    findPack (ordering 0 { user with stop := .halted }) ⟨0, 0, 0⟩ = some { user with stop := .halted } ∧
    user.herd.bind (findHerd (ordering 0 user)) = some herd ∧ part.launches.find? (·.seq == herd.seq) = some launch ∧ launch.term = none ∧
    canonical 0 = true ∧ (findCopy (ordering 1 user) 0 3).bind (·.suspended) = some ⟨9, 0, 0, true, 0⟩ ∧
    (findRes (ordering 2 { user with control := some 3 }) 3).map (·.phase) = some .active := by decide

/-- The handler with v16 as in `ordering`, an address in v12:v13, and the record of `user`'s fault to save. -/
def saving_ : State := { ordering 0 (stopped 9 user.paths) with packs := [setReg (setReg hand 16 0) 12 0x10000, stopped 9 user.paths], residencies := [], cores := [core [] []] }

set_option maxRecDepth 10000 in
theorem witness_images : (∃ c s' t, Issues (.ctxsaveRec always ⟨8, 12, 16, 0, false, 0, 0⟩) saving_ c ∧ Clean (.ctxsaveRec always ⟨8, 12, 16, 0, false, 0, 0⟩) c ∧
      c.exec ≠ 0#64 ∧ c.pack.shaped = true ∧ c.pack.herd = none ∧ (c.pack.reg 16 c.low).toNat = 0 ∧
      findPack saving_ ⟨0, 0, 0⟩ = some (stopped 9 user.paths) ∧ (recordOf 9).appendix = none ∧ (recordOf 9).paths.length ≤ 64 ∧
      checkBlock saving_ 0 0 c.pack.level (.write false) 65536 64 128 = (.ok [(65536, 64, t)], s') ∧ t.kind = 0 ∧ t.sc = false ∧
      findPack s' c.pack.loc = some c.pack ∧ memWf Config.blankByte s'.mem = true) ∧
    runsB (.ctxsaveHerd always ⟨8, 12, 16, 0, false, 1, 0⟩) saving_ = true ∧ runsB (.ctxload always ⟨8, 12, 0, 0, false, 0, 0⟩) saving_ = true ∧
    (∀ q ∈ saving_.packs, q.herd = some 7 → q.stop ≠ .running) ∧ herd.packCount < 2 ^ 8 ∧ herd.index < 2 ^ 48 ∧
    (stopped 9 user.paths).herd.bind (findHerd saving_) = some herd ∧ findPack saving_ ⟨0, 1, 0⟩ = none ∧
    ((getCore saving_ 0).copies.filter fun y => y.herd == some 7) = [] :=
  ⟨⟨_, _, _, ⟨rfl, by decide⟩, clean_of rfl, by decide, by decide, by decide, by decide, by decide, by decide, by decide, rfl, by decide, by decide,
    by decide, by decide⟩, by decide, by decide, by decide, by decide, by decide, by decide, by decide, by decide⟩

theorem witness_image_read : (∃ s' t, checkBlock saving_ 0 0 2 .read 65536 128 128 = (.ok [(65536, 128, t)], s') ∧ memNum s' 65536 1 ≠ 1) ∧
    (∃ s'' t, checkBlock { saving_ with mem := [(65536, 1), (65561, 1)] } 0 0 2 .read 65536 256 128 = (.ok [(65536, 256, t)], s'') ∧
      memNum s'' 65536 1 = 1 ∧ memNum s'' 65560 8 = 256) := ⟨⟨_, _, rfl, by decide⟩, ⟨_, _, rfl, by decide, by decide⟩⟩

/-- The handler alone, v4:v5 and v12:v13 holding 0x10000 and v16 the number 1. -/
def master : State :=
  let p := setReg (setReg (setReg hand 4 0x10000) 12 0x10000) 16 1
  { world p with packs := [p] }

theorem witness_shootdown : (∀ i ∈ [Instr.tlbinvPage always ⟨0, 4, 0, 0, false, 0, 0⟩, .tlbinvRange always ⟨0, 12, 16, 0, false, 5, 0⟩,
      .tlbinvAll always ⟨0, 0, 0, 0, false, 2, 0⟩, .l2opProm always ⟨8, 4, 0, 0, false, 0, 0⟩, .l2opAdopt always ⟨8, 12, 16, 0, false, 1, 0⟩],
      Runs i master) ∧
    (∃ c, Issues (.tlbinvRange always ⟨0, 12, 16, 0, false, 5, 0⟩) master c ∧ (c.pack.pair 12 c.low).toNat = 65536 ∧ (c.pack.reg 16 c.low).toNat = 1 ∧
      c.pack.shoot = none ∧ c.path.wait = .run ∧ QueueFree master c.pack.loc c.low ∧ c.exec ≠ 0#64) ∧
    findPart master hand.part = some part ∧ canonical 65536 = true ∧ master.cores.all (·.storeQ.isEmpty) = true ∧ master.pages = [] ∧
    master.handOvers = [] ∧ master.remotePages = [] ∧ master.residencies = [] ∧ 2 ^ 60 % 65536 = 0 ∧ canonical (2 ^ 60) = false :=
  ⟨runs_all (by decide), ⟨_, ⟨rfl, by decide⟩, by decide, by decide, by decide, by decide, by unfold QueueFree; decide, by decide⟩, by decide, by decide,
    by decide, by decide, by decide, by decide, by decide, by decide, by decide⟩

theorem witness_relatch : (let r := { stuck with ports := [{ Port.fresh 0 with ranges := [page] }] }
     findRes (spatial r) r.id = some r ∧ r.part = part.id ∧ r.phase ≠ .saved ∧
       (page.part = part.id ∧ 1 < page.vpn + page.pages ∧ page.vpn < 1 + 1)) := by decide

theorem witness_promotion : (∃ s' t, checkBlock master 0 0 2 .read 65536 64 64 = (.ok [(65536, 64, t)], s') ∧ t.kind = 0 ∧ t.sc = false ∧
      findPart s' 0 = some part) ∧ part.promotions.length < 16 ∧ insideWindows part 0x10000 65536 = false ∧
    insideWindows { part with memwin := BitVec.ofNat 64 (2 ^ 52) :: List.replicate 7 0 } 0x10000 65536 = true := ⟨⟨_, _, rfl, by decide, by decide, by decide⟩, by decide, by decide, by decide⟩

/-- A pack that stands at 0x10000, with its handler. -/
def falling (q : Path) : State := { world { user with paths := [q] } with packs := [{ user with paths := [q] }, hand], clock := 0x2_0000_0000 }

theorem witness_faults : (let q : Path := { pc := 0x10000, mask := 1, slot := some 0 }
     findPack (falling q) user.loc = some { user with paths := [q] } ∧ findPart (falling q) user.part = some part ∧ user.stop = .running ∧
       user.parked = false ∧ part.stopped = false ∧ q.wait = .run ∧ findPack (falling q) ⟨0, 0, 31⟩ = some hand ∧ hand.loc ≠ user.loc) ∧
    (let q : Path := { pc := 0x10000, mask := 1, wait := .bar 1 false 0, wfrom := some 0 }
     wakeWaits (falling q) { user with paths := [q] } = { user with paths := [q] } ∧ q.wait.counted = true ∧
       max 65536 part.bartimeout.toNat < q.count (now (falling q))) ∧
    (let p := { gathered with paths := [{ pc := 0, mask := 2, wait := .set 9 }], exited := ~~~2#64 }
     p.waitingOn 9 &&& (p.rset 9).member ≠ 0#64 ∧ (∀ j < 9, p.waitingOn j &&& (p.rset j).member = 0#64) ∧
       (2 : Mask).has (Mask.lowest (p.waitingOn 9)) = true) ∧
    hand.herd = none ∧ hand.level = 2 ∧ ({ hand with level := 1 }).level ≠ 2 := by decide

/-- A partition whose tables stand at 0x10000, and an idle handler with a cause. -/
def waking : State :=
  let p := { Pack.handler 0 0 0 48 1 with wakes := [⟨9, 0, 0, 0, 0, 1, 0, true, 0⟩] }
  { world p with parts := [{ part with mtvec := 0x10000 }], mem := [(65680, 0), (65681, 1)].filter (·.2 != 0) }

theorem witness_wake : (∃ p s' s'', findPack waking ⟨0, 0, 31⟩ = some p ∧ p.wakes = [⟨9, 0, 0, 0, 0, 1, 0, true, 0⟩] ∧ p.stop = .running ∧ p.wake = none ∧
      readVector waking 0 0 2 (0x10000 + 16 * 9) = (.ok 256, false, s') ∧ checkTarget s' 0 0 2 256 = (.ok, s'') ∧ findPack s'' ⟨0, 0, 31⟩ = some p) ∧
    (checkTarget waking 0 0 2 4).1 = .fault 3 := ⟨⟨_, _, _, rfl, rfl, rfl, rfl, rfl, rfl, rfl⟩, by decide⟩

theorem witness_turns : packReady (world user) user = true ∧ user.herd ≠ none ∧
    (let p := { user with readyAt := some 3, passed := 64 }
     packReady (world p) p = true ∧ p.readyAt ≠ none ∧ 64 ≤ p.passed) ∧
    (let h := { hand with readyAt := some 5 }
     let p := { user with readyAt := some 3, loc := ⟨0, 0, 1⟩ }
     let s := { world p with packs := [h, { user with readyAt := some 3 }, p] }
     (choosePack s 0 0).map (·.loc.slot) = some 31 ∧
       (choosePack { s with quarters := [⟨0, 0, .simt, 3, [true, true, true]⟩] } 0 0).map (·.loc.slot) = some 0) ∧
    (let p := { user with paths := [{ pc := 0, mask := 1, slot := some 0, held := true }] }
     p.paths[0]? = some { pc := 0, mask := 1, slot := some 0, held := true } ∧ pathRuns (world p) p { pc := 0, mask := 1, slot := some 0, held := true } = true) ∧
    (let p := { pair with issued := 768 }
     p.paths[0]? = some { pc := 0, mask := 1, slot := some 0 } ∧ (0 : Nat) + 64 ≤ p.issued ∧ 0 + 768 ≤ p.issued ∧ (∀ x ∈ p.paths, x.held = false) ∧
       p.paths[1]? = some { pc := 64, mask := 2, slot := none } ∧ ∀ x ∈ p.paths, x.qseq < p.qnext) ∧
    (({ user with paths := [{ pc := 0, mask := 1, wait := .again 3 0 }] } : Pack).paths[0]?).map (·.wait) = some (.again 3 0) := by decide

/-- A launch of one-pack herds that is chosen, and the partition with it. -/
def chosen : Launch := { launch with desc := { launch.desc with npack := 1 }, eligible := some 0, chosen := some 0, gates := [] }
def choosing : Partition := { part with launches := [chosen], chosen := some 1 }

/-- The empty machine with that partition. -/
def empty_ : State := { State.reset with booted := true, parts := [choosing] }

set_option maxRecDepth 10000 in
theorem witness_placement : findPart empty_ 0 = some choosing ∧ choosing.stopped = false ∧ choosing.launches.find? (·.seq == 1) = some chosen ∧
    chosen.term = none ∧ chosen.desc.cores = false ∧ chosen.nextHerd < chosen.desc.herds ∧
    Need.takes empty_ choosing (freshNeed chosen.desc chosen.nextHerd) ⟨0, [(0, 0)]⟩ = true ∧
    (let h : Herd := { herd with place := .stored, packs := [user], packCount := 1 }
     let s := { empty_ with herds := [h] }
     nextStored s choosing chosen = [h] ∧ findHerd s 7 = some h ∧ h.residency = none ∧
       Need.takes s choosing (storedNeed s chosen.desc h) ⟨335, [(3, 30)]⟩ = true) := by decide

/-- A launch of higher priority than a herd that holds the scratchpad of core 0; the other cores of the die are full. -/
def pressing : Launch := { chosen with seq := 2, desc := { chosen.desc with prio := 3 } }
def pressed : Partition := { choosing with launches := [chosen, pressing], chosen := some 2, dies := 1 }
def full (k : Nat) : Herd := { herd with id := 7 + k, core := k, spadSize := 176 * 4096, admitted := if k = 0 then 0 else 2 ^ 18 }
def crowd : State := { empty_ with parts := [pressed], herds := (List.range 42).map full, packs := [user], clock := BitVec.ofNat 64 (2 ^ 18) }

set_option maxRecDepth 10000 in
theorem witness_preemption : chosenLaunch pressed = some pressing ∧ pressing.desc.cores = false ∧ full 0 ∈ crowd.herds ∧ savable crowd (full 0) = true ∧
    herdRes crowd 7 = none ∧ (∀ g ∈ crowd.herds, beingSaved crowd g = false) ∧ herdPrio crowd (full 0) < pressing.desc.prio ∧
    (full 0).admitted + 2 ^ 18 ≤ now crowd ∧ (∀ g ∈ crowd.herds, preemptable crowd pressed pressing g = true → g = full 0) ∧
    canPlaceNext crowd pressed pressing = false ∧ canPlaceNext (without crowd [7]) pressed pressing = true ∧ findHerd crowd 7 = some (full 0) ∧
    nextStored crowd pressed pressing = [] ∧
    pressed.cores.find? ((freshNeed pressing.desc pressing.nextHerd).fits (without crowd [7])) = some 0 := by decide

/-- A residency that has waited for its region, which a pack of another herd holds. -/
def waiting : Residency := { Residency.entered 3 8 { user with control := some 3, herd := some 8 } ⟨0, 1888, 0, 0, 1, [0]⟩ 0 0 with phase := .validate }
def stalled : State :=
  { world user with
    packs := [{ user with control := some 3, herd := some 8 }, { user with loc := ⟨0, 0, 1⟩, regCount := 128 }]
    herds := [herd, { herd with id := 8 }], residencies := [waiting], clock := BitVec.ofNat 64 (2 ^ 20) }

theorem witness_stall : findRes stalled 3 = some waiting ∧ waiting.phase = .validate ∧ waiting.since + 2 ^ 20 ≤ now stalled ∧ regionFree stalled waiting = false ∧
    regionFree (without stalled [7]) waiting = true ∧ savable stalled herd = true ∧ herdRes stalled 7 = none ∧
    inRegion stalled 0 waiting.quarters herd = true ∧ (∀ x ∈ stalled.herds, inRegion stalled 0 waiting.quarters x = true → x = herd ∨ x.id = 8) ∧
    (launchOf stalled herd).map (·.desc.cores) ≠ some true := by decide

theorem witness_saving : (let h : Herd := { herd with saving := true }
     let s := { world user with herds := [h] }
     findHerd s 7 = some h ∧ h.place = .resident ∧ ((getCore s 0).copies.filter fun y => y.herd == some 7) = []) ∧
    (let h : Herd := { herd with saving := true }
     let s := { world user with herds := [h], cores := [core [] [{ row (.load 0 0) 0 with suspended := some ⟨9, 0, 0, false, 0⟩ }]] }
     ∃ y ∈ (getCore s 0).copies.filter fun y => y.herd == some 7, y.suspended ≠ none) := by decide

/-- The table of a partition that maps page 1 to frame 5, by one entry of each level. -/
def tables : List Host.Cell := [(0x20000, 1), (0x20002, 3), (0x30000, 1), (0x30002, 4), (0x40008, 0x2F), (0x4000A, 5)]

/-- A partition with those tables and a window over the first 2 MiB. -/
def mapped (p : Partition) : Partition := { p with ptroot := 0x20001, memwin := BitVec.ofNat 64 (2 ^ 52) :: List.replicate 7 0 }

/-- A launch that waits for a gate at 0x10000. -/
def gated : Launch := { launch with gates := [(0x10000, 0, false)] }

theorem witness_gates : (∃ s' ps, serve { world user with parts := [mapped { part with launches := [gated] }], mem := tables } 0 .read 0x10000 8 8 = (.ok ps, s') ∧
      findPart s' 0 = some (mapped { part with launches := [gated] })) ∧ (0x10000 : Quad) ∈ watchedGates { part with launches := [gated] } ∧
    gated.eligible = none ∧ chosen.agedAt + 2 ^ 22 ≤ 2 ^ 22 := ⟨⟨_, _, rfl, by decide⟩, by decide, by decide, by decide⟩

/-- A finished launch whose record stands at 0x10000. -/
def overLaunch (l : Launch) : State := { State.reset with booted := true, parts := [mapped { part with launches := [l] }], mem := tables }
def ended : Launch := { launch with eligible := some 0, ended := 1, desc := { launch.desc with crec := 0x10000 } }

theorem witness_completion : (∃ s' t, serve (overLaunch ended) 0 (.write false) 0x10000 32 32 = (.ok [(0x50000, 32, t)], s') ∧ t.kind = 0 ∧
      findPart s' 0 = some (mapped { part with launches := [ended] }) ∧ memWf Config.blankByte s'.mem = true) ∧
    ended.ended = ended.desc.herds ∧ ended.desc.crec ≠ 0 ∧ (overLaunch ended).herds = [] ∧ (mapped part).messages = [] ∧
    (∃ s' t, serve (overLaunch ended) 0 .rmw 0x10000 8 8 = (.ok [(0x50000, 8, t)], s') ∧ t.kind = 0) ∧
    (∃ s' t, serve (overLaunch ended) 0 .read 0x10000 16 16 = (.ok [(0x50000, 16, t)], s') ∧ t.kind = 0) ∧
    ({ mapped part with messages := [⟨1, 0, .queueFull, 0⟩] } : Partition).messages.find? (·.seq == 1) = some ⟨1, 0, .queueFull, 0⟩ :=
  ⟨⟨_, _, rfl, by decide, by decide, by decide⟩, by decide, by decide, by decide, by decide, ⟨_, _, rfl, by decide⟩, ⟨_, _, rfl, by decide⟩, by decide⟩

theorem witness_herd_end : (let s := { empty_ with herds := [herd], parts := [{ choosing with launches := [launch] }] }
     findHerd s 7 = some herd ∧ (∀ q ∈ s.packs, q.herd ≠ some 7) ∧ ∀ y ∈ (getCore s herd.core).copies, y.herd ≠ some 7) := by decide

/-- A residency of one put-mode `pass` at the given phase, and the machine with it. -/
def phased (ph : ResPhase) : Residency :=
  { Residency.entered 3 7 { user with control := some 3 } ⟨0, 2040, 4, 255, 1, [cellWord 1 255 0 0 1]⟩ 0 0 with
    phase := ph, cells := [Cell.fresh (cellWord 1 255 0 0 1)], mould := ⟨0, 1888, 4, 255, 1, [cellWord 1 255 0 0 1]⟩ }

/-- That residency with the mark at its cell's input. -/
def marked : Residency := { phased .cutting with cells := [{ Cell.fresh (cellWord 1 255 0 0 1) with chans := [[⟨.whistle, 0, 0, 0⟩], [], [], []] }] }

set_option maxRecDepth 10000 in
theorem witness_residencies : (let s := spatial (phased .validate)
     findRes s 3 = some (phased .validate) ∧ controlRuns s (phased .validate) = true ∧ regionFree s (phased .validate) = true ∧
       (phased .validate).mould.lease ≠ 0) ∧
    (let s := { spatial (phased .lease) with dies := (State.reset.dies.map fun d => if d.id = 0 then { d with requests := [⟨3, 4⟩] } else d) }
     (getDie s 0).requests = [⟨3, 4⟩] ∧ (getDie s 0).granted + 4 ≤ (getDie s 0).budget) ∧
    controlRuns (spatial (phased .install)) (phased .install) = true ∧ (phased .install).restore = false ∧ (phased .draining).drained = false ∧
    ({ phased .draining with cells := [{ Cell.fresh (cellWord 1 255 0 0 1) with eos := true }] } : Residency).drained = true ∧
    (∀ n ∈ (phased .active).ports, n.stopped = none) ∧ marked.savesNow 0 = true ∧ marked.spillsNow 0 = false ∧
    ({ marked with cells := marked.cells.map fun c => { c with saved := true, chans := [[], [], [], []], whistled := [0] } } : Residency).cutDone = true := by decide

theorem witness_coherence : Config.installed (1024 * 128) = true ∧ State.reset.scCopies = [] ∧ State.reset.handOvers = [] ∧ State.reset.pages = [] ∧
    (let s := { State.reset with ports := State.reset.ports.map fun q => { q with up := true, opened := true } }
     3 < s.ports.length ∧ (getPort s 3).opened = true ∧ pageSc s 2 = false) ∧
    (let e : PageEntry := ⟨2, true, [(4, 0)]⟩
     let s := { State.reset with pages := [e], handOvers := [⟨2, [4], 0, none, false⟩], clock := BitVec.ofNat 64 (2 ^ 24) }
     s.pages.find? (·.page == 2) = some e ∧ s.handOvers.find? (·.page == 2) = some ⟨2, [4], 0, none, false⟩ ∧
       ∃ h ∈ s.handOvers, 4 ∈ h.await ∧ h.since + 2 ^ 24 ≤ now s) ∧
    memWf Config.blankByte State.reset.mem = true := by decide

/-- A machine whose tables map page 1. -/
def walking : State := { State.reset with booted := true, parts := [mapped part], mem := tables }

theorem witness_walks : partOfDie walking 0 = some (mapped part) ∧ canonical 0x10000 = true ∧ (∃ d ∈ walking.dies, d.id = 0) ∧
    (mapped part).ptroot.toNat % 2 = 1 ∧ (getDie walking 0).walkCache = [] ∧ (getDie walking 0).held = [] ∧
    memNum walking 0x20000 8 = 0x30001 ∧ memNum walking 0x30000 8 = 0x40001 ∧ memNum walking 0x40008 8 = 0x5002F ∧
    0x30001 % 4 = 1 ∧ 0x30001 / 2 ^ 2 % 2 ^ 14 = 0 ∧ installedFrame 0x30000 65536 = true ∧ installedFrame 0x50000 65536 = true ∧
    pteBad 0 0x5002F = false ∧ (0x5002F).testBit 14 = false ∧ (0x5402F).testBit 14 = true ∧ pteBad 0 0x5402F = false ∧ pteBad 0 0x5802F = true := by decide

/-- A move of page 1 to the frame at 0x60000, its request at `addr`. -/
def move : Promotion := { (default : Promotion) with addr := 0x1000, level := 2, nm := 1, va := 0x10000, pa := 0x60000, rsvOk := true }

theorem witness_promotions : (let p := { mapped part with promotions := [move] }
     let s := { walking with parts := [p] }
     findPart s p.id = some p ∧ p.stopped = false ∧ (judge s p move).toOption = some [(0x40008, 0x5002F)] ∧
       (judge s p { move with op := 3 }).toOption = none ∧ (engineAccess s p 2 (.write false) 0x1020 4).2.1 = 0x1020 ∧
       (∀ k ∈ s.cores, k.storeQ = []) ∧ memWf Config.blankByte s.mem = true ∧ installedFrame 0x1020 4 = true ∧
       0x5002F / 2 ^ 14 % 2 = 0 ∧ (0x60000 : Quad).toNat % 65536 = 0) ∧
    (let n := { Port.fresh 0 with ranges := [page], relatch := [(1, 1)] }
     let r := { stuck with ports := [n] }
     findRes (spatial r) 3 = some r ∧ r.port? 0 = some n) := by decide

theorem witness_engine_answers : (∃ s' t, engineAccess { walking with parts := [{ mapped part with promotions := [move] }] } { mapped part with promotions := [move] } 2
      (.write false) 0x1020 4 = (.ok t, 0x1020, s') ∧ t.kind = 0) ∧
    judge { walking with parts := [{ mapped part with promotions := [move] }] } { mapped part with promotions := [move] } move = .ok [(0x40008, 0x5002F)] ∧
    judge walking (mapped part) { move with rsvOk := false } = .error 3 := ⟨⟨_, _, rfl, by decide⟩, rfl, rfl⟩

/-- A hello of agent 9, and a message of its port 3 to partition 0. -/
def hello : KmtHeader := { (kmtOf (List.replicate 32 0)) with version := 1, typ := 2, kmtmax := 16, linkmax := 1, agent := 9, incarn := 5 }
def message : KmtHeader := { hello with typ := 0, len := 4 }

/-- The machine with every port up and held by agent 9. -/
def linked : State := { State.reset with booted := true, ports := State.reset.ports.map fun q => { q with up := true, opened := true, agent := 9, incarn := some 5 } }

theorem witness_links : (getPort State.reset 3).up = false ∧ 3 < State.reset.ports.length ∧ (getPort linked 3).up = true ∧ (getPort linked 3).opened = true ∧
    (getPort linked 3).inbox = [] ∧ (getPort linked 3).txq = [] ∧
    hello.version = 1 ∧ hello.typ = 2 ∧ hello.rsv = 0 ∧ hello.rsv2 = 0 ∧ hello.len = 0 ∧ hello.kmtmax ≠ 0 ∧ hello.linkmax ≠ 0 ∧
    message.version = 1 ∧ message.typ = 0 ∧ message.rsv = 0 ∧ message.rsv2 = 0 ∧ message.len ≠ 0 ∧ message.len.toNat = 4 ∧
    (getPort linked 3).incarn = some message.incarn ∧ (getPort linked 3).agent = message.agent ∧
    (findPart linked message.part.toNat).isSome = true ∧ (rxStream (getPort linked 0) 0 0).next = 0 ∧
    (rxStream (getPort linked 0) 0 0).inMessage = false ∧ (txStream (getPort linked 0) 0 0).sent = [] := by decide

/-- An image whose header is sound, but whose signature is not. -/
def imageHeader : List Byte :=
  bytesLE 4 0x49464B57 ++ bytesLE 2 1 ++ bytesLE 2 7 ++ bytesLE 8 128 ++ List.replicate 112 0

set_option maxRecDepth 10000 in
theorem witness_firmware : numLE (imageHeader.take 4) = 0x49464B57 ∧ numLE ((imageHeader.drop 4).take 2) = 1 ∧ numLE ((imageHeader.drop 8).take 8) = 128 ∧
    imageHeader.length = 128 ∧ numLE ((imageHeader.drop 16).take 16) = 0 ∧ numLE ((imageHeader.drop 96).take 32) = 0 := by decide

theorem witness_device : State.reset.power = .on ∧ State.reset.booted = false ∧ State.reset.aon.bootFailed = false ∧ State.reset.aon.sec = .provisioning ∧
    State.reset.aon.key = none ∧ installedFrame 0x10000 8 = true ∧ Config.isHbm 0x10000 = Config.isHbm (0x10000 + 8 - 1) ∧
    (∀ p ∈ State.reset.parts, p.dbglvl = 2) ∧ findPart State.reset 0 = some (Partition.initial 0 0 8 2 0) ∧ findPart State.reset 7 = none ∧
    (let s := { State.reset with booted := true, clock := BitVec.ofNat 64 (2 ^ 20) }
     (∀ p ∈ s.packs, p.isHandler = true) ∧ s.residencies = [] ∧ s.quietSince + 2 ^ 20 ≤ now s) ∧
    (findPart (world user) 0).bind (fun q => q.launches.find? (·.seq == 1)) = some launch ∧ launch.term = none := by decide

theorem witness_encoding : (Instr.nop always ⟨0, 0, 0⟩).WellFormed ∧ parts (.nop always ⟨0, 0, 0⟩) ≠ none ∧
    decodeBytes (codeBytes (.nop always ⟨0, 0, 0⟩)) = .ok (.nop always ⟨0, 0, 0⟩, []) := ⟨by decide, by decide, rfl⟩

theorem witness_encoding_faults :
    (∃ c opc h b, parts (.eretRes always ⟨0, 0, 0, 0, false, 0, 0⟩) = some (opc, h, b) ∧ issueCtx h (world user) = some c ∧ c.pack.level < 1) ∧
    (∃ c opc h b, parts (.mov always ⟨40, 12, 0, 0, 0, 2, false⟩) = some (opc, h, b) ∧ issueCtx h (world user) = some c ∧
      ∃ r ∈ namedRegs (.mov always ⟨40, 12, 0, 0, 0, 2, false⟩), c.pack.regCount ≤ r) :=
  ⟨⟨_, _, _, _, rfl, rfl, by decide⟩, ⟨_, _, _, _, rfl, rfl, by decide⟩⟩

/-- A machine about to issue the word at 0 of its handler at machine level. -/
def issuing : State := ({ world hand with cur := none } : State).withFetchWord 64 0xA970_0000_0000_0000

theorem witness_step : ∃ core quarter choice p0 k q i rest, nextTurn issuing = .issue core quarter choice ∧ issuing.power = .on ∧
    (let s1 := openCycle (advance issuing) core quarter choice
     choosePack s1 core quarter = some p0 ∧
     let s2 := endCycle s1 core quarter (some p0)
     let p := prepare s2 ((findPack s2 p0.loc).getD p0)
     let s3 := setPack s2 p
     choosePath s3 p (choice / 2 ^ 32) = some k ∧ p.paths[k]? = some q ∧ p.level = 2 ∧ q.pc.toNat % 8 = 0 ∧
       installedFrame q.pc.toNat 8 = true ∧ pageReady s3 (identityTlb p.part) q.pc.toNat false = true ∧
       (getCore s3 p.loc.core).line? (q.pc.toNat / 128) true = none ∧ 0 < l1Lines s3 p.loc.core ∧ canonical q.pc.toNat = true ∧
       decodeBytes (memRead Config.blankByte s3.mem q.pc.toNat 16) = .ok (i, rest) ∧ size i = 8) :=
  ⟨_, _, _, _, _, _, _, _, rfl, rfl, rfl, rfl, rfl, rfl, rfl, rfl, rfl, rfl, by decide, rfl, rfl, rfl⟩

theorem witness_step_capture : nextTurn { issuing with agenda := [.capture 0 0 31 0 false 0] } = .capture 0 0 31 0 false 0 := rfl

theorem witness_step_event : (∃ i, nextTurn { State.reset with agenda := [.event i] } = .event i ∧ mayHappen (advance { State.reset with agenda := [.event i] }) i = true) :=
  ⟨.wake, rfl, by decide⟩

/-! ### More of them, clause by clause -/

theorem witness_float_rows : ∀ i ∈ [Instr.fsub always ⟨8, 12, 16, 0, 0x41, 0, false⟩, .fmul always ⟨8, 12, 16, 0, 0x41, 0, false⟩,
    .frnd always ⟨8, 12, 0, 0, 0x43, 0, false⟩, .fscale always ⟨8, 12, 16, 0, 0x40, 0, false⟩, .fmax always ⟨8, 12, 16, 0, 0x40, 0, false⟩,
    .frcp always ⟨8, 12, 0, 0, 0x40, 0, false⟩, .frsq always ⟨8, 12, 0, 0, 0x48, 1, false⟩, .fexp2 always ⟨8, 12, 0, 0, 0x40, 0, false⟩,
    .flog2 always ⟨8, 12, 0, 0, 0x48, 1, false⟩, .fsin always ⟨8, 12, 0, 0, 0x50, 1, false⟩, .fcos always ⟨8, 12, 0, 0, 0x40, 0, false⟩,
    .ftanh always ⟨8, 12, 0, 0, 0x48, 1, false⟩, .fsig always ⟨8, 12, 0, 0, 0x50, 1, false⟩, .ferf always ⟨8, 12, 0, 0, 0x40, 0, false⟩,
    .gelu always ⟨8, 12, 0, 0, 0x40, 0, false⟩, .gelu always ⟨8, 12, 0, 0, 0x40, 2, false⟩, .gelu always ⟨8, 12, 0, 0, 0x40, 4, false⟩,
    .hdp2 always ⟨8, 12, 16, 20, 0x50, 0, false⟩, .cvt always ⟨8, 12, 0, 0, 0x58, 8, false⟩, .cvt always ⟨8, 12, 0, 0, 0x08, 8, false⟩,
    .cvt always ⟨8, 12, 0, 0, 0x44, 2, false⟩, .pack always ⟨8, 12, 16, 20, 0x5C, 24, false⟩, .pack always ⟨8, 12, 16, 0, 0x48, 8, false⟩,
    .mxq always ⟨8, 12, 0, 0, 0x68, 0, false⟩, .mxdq always ⟨8, 12, 0, 0, 0x70, 0, false⟩, .rstat always ⟨8, 12, 0, 20, 0x40, 2, false⟩,
    .rstat always ⟨8, 12, 0, 0, 0x40, 4, false⟩, .rstatf always ⟨8, 12, 16, 0, 0x40, 0, false⟩, .sfn always ⟨8, 12, 0, 0, 0x48, 19, false⟩],
    Runs i (world user) := runs_all (by decide)

/-- Operands of each kind: a finite one, both zeros, both infinities, a NaN, a negative one, a power of two and a tie of a conversion. -/
theorem witness_operands : (fv f32 0x3FC00000).isFinite = true ∧ ratOf (fv f32 0x3FC00000) ≠ 0 ∧ 0 < ratOf (fv f32 0x3FC00000) ∧
    fv f32 0 = .zero false ∧ fv f32 0x80000000 = .zero true ∧ fv f32 0x7F800000 = .inf false ∧ fv f32 0xFF800000 = .inf true ∧
    (fv f32 0x7FC00000).isNan = true ∧ ratOf (fv f32 0xBF800000) < 0 ∧ (fv f32 0x40000000).isFinite = true ∧
    ratOf (fv f32 0x40000000) = 2 ∧ (fv (fmtOf 9) 0x3C00).isFinite = true ∧ (fv (fmtOf 13) 0x02).isFinite = true ∧
    fv f32 0x3FC00000 = .num (3 * 2 ^ 22) (2 ^ 23) := by decide

/-- Of lanes 0 alone, the fault that its cause and detail give. -/
theorem reports_one {m : Mask} {cause : Nat → Option Nat} {detail : Nat → Quad} {code : Nat} (hm : m = 1#64) (h : cause 0 = some code) :
    Reports m cause detail ⟨code, 1#64, detail 0⟩ := by
  subst hm
  have one : ∀ l, l < 64 → Mask.has 1#64 l = true → l = 0 := by decide
  refine ⟨⟨0, by omega, by decide, h, rfl, fun k hk => absurd hk (by omega)⟩, fun l hl hm c hc => ?_, fun l hl => ⟨fun hm => ?_, fun hm => hm.1⟩⟩
  · obtain rfl := one l hl hm
    exact Nat.le_of_eq (Option.some.inj (h.symm.trans hc))
  · obtain rfl := one l hl hm
    exact ⟨hm, h⟩

/-- The machine with that instruction's fault before it: what a global access reports. -/
def RefusesAt (i : Instr) (s : State) (acc : Acc) (n : Nat) (addr : Ctx → Nat → Nat) (bad : State → Nat → Tlb → Bool) (code : Nat) : Prop :=
  ∃ c r s' f, Issues i s c ∧ Clean i c ∧ resolveLanes s c.pack acc n (addr c) (c.exec.lanes.filter fun l => addr c l % n == 0) = (r, s') ∧
    (∀ x ∈ r, x.2 ≠ .stall) ∧ (∀ l < 64, c.exec.has l = true → QueueFree s' c.pack.loc l) ∧ f.code = code ∧
    Reports c.exec (fun l => if addr c l % n ≠ 0 then some 7 else match r.find? (·.1 == l) with
      | some (_, .fault code) => some code
      | some (_, .ok pa t) => if bad s' pa t then some 15 else none
      | _ => none) (fun l => BitVec.ofNat 64 (addr c l)) f

/-- Four bytes at v12:v13, into v8 or from it. -/
def ldAt : M := ⟨8, 12, 0, 2, 0, 0, 0, 0⟩
def atomAt : MA := ⟨8, 12, 16, 2, 0, 0, 0, 0, 0⟩

theorem witness_access_faults :
    RefusesAt (.ld always ldAt) (world (setReg user 12 0x10002)) .read 4 (fun c => c.addrM ldAt) (fun _ _ _ => false) 7 ∧
    RefusesAt (.st always ldAt) (world (setReg user 13 0x10000000)) (.write false) 4 (fun c => c.addrM ldAt) (fun _ _ _ => false) 8 ∧
    RefusesAt (.ld always ldAt) { world pointing with poison := [8192] } .read 4 (fun c => c.addrM ldAt)
      (fun t pa x => l2Poisoned t 0 x pa 4) 15 ∧
    RefusesAt (.atom always atomAt) { world pointing with cores := [{ core [] [] with tlb := [{ page with w := false }] }] } .rmw 4
      (fun c => c.addrMA atomAt) (fun t pa x => x.kind == 0 && poisoned t x pa 4) 10 := by
  refine ⟨⟨_, _, _, _, ⟨rfl, by decide⟩, clean_of rfl, rfl, by decide, by unfold QueueFree; decide, ?_, reports_one (code := 7) (by decide) (by decide)⟩,
    ⟨_, _, _, _, ⟨rfl, by decide⟩, clean_of rfl, rfl, by decide, by unfold QueueFree; decide, ?_, reports_one (code := 8) (by decide) (by decide)⟩,
    ⟨_, _, _, _, ⟨rfl, by decide⟩, clean_of rfl, rfl, by decide, by unfold QueueFree; decide, ?_, reports_one (code := 15) (by decide) (by decide)⟩,
    ⟨_, _, _, _, ⟨rfl, by decide⟩, clean_of rfl, rfl, by decide, by unfold QueueFree; decide, ?_, reports_one (code := 10) (by decide) (by decide)⟩⟩ <;> rfl

/-- What an access of the scratchpad of `hd` reports. -/
def RefusesOf (i : Instr) (hd : Herd) (n : Nat) (off : Ctx → Nat → Int) (empty reads : Bool) (code : Nat) : Prop :=
  ∃ c f, Issues i { world user with herds := [hd] } c ∧ Clean i c ∧ (∀ l < 64, c.exec.has l = true → QueueFree { world user with herds := [hd] } c.pack.loc l) ∧
    f.code = code ∧ Reports c.exec (fun l =>
      if off c l % (n : Int) ≠ 0 then some 7
      else match c.herd { world user with herds := [hd] } with
        | none => some 11
        | some hd =>
          if off c l < 0 ∨ (hd.spadSize : Int) < off c l + n then some 11
          else if off c l < 16 * hd.bars.length then some 13
          else if empty = true ∧ touchesEmpty hd (off c l).toNat n = true then some 14
          else if reads = true ∧ spadPoisoned hd (off c l).toNat n = true then some 15
          else none) (fun l => BitVec.ofInt 64 (off c l)) f

/-- `sts` and `atoms` rows of four bytes at an offset. -/
def stsAt (off : BitVec 16) : M := ⟨8, 12, 0, 2, 0, 0, 0, off⟩
def atomsAt (off : BitVec 12) : MA := ⟨8, 12, 16, 2, 0, 0, 0, 0, off⟩

theorem witness_scratchpad_faults :
    RefusesOf (.sts always (stsAt 2)) herd 4 (fun c => c.offM (stsAt 2)) true false 7 ∧
    RefusesOf (.sts always (stsAt 4096)) herd 4 (fun c => c.offM (stsAt 4096)) true false 11 ∧
    RefusesOf (.sts always (stsAt 60)) herd 4 (fun c => c.offM (stsAt 60)) true false 13 ∧
    RefusesOf (.sts always (stsAt 128)) { herd with empty := [1] } 4 (fun c => c.offM (stsAt 128)) true false 14 ∧
    RefusesOf (.atoms always (atomsAt 128)) { herd with bad := [32] } 4 (fun c => c.offMA (atomsAt 128)) true true 15 := by
  refine ⟨⟨_, _, ⟨rfl, by decide⟩, clean_of rfl, fun _ _ _ _ he => (List.not_mem_nil he).elim, ?_, reports_one (code := 7) (by decide) (by decide)⟩,
    ⟨_, _, ⟨rfl, by decide⟩, clean_of rfl, fun _ _ _ _ he => (List.not_mem_nil he).elim, ?_, reports_one (code := 11) (by decide) (by decide)⟩,
    ⟨_, _, ⟨rfl, by decide⟩, clean_of rfl, fun _ _ _ _ he => (List.not_mem_nil he).elim, ?_, reports_one (code := 13) (by decide) (by decide)⟩,
    ⟨_, _, ⟨rfl, by decide⟩, clean_of rfl, fun _ _ _ _ he => (List.not_mem_nil he).elim, ?_, reports_one (code := 14) (by decide) (by decide)⟩,
    ⟨_, _, ⟨rfl, by decide⟩, clean_of rfl, fun _ _ _ _ he => (List.not_mem_nil he).elim, ?_, reports_one (code := 15) (by decide) (by decide)⟩⟩ <;> rfl

/-- Offsets outside the range, and a poisoned byte inside it, of `lds`; offsets outside the bank, and at its end, of `ldc`. -/
theorem witness_load_faults :
    (∀ o ∈ [stsAt 2, stsAt 4096], ∃ c f, Issues (.lds always o) (world user) c ∧ Clean (.lds always o) c ∧ c.herd (world user) = some herd ∧
      stseLanes (world user) c 4 (c.offM o) = 0#64 ∧ Reports c.exec (fun l => if c.offM o l % (4 : Int) ≠ 0 then some 7 else
        if c.offM o l < 0 ∨ (herd.spadSize : Int) < c.offM o l + 4 then some 11 else none) (fun l => BitVec.ofInt 64 (c.offM o l)) f) ∧
    (let hd := { herd with bad := [32] }
     let s := { world user with herds := [hd] }
     ∃ c f, Issues (.lds always (stsAt 128)) s c ∧ Clean (.lds always (stsAt 128)) c ∧ c.herd s = some hd ∧ stseLanes s c 4 (c.offM (stsAt 128)) = 0#64 ∧
       (∀ l < 64, c.exec.has l = true → touchesEmpty hd (c.offM (stsAt 128) l).toNat 4 = false ∧ QueueFree s c.pack.loc l) ∧
       Reports c.exec (fun l => if spadPoisoned hd (c.offM (stsAt 128) l).toNat 4 then some 15 else none)
         (fun l => BitVec.ofInt 64 (c.offM (stsAt 128) l)) f) ∧
    (∀ o ∈ [stsAt 2, stsAt (-4)], ∃ c f, Issues (.ldc always o) (world user) c ∧ Clean (.ldc always o) c ∧ c.herd (world user) = some herd ∧
      herdLaunch (world user) herd = some launch ∧ Reports c.exec (fun l => if c.offM o l % (4 : Int) ≠ 0 then some 7 else
        if c.offM o l < 0 ∨ launch.desc.cbank = 0 ∨ 65536 < c.offM o l + 4 then some 12 else none) (fun l => BitVec.ofInt 64 (c.offM o l)) f) := by
  simp only [List.forall_mem_cons, List.not_mem_nil, false_implies, implies_true, and_true]
  refine ⟨⟨⟨_, _, ⟨rfl, by decide⟩, clean_of rfl, by decide, by decide, reports_one (code := 7) (by decide) (by decide)⟩,
      ⟨_, _, ⟨rfl, by decide⟩, clean_of rfl, by decide, by decide, reports_one (code := 11) (by decide) (by decide)⟩⟩,
    ⟨_, _, ⟨rfl, by decide⟩, clean_of rfl, by decide, by decide, by unfold QueueFree; decide, reports_one (code := 15) (by decide) (by decide)⟩,
    ⟨_, _, ⟨rfl, by decide⟩, clean_of rfl, by decide, by decide, reports_one (code := 7) (by decide) (by decide)⟩,
    ⟨_, _, ⟨rfl, by decide⟩, clean_of rfl, by decide, by decide, reports_one (code := 12) (by decide) (by decide)⟩⟩

theorem witness_views : SeesNow (world pointing) user.loc ∧ SeesNow (world user) user.loc ∧ launch.bankDirty = [] := by
  unfold SeesNow; decide

/-- Two lanes' stores of one instruction to one byte, and a third behind them that neither holds up. -/
theorem witness_mates :
    (let a : StoreEntry := queued (.global 128 [1] false none false)
     let b : StoreEntry := { a with lane := 1, op := .global 128 [2] false none false }
     let d : StoreEntry := { a with lane := 2, issue := 5, op := .global 256 [3] false none false }
     let s := queueing [a, b, d]
     let group (x : StoreEntry) : Bool := x == b || (b.loc == x.loc && b.issue == x.issue && b.op.meets x.op)
     (getCore s 0).storeQ = [a, b, d] ∧ [a, b, d].filter group = [a, b] ∧
       (∀ k < 3, ∀ x, [a, b, d][k]? = some x → group x = true → ∀ y ∈ [a, b, d].take k, group y = true ∨ y.blocks x = false) ∧
       storeReady s b = true) := by
  refine ⟨by decide, by decide, ?_, by decide⟩
  intro k hk x hx
  match k, hk with
  | 0, _ | 1, _ | 2, _ => cases hx; decide

theorem witness_discards : ∃ c s', Issues (.cinvNear always ⟨0, 12, 0, 0, 0, 0, 2, 0⟩) (world pointing) c ∧
    Clean (.cinvNear always ⟨0, 12, 0, 0, 0, 0, 2, 0⟩) c ∧
    Reached (world pointing) c .mapped 1 1 (c.addrM ⟨0, 12, 0, 0, 0, 0, 2, 0⟩) [⟨0, 65536, page⟩] s' ∧
    (∀ l < 64, c.exec.has l = true → QueueFree s' c.pack.loc l) ∧ scFind s' (page.line 65536) 0 = none ∧ page.copied 0 65536 = false ∧
    { page with sc := true }.copied 7 65536 = true :=
  ⟨_, _, ⟨rfl, by decide⟩, clean_of rfl, ⟨by decide, rfl⟩, by unfold QueueFree; decide, by decide, by decide, by decide⟩

theorem witness_release_fence :
    (∃ c, Issues (.fence always ⟨0, 0, 0, 0, 2, 3, 0, 0⟩) (queueing [queued (.global 128 [1] false none false)]) c ∧ c.exec.has 0 = true ∧
      ∃ e ∈ (getCore (queueing [queued (.global 128 [1] false none false)]) 0).storeQ, e.loc = c.pack.loc ∧ e.lane = 0) ∧
    (∃ c, Issues (.fence always ⟨0, 0, 0, 0, 4, 3, 0, 0⟩) { world user with remotePages := [{ (default : RemotePage) with ackDue := 1 }] } c ∧
      c.exec.has 0 = true ∧ ∃ r ∈ ({ world user with remotePages := [{ (default : RemotePage) with ackDue := 1 }] }).remotePages, r.ackDue ≠ 0) :=
  ⟨⟨_, ⟨rfl, by decide⟩, by decide, by decide⟩, ⟨_, ⟨rfl, by decide⟩, by decide, by decide⟩⟩

/-- The last member of set 9 arrives with stores queued in the scratchpad. -/
def arriving : State := { world gathered with cores := [core [queued (.spad 128 [1] .keep), queued (.spad 256 [1] .keep)] []] }

theorem witness_counted_stores : (∃ c, Issues (.rsarv always ⟨0, 0, 0, 9, false, 0, 0⟩) arriving c ∧ c.exec ≠ 0#64 ∧ c.pack.control = none ∧
      c.pack.shaped = true ∧ ∀ e ∈ (getCore arriving c.pack.loc.core).storeQ, e.release = false ∧ ∃ off bs, e.op = .spad off bs .keep) ∧
    RSet.completes ⟨3#64, 3#64, true⟩ := by
  refine ⟨⟨_, ⟨rfl, by decide⟩, by decide, by decide, by decide, fun e he => ?_⟩, by unfold RSet.completes; decide⟩
  obtain rfl | rfl : e = queued (.spad 128 [1] .keep) ∨ e = queued (.spad 256 [1] .keep) := by
    have h : (getCore arriving 0).storeQ = [queued (.spad 128 [1] .keep), queued (.spad 256 [1] .keep)] := rfl
    simpa using (h ▸ he : e ∈ [queued (.spad 128 [1] .keep), queued (.spad 256 [1] .keep)])
  all_goals exact ⟨rfl, _, _, rfl⟩

/-- A command whose one position is done, ahead of the next one. -/
theorem witness_issued_ahead : (let q := [{ command 0x10000 3 true with pos := 1 }, command 0x20000 3 false]
     let r := working q
     let n := { Port.fresh 2 with queue := q }
     findRes (spatial r) 3 = some r ∧ r.port? 2 = some n ∧ r.beginnable n = some (command 0x20000 3 false) ∧
       q.takeWhile Command.issued = [{ command 0x10000 3 true with pos := 1 }]) ∧
    (Port.fresh 2).dropped = [] ∧ (working []).bars = [] ∧ (∀ p ∈ (working []).ports, p.queue = []) ∧
    (∃ p ∈ (working [command 0x10000 3 false]).ports, p.queue ≠ []) ∧
    (working [command 0x10000 3 false]).ports.all (fun p => p.queue.all fun k => k.kind == .command) = true := by decide

/-- A full queue of messages of type 0 on a port that is up. -/
def port0 (txq : List TxMessage) : IoPort := { getPort State.reset 0 with up := true, txq }

theorem witness_full_port : (let s := { world pointing with ports := [port0 (List.replicate Config.txDepth ⟨0, 0, 0, 0, []⟩)] }
     (getPort s 0).up = true ∧ Config.txDepth ≤ ((getPort s 0).txq.filter (·.typ == 0)).length) ∧
    (let s := { world pointing with ports := [port0 []] }
     (getPort s 0).up = true ∧ ((getPort s 0).txq.filter (·.typ == 0)).length < Config.txDepth) ∧
    (port0 []).full = false ∧ (port0 (List.replicate Config.txDepth ⟨0, 0, 0, 0, []⟩)).full = true := by
  refine ⟨⟨rfl, ?_⟩, ⟨rfl, Nat.succ_pos _⟩, ?_, ?_⟩ <;> simp [getPort, port0, IoPort.full, Config.txDepth]

/-- What `eret` and `packresume` find before them: the handler's stores performed, and resume PCs that wait for nothing. -/
theorem witness_resumes : (let p := stopped 9 user.paths
     let s := serving 9 0 0 [p]
     (drain s ⟨0, 0, 31⟩ Mask.full).1 = true ∧ (dropEarly (drain s ⟨0, 0, 31⟩ Mask.full).2 0 fun _ => true).packs = s.packs ∧
       (resumesWait s false [p]).isNone = true ∧ (resumesWait s true [p]).isNone = true) ∧
    (let y := row (.load 0 0) 0
     (y.loc.quarter, y.loc.slot) = (0, 0)) ∧
    (let s := serving 9 2 0 [{ user with control := some 3 }]
     (findHerd s stuck.herd).map (·.seq) = some 1) ∧
    (let q : Path := { pc := 0, mask := 1, wait := .bar 1 false 0 }
     let p := stopped 34 [q]
     p.paths[0]? = some q ∧ p.preds.length = 7 ∧ laneZeroOnly (serving 34 0 0 [p]) p = false ∧ barAt (serving 34 0 0 [p]) 7 1 = some bar ∧
       bar.inv = false ∧ bar.phase = false) ∧
    (let r := { recordOf 9 with paths := [⟨0, 1, 0, 0, false, 0⟩] }
     let p := { hand with level := 2, record := some r, wake := some ⟨⟨9, 0, 0, 31, 0, 0, 0, true, 0⟩, some ⟨7, 0, 0, 0, 0, 1, 0, false, 0⟩⟩ }
     r.paths ≠ [] ∧ p.control = none ∧ (∀ e ∈ r.paths, e.state = 0) ∧
       ∀ q, ownWake p 0 ⟨7, 0, 0, 0, 0, 1, 0, false, 0⟩ = some q → (resumesWait (world p) false [q]).isNone = true) := by
  refine ⟨by decide, by decide, by decide, by decide, by decide, by decide, by decide, ?_⟩
  intro q hq
  cases hq; decide

theorem witness_starts : (let p := { user with stop := .halted }
     p.control = none ∧ (∀ x ∈ p.paths, canonical x.pc.toNat = true ∧ x.pc.toNat % 16 = 0) ∧
       (resumeWait (ordering 0 p) p (sortByLow p.paths)).isNone = true) ∧
    (let p := { user with stop := .deferred }
     p.herd = some 7 ∧ hand.herd ≠ some 7 ∧ (∃ q ∈ (ordering 0 p).packs, q = p ∧ p.stop = .deferred)) ∧
    (let y := { row (.load 0 0) 0 with loc := ⟨0, 0, 1⟩ }
     ¬(y.loc.quarter = 0 ∧ y.loc.slot = 0) ∧ (findCopy (landing y) 0 3).isSome = true) := by decide

/-- The residency that an image holds, and one that it does not name. -/
theorem witness_image_residency : (let r := phased .saved
     let h := { herd with residency := some 3 }
      let s := { spatial r with resImages := [⟨5, r, 0⟩] }
     resOf s h (resSection 5) = some ⟨5, r, 0⟩ ∧ resOf { s with resImages := [] } h (resSection 5) = none ∧ findRes s 3 = some r) := by
  refine ⟨?_, rfl, rfl⟩
  simp [resOf, phased, Residency.entered, user, herd, Pack.admitted]

/-- A launch behind an older one of its queue whose herd awaits resumption, and the same launch alone. -/
theorem witness_blocked : (let later := { gated with seq := 2 }
     let p := { choosing with launches := [chosen, later] }
     let s := { empty_ with parts := [p], herds := [{ herd with place := .stored }] }
     queueBlocked s p later = true ∧ queueBlocked { s with herds := [] } p later = false ∧ later.term = none ∧ later.ageHeld = none) ∧
    (let h : Herd := { herd with saving := true }
     let s (c : Copy) (w : List Cause) : State := { world user with herds := [h], cores := [core [] [c]], packs := [user, { hand with wakes := w, wake := none }] }
     savable (s { row (.load 0 0) 0 with suspended := some ⟨9, 0, 0, false, 0⟩ } []) h = false ∧
       herdCaused (s (row (.load 0 0) 0) [⟨9, 0, 0, 0, 0, 1, 0, true, 0⟩]) h none = true ∧
       savable { world user with herds := [h] } h = true ∧ (world user).scCopies = []) := by decide

/-- A launch whose end writes a record, adds to a gate and sends a message, each in its own place of one page. -/
def ending : Launch := { ended with desc := { ended.desc with cgate := 0x10040, cinc := 3, cmsg := 0x10080, clen := 16 } }

theorem witness_completion_order :
    (let s := overLaunch ending
     ending.eligible ≠ none ∧ ending.ended = ending.desc.herds ∧ (∀ h ∈ s.herds, ¬(h.part = 0 ∧ h.seq = 1)) ∧
       (∃ s' t, serve s 0 (.write false) 0x10000 32 32 = (.ok [(0x50000, 32, t)], s') ∧ t.kind = 0) ∧
       (∃ s' t, serve s 0 .rmw 0x10040 8 8 = (.ok [(0x50040, 8, t)], s') ∧ t.kind = 0) ∧
       ∃ s' t, serve s 0 .read 0x10080 16 16 = (.ok [(0x50080, 16, t)], s') ∧ t.kind = 0) ∧
    (getPort (overLaunch ending) 0).up = false ∧ (getPort { overLaunch ending with ports := [port0 []] } 0).up = true :=
  ⟨⟨by decide, by decide, by decide, ⟨_, _, rfl, by decide⟩, ⟨_, _, rfl, by decide⟩, ⟨_, _, rfl, by decide⟩⟩, by decide, by decide⟩

/-- A residency to be installed again, its mould at `va`. -/
def returning (m : Mould) (va : Quad) : Residency := { phased .validate with restore := true, image := va, mould := m }

theorem revalidate_ok {s : State} {p : Pack} {r : Residency} {hd : Header} {digest covered : List Byte} {words : List Quad} {s' : State}
    (hr : readImage s p r.image.toNat = .ok hd digest covered words s') (hv : validateFault s' p hd digest covered words = none)
    (hm : r.mould = mouldOf hd words) : revalidate s p r = .ok s' := by
  simp [revalidate, hr, hv, hm]

theorem witness_reinstall : (∃ p m va s0, revalidate imaged p (returning m va) = .ok s0) ∧
    (∃ s', readImage imaged (setReg alone 12 0x10000) (2 ^ 60) = .fault 8 (2 ^ 60) s') ∧
    (∀ m va, let r := returning m va; r.phase = .validate ∧ r.restore = true ∧ controlRuns (spatial r) r = true ∧ r.ctl.slot ≠ 31) ∧
    (setReg alone 12 0x10000).paths.head? = some { pc := 0, mask := 1, slot := some 0 } := by
  refine ⟨?_, ⟨_, rfl⟩, fun m va => ⟨rfl, rfl, rfl, (by decide : (phased .validate).ctl.slot ≠ 31)⟩, by decide⟩
  obtain ⟨c, hd, digest, covered, words, s', -, -, -, -, -, -, -, -, -, -, hr, hv, -, -⟩ := witness_spatial_entry
  exact ⟨c.pack, mouldOf hd words, c.pack.pair 12 0, s', revalidate_ok hr hv rfl⟩

/-- Links that are up and opened, an agent that holds a page exclusively, and a page that is software-coherent. -/
theorem witness_coherence_pages :
    (let e : PageEntry := ⟨2, true, [(4, 0)]⟩
     let s := { linked with pages := [e] }
     s.pages.find? (·.page == 2) = some e ∧ (∃ x ∈ e.holders, x.1 ≠ 3) ∧ (getPort s 3).opened = true ∧ (getPort s 4).opened = true ∧
       Config.installed (2 * 65536) = true ∧ s.handOvers = [] ∧ pageSc s 2 = false ∧ l2Full s 0 = false) ∧
    pageSc { linked with scCopies := [{ (default : ScCopy) with line := 5 * 512 }] } 5 = true ∧
    Config.remotePort 9 < linked.ports.length ∧ (∀ n < 17, (getPort linked n).opened = true) ∧
    (let r : RemotePage := { (default : RemotePage) with page := 9, asked := some false }
     ({ linked with remotePages := [r] }).remotePages.find? (·.page == 9) = some r) :=
  ⟨by decide, by decide, Nat.mod_lt _ (by decide), by decide, by decide⟩

theorem witness_tables : tableReady walking 0x20000 = true ∧ tableReady walking 0x30000 = true ∧ tableReady walking 0x40000 = true ∧
    (let s := { walking with pages := [⟨2, true, [(4, 0)]⟩] }
     installedFrame 0x20000 65536 = true ∧ tableReady s 0x20000 = false) ∧
    (let p := { mapped part with promotions := [move] }
     let s := { walking with parts := [p] }
     (∀ t ∈ tablePages s p move, tableReady s t = true) ∧
       (tablePages { s with pages := [⟨2, true, [(4, 0)]⟩] } p move).find? (fun t => !tableReady { s with pages := [⟨2, true, [(4, 0)]⟩] } t) = some 0x20000) := by decide

theorem witness_message_types : (let h := { message with typ := 3, len := 0 }
     h.version = 1 ∧ h.rsv = 0 ∧ h.rsv2 = 0 ∧ h.len = 0 ∧ h.typ = 3) ∧ ({ message with version := 2 }).version ≠ 1 ∧
    (∀ k ∈ linked.parts, ∀ m ∈ k.messages, m.stage ≠ .queueFull) ∧ (∀ q ∈ State.reset.ports, q.seen = []) := by decide

theorem witness_session : State.reset.aon.session = none ∧ ({ State.reset.aon with session := some 1 }).session ≠ none ∧
    (∃ p ∈ State.reset.parts, p.id = 0 ∧ p.launches = []) ∧ ({ State.reset with power := .off }).power = .off ∧ State.reset.aon.counted = [] ∧
    ({ State.reset with booted := true }).booted = true := by decide

/-! ### The clauses of cells, ports and the step -/

/-- What `Marked` asks of cell 0 of a small region, its inputs headed by `n` marks of kind `mk`, evaluated. -/
def marksB (cop lt cfg : Nat) (d : CellData) (n : Nat) (mk : TokenKind) : Bool :=
  let r := operating (cellWord cop 255 0 lt cfg) d (List.replicate n ⟨mk, 0, 0, 0⟩)
  findRes (spatial r) 3 == some r && r.live 0 && r.canEmit 0 && (r.cell 0).data.buffer.isEmpty && !(r.inputs 0).isEmpty &&
    (r.inputs 0).all (fun k => ((r.head? 0 k).map (·.kind)) == some mk) && cwCop (r.cell 0).word == cop && (r.cell 0).data.counts.length == 4

/-- The statement's premise for a mark. -/
def Marks (cop lt cfg : Nat) (d : CellData) (n : Nat) (mk : TokenKind) : Prop :=
  let r := operating (cellWord cop 255 0 lt cfg) d (List.replicate n ⟨mk, 0, 0, 0⟩)
  Marked (spatial r) 3 r 0 mk ∧ cwCop (r.cell 0).word = cop ∧ (r.cell 0).data.counts.length = 4

theorem marks {cop lt cfg n : Nat} {d : CellData} {mk : TokenKind} (hm : mk = .eos ∨ mk = .sweep) (h : marksB cop lt cfg d n mk = true) :
    Marks cop lt cfg d n mk := by
  simp only [marksB, Bool.and_eq_true, beq_iff_eq, List.isEmpty_iff, Bool.not_eq_true', List.all_eq_true, List.isEmpty_eq_false_iff, ne_eq] at h
  obtain ⟨⟨⟨⟨⟨⟨⟨h1, h2⟩, h3⟩, h4⟩, h5⟩, h6⟩, h7⟩, h8⟩ := h
  refine ⟨⟨hm, h1, h2, h3, h4, fun he => h5 he, fun k hk => ?_⟩, h7, h8⟩
  obtain ⟨x, hx, hk⟩ := Option.map_eq_some_iff.mp (h6 k hk)
  exact ⟨x, hx, hk⟩

/-- Data of a cell that holds a partial of one value, or that many words of a fold or group, of elements of type 3. -/
def partial_ (n : Nat) : CellData := { noData with words := List.replicate n 1, counts := [1, 0, 3, 0] }

theorem witness_marks : Marks 0x01 2 0 noData 1 .sweep ∧ Marks 0x02 2 0 noData 1 .eos ∧ Marks 0x04 2 0 noData 2 .sweep ∧ Marks 0x05 1 3 noData 1 .sweep ∧
    Marks 0x06 2 0 noData 2 .eos ∧ Marks 0x06 2 0x60 noData 1 .sweep ∧ Marks 0x06 2 0x60 (partial_ 8) 1 .eos ∧ Marks 0x07 3 0x38 (partial_ 8) 1 .sweep ∧
    Marks 0x07 3 0 noData 3 .sweep ∧ Marks 0x08 3 4 noData 1 .eos ∧ Marks 0x09 4 0 noData 1 .eos ∧ Marks 0x09 4 0 (partial_ 8) 1 .sweep ∧
    Marks 0x09 8 0 (partial_ 8) 1 .eos ∧ Marks 0x0A 3 0 noData 1 .sweep ∧ Marks 0x0A 3 0 (partial_ 3) 1 .eos ∧ Marks 0x0C 12 0 noData 2 .sweep ∧
    Marks 0x0B 4 0 { noData with panelA := [data 4 1], panelB := [data 4 1] } 2 .sweep ∧ Marks 0x0B 4 0 { noData with draining := true } 2 .sweep ∧
    Marks 0x0B 4 0 noData 2 .eos ∧ Marks 0x16 0 255 noData 1 .eos :=
  ⟨marks (.inr rfl) (by decide), marks (.inl rfl) (by decide), marks (.inr rfl) (by decide), marks (.inr rfl) (by decide), marks (.inl rfl) (by decide),
    marks (.inr rfl) (by decide), marks (.inl rfl) (by decide), marks (.inr rfl) (by decide), marks (.inr rfl) (by decide), marks (.inl rfl) (by decide),
    marks (.inl rfl) (by decide), marks (.inr rfl) (by decide), marks (.inl rfl) (by decide), marks (.inr rfl) (by decide), marks (.inl rfl) (by decide),
    marks (.inr rfl) (by decide), marks (.inr rfl) (by decide), marks (.inr rfl) (by decide), marks (.inl rfl) (by decide), marks (.inl rfl) (by decide)⟩

theorem witness_folds : Fires 0x06 2 0x60 noData [data 2 5] ∧ Fires 0x06 2 0x60 (partial_ 8) [data 2 5] ∧ Fires 0x07 3 0x38 noData [data 3 5] ∧
    Fires 0x09 4 0 noData [data 3 5] ∧ Fires 0x09 4 0 (partial_ 8) [data 3 5] ∧ Fires 0x09 3 0 noData [data 4 5] ∧ Fires 0x0A 3 0x0C noData [data 3 5] ∧
    Fires 0x0C 12 2 noData [data 12 5] ∧ Fires 0x05 1 3 noData [data 1 5] ∧ cellCvtOk 3 4 0 = true ∧ cellCvtOk 4 3 0 = true :=
  ⟨fires (by decide), fires (by decide), fires (by decide), fires (by decide), fires (by decide), fires (by decide), fires (by decide), fires (by decide),
    fires (by decide), by decide, by decide⟩

/-- Of the inputs of a `merge`, one at EOS and one at a sweep, or both at EOS; a `cnt` cell of no input whose last token is out; an `rstat` cell
with a result buffered; a get-mode `pass` in the drain. -/
theorem witness_other_marks :
    (let r := operating (cellWord 3 255 0 2 0xC) noData [⟨.eos, 0, 0, 0⟩, ⟨.sweep, 0, 0, 0⟩]
     findRes (spatial r) 3 = some r ∧ r.live 0 = true ∧ r.canEmit 0 = true ∧ r.inputs 0 = [0, 1] ∧
       (r.inputs 0).filter (fun k => (r.head? 0 k).map (·.kind) ≠ some .eos) = [1] ∧ (r.head? 0 1).map (·.kind) = some .sweep) ∧
    (let r := operating (cellWord 3 255 0 2 0xC) noData [⟨.eos, 0, 0, 0⟩, ⟨.eos, 0, 0, 0⟩]
     findRes (spatial r) 3 = some r ∧ r.live 0 = true ∧ r.canEmit 0 = true ∧ ∀ k ∈ r.inputs 0, (r.head? 0 k).map (·.kind) = some .eos) ∧
    (let r := operating (cellWord 5 255 0 1 3) { noData with counts := [0, 0, 1, 0] } []
     findRes (spatial r) 3 = some r ∧ r.live 0 = true ∧ r.canEmit 0 = true ∧ r.inputs 0 = [] ∧ (r.cell 0).data.count 2 = 1) ∧
    (let r := operating (cellWord 10 255 0 3 4) { noData with buffer := [data 3 1] } [data 3 5]
     findRes (spatial r) 3 = some r ∧ r.live 0 = true ∧ r.canEmit 0 = true ∧ (r.cell 0).data.buffer = [data 3 1]) ∧
    (let r := { (working []).modCell 1 (fun c => { c with chans := [[data 2 1], [], [], []] }) with phase := .draining }
     findRes (spatial r) 3 = some r ∧ r.live 1 = true ∧ cwCop (r.cell 1).word = 1 ∧ cwGet (r.cell 1).word = true ∧ r.head? 1 0 = some (data 2 1)) := by
  decide

/-- The drain with that much of it sent: `pos` the place of the `macs` cell, `beat` the next beat; and whether the bank still drains and EOS has passed. -/
def drainingAt (pos beat : Nat) (drains eos : Bool) : Residency :=
  let w := cellWord 0x0B 255 0 4 0
  { draining with cells := [{ draining.cell 0 with data := { noData with counts := [pos, beat, 0, 0] } },
      { Cell.fresh w with eos, data := { noData with draining := drains } }] }

theorem witness_drains : ∀ r ∈ [drainingAt 0 7 true false, drainingAt 1 0 false false, drainingAt 0 0 false true],
    findRes (spatial r) 3 = some r ∧ r.live 0 = true ∧ r.canEmit 0 = true ∧ (r.cell 0).data.buffer = [] ∧ r.alignedMark 0 (r.inputs 0) = none ∧
    servedMacs r 0 = [1] ∧ cwCop (r.cell 0).word = 0x15 := by decide

/-- A sweep group whose wait is not met, one that has begun and whose port has no room, and one that may emit. -/
theorem witness_sweep_groups : let g : SweepGroup := ⟨4, [2], 0, 0, 0, 1, false⟩
    let r := { working [{ command 0 3 false with kind := .sweep 4 }] with groups := [g] }
    let full := { r.modCell 3 (fun c => { c with chans := [[data 3 1], [], [], []] }) with mould := { r.mould with qregs := 8 } }
    r.sweepReady { g with wthr := 9 } = true ∧ r.sem 0 < 9 ∧ r.portRoom 2 = true ∧ r.bars = [] ∧
    full.sweepReady { g with begun := true } = true ∧ full.portRoom 2 = false := by decide

/-- Turns that the host interface fixes: an outside agent's access, and the Collie's with no command waiting and with two. -/
theorem witness_other_turns : nextTurn { State.reset with agenda := [.agent 3 0x10000 4 none] } = .agent 3 0x10000 4 none ∧
    nextTurn { State.reset with agenda := [.collie] } = .collie ∧ State.reset.aon.cmds = [] ∧
    (∃ c d, ({ State.reset with agenda := [.collie], aon := { State.reset.aon with cmds := [c, d] } } : State).aon.cmds = c :: [d]) := ⟨rfl, rfl, rfl, .genkey, .telemetry, rfl⟩

/-- Commands that wait: behind another, with and without a session; and for a page that an agent holds, or an untracked copy's page, held outside. -/
theorem witness_waiting_commands :
    (let s : State := { State.reset with aon := { State.reset.aon with cmds := [.genkey] } }
     s.aon.cmds ≠ [] ∧ s.aon.session = none ∧ findPart s 0 ≠ none ∧ findPart s 7 = none) ∧
    (let s : State := { linked with pages := [⟨1, true, [(4, 0)]⟩], aon := { State.reset.aon with session := some 1 } }
     s.power ≠ .off ∧ s.aon.sec ≠ .production ∧ (∀ p ∈ s.parts, p.dbglvl = 2) ∧ installedFrame 0x10000 8 = true ∧
       (0x10000 ≤ 0x10004 ∧ 0x10004 < 0x10000 + 8 ∧ pageReady s (identityTlb 0) 0x10004 false = false) ∧ ∀ k < 8, pageReady State.reset (identityTlb 0) (0x10000 + k) true = true) ∧
    (let c : ScCopy := { (default : ScCopy) with line := 512, cells := [(0, 1, true)] }
     let s : State := { linked with power := .idle, pages := [⟨1, true, [(4, 0)]⟩], scCopies := [c] }
     s.power = .idle ∧ backReady s c = false ∧ (askBack s s.scCopies).isSome = true ∧ (askBack { s with pages := [] } s.scCopies).isNone = true) := by decide

/-- A hello of another version, at a port that is closed and at one that is open; and storage of a herd and of a pack. -/
theorem witness_other_headers : ({ hello with version := 2 }).version ≠ 1 ∧ (getPort { linked with ports := State.reset.ports.map fun q => { q with up := true } } 3).opened = false ∧
    (getPort linked 3).opened = true ∧ (∀ t ∈ (getPort linked 3).tx, t.sent = [] ∧ t.next = 0#32) ∧
    (findHerd (world user) 7).map (·.part) = some 0 ∧ (findPack (world user) ⟨0, 0, 0⟩).map (·.part) = some 0 := by decide

/-- A request whose frames are moved, its status page free or held outside. -/
theorem witness_moved : let p := { mapped part with promotions := [{ move with moved := true }] }
    let s := { walking with parts := [p] }
    findPart s p.id = some p ∧ p.stopped = false ∧ move.gate = 0 ∧ move.level = 2 ∧ move.moved = false ∧ move.shoot = none ∧
    pageReady s (identityTlb p.id) 0x1020 true = true ∧ pageReady { s with pages := [⟨0, true, [(4, 0)]⟩] } (identityTlb p.id) 0x1020 true = false ∧
    (tablePages s p move).find? (fun t => !tableReady s t) = none := by decide

/-! ### The clauses of rejoin sets, copies, accesses and events -/

/-- A control pack in its region, lane 0 in set 9 with lane 1 that it holds. -/
def holding : State :=
  let p := { gathered with control := some 3 }
  { spatial (working []) with packs := [p], quarters := [⟨0, 0, .spatial, 0, []⟩] }

/-- Row `i` reports one lane's fault, by the cause and detail that the statement gives. -/
def ReportsAt (i : Instr) (s : State) (cause : Ctx → Nat → Option Nat) (detail : Ctx → Nat → Quad) (code : Nat) : Prop :=
  ∃ c f, Issues i s c ∧ Clean i c ∧ f.code = code ∧ Reports c.exec (cause c) (detail c) f

theorem witness_set_faults : let nine : S := ⟨0, 0, 0, 9, false, 0, 0⟩
    let name (c : Ctx) (l : Nat) : Quad := BitVec.ofNat 64 (c.name nine l)
    let notMine (c : Ctx) (l : Nat) : Option Nat := if c.pack.setCount ≤ c.name nine l then some 23 else
      if ((c.pack.rset (c.name nine l)).member).has l = true ∧ ((c.pack.rset (c.name nine l)).arrived).has l = false then none else some 24
    ReportsAt (.rsarv always nine) (world user) notMine name 24 ∧ ReportsAt (.rswait always nine) (world user) notMine name 24 ∧
    ReportsAt (.rsput always ⟨8, 0, 16, 9, false, 0, 0⟩) (world gathered) (fun c l => if c.pack.setCount ≤ c.name nine l then some 23 else
      if (c.pack.rset (c.name nine l)).opened = true then some 24 else none) name 24 ∧
    ReportsAt (.rsfree always nine) (world { gathered with sets := user.sets.set 9 ⟨3#64, 0#64, true⟩ }) (fun c l =>
      if c.pack.setCount ≤ c.name nine l then some 23 else if (c.pack.rset (c.name nine l)).opened = true ∧
        Mask.ofPred (fun m => Lanes.get none c.pack.waitSet m == some (c.name nine l)) &&& (c.pack.rset (c.name nine l)).member ≠ 0#64 then some 25 else none) name 25 ∧
    ReportsAt (.rsenter always nine) (world { user with setCount := 9 }) (fun c l => if c.pack.setCount ≤ c.name nine l then some 23 else none) name 23 ∧
    (∃ c, Issues (.rswait always nine) holding c ∧ Clean (.rswait always nine) c ∧ c.exec ≠ 0#64 ∧ c.pack.control.isSome = true) ∧
    (∃ c, Issues (.rsarv always nine) holding c ∧ laneZeroOnly holding c.pack = true ∧ c.pack.control.isSome = true ∧
      (c.pack.rset 9).member.has 0 = true ∧ (c.pack.rset 9).arrived.has 0 = false) :=
  ⟨⟨_, _, ⟨rfl, by decide⟩, clean_of rfl, rfl, reports_one (code := 24) (by decide) (by decide)⟩,
    ⟨_, _, ⟨rfl, by decide⟩, clean_of rfl, rfl, reports_one (code := 24) (by decide) (by decide)⟩,
    ⟨_, _, ⟨rfl, by decide⟩, clean_of rfl, rfl, reports_one (code := 24) (by decide) (by decide)⟩,
    ⟨_, _, ⟨rfl, by decide⟩, clean_of rfl, rfl, reports_one (code := 25) (by decide) (by decide)⟩,
    ⟨_, _, ⟨rfl, by decide⟩, clean_of rfl, rfl, reports_one (code := 23) (by decide) (by decide)⟩,
    ⟨_, ⟨rfl, by decide⟩, clean_of rfl, by decide, by decide⟩, ⟨_, ⟨rfl, by decide⟩, by decide, by decide, by decide, by decide⟩⟩

/-- A request that fails each check of a copy, and no earlier one; and row indices beyond the table. -/
theorem witness_copy_checks : let one (bar : Option Nat) (opm : Bool) (ga : Nat) (r : CopyRec) : LaneFault := checkCopy (some herd) ⟨.load 0 0#64, opm, bar, ga, r⟩
    one none false 0x10000 (rowOf 1025 128) = some (7, 1025) ∧ one none true 0x10000 (rowOf 32768 128) = some (16, 0) ∧
    one none false 0x10000 (rowOf 4096 128) = some (11, 4096) ∧ one none false 0x10000 (rowOf 0 128) = some (13, 0) ∧
    one none false 8 (rowOf 1024 128) = some (7, 8) ∧ one none false (2 ^ 60) (rowOf 1024 128) = some (8, 0x1000000000000000) ∧
    one none false (2 ^ 64 - 64) (rowOf 1024 128) = some (8, 63) ∧ one none true 0x10000 (rowOf (5 * 65536) 128) = some (16, 5) ∧
    one none false 0x10000 ⟨1024, 128, 2, 128, 0⟩ = some (18, 0) ∧
    checkCopy (some herd) ⟨.load 1 8#64, false, none, 0x10000, rowOf 1024 256⟩ = some (18, 0) ∧ one (some 9) false 0x10000 (rowOf 1024 128) = some (20, 9) := by
  decide

theorem witness_gather_fault : ReportsAt (.tgather always ⟨9, 12, 16, 1, false, 0, 0⟩) (world (setReg copying 9 200))
    (fun c l => if 128 ≤ (c.pack.reg 9 l).toNat then some 19 else none) (fun c l => (c.pack.reg 9 l).zeroExtend 64) 19 :=
  ⟨_, _, ⟨rfl, by decide⟩, clean_of rfl, rfl, reports_one (code := 19) (by decide) (by decide)⟩

/-- Permissions, of each kind of access and of a patch page, whose slot map lets a word be written. -/
theorem witness_permissions : permitted (world user) { page with r := false } false .read 0x10000 = false ∧
    permitted (world user) { page with u := false } true .fetch 0x10000 = false ∧ permitted (world user) { page with u := false } true .mapped 0x10000 = true ∧
    permitted (world user) { page with patch := true } false .fetch 0x1FC00 = false ∧
    permitted { world user with mem := [(0x1FC00, 1)] } { page with patch := true } false (.write true) 0x10000 = true ∧
    permitted (world user) { page with patch := true } false (.write true) 0x10000 = false := by decide

/-- The words at a target that is not 16-byte aligned and before it can be fetched. -/
theorem witness_targets : (∃ pa t u, resolve jumping 0 0 2 .fetch 72 8 = (.ok pa t, u) ∧
      ∃ pb t' v, resolve (l1Read u 0 t pa 8 true false).2 0 0 2 .fetch 64 8 = (.ok pb t', v)) ∧
    (∃ u, resolve jumping 0 0 2 .fetch (2 ^ 50) 8 = (.fault 9, u)) ∧ (72 : Nat) % 16 = 8 := ⟨⟨_, _, _, rfl, _, _, _, rfl⟩, ⟨_, rfl⟩, by decide⟩

/-- Two lanes, of which one's target is unaligned. -/
def splitting : Pack := { setReg hand 12 64 with
  regs := (setReg hand 12 64).regs.set 12 (64 :: 68 :: List.replicate 62 64), paths := [{ pc := 0, mask := 3, slot := some 0 }] }

theorem witness_split_targets : ∃ c rs s' f, Issues (.brx always ⟨12, 0, 0⟩) (world splitting) c ∧ Clean (.brx always ⟨12, 0, 0⟩) c ∧
    laneZeroOnly (world splitting) c.pack = false ∧
    checkTargets (world splitting) 0 0 2 (c.exec.lanes.map fun l => (c.pack.pair 12 l).toNat).eraseDups = (rs, s') ∧ (∀ x ∈ rs, x.2 ≠ .stall) ∧
    Reports c.exec (fun l => match rs.find? (·.1 == (c.pack.pair 12 l).toNat) with
      | some (_, .fault code) => some code
      | _ => none) (fun l => c.pack.pair 12 l) f := by
  refine ⟨_, _, _, ⟨3, 2#64, 68⟩, ⟨rfl, by decide⟩, clean_of rfl, by decide, rfl, by decide, ⟨1, by decide, by decide, by decide, by decide, by decide⟩, by decide, by decide⟩

/-- A line that the load of lane 0 meets empty, and a bank page that may not be read. -/
theorem witness_line_waits : (let hd := { herd with empty := [1] }
     let s := { world user with herds := [hd] }
     ∃ c, Issues (.lds always (stsAt 128)) s c ∧ Clean (.lds always (stsAt 128)) c ∧ c.herd s = some hd ∧ stseLanes s c 4 (c.offM (stsAt 128)) = 0#64 ∧
       (∀ l < 64, c.exec.has l = true → touchesEmpty hd (c.offM (stsAt 128) l).toNat 4 = true)) ∧
    (let s := { world user with cores := [{ core [] [] with tlb := [{ page with r := false }] }] }
     ∃ c r s', Issues (.ldc always (stsAt 0)) s c ∧ Clean (.ldc always (stsAt 0)) c ∧ c.herd s = some herd ∧ herdLaunch s herd = some launch ∧
       resolveLanes s c.pack .read 4 (fun l => ((launch.desc.cbank.toNat + c.offM (stsAt 0) l) % 2 ^ 64).toNat) c.exec.lanes = (r, s') ∧
       (r.map (·.2)) = [.fault 10]) :=
  ⟨⟨_, ⟨rfl, by decide⟩, clean_of rfl, by decide, by decide, by decide⟩, ⟨_, _, _, ⟨rfl, by decide⟩, clean_of rfl, by decide, by decide, rfl, rfl⟩⟩

/-- A cut for a save whose last cell has saved, its herd alone or with another of its co-resident launch. -/
theorem witness_saving_cut : let c := Cell.fresh (cellWord 1 255 0 0 1)
    let r := { phased .cutting with cells := [{ c with saved := true, chans := [[], [], [], []], whistled := [0] }], saveHerd := true }
    let s := spatial r
    let t : State := { s with parts := [{ part with launches := [{ launch with desc := { launch.desc with cores := true } }] }], herds := [herd, { herd with id := 8, core := 1 }] }
    r.phase = .cutting ∧ r.cutDone = true ∧ findHerd s r.herd = some herd ∧ r.ctl.slot ≠ 31 ∧ (launchOf s herd).map (·.desc.cores) = some false ∧
    (launchOf t herd).map (·.desc.cores) = some true ∧ (t.herds.filter fun g => g.part == 0 && g.seq == 1 && g.place == .resident) = t.herds ∧
    (∀ q ∈ t.packs, q.herd = some 7 → q.stop = .running) ∧ (∀ q ∈ t.packs, q.herd ≠ none) ∧ (∀ x ∈ t.residencies, x = r) ∧
    (∀ g ∈ t.herds, findHerd t g.id = some g ∧ ∀ y ∈ (getCore t g.core).copies, y.herd ≠ some g.id) := by decide

/-- The packs of a quarter that wait, two of them starved. -/
theorem witness_starved : let a := { user with readyAt := some 9, passed := 70, starved := true }
    let b := { user with loc := ⟨0, 0, 1⟩, readyAt := some 3, passed := 66, starved := true }
    (choosePack { world a with packs := [a, b] } 0 0).map (·.loc.slot) = some 0 ∧
    (choosePack { world a with packs := [{ a with starved := false }, b] } 0 0).map (·.loc.slot) = some 1 := by decide

/-- A page whose hand-over is under way or awaited, an agent's own access to a software-coherent page, and an eviction whose page is away. -/
theorem witness_page_queues :
    (let s : State := { linked with handOvers := [⟨2, [4], 0, none, false⟩], pages := [⟨2, true, [(4, 0)]⟩], waiting := [⟨2, 3, true, false, 0⟩] }
     3 < s.ports.length ∧ (getPort s 3).opened = true ∧ Config.installed (2 * 65536) = true ∧ (∃ h ∈ s.handOvers, h.page = 2) ∧
       s.handOvers.find? (·.page == 2) = some ⟨2, [4], 0, none, false⟩ ∧ (getPort s 4).opened = true ∧
       ((s.waiting.filter (·.page == 2)).takeWhile (!·.behind)).length = 1 ∧ s.aon.cmds = []) ∧
    (let s : State := { linked with scCopies := [{ (default : ScCopy) with line := 5 * 512 }] }
     s.power = .on ∧ 0x50000 / 128 = (0x50000 + 4 - 1) / 128 ∧ Config.installed 0x50000 = true ∧ pageSc s (0x50000 / 65536) = true ∧
       pageReady s { identityTlb 0 with sc := true } 0x50000 true = true) ∧
    (let c : ScCopy := { (default : ScCopy) with line := 512, cells := [(0, 1, true)] }
     let s : State := { linked with pages := [⟨1, true, [(4, 0)]⟩], scCopies := [c] }
     scFind s 512 c.die = some c ∧ backReady s c = false ∧ backReady { s with pages := [] } c = true) := by decide

/-! ### Ill-formed terms, each refused by its check -/

/-- The guard check (R144): `gn` with the guard p7. -/
theorem test_ill_guard : legal (.nop ⟨7, true⟩ ⟨0, 0, 0⟩) = some .guard := by decide

/-- Field checks (R157): a type code the row does not list, a sat bit it does not take, a set bit it leaves reserved, a literal where none may be,
a width code that is reserved, a format's unused operand set, and an element index beyond the register. -/
theorem test_ill_field :
    legal (.iaddc always ⟨8, 12, 16, 3, 0x10, 9, false⟩) = some .field ∧ legal (.iaddc always ⟨8, 12, 16, 3, 0x34, 9, false⟩) = some .field ∧
    legal (.lea always ⟨8, 12, 16, 0, 0x30, 8, false⟩) = some .field ∧
    legal (.shl always (.i ⟨8, 12, 4, 33, 0x81, false, none⟩)) = some .field ∧
    legal (.shfl always ⟨8, 12, 16, 1, 0x10, 0x19, false⟩) = some .field ∧ legal (.nop always ⟨0, 0, 1⟩) = some .field ∧
    legal (.fclass always ⟨8, 12, 0, 0, 0x40, 1, false⟩) = some .field ∧ legal (.cvt always ⟨8, 12, 0, 0, 0x40, 8, false⟩) = some .field ∧
    legal (.rsenter always ⟨0, 0, 0, 40, false, 0, 0⟩) = some .field ∧ legal (.csrr always ⟨2, 0, 0, 0, false, 0, 0x999⟩) = some .field ∧
    legal (.ffma always ⟨8, 9, 10, 11, 0x40, 1, false⟩) = some .field := by decide

/-- Register checks (R146): a pair at an odd register, a pair past v127, and a predicate register number above 7. -/
theorem test_ill_register :
    legal (.lea always ⟨9, 12, 16, 0, 0x30, 3, false⟩) = some .register ∧ legal (.brx always ⟨13, 0, 0⟩) = some .register ∧
    legal (.icmp always (.v ⟨8, 12, 16, 3, 0x10, 9, false⟩)) = some .register ∧
    legal (.iaddc always ⟨8, 12, 16, 8, 0x30, 9, false⟩) = some .register := by decide

/-- Words refused by the decoder: an opcode of no instruction, the guard, the bit X of a one-word row, a reserved format bit, and bytes that end. -/
theorem test_refused_words :
    decode 0x0038_0000_0000_0000 0 = .error .opcode ∧ decode 0xA978_0000_0000_0000 0 = .error .guard ∧ decode 0xA9F0_0000_0000_0000 0 = .error .xbit ∧
    decode 0xA970_0001_0000_0000 0 = .error .format ∧ decodeBytes (bytesLE 7 0xA970_0000_0000_00) = .error .short := ⟨rfl, rfl, rfl, rfl, rfl⟩

/-! ### The order of the words in memory -/

/-- R142: an instruction of two words, its first word lowest and each with its least byte first. -/
theorem test_byte_order :
    decodeBytes ([0x00, 0x80, 0x00, 0x00, 0x84, 0x81, 0xF0, 0x0F, 0xEF, 0xBE, 0xAD, 0xDE, 0, 0, 0, 0] : List Byte) =
      .ok (.xor always (.i ⟨8, 12, 4, 0, 0x80, false, some 0xDEADBEEF⟩), []) := rfl

theorem test_table_word : decodeTableWord 64 0xA970_0000_0000_0000 = some (.nop always ⟨0, 0, 0⟩) := rfl

/-! ### Results that the manual works out -/

/-- Register 8 of a lane after a row. -/
def result (i : Instr) (p : Pack) (r l : Nat) : Option Word :=
  match exec i (world p) with
  | .next t => (findPack t p.loc).map fun q => q.reg r l
  | .fault _ | .refused _ => none

/-- A predicate of a lane after a row. -/
def resultPred (i : Instr) (p : Pack) (k l : Nat) : Option Bool :=
  match exec i (world p) with
  | .next t => (findPack t p.loc).map fun q => q.pred k l
  | .fault _ | .refused _ => none

/-- v12 and v16 of lane 0 hold `a` and `b`. -/
def operands (a b : Word) : Pack := setReg (setReg user 12 a) 16 b

/-- The table after R193. -/
theorem test_results_integer :
    result (.iadd always (.v ⟨8, 12, 16, 0, 0x10, 0, false⟩)) (operands 0x7FFFFFF0 0x20) 8 0 = some 0x80000010 ∧
    result (.iadd always (.v ⟨8, 12, 16, 0, 0x14, 0, false⟩)) (operands 0x7FFFFFF0 0x20) 8 0 = some 0x7FFFFFFF ∧
    result (.iadd always (.v ⟨8, 12, 16, 0, 0x34, 0, false⟩)) (operands 0x7FFFFFF0 0x20) 8 0 = some 0x80000010 ∧
    result (.isub always (.v ⟨8, 16, 12, 0, 0x34, 0, false⟩)) (operands 0x7FFFFFF0 0x20) 8 0 = some 0 ∧
    result (.imul always (.v ⟨8, 12, 16, 0, 0x10, 0, false⟩)) (operands 0x7FFFFFF0 0x20) 8 0 = some 0xFFFFFE00 ∧
    result (.imul always (.v ⟨8, 12, 16, 0, 0x10, 1, false⟩)) (operands 0x7FFFFFF0 0x20) 8 0 = some 0xF ∧
    result (.iabs always ⟨8, 12, 0, 0, 0x10, 0, false⟩) (operands 0x80000000 0) 8 0 = some 0x80000000 ∧
    result (.iabs always ⟨8, 12, 0, 0, 0x14, 0, false⟩) (operands 0x80000000 0) 8 0 = some 0x7FFFFFFF ∧
    result (.shl always (.v ⟨8, 12, 16, 0, 0x10, 0, false⟩)) (operands 0x7FFFFFF0 36) 8 0 = some 0 ∧
    result (.sar always (.v ⟨8, 12, 16, 0, 0x10, 0, false⟩)) (operands 0x80000000 40) 8 0 = some 0xFFFFFFFF ∧
    result (.bfx always ⟨8, 12, 16, 0, 0x10, 0, false⟩) (operands 0x0000F0A5 0x0808) 8 0 = some 0xFFFFFFF0 ∧
    result (.bfx always ⟨8, 12, 16, 0, 0x30, 0, false⟩) (operands 0x0000F0A5 0x0404) 8 0 = some 0xA ∧
    result (.clz always ⟨8, 12, 0, 0, 0x10, 0, false⟩) (operands 0 0) 8 0 = some 0x20 := by decide

/-- R190: the truth tables 0xAC, c ? a : b, and 0x08, a AND b AND NOT c. -/
theorem test_results_lop3 :
    result (.lop3 always ⟨8, 12, 16, 20, 0x10, 0xAC, false⟩) (setReg (operands 0xFFFF0000 0x00FF00FF) 20 0xF0F0F0F0) 8 0 = some 0xF0FF000F ∧
    result (.lop3 always ⟨8, 12, 16, 20, 0x10, 0x08, false⟩) (setReg (operands 0xFFFF0000 0x00FF00FF) 20 0xF0F0F0F0) 8 0 = some 0x000F0000 := by decide

/-- The table of worked roundings after R81. -/
theorem test_results_rounding :
    result (.cvt always ⟨8, 12, 0, 0, 0x50, 8, false⟩) (operands 0x3F808000 0) 8 0 = some 0x3F80 ∧
    result (.cvt always ⟨8, 12, 0, 0, 0x50, 8, false⟩) (operands 0x3F818000 0) 8 0 = some 0x3F82 ∧
    result (.cvt always ⟨8, 12, 0, 0, 0x58, 8, false⟩) (operands 0x43960000 0) 8 0 = some 0x79 ∧
    result (.cvt always ⟨8, 12, 0, 0, 0x58, 8, false⟩) (operands 0x43EB0000 0) 8 0 = some 0x7F ∧
    result (.cvt always ⟨8, 12, 0, 0, 0x5C, 8, false⟩) (operands 0x43EB0000 0) 8 0 = some 0x7E ∧
    result (.cvt always ⟨8, 12, 0, 0, 0x60, 8, false⟩) (operands 0x37C00000 0) 8 0 = some 0x02 ∧
    result (.cvt always ⟨8, 12, 0, 0, 0x48, 8, false⟩) (operands 0xBF801000 0) 8 0 = some 0xBC00 ∧
    result (.cvt always ⟨8, 12, 0, 0, 0x4B, 8, false⟩) (operands 0xBF801000 0) 8 0 = some 0xBC01 ∧
    result (.cvt always ⟨8, 12, 0, 0, 0x00, 8, false⟩) (operands 0x4348B333 0) 8 0 = some 0x7F ∧
    result (.cvt always ⟨8, 12, 0, 0, 0x00, 8, false⟩) (operands 0xC3008000 0) 8 0 = some 0x80 ∧
    result (.cvt always ⟨8, 12, 0, 0, 0x00, 8, false⟩) (operands 0x7FA00001 0) 8 0 = some 0 := by decide

/-- R211's example, and the one of R84: the state 1 gives 1.0, and becomes 0x99C6F932. -/
theorem test_results_elements :
    result (.cvt always ⟨8, 12, 0, 0, 0x5C, 0x88, false⟩) (setReg (operands 0x43EB0000 0) 8 0x11223344) 8 0 = some 0x117E3344 ∧
    result (.cvts always ⟨8, 12, 0, 0, 0x50, 8, false⟩) { operands 0x3F804000 0 with sto := List.replicate 64 1 } 8 0 = some 0x3F80 ∧
    (match exec (.cvts always ⟨8, 12, 0, 0, 0x50, 8, false⟩) (world { operands 0x3F804000 0 with sto := List.replicate 64 1 }) with
     | .next t => (findPack t ⟨0, 0, 0⟩).map fun q => (Lanes.get 0 q.sto 0, Lanes.get 0 q.sto 1)
     | .fault _ | .refused _ => none) = some (0x99C6F932, 1) := by decide

/-- The pack of R229's example: lanes 0 to 31 on the path, v12 holding ten times the lane's number. -/
def tens (n : Word) : Pack :=
  let p := setReg user 16 n
  { p with regs := p.regs.set 12 ((List.range 64).map fun l => BitVec.ofNat 32 (10 * l)), paths := [{ pc := 0, mask := 0xFFFFFFFF, slot := some 0 }], exited := 0 }

theorem test_results_shfl :
    result (.shfl always ⟨8, 12, 16, 1, 0x10, 1, false⟩) (tens 4) 8 27 = some 310 ∧ resultPred (.shfl always ⟨8, 12, 16, 1, 0x10, 1, false⟩) (tens 4) 1 27 = some true ∧
    result (.shfl always ⟨8, 12, 16, 1, 0x10, 1, false⟩) (tens 4) 8 28 = some 280 ∧ resultPred (.shfl always ⟨8, 12, 16, 1, 0x10, 1, false⟩) (tens 4) 1 28 = some false ∧
    result (.shfl always ⟨8, 12, 16, 1, 0x10, 0x15, false⟩) (tens 4) 8 28 = some 0 ∧ resultPred (.shfl always ⟨8, 12, 16, 1, 0x10, 0x15, false⟩) (tens 4) 1 28 = some true ∧
    result (.shfl always ⟨8, 12, 16, 1, 0x10, 0, false⟩) (tens 70) 8 5 = some 50 ∧ resultPred (.shfl always ⟨8, 12, 16, 1, 0x10, 0, false⟩) (tens 70) 1 5 = some false ∧
    result (.shfl always ⟨8, 12, 0, 1, 0x10, 0x0F, false⟩) (tens 0) 8 5 = some 20 ∧
    result (.shfl always ⟨8, 12, 16, 1, 0x10, 1, false⟩) (tens 4) 8 40 = some 0 := by decide

/-- The example after R90: lanes 0, 1, 2 and 5 hold 2^24, 1.0, 1.0 and 2.0. -/
def summing : Pack :=
  { user with
    regs := user.regs.set 12 ((List.range 64).map fun l => if l = 0 then 0x4B800000 else if l = 5 then 0x40000000 else 0x3F800000)
    paths := [{ pc := 0, mask := 0x27, slot := some 0 }], exited := ~~~0x27 }

theorem test_results_reduction :
    result (.redl always ⟨8, 12, 0, 0, 0x40, 0, false⟩) summing 8 1 = some 0x4B800001 ∧ result (.scanl always ⟨8, 12, 0, 0, 0x40, 0, false⟩) summing 8 2 = some 0x4B800000 ∧
    result (.scanl always ⟨8, 12, 0, 0, 0x40, 0, false⟩) summing 8 5 = some 0x4B800001 := by decide

/-- The header worked after R169. -/
theorem test_mould_header : header 0x0101_0000_0C03_0040 = ⟨1, 0, 256, 12, 3, 64⟩ := by decide

/-- R13's example: in a tall half at (8, 0) the cell (9, 12) has index 97. -/
theorem test_cell_index : ({ stuck with mould := { stuck.mould with shape := 2 }, ctl := ⟨0, 1, 0⟩ } : Residency).index 9 12 = 97 := by decide

end Sys2Proof.Tests
end

section
/-!
The bit-field rows of R191 and the counting rows of R190: what each bit helper of the integer unit gives, bit by bit, and the rows that
write it.
-/

namespace Sys2Proof.Proofs.BitFields

open Sys2Proof Sys2Proof.Machine

/-! ### Fields of a number -/

/-- A field sign-extended from `n` bits repeats its bit `n - 1` (R191). -/
theorem testBit_truncI_sextN {f n w k : Nat} (hn : 0 < n) (hk : k < w) :
    (truncI (sextN f n) w).testBit k = f.testBit (min k (n - 1)) := by
  have hext : truncI (sextN f n) w = ((BitVec.ofNat n f).signExtend w).toNat := by
    rw [sextN_eq_toInt f n hn, BitVec.signExtend, BitVec.toNat_ofInt, truncI]
  rw [hext, BitVec.testBit_toNat, BitVec.getLsbD_signExtend, BitVec.msb_eq_getLsbD_last, BitVec.getLsbD_ofNat, BitVec.getLsbD_ofNat]
  rw [decide_eq_true hk, Bool.true_and]
  by_cases hkn : k < n
  · rw [if_pos hkn, decide_eq_true hkn, Bool.true_and, Nat.min_eq_left (by omega)]
  · rw [if_neg hkn, decide_eq_true (show n - 1 < n by omega), Bool.true_and, Nat.min_eq_right (by omega)]

/-- The `n` bits of a number from `pos` on, replaced by those of `x`: bits outside the field stay (R191). -/
theorem testBit_replaceBits (a x pos n k : Nat) :
    (a - a / 2 ^ pos % 2 ^ n * 2 ^ pos + x % 2 ^ n * 2 ^ pos).testBit k =
      if pos ≤ k ∧ k < pos + n then x.testBit (k - pos) else a.testBit k := by
  have hparts : a - a / 2 ^ pos % 2 ^ n * 2 ^ pos + x % 2 ^ n * 2 ^ pos =
      2 ^ pos * (2 ^ n * (a / 2 ^ pos / 2 ^ n) + x % 2 ^ n) + a % 2 ^ pos := by
    have hlow : 2 ^ pos * (a / 2 ^ pos) + a % 2 ^ pos = a := Nat.div_add_mod ..
    have hhigh : 2 ^ n * (a / 2 ^ pos / 2 ^ n) + a / 2 ^ pos % 2 ^ n = a / 2 ^ pos := Nat.div_add_mod ..
    rw [← hhigh, Nat.mul_add] at hlow
    rw [Nat.mul_add, Nat.mul_comm (x % 2 ^ n), Nat.mul_comm (a / 2 ^ pos % 2 ^ n)]
    omega
  have hmod (y m : Nat) : y % 2 ^ m < 2 ^ m := Nat.mod_lt _ (Nat.two_pow_pos m)
  rw [hparts, Nat.testBit_two_pow_mul_add _ (hmod a pos), Nat.testBit_two_pow_mul_add _ (hmod x n)]
  by_cases hlo : k < pos
  · rw [if_pos hlo, if_neg (by omega), Nat.testBit_mod_two_pow, decide_eq_true hlo, Bool.true_and]
  · by_cases hin : k - pos < n
    · rw [if_neg hlo, if_pos hin, if_pos (by omega), Nat.testBit_mod_two_pow, decide_eq_true hin, Bool.true_and]
    · rw [if_neg hlo, if_neg hin, if_neg (by omega), Nat.testBit_div_two_pow, Nat.testBit_div_two_pow]
      congr 1
      omega

/-! ### The bit helpers -/

/-- `bfx` (R191): the field of `n` bits, then zeros or the field's top bit. -/
theorem testBit_bfxBits {w k n : Nat} (signed : Bool) (a ctl : Nat) (hk : k < w)
    (hn : n = min (ctl / 256 % 256) (w - ctl % 256)) :
    (bfxBits w signed a ctl).testBit k =
      (decide (n ≠ 0) && (decide (k < n) || signed) && a.testBit (ctl % 256 + min k (n - 1))) := by
  unfold bfxBits
  simp only [← hn]
  generalize ctl % 256 = pos at hn
  generalize ctl / 256 % 256 = len at hn
  have hempty : (w ≤ pos || len == 0) = decide (n = 0) := by
    rw [Bool.eq_iff_iff, Bool.or_eq_true, decide_eq_true_eq, beq_iff_eq, decide_eq_true_eq]
    omega
  rw [hempty]
  by_cases h0 : n = 0
  · rw [if_pos (decide_eq_true h0), Nat.zero_testBit, decide_eq_false (not_not_intro h0), Bool.false_and, Bool.false_and]
  · have hfield (j : Nat) (hj : j < n) : (a / 2 ^ pos % 2 ^ n).testBit j = a.testBit (pos + j) := by
      rw [Nat.testBit_mod_two_pow, Nat.testBit_div_two_pow, Nat.add_comm j, decide_eq_true hj, Bool.true_and]
    rw [if_neg (by rwa [decide_eq_true_eq]), decide_eq_true h0, Bool.true_and]
    cases signed with
    | true => rw [if_pos rfl, testBit_truncI_sextN (by omega) hk, hfield _ (by omega), Bool.or_true, Bool.true_and]
    | false =>
      rw [if_neg Bool.false_ne_true, Bool.or_false]
      by_cases hkn : k < n
      · rw [hfield k hkn, decide_eq_true hkn, Bool.true_and, Nat.min_eq_left (by omega)]
      · rw [Nat.testBit_mod_two_pow, decide_eq_false hkn, Bool.false_and, Bool.false_and]

/-- `bfi` (R191): the low bits of b in the field, a elsewhere. -/
theorem testBit_bfiBits {w k : Nat} (a b ctl : Nat) (hk : k < w) :
    (bfiBits w a b ctl).testBit k =
      if ctl % 256 ≤ k ∧ k < ctl % 256 + ctl / 256 % 256 then b.testBit (k - ctl % 256) else a.testBit k := by
  unfold bfiBits
  generalize ctl % 256 = pos
  generalize ctl / 256 % 256 = len
  have hempty : (w ≤ pos || len == 0) = true ↔ w ≤ pos ∨ len = 0 := by
    rw [Bool.or_eq_true, decide_eq_true_eq, beq_iff_eq]
  by_cases hout : w ≤ pos ∨ len = 0
  · rw [if_pos (hempty.2 hout), if_neg (by omega)]
  · have hiff : (pos ≤ k ∧ k < pos + min len (w - pos)) ↔ (pos ≤ k ∧ k < pos + len) := by omega
    rw [if_neg (mt hempty.1 hout)]
    simp only [testBit_replaceBits, hiff]

/-- `popc` counts the bits that are 1 (R190). -/
theorem popCount_eq (w v : Nat) : popCount w v = ((List.range w).filter fun k => v.testBit k).length := by
  have hbit (k : Nat) : v.testBit k = (v / 2 ^ k % 2 == 1) := Nat.testBit_eq_decide_div_mod_eq
  rw [popCount]
  simp only [hbit]

theorem popCount_le (w v : Nat) : popCount w v ≤ w := by
  calc popCount w v ≤ (List.range w).length := List.length_filter_le _ _
    _ = w := List.length_range

theorem leadingZeros_le (w v : Nat) : leadingZeros w v ≤ w := by
  unfold leadingZeros
  split <;> omega

theorem leadingZeros_zero (w : Nat) : leadingZeros w 0 = w := rfl

theorem leadingZeros_of_ne_zero (w : Nat) {v : Nat} (hv : v ≠ 0) : leadingZeros w v = w - 1 - v.log2 := by
  rw [leadingZeros, if_neg (by rwa [beq_iff_eq])]

/-- `clz` (R190): zeros from the top down. -/
theorem testBit_above_leadingZeros {w v k : Nat} (hk : k < leadingZeros w v) : v.testBit (w - 1 - k) = false := by
  by_cases hv : v = 0
  · rw [hv, Nat.zero_testBit]
  · rw [leadingZeros_of_ne_zero w hv] at hk
    exact Nat.testBit_lt_two_pow ((Nat.log2_lt hv).1 (by omega))

/-- `clz` (R190): below the zeros stands a 1. -/
theorem testBit_at_leadingZeros {w v : Nat} (hvw : v < 2 ^ w) (hn : leadingZeros w v < w) :
    v.testBit (w - 1 - leadingZeros w v) = true := by
  have hv : v ≠ 0 := by
    rintro rfl
    exact absurd hn (Nat.lt_irrefl w)
  have hlog : v.log2 < w := (Nat.log2_lt hv).2 hvw
  have htop : w - 1 - leadingZeros w v = v.log2 := by
    rw [leadingZeros_of_ne_zero w hv]
    omega
  rw [htop, Nat.testBit_log2 hv]

/-- A sum of doubled terms is the doubled sum. -/
theorem foldl_add_double {f g : Nat → Nat} (ks : List Nat) (hfg : ∀ k ∈ ks, g k = 2 * f k) (acc : Nat) :
    ks.foldl (fun acc k => acc + g k) (2 * acc) = 2 * ks.foldl (fun acc k => acc + f k) acc := by
  induction ks generalizing acc with
  | nil => rfl
  | cons k ks ih =>
    rw [List.foldl_cons, List.foldl_cons, hfg k List.mem_cons_self, ← Nat.mul_add]
    exact ih (fun j hj => hfg j (List.mem_cons_of_mem k hj)) _

/-- One bit more moves the reversed ones up and comes in at the bottom. -/
theorem bitReverse_succ (w v : Nat) : bitReverse (w + 1) v = 2 * bitReverse w v + v / 2 ^ w % 2 := by
  have hup (k : Nat) (hk : k ∈ List.range w) : v / 2 ^ k % 2 * 2 ^ (w - k) = 2 * (v / 2 ^ k % 2 * 2 ^ (w - 1 - k)) := by
    have hkw : w - k = w - 1 - k + 1 := by
      have := List.mem_range.1 hk
      omega
    rw [hkw, Nat.pow_succ, ← Nat.mul_assoc, Nat.mul_comm]
  have hlow := foldl_add_double (List.range w) hup 0
  rw [bitReverse, bitReverse, List.range_succ, List.foldl_append, List.foldl_cons, List.foldl_nil, Nat.add_sub_cancel, Nat.sub_self,
    Nat.pow_zero, Nat.mul_one]
  exact congrArg (· + v / 2 ^ w % 2) hlow

/-- `brev` (R190): bit `k` is the one as far from the top. -/
theorem testBit_bitReverse {w k : Nat} (v : Nat) (hk : k < w) : (bitReverse w v).testBit k = v.testBit (w - 1 - k) := by
  induction w generalizing k with
  | zero => omega
  | succ w ih =>
    rw [bitReverse_succ]
    cases k with
    | zero =>
      have hbottom : (2 * bitReverse w v + v / 2 ^ w % 2) % 2 = v / 2 ^ w % 2 := by omega
      rw [Nat.testBit_zero, hbottom, Nat.add_sub_cancel, Nat.sub_zero, Nat.testBit_eq_decide_div_mod_eq]
    | succ k =>
      have hrest : (2 * bitReverse w v + v / 2 ^ w % 2) / 2 = bitReverse w v := by omega
      have htop : w + 1 - 1 - (k + 1) = w - 1 - k := by omega
      rw [Nat.testBit_succ, hrest, htop, ih (by omega)]

/-! ### The rows that write a result of bits, and those that write a count -/

theorem bitsT_lt (p : Pack) (t : Nat) (r : Reg) (l : Nat) : p.bitsT t r l < 2 ^ tyW t := by
  unfold Pack.bitsT tyW
  split
  · exact (p.pair r.toNat l).isLt
  · exact (p.reg r.toNat l).isLt

theorem tyW_le (t : Nat) : tyW t ≤ 64 := by
  unfold tyW
  split <;> omega

/-- A row that writes a T destination gives the bits that its function has below the type's width. -/
theorem gives_testBit {i : Instr} {h : Head} {o : V} {s : State} {q ops} {f : Ctx → Nat → Nat} {bit : Ctx → Nat → Nat → Bool}
    (hi : headOf i = h) (hsh : shape i = ⟨q, wr (tcls o.ty) o.d :: ops⟩)
    (he : exec i s = runPack i h s fun c => c.pack.writeT o.ty o.d c.exec (f c))
    (hf : ∀ c l k, k < tyW o.ty → (f c l).testBit k = bit c l k) :
    Gives i s fun c p l => ∀ k < tyW o.ty, (p.bitsT o.ty o.d l).testBit k = bit c l k := by
  refine gives_runPack hi he fun c hc hs l hl hm k hk => ?_
  rw [bitsT_retire, bitsT_writeT _ _ _ _ _ _ hl hm (v_dest hc hs _ _ hsh), Nat.testBit_mod_two_pow, hf c l k hk,
    decide_eq_true hk, Bool.true_and]

/-- A row that writes a count of at most 64 into a vector register leaves that count there. -/
theorem gives_count {i : Instr} {h : Head} {o : V} {s : State} {q ops} {f : Ctx → Nat → Nat} (hi : headOf i = h)
    (hsh : shape i = ⟨q, wr .vec o.d :: ops⟩)
    (he : exec i s = runPack i h s fun c => c.pack.writeReg o.d.toNat c.exec fun l => BitVec.ofNat 32 (f c l))
    (hle : ∀ c l, f c l ≤ 64) : Gives i s fun c p l => (p.reg o.d.toNat l).toNat = f c l := by
  refine gives_runPack hi he fun c hc hs l hl hm => ?_
  have hin : o.d.toNat < c.pack.regs.length := field_in hc hs (by rw [hsh]; exact List.mem_cons_self) _ (mem_regs_vec o.d)
  have hlt : f c l < 2 ^ 32 := by have := hle c l; omega
  rw [retire_reg, reg_writeReg_here _ _ _ _ _ hl hm hin, BitVec.toNat_ofNat, Nat.mod_eq_of_lt hlt]

/-- What a row gives, it gives in any weaker form. -/
theorem gives_mono {i : Instr} {s : State} {post post' : Ctx → Pack → Nat → Prop} (hg : Gives i s post)
    (hw : ∀ c p l, post c p l → post' c p l) : Gives i s post' := by
  intro c hc hcl hs
  obtain ⟨p', he, hp⟩ := hg c hc hcl hs
  exact ⟨p', he, fun l hl hm => hw c p' l (hp l hl hm)⟩

/-- Settles O4: each row writes what its bit helper gives, and the helpers' bits and counts are those of R190 and R191. -/
theorem bitFields : Obligations.BitFields := by
  unfold Obligations.BitFields
  intro h o s
  refine ⟨⟨?bfx, ?bfi⟩, ?popc, ?clz, ?brev⟩
  case bfx => exact gives_testBit rfl rfl rfl fun c l k hk => testBit_bfxBits _ _ _ hk rfl
  case bfi => exact gives_testBit rfl rfl rfl fun c l k hk => testBit_bfiBits _ _ _ hk
  case popc =>
    have hcount := gives_count (i := .popc h o) (s := s) rfl rfl rfl fun c l => Nat.le_trans (popCount_le _ _) (tyW_le _)
    exact gives_mono hcount fun c p l e => e.trans (popCount_eq _ _)
  case clz =>
    have hcount := gives_count (i := .clz h o) (s := s) rfl rfl rfl fun c l => Nat.le_trans (leadingZeros_le _ _) (tyW_le _)
    refine gives_mono hcount fun c p l e => ?_
    dsimp only
    rw [e]
    exact ⟨leadingZeros_le _ _, fun k hk => testBit_above_leadingZeros hk, testBit_at_leadingZeros (bitsT_lt _ _ _ _)⟩
  case brev => exact gives_testBit rfl rfl rfl fun c l k hk => testBit_bitReverse _ hk

end Sys2Proof.Proofs.BitFields
end

section
/-!
The encoding faults of R158, R159, R340 and R342: the level that each word requires, which of the two faults the checks answer, and that every
instruction row meets them before it has an effect.
-/

namespace Sys2Proof.Proofs.EncodingFaults

open Sys2Proof.Machine

/-! ### Every row runs through the wrapper -/

/-- The meaning of an instruction row is an effect under the wrapper `run`.  The rows whose effect is never a fault are named: unfolding `exec`
on them would go on through `run` itself. -/
theorem exec_eq_run {i : Instr} {opc : Nat} {h : Head} {b : Body} (hp : parts i = some (opc, h, b)) (s : State) :
    ∃ k, exec i s = run i h s k := by
  cases i
  case sfnsw h o => cases hp; exact ⟨_, show execSfnsw h o s = _ from rfl⟩
  case pref h o => cases hp; exact ⟨_, show execPref h o s = _ from rfl⟩
  case cinvL1all h o => cases hp; exact ⟨_, show execCinvL1all h o s = _ from rfl⟩
  case yield h o => cases hp; exact ⟨_, show execYield h o s = _ from rfl⟩
  -- an event row has no word
  all_goals cases hp
  all_goals exact ⟨_, rfl⟩

theorem size_beq_sixteen (i : Instr) : (size i == 16) = twoWords i := by
  unfold size
  cases twoWords i <;> rfl

/-- An instruction that an encoding fault meets takes it for its whole path, and has no other effect (R158, R159). -/
theorem exec_encodingFault {i : Instr} {opc : Nat} {h : Head} {b : Body} {s : State} {c : Ctx} {code : Nat}
    (hp : parts i = some (opc, h, b)) (hc : issueCtx h s = some c) (hbad : encodingFault i c.pack = some code) :
    exec i s = .next (raiseFault s c.pack c.idx (size i == 16) ⟨code, c.act, c.path.pc⟩) := by
  obtain ⟨k, hk⟩ := exec_eq_run hp s
  rw [hk, size_beq_sixteen, run_encoding hc hbad]

/-! ### Which fault the checks answer -/

theorem encodingFault_privilege {i : Instr} {p : Pack} (h : p.level < levelOf i) : encodingFault i p = some 4 :=
  if_pos h

theorem encodingFault_illegal {i : Instr} {p : Pack} (hlevel : levelOf i ≤ p.level)
    (hbad : ¬ i.WellFormed ∨ ∃ r ∈ namedRegs i, p.regCount ≤ r) : encodingFault i p = some 5 := by
  have hcheck : ((legal i).isSome || (namedRegs i).any (p.regCount ≤ ·)) = true := by
    simpa [Option.isSome_iff_ne_none] using hbad
  rw [encodingFault, if_neg (Nat.not_lt.2 hlevel), if_pos hcheck]

theorem encodingFault_eq_none {i : Instr} {p : Pack} (hlevel : levelOf i ≤ p.level) (hwf : i.WellFormed)
    (hregs : ∀ r ∈ namedRegs i, r < p.regCount) : encodingFault i p = none := by
  have hcheck : ¬ ((legal i).isSome || (namedRegs i).any (p.regCount ≤ ·)) = true := by
    simpa [show legal i = none from hwf] using hregs
  rw [encodingFault, if_neg (Nat.not_lt.2 hlevel), if_neg hcheck]

/-! ### The level an instruction requires (R340, R342) -/

/-- The CSRs of level 2 in the table of R342. -/
def machineCsrs : List Nat := [0x002, 0x004, 0x011, 0x012, 0x014, 0x050, 0x051, 0x052, 0x053, 0x054, 0x055, 0x056, 0x057]

theorem le_of_mem_machineCsrs : ∀ n ∈ machineCsrs, n ≤ 0x60 := by decide

/-- No CSR of R342 has a number above 0x060. -/
theorem csrInfo_eq_none {n : Nat} (h : 0x60 < n) : csrInfo n = none := by
  have hne (m : Nat) (hm : m ≤ 0x60) : n ≠ m := by omega
  have hrange : ¬ (0x050 ≤ n ∧ n ≤ 0x057) := by omega
  simp [csrInfo, hne, hrange]

/-- The CSR's level where it has one, else the supervisor's: 2 exactly for the CSRs of level 2. -/
theorem csrInfo_level (n : Nat) : max 1 (((csrInfo n).map (·.2.1)).getD 1) = if n ∈ machineCsrs then 2 else 1 := by
  by_cases h : 0x60 < n
  · have hnot : n ∉ machineCsrs := fun hn => Nat.not_lt.2 (le_of_mem_machineCsrs n hn) h
    rw [csrInfo_eq_none h, if_neg hnot]
    rfl
  · have hbelow : ∀ m < 0x61, max 1 (((csrInfo m).map (·.2.1)).getD 1) = if m ∈ machineCsrs then 2 else 1 := by decide
    exact hbelow n (by omega)

theorem opcodeLevel_eq (opc : Nat) : opcodeLevel opc = if opc = 0xEA then 2 else if 0xE0 ≤ opc ∧ opc ≤ 0xE9 then 1 else 0 := by
  simp [opcodeLevel]

theorem levelOf_csr {i : Instr} {opc : Nat} {h : Head} {o : S} (hp : parts i = some (opc, h, .s o)) (hopc : opc = 0xE0 ∨ opc = 0xE1) :
    levelOf i = if o.imm.toNat % 2 ^ 12 ∈ machineCsrs then 2 else 1 := by
  rw [← csrInfo_level]
  simp [levelOf, hp, hopc]

theorem levelOf_not_csr {i : Instr} {opc : Nat} {h : Head} {b : Body} (hp : parts i = some (opc, h, b))
    (hnot : ∀ o, b = .s o → ¬ (opc = 0xE0 ∨ opc = 0xE1)) : levelOf i = opcodeLevel opc := by
  cases b with
  | s o => simp [levelOf, hp, hnot o rfl]
  | v | i | m | ma | b | x => simp [levelOf, hp]

/-- Settles O56: every row runs through the wrapper, which weighs the level before the word and the registers. -/
theorem encodingFaults : Obligations.EncodingFaults := by
  unfold Obligations.EncodingFaults
  intro i s c opc h b hp hc level takes
  have hlevel : levelOf i = level := by
    cases b with
    | s o =>
      by_cases hopc : opc = 0xE0 ∨ opc = 0xE1
      · have hrange : opc ≠ 0xEA ∧ 0xE0 ≤ opc ∧ opc ≤ 0xE9 := by omega
        rw [levelOf_csr hp hopc]
        simp [level, hrange, hopc, machineCsrs]
      · rw [levelOf_not_csr hp fun _ _ => hopc, opcodeLevel_eq]
        simp [level, hopc]
    | v | i | m | ma | b | x => rw [levelOf_not_csr hp nofun, opcodeLevel_eq]
  rw [← hlevel]
  refine ⟨fun hlow => ?privilege, fun henough => ⟨fun hbad => ?illegal, fun hwf hregs => ?passes⟩⟩
  case privilege => exact exec_encodingFault hp hc (encodingFault_privilege hlow)
  case illegal => exact exec_encodingFault hp hc (encodingFault_illegal henough hbad)
  case passes => exact encodingFault_eq_none henough hwf hregs

end Sys2Proof.Proofs.EncodingFaults
end
